-- ==== Sys2Proof/Word.lean ====
section
/-! DEFINITION. The word types of the engine: every register and every value on the wire is an unsigned byte,
an SMBus word and a clock divider are 16 bits (spec rules R8, R63, R97). -/

namespace Sys2Proof

/-- One register value or one byte on the wire (`u8`). -/
abbrev Byte := BitVec 8

/-- An SMBus word or a clock divider (`u16`). -/
abbrev Half := BitVec 16

end Sys2Proof
end

