-- ==== Sys2Proof/Config.lean ====
section
/-! DEFINITION. The implementation parameters of rule R5, the reference instance the spec's vectors use, and the
free values: constants with no body, whose value no proof can see. -/

namespace Sys2Proof

/-- The five registers of a block as the engine names them (rule R9): `CMDSTAT` is the command register when
written and the status register when read (rule R21). -/
inductive Reg where
  | prerLo | prerHi | ctrl | cmdstat | data
  deriving DecidableEq, Repr, Inhabited

/-- Kind of a logical endpoint (rule R94). -/
inductive PortKind where
  | plain  -- the spec's NONE
  | qsfp
  | sfp
  deriving DecidableEq, Repr, Inhabited

/-- How an endpoint is reached: the sentinel `DIRECT` (0xFF in the spec's spelling) or a mux chip at a switch
address (rule R94 asks for this type). -/
inductive SwitchSel where
  | direct
  | switch (addr : Byte)
  deriving DecidableEq, Repr, Inhabited

/-- One register access of a master's history (rules R66, R98). -/
inductive Machine.Access where
  | rd (r : Reg) (v : Byte)
  | wr (r : Reg) (v : Byte)
  deriving DecidableEq, Repr, Inhabited

namespace Config

/-- The number of master indices a byte can name, 0 apart: an index is a `u8` from 1 on (rules R5, R94). It bounds the
parameter `N_MASTERS` and is no parameter itself (log entry 19). -/
abbrev maxMasters : Nat := 255

/-- Byte offsets of the five registers in a block, `OFF_*` (rules R5, R80). -/
structure Offsets where
  prerLo  : Nat
  prerHi  : Nat
  ctrl    : Nat
  cmdstat : Nat
  data    : Nat
  deriving DecidableEq, Repr, Inhabited

/-- Bit positions of every control, command and status field, `BITS` (rules R5, R81 to R83). -/
structure Bits where
  en    : Fin 8
  ien   : Fin 8
  start : Fin 8
  stop  : Fin 8
  read  : Fin 8
  write : Fin 8
  ack   : Fin 8
  iack  : Fin 8
  rxack : Fin 8
  busy  : Fin 8
  al    : Fin 8
  tip   : Fin 8
  intf  : Fin 8
  deriving DecidableEq, Repr, Inhabited

/-- One entry of `TOPOLOGY` (rules R94, R220). The name is kept as a number: the rules ask only that names be
distinct (rule R221). -/
structure Endpoint where
  name    : Nat
  kind    : PortKind
  master  : Byte
  sel     : SwitchSel
  channel : BitVec 3
  deriving DecidableEq, Repr, Inhabited

/-- Numbers of endpoints by kind (rule R220): SFP, QSFP, and direct buses. -/
abbrev nSfp : Nat := 48
abbrev nQsfp : Nat := 8
abbrev nDirect : Nat := 9

/-- The entry of a port behind a mux chip, less its kind (rule R220). -/
structure MuxedPort where
  name       : Nat
  master     : Byte
  switchAddr : Byte
  channel    : BitVec 3
  deriving DecidableEq, Repr, Inhabited

/-- The entry of a direct bus (rule R220). -/
structure DirectPort where
  name    : Nat
  master  : Byte
  channel : BitVec 3
  deriving DecidableEq, Repr, Inhabited

/-- The endpoints of the board in the shape of rule R220: as many of each kind as it counts. -/
structure PortTable where
  sfp    : Vector MuxedPort nSfp
  qsfp   : Vector MuxedPort nQsfp
  direct : Vector DirectPort nDirect
  deriving DecidableEq, Repr, Inhabited

/-- A port behind a mux chip as an endpoint. -/
def MuxedPort.endpoint (kind : PortKind) (p : MuxedPort) : Endpoint :=
  { name := p.name, kind := kind, master := p.master, sel := .switch p.switchAddr, channel := p.channel }

/-- A direct bus as an endpoint: no switch, and the spec's kind NONE (rule R221). -/
def DirectPort.endpoint (p : DirectPort) : Endpoint :=
  { name := p.name, kind := .plain, master := p.master, sel := .direct, channel := p.channel }

/-- The topology table of a board (rule R220). The order of the entries is the model's own; no rule reads it (log entry
1). -/
def PortTable.endpoints (t : PortTable) : List Endpoint :=
  t.sfp.toList.map (MuxedPort.endpoint .sfp) ++ t.qsfp.toList.map (MuxedPort.endpoint .qsfp) ++
    t.direct.toList.map DirectPort.endpoint

/-- The shape of the topology table (rule R220, vector L1-11): 48 SFP, 8 QSFP and 9 direct entries of kind NONE, and no
other. -/
def topologyShape (t : List Endpoint) : Bool :=
  decide (t.length = nSfp + nQsfp + nDirect) && decide (t.countP (fun e => decide (e.kind = .sfp)) = nSfp) &&
    decide (t.countP (fun e => decide (e.kind = .qsfp)) = nQsfp) &&
    decide (t.countP (fun e => decide (e.sel = .direct ∧ e.kind = .plain)) = nDirect)

/-- The parameters of rule R5, less `DIRECT`, which is a constructor of `SwitchSel` (D30). Where the rule gives a value
it is the field's default. DEDUCED: `N_MASTERS`, `BLOCK_MAX` and `N_CHANNELS` are bounded by what the spec's own fields can
hold: a master index is a byte, so is the length byte of a block, and a channel has three bits (rules R27, R94, R187; log
entry 19). A master of `enabled` is given by its index less one. -/
structure Params where
  nMasters       : Fin (maxMasters + 1) := 14
  masterStride   : Nat := 0x20
  blockMax       : Fin 256 := 32
  nChannels      : Fin 9 := 8
  regBase        : Nat
  windowBits     : Nat
  offs           : Offsets
  bits           : Bits
  div100k        : Half
  phaseTimeout   : Nat := 30
  muxAttempts    : Nat := 3
  retryLow       : Nat := 5
  retryHigh      : Nat := 2000
  retryOnTimeout : Bool := false
  enabled        : List (Fin maxMasters)
  topology       : List Endpoint
  deriving DecidableEq, Repr, Inhabited

/-- The reference offsets (rule R80). -/
def refOffsets : Offsets :=
  { prerLo := 0x00, prerHi := 0x04, ctrl := 0x08, cmdstat := 0x0C, data := 0x10 }

/-- The reference bit positions (rules R81, R82, R83). -/
def refBits : Bits :=
  { en := 7, ien := 6, start := 7, stop := 6, read := 5, write := 4, ack := 3, iack := 0,
    rxack := 7, busy := 6, al := 5, tip := 1, intf := 0 }

/-- The instance the spec's test vectors use (file 95, conventions): `REG_BASE` 0 and the example divider 0x00C7.
No statement about the machine rests on it. -/
def reference (enabled : List (Fin maxMasters)) (topology : List Endpoint) : Params :=
  { regBase := 0, windowBits := 16, offs := refOffsets, bits := refBits, div100k := 0x00C7#16,
    enabled := enabled, topology := topology }

/-- What rule R5 leaves OPEN for the board the engine runs on (rule R303), the topology table apart: no body. `boot`
takes those fields of it. -/
opaque board : Params

/-- The board's endpoints (rules R220, R303): how many there are of each kind is the spec's, every entry's values are
OPEN (rule R4 (e)), so no body. -/
opaque boardPorts : PortTable

/-- `DIV_100K` is any value but 0x0040 (rule R5): 0x0040 is read as 0x0041, every other value as it is (log entry 1). -/
def acceptedDivider (d : Half) : Half := if d = 0x0040#16 then 0x0041#16 else d

/-- The configuration at reset: the values rule R5 gives (rule R6 asks to keep them exactly; `RETRY_ON_TIMEOUT` false,
rule R234), and the board's for what rule R5 leaves OPEN: `ENABLED` as far as it lies in `1..N_MASTERS`, the topology
table in the shape of rule R220 (log entry 1). -/
def boot : Params :=
  { board with
    nMasters := 14
    masterStride := 0x20
    blockMax := 32
    nChannels := 8
    enabled := board.enabled.filter (fun m => decide (m.val < 14))
    div100k := acceptedDivider board.div100k
    phaseTimeout := 30
    muxAttempts := 3
    retryLow := 5
    retryHigh := 2000
    retryOnTimeout := false
    topology := boardPorts.endpoints }

/-- Answer of the controller to a register read once the answers listed in the state are used up (rule R11: any byte,
which may depend on the whole history of the accesses to that master). Arguments: the master, the register, the
accesses made to that master so far in issue order (rule R66), the number of draws made on it. -/
opaque freeRead : Fin maxMasters → Reg → List Machine.Access → Nat → Byte

/-- The draw `DeadlinePassed` of rule R135 once the draws listed in the state are used up (any value). -/
opaque freeDeadline : Fin maxMasters → List Machine.Access → Nat → Bool

/-- The scheduler's choice of the next agent once the listed choices are used up (rule R68: any value). -/
opaque freeTurn : Nat → Nat

/-- The scheduler's choice of how far that agent goes, in positions beyond the first (any value; log entry 5). -/
opaque freeQuantum : Nat → Nat

/-- Whether the initialiser, with nothing else to do and no other agent running, shuts the engine down now (rule R304
says after which calls, not when: any value; log entry 8). -/
opaque freeShutdown : Nat → Bool

end Config

end Sys2Proof
end

