-- ==== Sys2Proof/Syntax.lean ====
section
/-! DEFINITION. The instructions of the engine, one constructor per row of spec/opcode_table.json, and the data
their operands are made of. Master indices are raw bytes here: which are in range is a check of the operations. -/

namespace Sys2Proof

/-- Direction of a transaction: WRITE = 0, READ = 1 (rule R87). -/
inductive Dir where
  | write | read
  deriving DecidableEq, Repr, Inhabited

/-- The tagged payload of rule R10. A caller may hand over any list, which validation then checks (rule R171). -/
inductive Payload where
  | quick
  | byte (v : Byte)
  | word (w : Half)
  | block (d : List Byte)
  deriving DecidableEq, Repr, Inhabited

/-- The transaction descriptor (rule R87). -/
structure Txn where
  dir       : Dir
  addr      : Byte
  command   : Byte
  sizeClass : BitVec 4
  payload   : Payload
  deriving DecidableEq, Repr, Inhabited

/-- An endpoint as the operand of `ACCESS`: the fields of rule R94 that `access` uses (rule R222). -/
structure EndpointRef where
  master  : Byte
  sel     : SwitchSel
  channel : BitVec 3
  deriving DecidableEq, Repr, Inhabited

/-- The instructions. `m` is a master index as the caller writes it, any byte, `a` a target address, `c` a command
byte. -/
inductive Instr where
  -- command bytes (format cmd8, rules R84, R142 to R148)
  | cmdStart (m ab : Byte)
  | cmdWrite (m b : Byte)
  | cmdReadAck (m : Byte)
  | cmdReadNack (m : Byte)
  | cmdStop (m : Byte)
  | cmdIack (m : Byte)
  -- verbs (format verb5, rules R180 to R190)
  | quickW (m a : Byte)
  | quickR (m a : Byte)
  | byteW (m a v : Byte)
  | byteR (m a : Byte)
  | byteDataW (m a c v : Byte)
  | byteDataR (m a c : Byte)
  | wordDataW (m a c : Byte) (w : Half)
  | wordDataR (m a c : Byte)
  | blockW (m a c : Byte) (d : List Byte)
  | blockR (m a c : Byte)
  | i2cBlockW (m a c : Byte) (d : List Byte)
  | i2cBlockR (m a c n : Byte)
  -- unmapped and unknown verbs, either direction (rules R191, R192)
  | procCall (dir : Dir) (m a c : Byte)
  | i2cBlockBroken (dir : Dir) (m a c : Byte)
  | blockProcCall (dir : Dir) (m a c : Byte)
  | unknownSc9 (dir : Dir) (m a c : Byte)
  | unknownSc1011 (low : BitVec 1) (dir : Dir) (m a c : Byte)
  | unknownSc1215 (low : BitVec 2) (dir : Dir) (m a c : Byte)
  -- calls
  | read8 (m : Byte) (r : Reg)
  | write8 (m : Byte) (r : Reg) (v : Byte)
  | init (m : Byte) (div : Half)
  | deinit (m : Byte)
  | waitIdle (m : Byte) (timeout : Half)
  | waitPhaseDone (m : Byte) (timeout : Half) (isWrite : Bool)
  | execute (m : Byte) (t : Txn)
  | access (ep : EndpointRef) (t : Txn)
  | muxSelect (m sw : Byte) (ch : BitVec 3)
  | muxDeselect (m sw : Byte)
  | deselectAll
  | engineInit
  | engineShutdown
  deriving DecidableEq, Repr, Inhabited

/-- Format column of the opcode table. -/
inductive Format where
  | cmd8 | verb5 | call
  deriving DecidableEq, Repr, Inhabited

/-- The rows of the opcode table by name, without operands. -/
inductive Op where
  | cmdStart | cmdWrite | cmdReadAck | cmdReadNack | cmdStop | cmdIack
  | quickW | quickR | byteW | byteR | byteDataW | byteDataR | wordDataW | wordDataR
  | blockW | blockR | i2cBlockW | i2cBlockR
  | procCall | i2cBlockBroken | blockProcCall | unknownSc9 | unknownSc1011 | unknownSc1215
  | read8 | write8 | init | deinit | waitIdle | waitPhaseDone | execute | access
  | muxSelect | muxDeselect | deselectAll | engineInit | engineShutdown
  deriving DecidableEq, Repr, Inhabited

/-- Why a list of bytes is not an instruction. -/
inductive DecodeError where
  | empty               -- fewer than the two bytes every instruction has
  | unknownFormat       -- the format byte is none of the three
  | commandNotIssued    -- a command byte the engine does not issue (rule R85)
  | unknownCall         -- no call has this number
  | truncated           -- operand bytes are missing
  | badRegister         -- register code above 4
  | badDirection        -- a direction byte that is neither 0 nor 1
  | badFlag             -- a flag byte that is neither 0 nor 1
  | badSizeClass        -- a size class above 15
  | badPayloadTag       -- a payload tag above 3
  | badSwitch           -- a switch byte that is neither DIRECT nor 0x01..0x7F (rule R94)
  | badChannel          -- a channel above 7
  deriving DecidableEq, Repr, Inhabited

end Sys2Proof
end

