-- ==== Sys2Proof/WellFormed.lean ====
section
/-! DEFINITION. Which instructions are well formed: switch addresses that name a switch (rule R94) and byte lists
that the encoding's one length byte can carry. Ranges a call itself checks and answers with an error (master,
target address, payload against size class: rules R171, R222) are not checks of this file. -/

namespace Sys2Proof

/-- A switch address is 0x01..0x7F (rule R94). -/
def switchAddrOk (s : Byte) : Bool := decide (1 ≤ s.toNat) && decide (s.toNat ≤ 0x7F)

/-- `DIRECT`, or a switch address in range (rule R94). -/
def switchSelOk : SwitchSel → Bool
  | .direct => true
  | .switch s => switchAddrOk s

/-- A byte list short enough for a one-byte length. -/
def bytesOk (d : List Byte) : Bool := decide (d.length ≤ 255)

/-- A payload that the encoding can carry. -/
def payloadOk : Payload → Bool
  | .quick => true
  | .byte _ => true
  | .word _ => true
  | .block d => bytesOk d

/-- The well-formedness check of an instruction. -/
def wellFormed : Instr → Bool
  | .blockW _ _ _ d => bytesOk d
  | .i2cBlockW _ _ _ d => bytesOk d
  | .execute _ t => payloadOk t.payload
  | .access ep t => switchSelOk ep.sel && payloadOk t.payload
  | .muxSelect _ sw _ => switchAddrOk sw
  | .muxDeselect _ sw => switchAddrOk sw
  | .cmdStart _ _ => true
  | .cmdWrite _ _ => true
  | .cmdReadAck _ => true
  | .cmdReadNack _ => true
  | .cmdStop _ => true
  | .cmdIack _ => true
  | .quickW _ _ => true
  | .quickR _ _ => true
  | .byteW _ _ _ => true
  | .byteR _ _ => true
  | .byteDataW _ _ _ _ => true
  | .byteDataR _ _ _ => true
  | .wordDataW _ _ _ _ => true
  | .wordDataR _ _ _ => true
  | .blockR _ _ _ => true
  | .i2cBlockR _ _ _ _ => true
  | .procCall _ _ _ _ => true
  | .i2cBlockBroken _ _ _ _ => true
  | .blockProcCall _ _ _ _ => true
  | .unknownSc9 _ _ _ _ => true
  | .unknownSc1011 _ _ _ _ _ => true
  | .unknownSc1215 _ _ _ _ _ => true
  | .read8 _ _ => true
  | .write8 _ _ _ => true
  | .init _ _ => true
  | .deinit _ => true
  | .waitIdle _ _ => true
  | .waitPhaseDone _ _ _ => true
  | .deselectAll => true
  | .engineInit => true
  | .engineShutdown => true

end Sys2Proof
end

