-- ==== Sys2Proof/Decode.lean ====
section
/-! DEFINITION. Decoder and encoder. The opcode byte of a command or a verb is the spec's (rules R84, R89 and
spec/opcode_table.json). Everything around it is the model's own (log entry 4: the spec has no instruction words):
an instruction is its opcode byte, a format byte, then its operands, one byte each, low byte first. -/

namespace Sys2Proof

/-- One row of the opcode table: a byte `b` of that format is the row's when `b &&& mask = pattern`. -/
structure OpRow where
  op      : Op
  format  : Format
  mask    : Byte
  pattern : Byte
  deriving DecidableEq, Repr

/-- The command bytes, reference layout (rule R84). -/
def commandRows : List OpRow :=
  [ ⟨.cmdStart, .cmd8, 0xFF#8, 0x90#8⟩, ⟨.cmdWrite, .cmd8, 0xFF#8, 0x10#8⟩,
    ⟨.cmdReadAck, .cmd8, 0xFF#8, 0x20#8⟩, ⟨.cmdReadNack, .cmd8, 0xFF#8, 0x28#8⟩,
    ⟨.cmdStop, .cmd8, 0xFF#8, 0x40#8⟩, ⟨.cmdIack, .cmd8, 0xFF#8, 0x01#8⟩ ]

/-- The verb codes (rule R89): a 5-bit code, bits 4:1 the size class and bit 0 the direction. The mask also asks
that bits 7:5 of the byte be 0. -/
def verbRows : List OpRow :=
  [ ⟨.quickW, .verb5, 0xFF#8, 0x00#8⟩, ⟨.quickR, .verb5, 0xFF#8, 0x01#8⟩,
    ⟨.byteW, .verb5, 0xFF#8, 0x02#8⟩, ⟨.byteR, .verb5, 0xFF#8, 0x03#8⟩,
    ⟨.byteDataW, .verb5, 0xFF#8, 0x04#8⟩, ⟨.byteDataR, .verb5, 0xFF#8, 0x05#8⟩,
    ⟨.wordDataW, .verb5, 0xFF#8, 0x06#8⟩, ⟨.wordDataR, .verb5, 0xFF#8, 0x07#8⟩,
    ⟨.blockW, .verb5, 0xFF#8, 0x0A#8⟩, ⟨.blockR, .verb5, 0xFF#8, 0x0B#8⟩,
    ⟨.i2cBlockW, .verb5, 0xFF#8, 0x10#8⟩, ⟨.i2cBlockR, .verb5, 0xFF#8, 0x11#8⟩,
    ⟨.procCall, .verb5, 0xFE#8, 0x08#8⟩, ⟨.i2cBlockBroken, .verb5, 0xFE#8, 0x0C#8⟩,
    ⟨.blockProcCall, .verb5, 0xFE#8, 0x0E#8⟩, ⟨.unknownSc9, .verb5, 0xFE#8, 0x12#8⟩,
    ⟨.unknownSc1011, .verb5, 0xFC#8, 0x14#8⟩, ⟨.unknownSc1215, .verb5, 0xF8#8, 0x18#8⟩ ]

/-- The calls, numbered in the table's order (log entry 4: the spec gives them no code). -/
def callRows : List OpRow :=
  [ ⟨.read8, .call, 0xFF#8, 0#8⟩, ⟨.write8, .call, 0xFF#8, 1#8⟩, ⟨.init, .call, 0xFF#8, 2#8⟩,
    ⟨.deinit, .call, 0xFF#8, 3#8⟩, ⟨.waitIdle, .call, 0xFF#8, 4#8⟩, ⟨.waitPhaseDone, .call, 0xFF#8, 5#8⟩,
    ⟨.execute, .call, 0xFF#8, 6#8⟩, ⟨.access, .call, 0xFF#8, 7#8⟩, ⟨.muxSelect, .call, 0xFF#8, 8#8⟩,
    ⟨.muxDeselect, .call, 0xFF#8, 9#8⟩, ⟨.deselectAll, .call, 0xFF#8, 10#8⟩,
    ⟨.engineInit, .call, 0xFF#8, 11#8⟩, ⟨.engineShutdown, .call, 0xFF#8, 12#8⟩ ]

/-- The whole opcode table. -/
def opTable : List OpRow := commandRows ++ (verbRows ++ callRows)

/-- Format byte 0: a byte below 0x20 is a verb code, any other is a command byte. Format byte 1: a command byte
that is also a verb code (`CMD_WRITE`, `CMD_IACK`). Format byte 2: a call. -/
def formatOf (op fmt : Byte) : Option Format :=
  if fmt = 0#8 then some (if op.toNat < 0x20 then .verb5 else .cmd8)
  else if fmt = 1#8 then (if op.toNat < 0x20 then some .cmd8 else none)
  else if fmt = 2#8 then some .call
  else none

/-- What a byte of a format that no row matches is called: for commands this is rule R85's refusal by name. -/
def noRowError : Format → DecodeError
  | .cmd8 => .commandNotIssued
  | .verb5 => .unknownFormat
  | .call => .unknownCall

/-- Row of the table that an opcode byte and a format byte name. -/
def decodeOp (op fmt : Byte) : Except DecodeError Op :=
  match formatOf op fmt with
  | none => .error .unknownFormat
  | some f =>
    match opTable.find? (fun r => decide (r.format = f) && decide (op &&& r.mask = r.pattern)) with
    | some r => .ok r.op
    | none => .error (noRowError f)

/-- Low byte first (rule R64). -/
def halfOf (lo hi : Byte) : Half := hi ++ lo

/-- Bits 7:0 of a 16-bit value. -/
def loByte (w : Half) : Byte := w.extractLsb' 0 8

/-- Bits 15:8 of a 16-bit value. -/
def hiByte (w : Half) : Byte := w.extractLsb' 8 8

/-- Register code 0..4, in the order of rule R80. -/
def regOf (b : Byte) : Except DecodeError Reg :=
  if b = 0#8 then .ok .prerLo
  else if b = 1#8 then .ok .prerHi
  else if b = 2#8 then .ok .ctrl
  else if b = 3#8 then .ok .cmdstat
  else if b = 4#8 then .ok .data
  else .error .badRegister

/-- Inverse of `regOf`. -/
def regCode : Reg → Byte
  | .prerLo => 0#8
  | .prerHi => 1#8
  | .ctrl => 2#8
  | .cmdstat => 3#8
  | .data => 4#8

/-- Direction bit: WRITE = 0, READ = 1 (rule R87). -/
def dirOfBit (b : Bool) : Dir := if b then .read else .write

/-- Direction as an operand byte. -/
def dirOf (b : Byte) : Except DecodeError Dir :=
  if b = 0#8 then .ok .write else if b = 1#8 then .ok .read else .error .badDirection

/-- Inverse of `dirOf`. -/
def dirCode : Dir → Byte
  | .write => 0#8
  | .read => 1#8

/-- A Bool as an operand byte. -/
def flagOf (b : Byte) : Except DecodeError Bool :=
  if b = 0#8 then .ok false else if b = 1#8 then .ok true else .error .badFlag

/-- Inverse of `flagOf`. -/
def flagCode (f : Bool) : Byte := if f then 1#8 else 0#8

/-- A switch address operand: 0x01..0x7F (rule R94). -/
def switchOf (b : Byte) : Except DecodeError Byte :=
  if switchAddrOk b then .ok b else .error .badSwitch

/-- Endpoint selection byte: 0xFF spells `DIRECT`, otherwise a switch address (rule R94). -/
def selOf (b : Byte) : Except DecodeError SwitchSel :=
  if b = 0xFF#8 then .ok .direct
  else if switchAddrOk b then .ok (.switch b)
  else .error .badSwitch

/-- Inverse of `selOf`. -/
def selCode : SwitchSel → Byte
  | .direct => 0xFF#8
  | .switch s => s

/-- Channel 0..7, a `u3` (rule R94). -/
def channelOf (b : Byte) : Except DecodeError (BitVec 3) :=
  if b.toNat < 8 then .ok (b.setWidth 3) else .error .badChannel

/-- Size class 0..15 (rule R87). -/
def sizeClassOf (b : Byte) : Except DecodeError (BitVec 4) :=
  if b.toNat < 16 then .ok (b.setWidth 4) else .error .badSizeClass

/-- A length byte and that many bytes. -/
def takeBytes : List Byte → Except DecodeError (List Byte × List Byte)
  | [] => .error .truncated
  | n :: r => if r.length < n.toNat then .error .truncated else .ok (r.take n.toNat, r.drop n.toNat)

/-- A payload: tag 0 Quick, 1 Byte, 2 Word, 3 Block. -/
def takePayload : List Byte → Except DecodeError (Payload × List Byte)
  | [] => .error .truncated
  | tag :: r =>
    if tag = 0#8 then .ok (.quick, r)
    else if tag = 1#8 then
      match r with
      | v :: r => .ok (.byte v, r)
      | _ => .error .truncated
    else if tag = 2#8 then
      match r with
      | lo :: hi :: r => .ok (.word (halfOf lo hi), r)
      | _ => .error .truncated
    else if tag = 3#8 then
      match takeBytes r with
      | .ok (d, r) => .ok (.block d, r)
      | .error e => .error e
    else .error .badPayloadTag

/-- A transaction descriptor: address, direction, command byte, size class, payload (rule R87). -/
def takeTxn : List Byte → Except DecodeError (Txn × List Byte)
  | a :: d :: c :: sc :: r =>
    match dirOf d with
    | .error e => .error e
    | .ok dir =>
      match sizeClassOf sc with
      | .error e => .error e
      | .ok size =>
        match takePayload r with
        | .error e => .error e
        | .ok (p, r) => .ok ({ dir := dir, addr := a, command := c, sizeClass := size, payload := p }, r)
  | _ => .error .truncated

/-- Three operand bytes. -/
def take3 (f : Byte → Byte → Byte → Instr) : List Byte → Except DecodeError (Instr × List Byte)
  | x :: y :: z :: r => .ok (f x y z, r)
  | _ => .error .truncated

/-- Two operand bytes. -/
def take2 (f : Byte → Byte → Instr) : List Byte → Except DecodeError (Instr × List Byte)
  | x :: y :: r => .ok (f x y, r)
  | _ => .error .truncated

/-- One operand byte. -/
def take1 (f : Byte → Instr) : List Byte → Except DecodeError (Instr × List Byte)
  | x :: r => .ok (f x, r)
  | _ => .error .truncated

/-- Three operand bytes and a byte list. -/
def take3Bytes (f : Byte → Byte → Byte → List Byte → Instr) : List Byte → Except DecodeError (Instr × List Byte)
  | x :: y :: z :: r =>
    match takeBytes r with
    | .error e => .error e
    | .ok (d, r) => .ok (f x y z d, r)
  | _ => .error .truncated

/-- The operands of a row, read from the bytes after the two head bytes. The direction of an unmapped or unknown
verb and the low bits of its size class are in the opcode byte `op` (rules R191, R192). -/
def decodeOperands (o : Op) (op : Byte) (bs : List Byte) : Except DecodeError (Instr × List Byte) :=
  match o with
  | .cmdStart => take2 .cmdStart bs
  | .cmdWrite => take2 .cmdWrite bs
  | .cmdReadAck => take1 .cmdReadAck bs
  | .cmdReadNack => take1 .cmdReadNack bs
  | .cmdStop => take1 .cmdStop bs
  | .cmdIack => take1 .cmdIack bs
  | .quickW => take2 .quickW bs
  | .quickR => take2 .quickR bs
  | .byteW => take3 .byteW bs
  | .byteR => take2 .byteR bs
  | .byteDataW =>
    match bs with
    | m :: a :: c :: v :: r => .ok (.byteDataW m a c v, r)
    | _ => .error .truncated
  | .byteDataR => take3 .byteDataR bs
  | .wordDataW =>
    match bs with
    | m :: a :: c :: lo :: hi :: r => .ok (.wordDataW m a c (halfOf lo hi), r)
    | _ => .error .truncated
  | .wordDataR => take3 .wordDataR bs
  | .blockW => take3Bytes .blockW bs
  | .blockR => take3 .blockR bs
  | .i2cBlockW => take3Bytes .i2cBlockW bs
  | .i2cBlockR =>
    match bs with
    | m :: a :: c :: n :: r => .ok (.i2cBlockR m a c n, r)
    | _ => .error .truncated
  | .procCall => take3 (.procCall (dirOfBit (op.getLsbD 0))) bs
  | .i2cBlockBroken => take3 (.i2cBlockBroken (dirOfBit (op.getLsbD 0))) bs
  | .blockProcCall => take3 (.blockProcCall (dirOfBit (op.getLsbD 0))) bs
  | .unknownSc9 => take3 (.unknownSc9 (dirOfBit (op.getLsbD 0))) bs
  | .unknownSc1011 => take3 (.unknownSc1011 (op.extractLsb' 1 1) (dirOfBit (op.getLsbD 0))) bs
  | .unknownSc1215 => take3 (.unknownSc1215 (op.extractLsb' 1 2) (dirOfBit (op.getLsbD 0))) bs
  | .read8 =>
    match bs with
    | m :: r :: rest =>
      match regOf r with
      | .error e => .error e
      | .ok reg => .ok (.read8 m reg, rest)
    | _ => .error .truncated
  | .write8 =>
    match bs with
    | m :: r :: v :: rest =>
      match regOf r with
      | .error e => .error e
      | .ok reg => .ok (.write8 m reg v, rest)
    | _ => .error .truncated
  | .init => take3 (fun m lo hi => .init m (halfOf lo hi)) bs
  | .deinit => take1 .deinit bs
  | .waitIdle => take3 (fun m lo hi => .waitIdle m (halfOf lo hi)) bs
  | .waitPhaseDone =>
    match bs with
    | m :: lo :: hi :: w :: rest =>
      match flagOf w with
      | .error e => .error e
      | .ok f => .ok (.waitPhaseDone m (halfOf lo hi) f, rest)
    | _ => .error .truncated
  | .execute =>
    match bs with
    | m :: rest =>
      match takeTxn rest with
      | .error e => .error e
      | .ok (t, rest) => .ok (.execute m t, rest)
    | _ => .error .truncated
  | .access =>
    match bs with
    | m :: s :: ch :: rest =>
      match selOf s with
      | .error e => .error e
      | .ok sel =>
        match channelOf ch with
        | .error e => .error e
        | .ok chan =>
          match takeTxn rest with
          | .error e => .error e
          | .ok (t, rest) => .ok (.access { master := m, sel := sel, channel := chan } t, rest)
    | _ => .error .truncated
  | .muxSelect =>
    match bs with
    | m :: s :: ch :: rest =>
      match switchOf s with
      | .error e => .error e
      | .ok sw =>
        match channelOf ch with
        | .error e => .error e
        | .ok chan => .ok (.muxSelect m sw chan, rest)
    | _ => .error .truncated
  | .muxDeselect =>
    match bs with
    | m :: s :: rest =>
      match switchOf s with
      | .error e => .error e
      | .ok sw => .ok (.muxDeselect m sw, rest)
    | _ => .error .truncated
  | .deselectAll => .ok (.deselectAll, bs)
  | .engineInit => .ok (.engineInit, bs)
  | .engineShutdown => .ok (.engineShutdown, bs)

/-- Decode the first instruction of a list of bytes and give the bytes after it; total, refusing by name. -/
def decode : List Byte → Except DecodeError (Instr × List Byte)
  | op :: fmt :: rest =>
    match decodeOp op fmt with
    | .error e => .error e
    | .ok o => decodeOperands o op rest
  | _ => .error .empty

/-- The opcode byte of an instruction. -/
def opcodeByte : Instr → Byte
  | .cmdStart _ _ => 0x90#8
  | .cmdWrite _ _ => 0x10#8
  | .cmdReadAck _ => 0x20#8
  | .cmdReadNack _ => 0x28#8
  | .cmdStop _ => 0x40#8
  | .cmdIack _ => 0x01#8
  | .quickW _ _ => 0x00#8
  | .quickR _ _ => 0x01#8
  | .byteW _ _ _ => 0x02#8
  | .byteR _ _ => 0x03#8
  | .byteDataW _ _ _ _ => 0x04#8
  | .byteDataR _ _ _ => 0x05#8
  | .wordDataW _ _ _ _ => 0x06#8
  | .wordDataR _ _ _ => 0x07#8
  | .blockW _ _ _ _ => 0x0A#8
  | .blockR _ _ _ => 0x0B#8
  | .i2cBlockW _ _ _ _ => 0x10#8
  | .i2cBlockR _ _ _ _ => 0x11#8
  | .procCall d _ _ _ => 0x08#8 ||| dirCode d
  | .i2cBlockBroken d _ _ _ => 0x0C#8 ||| dirCode d
  | .blockProcCall d _ _ _ => 0x0E#8 ||| dirCode d
  | .unknownSc9 d _ _ _ => 0x12#8 ||| dirCode d
  | .unknownSc1011 k d _ _ _ => 0x14#8 ||| (k.setWidth 8 <<< 1) ||| dirCode d
  | .unknownSc1215 k d _ _ _ => 0x18#8 ||| (k.setWidth 8 <<< 1) ||| dirCode d
  | .read8 _ _ => 0#8
  | .write8 _ _ _ => 1#8
  | .init _ _ => 2#8
  | .deinit _ => 3#8
  | .waitIdle _ _ => 4#8
  | .waitPhaseDone _ _ _ => 5#8
  | .execute _ _ => 6#8
  | .access _ _ => 7#8
  | .muxSelect _ _ _ => 8#8
  | .muxDeselect _ _ => 9#8
  | .deselectAll => 10#8
  | .engineInit => 11#8
  | .engineShutdown => 12#8

/-- The format byte of an instruction. -/
def formatByte : Instr → Byte
  | .cmdWrite _ _ => 1#8
  | .cmdIack _ => 1#8
  | .read8 _ _ => 2#8
  | .write8 _ _ _ => 2#8
  | .init _ _ => 2#8
  | .deinit _ => 2#8
  | .waitIdle _ _ => 2#8
  | .waitPhaseDone _ _ _ => 2#8
  | .execute _ _ => 2#8
  | .access _ _ => 2#8
  | .muxSelect _ _ _ => 2#8
  | .muxDeselect _ _ => 2#8
  | .deselectAll => 2#8
  | .engineInit => 2#8
  | .engineShutdown => 2#8
  | .cmdStart _ _ => 0#8
  | .cmdReadAck _ => 0#8
  | .cmdReadNack _ => 0#8
  | .cmdStop _ => 0#8
  | .quickW _ _ => 0#8
  | .quickR _ _ => 0#8
  | .byteW _ _ _ => 0#8
  | .byteR _ _ => 0#8
  | .byteDataW _ _ _ _ => 0#8
  | .byteDataR _ _ _ => 0#8
  | .wordDataW _ _ _ _ => 0#8
  | .wordDataR _ _ _ => 0#8
  | .blockW _ _ _ _ => 0#8
  | .blockR _ _ _ => 0#8
  | .i2cBlockW _ _ _ _ => 0#8
  | .i2cBlockR _ _ _ _ => 0#8
  | .procCall _ _ _ _ => 0#8
  | .i2cBlockBroken _ _ _ _ => 0#8
  | .blockProcCall _ _ _ _ => 0#8
  | .unknownSc9 _ _ _ _ => 0#8
  | .unknownSc1011 _ _ _ _ _ => 0#8
  | .unknownSc1215 _ _ _ _ _ => 0#8

/-- A length byte and the bytes. -/
def encodeBytes (d : List Byte) : List Byte := BitVec.ofNat 8 d.length :: d

/-- Tag and contents of a payload. -/
def encodePayload : Payload → List Byte
  | .quick => [0#8]
  | .byte v => [1#8, v]
  | .word w => [2#8, loByte w, hiByte w]
  | .block d => 3#8 :: encodeBytes d

/-- The bytes of a transaction descriptor. -/
def encodeTxn (t : Txn) : List Byte :=
  t.addr :: dirCode t.dir :: t.command :: t.sizeClass.setWidth 8 :: encodePayload t.payload

/-- The operand bytes of an instruction. -/
def encodeOperands : Instr → List Byte
  | .cmdStart m ab => [m, ab]
  | .cmdWrite m b => [m, b]
  | .cmdReadAck m => [m]
  | .cmdReadNack m => [m]
  | .cmdStop m => [m]
  | .cmdIack m => [m]
  | .quickW m a => [m, a]
  | .quickR m a => [m, a]
  | .byteW m a v => [m, a, v]
  | .byteR m a => [m, a]
  | .byteDataW m a c v => [m, a, c, v]
  | .byteDataR m a c => [m, a, c]
  | .wordDataW m a c w => [m, a, c, loByte w, hiByte w]
  | .wordDataR m a c => [m, a, c]
  | .blockW m a c d => m :: a :: c :: encodeBytes d
  | .blockR m a c => [m, a, c]
  | .i2cBlockW m a c d => m :: a :: c :: encodeBytes d
  | .i2cBlockR m a c n => [m, a, c, n]
  | .procCall _ m a c => [m, a, c]
  | .i2cBlockBroken _ m a c => [m, a, c]
  | .blockProcCall _ m a c => [m, a, c]
  | .unknownSc9 _ m a c => [m, a, c]
  | .unknownSc1011 _ _ m a c => [m, a, c]
  | .unknownSc1215 _ _ m a c => [m, a, c]
  | .read8 m r => [m, regCode r]
  | .write8 m r v => [m, regCode r, v]
  | .init m div => [m, loByte div, hiByte div]
  | .deinit m => [m]
  | .waitIdle m t => [m, loByte t, hiByte t]
  | .waitPhaseDone m t w => [m, loByte t, hiByte t, flagCode w]
  | .execute m t => m :: encodeTxn t
  | .access ep t => ep.master :: selCode ep.sel :: ep.channel.setWidth 8 :: encodeTxn t
  | .muxSelect m sw ch => [m, sw, ch.setWidth 8]
  | .muxDeselect m sw => [m, sw]
  | .deselectAll => []
  | .engineInit => []
  | .engineShutdown => []

/-- The bytes of a well-formed instruction. -/
def encode (i : Instr) : List Byte := opcodeByte i :: formatByte i :: encodeOperands i

/-- Length of the longest instruction in bytes: `ACCESS` with a 255-byte block. -/
def maxInstrBytes : Nat := 266

/-- The `n` low bytes of a word, least significant byte first. -/
def wordBytes : Nat → Nat → List Byte
  | 0, _ => []
  | n + 1, w => BitVec.ofNat 8 w :: wordBytes n (w / 256)

/-- An opcode-table word laid out as an instruction: its `nbits` bits, then zeros up to the longest instruction. -/
def tableBytes (nbits w : Nat) : List Byte :=
  wordBytes ((nbits + 7) / 8) w ++ List.replicate (maxInstrBytes - (nbits + 7) / 8) 0#8

/-- What the decoder reads from an opcode-table word. -/
def decodeTableWord (nbits w : Nat) : Option Instr :=
  match decode (tableBytes nbits w) with
  | .ok (i, _) => some i
  | .error _ => none

end Sys2Proof
end

