-- ==== Sys2Proof/Machine/State.lean ====
section
/-! DEFINITION. The state of the engine as plain data, the ways a step can stop, and the state right after reset
(spec file 10; reset: rule R302, column "after power-on"). -/

namespace Sys2Proof.Machine

/-- A master by its index less one: room for every index a byte can name. `masterIx` gives those in `1..N_MASTERS`
only (rule R5; log entry 19). -/
abbrev MasterIx := Fin Config.maxMasters

/-- Number of an agent: its place in `State.agents`. Agent 0 is the initialiser (rule R7 (c)). -/
abbrev AgentId := Nat

/-- The register window (rule R60) as the bytes last written: addresses strictly rising, no entry 0x00, and an
address not listed reads 0x00 (log entry 3). -/
abbrev Memory := List Host.Cell

/-- The errors of rule R270. -/
inductive Err where
  | invalidArgument | timeout | arbitrationLost | noAck | muxSelectFailed | notSupported
  deriving DecidableEq, Repr, Inhabited

/-- Result of a transaction (rule R10). -/
inductive Res where
  | ok (p : Payload)
  | err (e : Err)
  deriving DecidableEq, Repr, Inhabited

/-- What a call returned to its caller. -/
inductive Ret where
  | unit                 -- a call that returns nothing
  | okay                 -- `Ok` without a payload
  | byte (v : Byte)      -- `Ok(u8)`
  | payload (p : Payload)  -- `Ok(payload)`
  | err (e : Err)        -- `Err(E)`
  | fail                 -- `Fail` of a mux write (rule R226)
  deriving DecidableEq, Repr, Inhabited

/-- `MS[m].lock` (rule R27). -/
inductive Lock where
  | free
  | held (a : AgentId)
  deriving DecidableEq, Repr, Inhabited

/-- The record `MS[m]` (rule R27). -/
structure MasterState where
  lock           : Lock
  lastSwitch     : Byte
  lastChannel    : BitVec 3
  persistentNack : Bool
  retryNeeded    : Bool
  deriving DecidableEq, Repr, Inhabited

/-- The record as engine initialisation creates it (rule R300). -/
def MasterState.fresh : MasterState :=
  { lock := .free, lastSwitch := 0#8, lastChannel := 0#3, persistentNack := false, retryNeeded := false }

/-- Channel selection a mux chip holds (rule R33); `unspecified` where rule R302 and 93 U13 say so. -/
inductive Selection where
  | unspecified
  | mask (v : Byte)
  deriving DecidableEq, Repr, Inhabited

/-- The controller's answers still to come (rule R11): a draw takes the first of its list, or a free value of
`Config` when the list is used up. `drawn` counts the draws made. The MODEL's own field (log entry 2). -/
structure Inputs where
  status   : List Byte
  data     : List Byte
  other    : List Byte
  deadline : List Bool
  drawn    : Nat
  deriving DecidableEq, Repr, Inhabited

/-- No answer listed, none drawn. -/
def Inputs.none : Inputs := { status := [], data := [], other := [], deadline := [], drawn := 0 }

/-- What belongs to one master apart from its registers: its record (absent before engine initialisation and after
shutdown, rules R302, R304), the selections of its mux chips by switch address (addresses rising, an address not
listed is unspecified), the oracle's answers, and the history of its block (rule R66). -/
structure MasterUnit where
  record  : Option MasterState
  chips   : List (Byte × Byte)
  inputs  : Inputs
  history : List Access
  deriving DecidableEq, Repr, Inhabited

/-- One master and the window: what an operation on that master can read and change. -/
structure Port where
  unit   : MasterUnit
  window : Memory
  deriving DecidableEq, Repr, Inhabited

/-- The primitives of the master core that wait on a poll (rules R137, R138, R142 to R146). -/
inductive Prim where
  | start (ab : Byte)
  | wrb (b : Byte)
  | rdbAck
  | rdbNack
  | waitIdle
  | waitPhase (isWrite : Bool)
  deriving DecidableEq, Repr, Inhabited

/-- Positions `epc` of a transaction (rule R31); the byte index is a field of the frame. -/
inductive EPos where
  | validate | reinit | waitIdle | addr | cmd | lenW | dataW | rstart | lenR | dataR | stop | ret
  deriving DecidableEq, Repr, Inhabited

/-- Sequencer state of a running `execute` (rule R31): it is at position `epc`, which has not been run, or whose poll
has yielded (`polling`: the accesses before the poll are made, rule R135). -/
structure ExecFrame where
  txn     : Txn
  epc     : EPos
  polling : Bool
  i       : Nat
  len     : Nat
  rx      : List Byte
  res     : Res
  deriving DecidableEq, Repr, Inhabited

/-- Sequencer state of a running mux write (rule R226): `tried` attempts are over (`mux_try` of rule R31), `inner` is
the current one; none where the next is not begun. -/
structure MuxFrame where
  sw    : Byte
  value : Byte
  tried : Nat
  inner : Option ExecFrame
  deriving DecidableEq, Repr, Inhabited

/-- Positions `apc` of an access (rule R31). -/
inductive APos where
  | validate | lock | mux | clear | attempt | retryDecide | unlock | ret
  deriving DecidableEq, Repr, Inhabited

/-- Sequencer state of a running `access` (rule R31). At `A_MUX`, `write` is the mux write in progress (none where
`RESOLVE` has not chosen yet), and `deselecting` says that it is the deselect of the cached switch. At `A_ATTEMPT`,
`inner` is the `execute` in progress. `res` is the result of the last attempt (rule R223). -/
structure AccessFrame where
  ep          : EndpointRef
  txn         : Txn
  apc         : APos
  retries     : Nat
  write       : Option MuxFrame
  deselecting : Bool
  inner       : Option ExecFrame
  res         : Res
  deriving DecidableEq, Repr, Inhabited

/-- Sequencer state of a running `deselect_all` (rule R240): the masters not finished, the current one first;
whether its lock is held; its switches not finished, the current one first; `ok` and `res = Err` so far; the mux write
in progress. -/
structure DeselectFrame where
  todo     : List MasterIx
  locked   : Bool
  switches : List Byte
  ok       : Bool
  failed   : Bool
  write    : Option MuxFrame
  deriving DecidableEq, Repr, Inhabited

/-- A call that has started and not returned. -/
inductive Call where
  | prim (m : MasterIx) (pr : Prim)
  | exec (m : MasterIx) (f : ExecFrame)
  | mux (m : MasterIx) (f : MuxFrame)
  | access (f : AccessFrame)
  | deselectAll (f : DeselectFrame)
  deriving DecidableEq, Repr, Inhabited

/-- One thing an agent still has to do: a call, as the bytes of its instruction, or a lock action (rules R68,
R69). -/
inductive Item where
  | call (bytes : List Byte)
  | acquire (m : MasterIx)
  | release (m : MasterIx)
  deriving DecidableEq, Repr, Inhabited

/-- An agent (rule R7): what it still has to do, the call it is in, and what its calls returned, oldest first. -/
structure Agent where
  program  : List Item
  call     : Option Call
  returned : List Ret
  deriving DecidableEq, Repr, Inhabited

/-- An agent with nothing to do. -/
def Agent.idle : Agent := { program := [], call := none, returned := [] }

/-- Faults: the machine stops. -/
inductive Fault where
  /-- A register access, or an operation that makes one, for a master index outside `1..N_MASTERS` (rules R120,
  R276). Raised by `READ8`, `WRITE8` and the master-core calls. Safe: the spec gives the use no meaning. -/
  | badMasterIndex
  /-- A use of master `m` by an agent that does not hold its lock, and engine initialisation or shutdown at a time that
  is not theirs (rules R28, R130, R179, R276, R300, R304, R310). Raised by every call that touches a master and by
  `ENGINE_INIT` and `ENGINE_SHUTDOWN`. Safe: the spec names this fault. -/
  | unlockedAccess
  /-- `release(m)` by an agent that does not hold the lock (rules R69, R276). Raised by a release item and by the
  unlock position of `access` and `deselect_all`. Safe: the spec names this fault. -/
  | badRelease
  /-- A call that starts after shutdown, and a call that needs `MS[m]` where no record exists: the spec gives it no step
  (rule R304, 93 U19). Raised by `step` and by every call that needs a record. Safe: nothing follows. -/
  | noRecord
  deriving DecidableEq, Repr, Inhabited

/-- Refusals: no meaning. -/
inductive Refusal where
  /-- Raised by an arm of `exec` without a meaning. Safe: nothing can be proved of the instruction. -/
  | notModelled (mnemonic : String)
  /-- Raised by `step` for bytes that are no instruction. Safe: the machine does not go on. -/
  | undecodable (e : DecodeError)
  /-- A command byte the engine does not issue (rules R85, R148, 93 U7). Raised by `CMD_IACK` and by `WRITE8` to
  `CMDSTAT`. Safe: nothing can be proved of what the controller does with it. -/
  | commandNotIssued
  /-- A `CTRL` byte with a reserved bit set (93 U5). Raised by `WRITE8` to `CTRL`. Safe, as above. -/
  | reservedControlBits
  /-- A configuration the model refuses (rules R61, R80, R221, R276, 93 U18). Raised by `ENGINE_INIT`. Safe: the
  engine does not start. -/
  | illFormedConfiguration
  deriving DecidableEq, Repr, Inhabited

/-- Where the engine is in its life: before engine initialisation, between it and shutdown, after shutdown (rules
R300, R303, R304). -/
inductive Phase where
  | powerOn | running | shutDown
  deriving DecidableEq, Repr, Inhabited

/-- One choice of the scheduler: the agent that moves, and how many positions of its call beyond the first it may run
before the scheduler chooses again (rules R31, R68; log entry 5). -/
structure Turn where
  agent   : AgentId
  quantum : Nat
  deriving DecidableEq, Repr, Inhabited

/-- The whole machine. `self` is the agent whose step it is and `quantum` how far it may go; `schedule` lists the turns
to come, then `Config.freeTurn` and `Config.freeQuantum` of `turns` choose (log entry 5); `arrivals` lists the programs
of the callers to come, then `Config.freeCaller` chooses (log entry 6). -/
structure State where
  cfg      : Config.Params
  units    : Vector MasterUnit Config.maxMasters
  window   : Memory
  agents   : List Agent
  arrivals : List (List Item)
  phase    : Phase
  self     : AgentId
  quantum  : Nat
  schedule : List Turn
  turns    : Nat
  deriving DecidableEq, Repr

/-- A master after power-on: no record, its chips unspecified, no access made (rule R302). -/
def MasterUnit.powerOn : MasterUnit :=
  { record := none, chips := [], inputs := Inputs.none, history := [] }

/-- The machine after power-on, before engine initialisation (rule R302): no records, no call, every register of the
window at the value log entry 3 names, the configuration of rule R5, and the initialiser alone. -/
def State.reset : State :=
  { cfg := Config.boot
    units := Vector.replicate Config.maxMasters MasterUnit.powerOn
    window := []
    agents := [Agent.idle]
    arrivals := []
    phase := .powerOn
    self := 0
    quantum := 0
    schedule := []
    turns := 0 }

end Sys2Proof.Machine
end

