-- ==== Sys2Proof/Machine/Operands.lean ====
section
/-! DEFINITION. Operand forms: master indices, register addresses, command and control bytes, address bytes, mux
masks, word assembly, size classes and the payload rules (spec file 30), and the configuration check. -/

namespace Sys2Proof.Machine

/-- A master index of a caller: in range `1..N_MASTERS` or not (rule R5). -/
def masterIx (c : Config.Params) (m : Byte) : Option MasterIx :=
  if h : 1 ≤ m.toNat ∧ m.toNat ≤ c.nMasters.val then
    some ⟨m.toNat - 1, by omega⟩
  else none

/-- Every master index there is room for, ascending. -/
def allMasters : List MasterIx := List.finRange Config.maxMasters

/-- `m ∈ ENABLED` (rule R281). -/
def masterEnabled (c : Config.Params) (m : MasterIx) : Bool := decide (m ∈ c.enabled)

/-- The masters of `ENABLED`, ascending, each once (rules R240, R301, R304). -/
def enabledAscending (c : Config.Params) : List MasterIx := allMasters.filter (masterEnabled c)

/-- `OFF_REG` (rule R80). -/
def regOffset (o : Config.Offsets) : Reg → Nat
  | .prerLo => o.prerLo
  | .prerHi => o.prerHi
  | .ctrl => o.ctrl
  | .cmdstat => o.cmdstat
  | .data => o.data

/-- `addr(m, REG)` (rule R61). -/
def regAddr (c : Config.Params) (m : MasterIx) (r : Reg) : Nat :=
  c.regBase + m.val * c.masterStride + regOffset c.offs r

/-- The byte with one bit set. -/
def bitMask (b : Fin 8) : Byte := 1#8 <<< b.val

/-- Bit `b` of a byte (rule R8). -/
def bitSet (v : Byte) (b : Fin 8) : Bool := v.getLsbD b.val

/-- `CTRL_OFF` (rule R81). -/
def ctrlOff : Byte := 0x00#8

/-- `CTRL_ON` (rule R81). -/
def ctrlOn (b : Config.Bits) : Byte := bitMask b.en

/-- `CMD_START` (rule R84): START and WRITE. -/
def cmdStart (b : Config.Bits) : Byte := bitMask b.start ||| bitMask b.write

/-- `CMD_WRITE` (rule R84). -/
def cmdWrite (b : Config.Bits) : Byte := bitMask b.write

/-- `CMD_READ_ACK` (rule R84). -/
def cmdReadAck (b : Config.Bits) : Byte := bitMask b.read

/-- `CMD_READ_NACK` (rule R84): READ and ACK. -/
def cmdReadNack (b : Config.Bits) : Byte := bitMask b.read ||| bitMask b.ack

/-- `CMD_STOP` (rule R84). -/
def cmdStop (b : Config.Bits) : Byte := bitMask b.stop

/-- The five command bytes the engine issues (rules R84, R85). -/
def commandIssued (b : Config.Bits) (v : Byte) : Bool :=
  decide (v = cmdStart b) || decide (v = cmdWrite b) || decide (v = cmdReadAck b) ||
    decide (v = cmdReadNack b) || decide (v = cmdStop b)

/-- No bit of `CTRL` but EN and IEN is set (rule R81, 93 U5). -/
def ctrlBitsKnown (b : Config.Bits) (v : Byte) : Bool :=
  decide (v &&& ~~~(bitMask b.en ||| bitMask b.ien) = 0#8)

/-- `ADDR_W(a)` (rule R86). -/
def addrW (a : Byte) : Byte := a <<< 1

/-- `ADDR_R(a)` (rule R86). -/
def addrR (a : Byte) : Byte := (a <<< 1) ||| 1#8

/-- `MASK(ch)` (rule R91). -/
def channelMask (ch : BitVec 3) : Byte := 1#8 <<< ch.toNat

/-- Word assembly: the byte received first is the low one (rule R92). -/
def assembleWord (b0 b1 : Byte) : Half := b1 ++ b0

/-- Bits 7:0, sent first (rules R92, R93). -/
def wordLow (w : Half) : Byte := w.extractLsb' 0 8

/-- Bits 15:8, sent second (rules R92, R93). -/
def wordHigh (w : Half) : Byte := w.extractLsb' 8 8

/-- Size classes (rule R88). -/
inductive SizeClass where
  | quick | byte | byteData | wordData | procCall | blockData | i2cBlockBroken | blockProcCall | i2cBlock | unknown
  deriving DecidableEq, Repr

/-- Size class of a code (rule R88). -/
def sizeClassKind (sc : BitVec 4) : SizeClass :=
  if sc = 0#4 then .quick
  else if sc = 1#4 then .byte
  else if sc = 2#4 then .byteData
  else if sc = 3#4 then .wordData
  else if sc = 4#4 then .procCall
  else if sc = 5#4 then .blockData
  else if sc = 6#4 then .i2cBlockBroken
  else if sc = 7#4 then .blockProcCall
  else if sc = 8#4 then .i2cBlock
  else .unknown

/-- `HASCMD(sc)` (rule R172). -/
def hasCommand (sc : BitVec 4) : Bool :=
  match sizeClassKind sc with
  | .byteData => true
  | .wordData => true
  | .blockData => true
  | .i2cBlock => true
  | _ => false

/-- A block length in `1..BLOCK_MAX` (rule R90). -/
def blockLenOk (c : Config.Params) (n : Nat) : Bool := decide (1 ≤ n) && decide (n ≤ c.blockMax.val)

/-- The payload fits the size class and the direction (rule R90). -/
def payloadFits (c : Config.Params) (sc : BitVec 4) (d : Dir) (p : Payload) : Bool :=
  match sizeClassKind sc, d, p with
  | .quick, _, .quick => true
  | .byte, .write, .byte _ => true
  | .byte, .read, .quick => true
  | .byteData, .write, .byte _ => true
  | .byteData, .read, .quick => true
  | .wordData, .write, .word _ => true
  | .wordData, .read, .quick => true
  | .blockData, .write, .block b => blockLenOk c b.length
  | .blockData, .read, .quick => true
  | .i2cBlock, _, .block b => blockLenOk c b.length
  | _, _, _ => false

/-- `E_VALIDATE` (rule R171) for a master in range: the first failing check, in the rule's order. -/
def validateTxn (c : Config.Params) (m : MasterIx) (t : Txn) : Option Err :=
  if masterEnabled c m = false then some .invalidArgument
  else
    match sizeClassKind t.sizeClass with
    | .unknown => some .invalidArgument
    | .procCall => some .notSupported
    | .i2cBlockBroken => some .notSupported
    | .blockProcCall => some .notSupported
    | _ =>
      if t.addr.toNat > 0x7F then some .invalidArgument
      else if payloadFits c t.sizeClass t.dir t.payload = false then some .invalidArgument
      else none

/-- `FIRST(a, dir, sc)` (rule R176). -/
def firstAddr (t : Txn) : Byte :=
  match t.dir, sizeClassKind t.sizeClass with
  | .read, .quick => addrR t.addr
  | .read, .byte => addrR t.addr
  | _, _ => addrW t.addr

/-- `tx`, the data bytes of a write payload (rules R172, R181 to R189). -/
def txBytes (t : Txn) : List Byte :=
  match t.payload with
  | .quick => []
  | .byte v => [v]
  | .word w => [wordLow w, wordHigh w]
  | .block d => d

/-- `NREAD(sc, payload)` (rule R172). -/
def nRead (t : Txn) : Nat :=
  match sizeClassKind t.sizeClass with
  | .byte => 1
  | .byteData => 1
  | .wordData => 2
  | .i2cBlock => (txBytes t).length
  | _ => 0

/-- `PACK(sc, rx)` (rule R172). -/
def packRead (sc : BitVec 4) (rx : List Byte) : Payload :=
  match sizeClassKind sc with
  | .byte => .byte (rx.getD 0 0#8)
  | .byteData => .byte (rx.getD 0 0#8)
  | .wordData => .word (assembleWord (rx.getD 0 0#8) (rx.getD 1 0#8))
  | .blockData => .block rx
  | .i2cBlock => .block rx
  | _ => .quick

/-- The transaction of a mux select or deselect (rule R226): a BYTE write of `v` to the switch address. -/
def muxTxn (sw v : Byte) : Txn :=
  { dir := .write, addr := sw, command := 0x00#8, sizeClass := 1#4, payload := .byte v }

/-- Error codes (rule R270). -/
def errCode : Err → Nat
  | .invalidArgument => 1
  | .timeout => 2
  | .arbitrationLost => 3
  | .noAck => 4
  | .muxSelectFailed => 5
  | .notSupported => 6

/-- What a transaction's result is to its caller. -/
def retOfRes : Res → Ret
  | .ok p => .payload p
  | .err e => .err e

/-- Insert a byte into an ascending list without repeats. -/
def insertAscending (s : Byte) : List Byte → List Byte
  | [] => [s]
  | x :: xs =>
    if s.toNat < x.toNat then s :: x :: xs
    else if s = x then x :: xs
    else x :: insertAscending s xs

/-- The switch address an entry uses on master `m`, if any. -/
def entrySwitch (c : Config.Params) (m : MasterIx) (e : Config.Endpoint) : Option Byte :=
  match e.sel with
  | .direct => none
  | .switch s => if masterIx c e.master = some m then some s else none

/-- `SWITCHES(m)` (rule R240): the distinct switch addresses of the topology's entries on `m`, ascending. -/
def switchesOf (c : Config.Params) (m : MasterIx) : List Byte :=
  (c.topology.filterMap (entrySwitch c m)).foldr insertAscending []

/-- A legal layout (rule R80): the offsets are distinct and below `MASTER_STRIDE`. -/
def layoutOk (c : Config.Params) : Bool :=
  let offs := [c.offs.prerLo, c.offs.prerHi, c.offs.ctrl, c.offs.cmdstat, c.offs.data]
  decide offs.Nodup && offs.all (fun x => decide (x < c.masterStride))

/-- One entry of the topology table (rule R221). -/
def endpointOk (c : Config.Params) (e : Config.Endpoint) : Bool :=
  (masterIx c e.master).isSome && switchSelOk e.sel && decide (e.channel.toNat < c.nChannels.val) &&
    (decide (e.sel ≠ .direct) || decide (e.kind = .plain))

/-- A well-formed topology table: the conditions of rule R221. The counts of rule R220 (`Config.topologyShape`) are not
among them: the table the engine boots with has them, and a smaller one, such as program P1's, is not refused (log entry
13). -/
def topologyOk (c : Config.Params) : Bool :=
  c.topology.all (endpointOk c) && decide ((c.topology.map (fun e => e.name)).Nodup)

/-- The blocks of all masters lie in the window: the largest address they can hold is `REG_BASE + 0x1BF` with the values
of rule R5, and no engine address wraps (rule R61, D6). -/
def windowOk (c : Config.Params) : Bool :=
  decide (c.regBase + c.nMasters.val * c.masterStride ≤ 2 ^ c.windowBits)

/-- `ENABLED ⊆ 1..N_MASTERS` (rule R5). -/
def enabledOk (c : Config.Params) : Bool := c.enabled.all (fun m => decide (m.val < c.nMasters.val))

/-- What the model refuses at configuration time is anything else (rules R5, R61, R80, R221, R276, 93 U18). -/
def configOk (c : Config.Params) : Bool :=
  layoutOk c && windowOk c && decide (c.div100k ≠ 0x0040#16) && enabledOk c && topologyOk c

end Sys2Proof.Machine
end

