-- ==== Sys2Proof/Machine/Flags.lean ====
section
/-! DEFINITION. The flags of the engine: what a completed phase reports and writes (rules R138 to R141), and the
retry policy that reads them (rules R230 to R234). -/

namespace Sys2Proof.Machine

/-- Outcome of one completed phase (rule R141): the error, if any, and which flags it sets. -/
structure PhaseOutcome where
  err        : Option Err
  setRetry   : Bool
  setPersist : Bool
  deriving DecidableEq, Repr

/-- The table of rule R141 on the status byte that showed TIP = 0: AL before RXACK, RXACK only on a write phase. -/
def phaseOutcome (b : Config.Bits) (isWrite : Bool) (s : Byte) : PhaseOutcome :=
  if bitSet s b.al then
    { err := some .arbitrationLost, setRetry := true, setPersist := isWrite && bitSet s b.rxack }
  else if isWrite && bitSet s b.rxack then
    { err := some .noAck, setRetry := true, setPersist := false }
  else { err := none, setRetry := false, setPersist := false }

/-- Flags a phase sets; it never clears one (rules R139, R140). -/
def setPhaseFlags (o : PhaseOutcome) (r : MasterState) : MasterState :=
  { r with
    retryNeeded := r.retryNeeded || o.setRetry
    persistentNack := r.persistentNack || o.setPersist }

/-- `A_CLEAR` (rule R231). -/
def clearBothFlags (r : MasterState) : MasterState := { r with retryNeeded := false, persistentNack := false }

/-- The clear before each attempt (rule R232). -/
def clearRetryFlag (r : MasterState) : MasterState := { r with retryNeeded := false }

/-- `RETRYABLE` (rule R234). -/
def retryable (c : Config.Params) : Err → Bool
  | .arbitrationLost => true
  | .noAck => true
  | .timeout => c.retryOnTimeout
  | .invalidArgument => false
  | .muxSelectFailed => false
  | .notSupported => false

/-- The budget after a failed attempt (rule R233). -/
def retryBudget (c : Config.Params) (r : MasterState) : Nat :=
  if r.retryNeeded && r.persistentNack then c.retryHigh else c.retryLow

/-- `A_RETRY_DECIDE` (rule R223): another attempt is made. -/
def retryAgain (c : Config.Params) (retries : Nat) (res : Res) (r : MasterState) : Bool :=
  match res with
  | .ok _ => false
  | .err e => retryable c e && decide (retries < retryBudget c r)

end Sys2Proof.Machine
end

