-- ==== Sys2Proof/Machine/Ops.lean ====
section
/-! DEFINITION. Named operations over the register window, the register interface, the oracle, the record of a
master, the lock, the exit path, and what an agent's call leaves behind. -/

namespace Sys2Proof.Machine

/-! Memory: the window in canonical form. -/

/-- The byte at an address of the window (log entry 3: 0x00 where nothing is listed). -/
def Memory.read : Memory → Nat → Byte
  | [], _ => 0#8
  | (x, v) :: rest, a => if a = x then v else Memory.read rest a

/-- Put a byte at the head unless it is what an unlisted address reads as. -/
def Memory.put (a : Nat) (v : Byte) (rest : Memory) : Memory := if v = 0#8 then rest else (a, v) :: rest

/-- Write one byte (`MemWrite`, rule R60), keeping the canonical form. -/
def Memory.write : Memory → Nat → Byte → Memory
  | [], a, v => Memory.put a v []
  | (x, w) :: rest, a, v =>
    if a < x then Memory.put a v ((x, w) :: rest)
    else if a = x then Memory.put a v rest
    else (x, w) :: Memory.write rest a v

/-- Every address of the list is above `a`. -/
def Memory.above (a : Nat) (mem : Memory) : Bool := mem.all (fun e => decide (a < e.1))

/-- The canonical form: addresses strictly rising, no entry 0x00. -/
def Memory.wf : Memory → Bool
  | [] => true
  | (x, v) :: rest => decide (v ≠ 0#8) && Memory.above x rest && Memory.wf rest

/-! The oracle (rule R11). -/

/-- The next answer of a list, or the free value when it is used up. -/
def drawFrom {α : Type} (free : α) : List α → α × List α
  | [] => (free, [])
  | x :: rest => (x, rest)

/-- The controller's answer to a read of a register (rules R11, R120); `h` is the history of the master's block, which
the controller sees (rule R66). -/
def Inputs.draw (m : MasterIx) (r : Reg) (h : List Access) (q : Inputs) : Byte × Inputs :=
  match r with
  | .cmdstat =>
    let d := drawFrom (Config.freeRead m r h q.drawn) q.status
    (d.1, { q with status := d.2, drawn := q.drawn + 1 })
  | .data =>
    let d := drawFrom (Config.freeRead m r h q.drawn) q.data
    (d.1, { q with data := d.2, drawn := q.drawn + 1 })
  | _ =>
    let d := drawFrom (Config.freeRead m r h q.drawn) q.other
    (d.1, { q with other := d.2, drawn := q.drawn + 1 })

/-- `draw DeadlinePassed` (rule R135). -/
def Inputs.drawDeadline (m : MasterIx) (h : List Access) (q : Inputs) : Bool × Inputs :=
  let d := drawFrom (Config.freeDeadline m h q.drawn) q.deadline
  (d.1, { q with deadline := d.2, drawn := q.drawn + 1 })

/-! The register interface (rules R120 to R122), on one master's port. -/

/-- `read8(m, REG)` (rule R120): the byte and the port after. The controller keeps its registers (rule R65). -/
def readReg (m : MasterIx) (r : Reg) (p : Port) : Byte × Port :=
  let d := p.unit.inputs.draw m r p.unit.history
  (d.1, { p with unit := { p.unit with inputs := d.2, history := p.unit.history ++ [.rd r d.1] } })

/-- `write8(m, REG, v)` (rule R121). -/
def writeReg (c : Config.Params) (m : MasterIx) (r : Reg) (v : Byte) (p : Port) : Port :=
  { unit := { p.unit with history := p.unit.history ++ [.wr r v] }
    window := p.window.write (regAddr c m r) v }

/-- The deadline draw on a port. -/
def drawDeadline (m : MasterIx) (p : Port) : Bool × Port :=
  let d := p.unit.inputs.drawDeadline m p.unit.history
  (d.1, { p with unit := { p.unit with inputs := d.2 } })

/-! The record of a master. -/

/-- Change the record, where there is one. -/
def mapRecord (f : MasterState → MasterState) (p : Port) : Port :=
  { p with unit := { p.unit with record := p.unit.record.map f } }

/-- The record, or the fresh one where there is none (no operation reads it then: see `holderFault`). -/
def recordOf (p : Port) : MasterState := p.unit.record.getD MasterState.fresh

/-- Selection of a mux chip (rule R33). -/
def chipSelection : List (Byte × Byte) → Byte → Selection
  | [], _ => .unspecified
  | (x, v) :: rest, s => if s = x then .mask v else chipSelection rest s

/-- Forget what a chip selects. -/
def chipForget (s : Byte) (chips : List (Byte × Byte)) : List (Byte × Byte) :=
  chips.filter (fun e => decide (e.1 ≠ s))

/-- Record what a chip selects, addresses rising. -/
def chipSet (s v : Byte) : List (Byte × Byte) → List (Byte × Byte)
  | [] => [(s, v)]
  | (x, w) :: rest =>
    if s.toNat < x.toNat then (s, v) :: (x, w) :: rest
    else if s = x then (s, v) :: rest
    else (x, w) :: chipSet s v rest

/-- After a mux write that succeeded the chip selects the mask (rule R33). -/
def chipWritten (s v : Byte) (p : Port) : Port :=
  { p with unit := { p.unit with chips := chipSet s v p.unit.chips } }

/-- After a failed mux write the chip's selection is unspecified (93 U13). -/
def chipLost (s : Byte) (p : Port) : Port :=
  { p with unit := { p.unit with chips := chipForget s p.unit.chips } }

/-- `CACHE(m, s, c)` (rule R229). -/
def setCache (s : Byte) (ch : BitVec 3) (p : Port) : Port :=
  mapRecord (fun r => { r with lastSwitch := s, lastChannel := ch }) p

/-- The cache emptied by `deselect_all` (rule R240). -/
def clearCache (p : Port) : Port := setCache 0#8 0#3 p

/-! The lock (rules R68, R69). -/

/-- `acquire(m)`: `none` while the agent is blocked, by another holder or by itself. -/
def acquireLock (a : AgentId) (p : Port) : Option Port :=
  if (recordOf p).lock = .free then some (mapRecord (fun r => { r with lock := .held a }) p) else none

/-- `release(m)`: `none` is the fault `BadRelease`. -/
def releaseLock (a : AgentId) (p : Port) : Option Port :=
  if p.unit.record.isSome = true ∧ (recordOf p).lock = .held a then
    some (mapRecord (fun r => { r with lock := .free }) p)
  else none

/-! The exit path (rules R173, R275): the engine's one trap-like mechanism. It writes `CMD_STOP` once and saves
nothing; there is no return from it (rule R277). -/

/-- `STOP m` (rule R147). -/
def stopBus (c : Config.Params) (m : MasterIx) (p : Port) : Port :=
  writeReg c m .cmdstat (cmdStop c.bits) p

/-! Configuration of a master (rules R131, R133). -/

/-- The four writes of `init` for a divider that is supported. -/
def programDivider (c : Config.Params) (m : MasterIx) (div : Half) (p : Port) : Port :=
  writeReg c m .ctrl (ctrlOn c.bits)
    (writeReg c m .prerHi (wordHigh div)
      (writeReg c m .prerLo (wordLow div)
        (writeReg c m .ctrl ctrlOff p)))

/-- `deinit(m)`. -/
def disableMaster (c : Config.Params) (m : MasterIx) (p : Port) : Port := writeReg c m .ctrl ctrlOff p

/-! State: ports, agents, who may touch a master. -/

/-- What belongs to master `m`. -/
def State.unit (s : State) (m : MasterIx) : MasterUnit := s.units[m]

/-- The part of the state that belongs to master `m`, with the window. -/
def State.port (s : State) (m : MasterIx) : Port := { unit := s.unit m, window := s.window }

/-- Put a port back. -/
def State.withPort (s : State) (m : MasterIx) (p : Port) : State :=
  { s with units := s.units.set m p.unit, window := p.window }

/-- Change the agent whose step it is. -/
def State.mapSelf (s : State) (f : Agent → Agent) : State :=
  { s with agents := s.agents.modify s.self f }

/-- The call of this agent has returned. -/
def State.returned (s : State) (r : Ret) : State :=
  s.mapSelf (fun a => { a with call := none, returned := a.returned ++ [r] })

/-- The call of this agent is suspended. -/
def State.suspended (s : State) (k : Call) : State :=
  s.mapSelf (fun a => { a with call := some k })

/-- The agent number of the initialiser (rule R7 (c)). -/
def initialiser : AgentId := 0

/-- Every agent but `a` is in no call; `n` is the number of the list's first agent. -/
def othersIdle (a : AgentId) : AgentId → List Agent → Bool
  | _, [] => true
  | n, ag :: rest => (decide (n = a) || decide (ag.call = none)) && othersIdle a (n + 1) rest

/-- No agent but `a` holds the lock of this master. -/
def lockNotOthers (a : AgentId) (u : MasterUnit) : Bool :=
  match u.record with
  | none => true
  | some r => decide (r.lock = .free) || decide (r.lock = .held a)

/-- The initialiser moves and no other agent runs: none is in a call and none holds a lock (rules R28, R130,
R300, R304). -/
def State.initialiserAlone (s : State) : Bool :=
  decide (s.self = initialiser) && othersIdle s.self 0 s.agents && s.units.toList.all (lockNotOthers s.self)

/-- No agent has started a call yet (rule R300). -/
def State.noneStarted (s : State) : Bool :=
  s.agents.all (fun ag => decide (ag.call = none) && decide (ag.returned = []))

/-- The fault of a use of master `m` by an agent that is not its lock holder (rule R28); after shutdown there is no
record to use (rule R304). -/
def State.holderFault (s : State) (m : MasterIx) : Option Fault :=
  match (s.port m).unit.record with
  | none => if s.phase = .shutDown then some .noRecord else some .unlockedAccess
  | some r => if r.lock = .held s.self then none else some .unlockedAccess

end Sys2Proof.Machine
end

