-- ==== Sys2Proof/Machine/Polls.lean ====
section
/-! DEFINITION. The two bounded polls and the primitives of the master core that wait on them (rules R134 to R147),
one poll iteration at a time: an iteration whose bit is set and whose deadline has not passed yields. -/

namespace Sys2Proof.Machine

/-- One iteration of `poll` (rule R135): the bit was clear in this status byte, or the deadline passed, or the
agent yields. -/
inductive Poll where
  | met (s : Byte)
  | expired
  | unmet
  deriving DecidableEq, Repr

/-- One iteration of `poll(m, b)` (rule R135): the bit is tested before the deadline is drawn. -/
def pollOnce (m : MasterIx) (b : Fin 8) (p : Port) : Poll × Port :=
  let rd := readReg m .cmdstat p
  if bitSet rd.1 b then
    let d := drawDeadline m rd.2
    (if d.1 then .expired else .unmet, d.2)
  else (.met rd.1, rd.2)

/-- Where a primitive stands after one poll iteration: it yields, it is done (with the byte received, 0x00 where
none is), or it failed. -/
inductive PrimOut where
  | again
  | ok (v : Byte)
  | err (e : Err)
  deriving DecidableEq, Repr

/-- `wait_idle`, one iteration (rule R137). -/
def waitIdleOnce (c : Config.Params) (m : MasterIx) (p : Port) : PrimOut × Port :=
  match pollOnce m c.bits.busy p with
  | (.met _, p1) => (.ok 0#8, p1)
  | (.expired, p1) => (.err .timeout, p1)
  | (.unmet, p1) => (.again, p1)

/-- `wait_phase_done`, one iteration (rule R138). -/
def waitPhaseOnce (c : Config.Params) (m : MasterIx) (isWrite : Bool) (p : Port) : PrimOut × Port :=
  match pollOnce m c.bits.tip p with
  | (.met s, p1) =>
    let o := phaseOutcome c.bits isWrite s
    let p2 := mapRecord (setPhaseFlags o) p1
    match o.err with
    | some e => (.err e, p2)
    | none => (.ok 0#8, p2)
  | (.expired, p1) => (.err .timeout, p1)
  | (.unmet, p1) => (.again, p1)

/-- A read phase's poll, then the data read when it is done (rules R145, R146): no read after an error. -/
def readPhaseOnce (c : Config.Params) (m : MasterIx) (p : Port) : PrimOut × Port :=
  match waitPhaseOnce c m false p with
  | (.ok _, p1) =>
    let d := readReg m .data p1
    (.ok d.1, d.2)
  | (.err e, p1) => (.err e, p1)
  | (.again, p1) => (.again, p1)

/-- The accesses a primitive makes before its poll (rules R142, R144, R145, R146). -/
def primBegin (c : Config.Params) (m : MasterIx) (pr : Prim) (p : Port) : Port :=
  match pr with
  | .start ab => writeReg c m .cmdstat (cmdStart c.bits) (writeReg c m .data ab p)
  | .wrb b => writeReg c m .cmdstat (cmdWrite c.bits) (writeReg c m .data b p)
  | .rdbAck => writeReg c m .cmdstat (cmdReadAck c.bits) p
  | .rdbNack => writeReg c m .cmdstat (cmdReadNack c.bits) p
  | .waitIdle => p
  | .waitPhase _ => p

/-- One iteration of a primitive's poll. -/
def primPoll (c : Config.Params) (m : MasterIx) (pr : Prim) (p : Port) : PrimOut × Port :=
  match pr with
  | .start _ => waitPhaseOnce c m true p
  | .wrb _ => waitPhaseOnce c m true p
  | .rdbAck => readPhaseOnce c m p
  | .rdbNack => readPhaseOnce c m p
  | .waitIdle => waitIdleOnce c m p
  | .waitPhase w => waitPhaseOnce c m w p

/-- A primitive from its start, or from its poll when it is resumed after a yield. -/
def runPrim (c : Config.Params) (m : MasterIx) (pr : Prim) (polling : Bool) (p : Port) : PrimOut × Port :=
  primPoll c m pr (if polling then p else primBegin c m pr p)

/-- What a primitive returns to a caller of the master core (rules R137, R138, R142 to R146). -/
def retOfPrim (pr : Prim) (v : Byte) : Ret :=
  match pr with
  | .rdbAck => .byte v
  | .rdbNack => .byte v
  | .start _ => .okay
  | .wrb _ => .okay
  | .waitIdle => .okay
  | .waitPhase _ => .okay

end Sys2Proof.Machine
end

