-- ==== Sys2Proof/Machine/Sequence.lean ====
section
/-! DEFINITION. The single-transaction sequence of rule R172, one position at a time (rule R31): `execPos` runs the
position its frame names and gives the frame of the position that follows. `runPos` runs positions one after the other
until the sequence waits, ends, or has gone as far as the scheduler lets it. -/

namespace Sys2Proof.Machine

/-- What one position comes to: the position that follows, a scheduling point (a poll that yields, a lock that is
held), the end of the sequence, or a fault. `F` is the sequencer state, `R` the result, `S` what is acted on. -/
inductive PosOut (F R S : Type) where
  | go (f : F) (x : S)
  | wait (f : F) (x : S)
  | ended (r : R) (x : S)
  | fault (e : Fault)
  deriving DecidableEq, Repr

/-- One position, then as many of those that follow as `quantum` says, as far as no scheduling point comes first. -/
def runPos {F R S : Type} (pos : F → S → PosOut F R S) : Nat → F → S → PosOut F R S
  | 0, f, x => pos f x
  | quantum + 1, f, x =>
    match pos f x with
    | .go f1 x1 => runPos pos quantum f1 x1
    | .wait f1 x1 => .wait f1 x1
    | .ended r x1 => .ended r x1
    | .fault e => .fault e

/-- The sequencer state in which every transaction starts (rules R31, R32). DESIGN CHOICE: rules R31 and R172 give `i`, `L`,
`rx` and `res` no value before a position first writes them; here they are 0, 0, empty and `Ok(Quick)`, and no position
reads one of them before it is written (log entry 17). -/
def execStart (t : Txn) : ExecFrame :=
  { txn := t, epc := .validate, polling := false, i := 0, len := 0, rx := [], res := .ok .quick }

/-- The frame at another position, its accesses not yet made. -/
def ExecFrame.atPos (f : ExecFrame) (pos : EPos) : ExecFrame := { f with epc := pos, polling := false }

/-- The frame at `E_STOP` with its result (rule R173). -/
def ExecFrame.stopWith (f : ExecFrame) (r : Res) : ExecFrame := { f with epc := .stop, polling := false, res := r }

/-- `E_DATA_W(i)`, or `E_STOP` with `Ok(Quick)` where no byte is left (rule R172). -/
def ExecFrame.toDataW (f : ExecFrame) (i : Nat) : ExecFrame :=
  if i < (txBytes f.txn).length then { f with epc := .dataW, polling := false, i := i } else f.stopWith (.ok .quick)

/-- `E_DATA_R(i)` of `len` bytes, `rx` those received so far, or `E_STOP` with the packed bytes where none is left
(rule R172). -/
def ExecFrame.toDataR (f : ExecFrame) (i len : Nat) (rx : List Byte) : ExecFrame :=
  if i < len then { f with epc := .dataR, polling := false, i := i, len := len, rx := rx }
  else { f with len := len, rx := rx }.stopWith (.ok (packRead f.txn.sizeClass rx))

/-- The position after the command byte: the write half or the read half (rule R172). -/
def ExecFrame.toBody (f : ExecFrame) : ExecFrame :=
  match f.txn.dir with
  | .write => f.atPos .lenW
  | .read => f.atPos .rstart

/-- A position that is one primitive: it waits at the primitive's poll, goes to `E_STOP` with its error, or goes on
(rules R172, R173). -/
def primPos (c : Config.Params) (m : MasterIx) (pr : Prim) (f : ExecFrame) (p : Port) (next : Byte → ExecFrame) :
    PosOut ExecFrame Res Port :=
  match runPrim c m pr f.polling p with
  | (.again, p1) => .wait { f with polling := true } p1
  | (.err e, p1) => .go (f.stopWith (.err e)) p1
  | (.ok v, p1) => .go (next v) p1

/-- `E_VALIDATE` (rule R171): a refused transaction returns at once. -/
def posValidate (c : Config.Params) (m : MasterIx) (f : ExecFrame) (p : Port) : PosOut ExecFrame Res Port :=
  match validateTxn c m f.txn with
  | some e => .ended (.err e) p
  | none => .go (f.atPos .reinit) p

/-- `E_CMD` (rule R177). -/
def posCmd (c : Config.Params) (m : MasterIx) (f : ExecFrame) (p : Port) : PosOut ExecFrame Res Port :=
  if hasCommand f.txn.sizeClass then primPos c m (.wrb f.txn.command) f p (fun _ => f.toBody) else .go f.toBody p

/-- `E_LEN_W` (rules R172, R187): the length byte counts the data bytes. -/
def posLenW (c : Config.Params) (m : MasterIx) (f : ExecFrame) (p : Port) : PosOut ExecFrame Res Port :=
  if sizeClassKind f.txn.sizeClass = .blockData then
    primPos c m (.wrb (BitVec.ofNat 8 (txBytes f.txn).length)) f p (fun _ => f.toDataW 0)
  else .go (f.toDataW 0) p

/-- `E_DATA_W(i)` (rule R172). -/
def posDataW (c : Config.Params) (m : MasterIx) (f : ExecFrame) (p : Port) : PosOut ExecFrame Res Port :=
  primPos c m (.wrb ((txBytes f.txn).getD f.i 0#8)) f p (fun _ => f.toDataW (f.i + 1))

/-- `E_RSTART` (rule R177). -/
def posRstart (c : Config.Params) (m : MasterIx) (f : ExecFrame) (p : Port) : PosOut ExecFrame Res Port :=
  if hasCommand f.txn.sizeClass then primPos c m (.start (addrR f.txn.addr)) f p (fun _ => f.atPos .lenR)
  else .go (f.atPos .lenR) p

/-- `E_LEN_R` (rules R172, R188): the device's length byte, or the length the class gives. -/
def posLenR (c : Config.Params) (m : MasterIx) (f : ExecFrame) (p : Port) : PosOut ExecFrame Res Port :=
  if sizeClassKind f.txn.sizeClass = .blockData then
    primPos c m .rdbAck f p (fun v =>
      if blockLenOk c v.toNat then f.toDataR 0 v.toNat [] else f.stopWith (.err .invalidArgument))
  else .go (f.toDataR 0 (nRead f.txn) []) p

/-- `E_DATA_R(i)` (rules R172, R178): the last byte is answered NACK. -/
def posDataR (c : Config.Params) (m : MasterIx) (f : ExecFrame) (p : Port) : PosOut ExecFrame Res Port :=
  primPos c m (if f.i + 1 = f.len then .rdbNack else .rdbAck) f p
    (fun v => f.toDataR (f.i + 1) f.len (f.rx ++ [v]))

/-- One position of the transaction sequence (rules R31, R172). -/
def execPos (c : Config.Params) (m : MasterIx) (f : ExecFrame) (p : Port) : PosOut ExecFrame Res Port :=
  match f.epc with
  | .validate => posValidate c m f p
  | .reinit => .go (f.atPos .waitIdle) (programDivider c m c.div100k p)          -- rule R174
  | .waitIdle => primPos c m .waitIdle f p (fun _ => f.atPos .addr)              -- rule R175
  | .addr => primPos c m (.start (firstAddr f.txn)) f p (fun _ => f.atPos .cmd)  -- rule R176
  | .cmd => posCmd c m f p
  | .lenW => posLenW c m f p
  | .dataW => posDataW c m f p
  | .rstart => posRstart c m f p
  | .lenR => posLenR c m f p
  | .dataR => posDataR c m f p
  | .stop => .go (f.atPos .ret) (stopBus c m p)                                  -- rule R173
  | .ret => .ended f.res p

end Sys2Proof.Machine
end

