-- ==== Sys2Proof/Machine/MuxSequence.lean ====
section
/-! DEFINITION. The mux write of rule R226 and the access sequence of rule R223, one position at a time, in the style of
Sequence.lean. A position of an `execute` inside them is one position of theirs. -/

namespace Sys2Proof.Machine

/-- A mux write before its first attempt. -/
def muxStart (sw v : Byte) : MuxFrame := { sw := sw, value := v, tried := 0, inner := none }

/-- What an attempt's result means to its mux write (rule R226), and what the chip then selects (rule R33): the value
written, or nothing known after a failed attempt (93 U13). -/
def muxAttemptOver (w : MuxFrame) (r : Res) (p : Port) : PosOut MuxFrame Bool Port :=
  match r with
  | .ok _ => .ended true (chipWritten w.sw w.value p)
  | .err _ => .go { w with tried := w.tried + 1, inner := none } (chipLost w.sw p)

/-- One position of `MUXWRITE(m, s, v)` (rule R226): an attempt is begun, or goes on. -/
def muxPos (c : Config.Params) (m : MasterIx) (w : MuxFrame) (p : Port) : PosOut MuxFrame Bool Port :=
  match w.inner with
  | none =>
    if w.tried < c.muxAttempts then .go { w with inner := some (execStart (muxTxn w.sw w.value)) } p
    else .ended false p
  | some e =>
    match execPos c m e p with
    | .go e1 p1 => .go { w with inner := some e1 } p1
    | .wait e1 p1 => .wait { w with inner := some e1 } p1
    | .ended r p1 => muxAttemptOver w r p1
    | .fault e1 => .fault e1

/-- The sequencer state of an access at a position, before any attempt (rules R31, R32). DESIGN CHOICE: `retries` before
`A_CLEAR` and `res` before the first result have no value in rules R31 and R223; here they are 0 and `Ok(Quick)`, and no
position reads one of them before it is written (log entry 17). -/
def accessFrame (ep : EndpointRef) (t : Txn) (apc : APos) : AccessFrame :=
  { ep := ep, txn := t, apc := apc, retries := 0, write := none, deselecting := false, inner := none,
    res := .ok .quick }

/-- `A_LOCK` (rules R68, R223): blocked, or on to the mux step with the lock held. -/
def posLock (self : AgentId) (f : AccessFrame) (p : Port) : PosOut AccessFrame Res Port :=
  match acquireLock self p with
  | none => .wait f p
  | some p1 => .go { f with apc := .mux } p1

/-- `RESOLVE` (rule R225): which mux write comes first, if any. -/
def muxChoice (f : AccessFrame) (sw : Byte) (r : MasterState) : AccessFrame :=
  if r.lastSwitch ≠ 0#8 ∧ r.lastSwitch ≠ sw then
    { f with write := some (muxStart r.lastSwitch 0x00#8), deselecting := true }
  else if r.lastSwitch = 0#8 ∨ r.lastChannel ≠ f.ep.channel then
    { f with write := some (muxStart sw (channelMask f.ep.channel)), deselecting := false }
  else { f with apc := .clear }

/-- A mux write of `RESOLVE` has ended: the select after the deselect (rule R225), the cache after the select (rule
R229), or the release without the transaction (rule R230). DESIGN CHOICE: rule R223 writes that release and the return at
`A_MUX` itself, and rule R31 lets every access end at `A_RETURN`; here they are the positions `A_UNLOCK` and `A_RETURN`,
at each of which the call can be held (log entry 7). -/
def muxStepOver (f : AccessFrame) (sw : Byte) (ok : Bool) (p : Port) : PosOut AccessFrame Res Port :=
  if ok = false then .go { f with apc := .unlock, write := none, res := .err .muxSelectFailed } p
  else if f.deselecting then
    .go { f with write := some (muxStart sw (channelMask f.ep.channel)), deselecting := false } p
  else .go { f with apc := .clear, write := none } (setCache sw f.ep.channel p)

/-- `A_MUX` (rules R224, R225): nothing for a direct endpoint. -/
def posMux (c : Config.Params) (m : MasterIx) (f : AccessFrame) (p : Port) : PosOut AccessFrame Res Port :=
  match f.ep.sel with
  | .direct => .go { f with apc := .clear } p
  | .switch sw =>
    match f.write with
    | none => .go (muxChoice f sw (recordOf p)) p
    | some w =>
      match muxPos c m w p with
      | .go w1 p1 => .go { f with write := some w1 } p1
      | .wait w1 p1 => .wait { f with write := some w1 } p1
      | .ended ok p1 => muxStepOver f sw ok p1
      | .fault e => .fault e

/-- `A_CLEAR` (rule R231). -/
def posClear (f : AccessFrame) (p : Port) : PosOut AccessFrame Res Port :=
  .go { f with apc := .attempt, retries := 0, inner := none } (mapRecord clearBothFlags p)

/-- `A_ATTEMPT` (rules R223, R232): `retry_needed` is cleared as the attempt begins. -/
def posAttempt (c : Config.Params) (m : MasterIx) (f : AccessFrame) (p : Port) : PosOut AccessFrame Res Port :=
  match f.inner with
  | none => .go { f with inner := some (execStart f.txn) } (mapRecord clearRetryFlag p)
  | some e =>
    match execPos c m e p with
    | .go e1 p1 => .go { f with inner := some e1 } p1
    | .wait e1 p1 => .wait { f with inner := some e1 } p1
    | .ended r p1 => .go { f with apc := .retryDecide, inner := none, res := r } p1
    | .fault e1 => .fault e1

/-- `A_RETRY_DECIDE` (rules R223, R233, R234). -/
def posRetryDecide (c : Config.Params) (f : AccessFrame) (p : Port) : PosOut AccessFrame Res Port :=
  if retryAgain c f.retries f.res (recordOf p) then
    .go { f with apc := .attempt, retries := f.retries + 1, inner := none } p
  else .go { f with apc := .unlock } p

/-- `A_UNLOCK` (rules R69, R235). -/
def posUnlock (self : AgentId) (f : AccessFrame) (p : Port) : PosOut AccessFrame Res Port :=
  match releaseLock self p with
  | none => .fault .badRelease
  | some p1 => .go { f with apc := .ret } p1

/-- One position of the access sequence on the master the endpoint names (rules R31, R223). At `A_VALIDATE` the master
has been checked (`beginAccess`). -/
def accessPos (c : Config.Params) (self : AgentId) (m : MasterIx) (f : AccessFrame) (p : Port) :
    PosOut AccessFrame Res Port :=
  match f.apc with
  | .validate => .go { f with apc := .lock } p
  | .lock => posLock self f p
  | .mux => posMux c m f p
  | .clear => posClear f p
  | .attempt => posAttempt c m f p
  | .retryDecide => posRetryDecide c f p
  | .unlock => posUnlock self f p
  | .ret => .ended f.res p

end Sys2Proof.Machine
end

