-- ==== Sys2Proof/Machine/Calls.lean ====
section
/-! DEFINITION. Calls on the whole state: who may make them, what they leave when they return or are suspended, how a
suspended call goes on, `deselect_all` (rule R240) and the lock actions of an agent's program (rules R68, R69). -/

namespace Sys2Proof.Machine

/-- A call has returned, is suspended, or has faulted. -/
inductive CallOut where
  | done (r : Ret) (s : State)
  | paused (k : Call) (s : State)
  | fault (e : Fault)
  deriving DecidableEq, Repr

/-- The outcome of a step that ran a call: its result is handed to the agent, or the agent keeps the suspended
call. -/
def finishCall (o : CallOut) : Host.Outcome State Fault Refusal :=
  match o with
  | .done r s => .next (s.returned r)
  | .paused k s => .next (s.suspended k)
  | .fault e => .fault e

/-- A result of a call that made no access and changed nothing. -/
def answer (r : Ret) (s : State) : Host.Outcome State Fault Refusal := finishCall (.done r s)

/-- A call of the register interface or of the master core that names a master by its index: out of range it is a fault
(rule R120), outside `ENABLED` it is turned away with no access, whoever holds the lock (rule R281, 93 U21; log entry 18),
by an agent that does not hold the lock it is a fault (rules R28, R130), and by the lock holder it is `run`. -/
def onMaster (m : Byte) (s : State) (run : MasterIx → Host.Outcome State Fault Refusal) :
    Host.Outcome State Fault Refusal :=
  match masterIx s.cfg m with
  | none => .fault .badMasterIndex
  | some k =>
    if masterEnabled s.cfg k then
      match s.holderFault k with
      | some e => .fault e
      | none => run k
    else answer (.err .invalidArgument) s

/-! Primitives of the master core. -/

/-- A primitive started (`polling = false`) or resumed by this agent, which must hold the lock (rules R28, R130). -/
def primCall (m : MasterIx) (pr : Prim) (polling : Bool) (s : State) : CallOut :=
  match s.holderFault m with
  | some e => .fault e
  | none =>
    match runPrim s.cfg m pr polling (s.port m) with
    | (.again, p) => .paused (.prim m pr) (s.withPort m p)
    | (.ok v, p) => .done (retOfPrim pr v) (s.withPort m p)
    | (.err e, p) => .done (.err e) (s.withPort m p)

/-- A primitive called on a raw master index. -/
def startPrim (m : Byte) (pr : Prim) (s : State) : Host.Outcome State Fault Refusal :=
  onMaster m s fun k => finishCall (primCall k pr false s)

/-! Sequences: what the positions run on one master come to on the whole state. -/

/-- The outcome of positions on the port of master `m`, as that of a call: `call` makes its sequencer state a call,
`ret` its result one. A sequence that is at a scheduling point, or has gone as far as it may, is suspended. -/
def portOut {F R : Type} (m : MasterIx) (s : State) (call : F → Call) (ret : R → Ret) (o : PosOut F R Port) :
    CallOut :=
  match o with
  | .go f p => .paused (call f) (s.withPort m p)
  | .wait f p => .paused (call f) (s.withPort m p)
  | .ended r p => .done (ret r) (s.withPort m p)
  | .fault e => .fault e

/-! Transactions and mux writes. -/

/-- `execute` on a master in range from a sequencer state, by the lock holder (rule R179), as far as the scheduler lets
it. -/
def resumeExecCall (m : MasterIx) (f : ExecFrame) (s : State) : CallOut :=
  match s.holderFault m with
  | some e => .fault e
  | none => portOut m s (.exec m) retOfRes (runPos (execPos s.cfg m) s.quantum f (s.port m))

/-- `execute` started on a master in range: validation before the lock is asked for (rules R171, R179). -/
def beginExecute (m : MasterIx) (t : Txn) (s : State) : CallOut :=
  match validateTxn s.cfg m t with
  | some e => .done (.err e) s
  | none => resumeExecCall m (execStart t) s

/-- `execute` on a raw master index (rule R171, first check). -/
def startExecute (m : Byte) (t : Txn) (s : State) : Host.Outcome State Fault Refusal :=
  match masterIx s.cfg m with
  | none => answer (.err .invalidArgument) s
  | some k => finishCall (beginExecute k t s)

/-- What a mux write returns (rule R226). -/
def retOfMux (ok : Bool) : Ret := if ok then .okay else .fail

/-- A mux write called by itself, started or resumed (rule R226). A transaction that validation refuses fails in
every attempt without an access, so it needs no lock (rules R171, R179). -/
def muxCall (m : MasterIx) (f : MuxFrame) (s : State) : CallOut :=
  match validateTxn s.cfg m (muxTxn f.sw f.value) with
  | some _ => .done .fail s
  | none =>
    match s.holderFault m with
    | some e => .fault e
    | none => portOut m s (.mux m) retOfMux (runPos (muxPos s.cfg m) s.quantum f (s.port m))

/-- A mux write on a raw master index: out of range, every attempt is refused, so it fails (rules R171, R226). -/
def startMux (m sw v : Byte) (s : State) : Host.Outcome State Fault Refusal :=
  match masterIx s.cfg m with
  | none => answer .fail s
  | some k => finishCall (muxCall k (muxStart sw v) s)

/-! Accesses. -/

/-- The positions of an access on its master, as far as the scheduler lets it go. -/
def runAccess (m : MasterIx) (f : AccessFrame) (s : State) : CallOut :=
  portOut m s .access retOfRes (runPos (accessPos s.cfg s.self m) s.quantum f (s.port m))

/-- `A_VALIDATE` of an endpoint (rule R222). -/
def accessMaster (c : Config.Params) (ep : EndpointRef) : Option MasterIx :=
  match masterIx c ep.master with
  | none => none
  | some m => if masterEnabled c m then some m else none

/-- The access is at a position where its agent does not hold the lock: not yet taken, or released (rule R223). -/
def APos.lockFree : APos → Bool
  | .validate => true
  | .lock => true
  | .ret => true
  | _ => false

/-- The stop of an access that goes on at this position: up to `A_LOCK` it needs that the record exists, from there to
`A_UNLOCK` it needs the lock (rules R28, R304). -/
def accessFault (m : MasterIx) (f : AccessFrame) (s : State) : Option Fault :=
  if f.apc = .ret then none
  else if f.apc.lockFree then (if (s.port m).unit.record.isNone then some .noRecord else none)
  else s.holderFault m

/-- An access resumed. -/
def resumeAccessCall (f : AccessFrame) (s : State) : CallOut :=
  match accessMaster s.cfg f.ep with
  | none => .done (.err .invalidArgument) s
  | some m =>
    match accessFault m f s with
    | some e => .fault e
    | none => runAccess m f s

/-- `access` from `A_VALIDATE` (rules R222, R223). -/
def beginAccess (ep : EndpointRef) (t : Txn) (s : State) : CallOut := resumeAccessCall (accessFrame ep t .validate) s

/-! deselect_all. -/

/-- The sequencer state of `deselect_all` before a master's turn: `todo` are the masters not finished. -/
def deselectFrame (todo : List MasterIx) (failed : Bool) : DeselectFrame :=
  { todo := todo, locked := false, switches := [], ok := true, failed := failed, write := none }

/-- The head of the outer loop of rule R240: the next master's lock is taken, or the agent is blocked. -/
def deselectAcquire (d : DeselectFrame) (m : MasterIx) (s : State) : PosOut DeselectFrame Ret State :=
  if (s.port m).unit.record.isNone then .fault .noRecord
  else
    match acquireLock s.self (s.port m) with
    | none => .wait d s
    | some p => .go { d with locked := true, switches := switchesOf s.cfg m, ok := true, write := none } (s.withPort m p)

/-- One position of the inner loop of rule R240: every switch of the list is tried, whatever became of those before
it. -/
def deselectWrite (d : DeselectFrame) (m : MasterIx) (sw : Byte) (rest : List Byte) (s : State) :
    PosOut DeselectFrame Ret State :=
  match muxPos s.cfg m (d.write.getD (muxStart sw 0x00#8)) (s.port m) with
  | .go w p => .go { d with write := some w } (s.withPort m p)
  | .wait w p => .wait { d with write := some w } (s.withPort m p)
  | .ended done p => .go { d with switches := rest, ok := d.ok && done, write := none } (s.withPort m p)
  | .fault e => .fault e

/-- The end of one master's turn (rule R240): the cache is emptied if every deselect succeeded, the lock released. -/
def deselectRelease (d : DeselectFrame) (m : MasterIx) (rest : List MasterIx) (s : State) :
    PosOut DeselectFrame Ret State :=
  match releaseLock s.self (if d.ok then clearCache (s.port m) else s.port m) with
  | none => .fault .badRelease
  | some p => .go (deselectFrame rest (d.failed || !d.ok)) (s.withPort m p)

/-- One position of `deselect_all` (rule R240). Between the release of a master and the acquire of the next any other
agent may move (rule R71). -/
def deselectPos (d : DeselectFrame) (s : State) : PosOut DeselectFrame Ret State :=
  match d.todo with
  | [] => .ended (if d.failed then .err .muxSelectFailed else .okay) s
  | m :: rest =>
    if d.locked then
      match s.holderFault m with
      | some e => .fault e
      | none =>
        match d.switches with
        | [] => deselectRelease d m rest s
        | sw :: more => deselectWrite d m sw more s
    else deselectAcquire d m s

/-- What the positions of `deselect_all` come to. -/
def deselectOut (o : PosOut DeselectFrame Ret State) : CallOut :=
  match o with
  | .go d s => .paused (.deselectAll d) s
  | .wait d s => .paused (.deselectAll d) s
  | .ended r s => .done r s
  | .fault e => .fault e

/-- `deselect_all` from a sequencer state, as far as the scheduler lets it go. -/
def resumeDeselect (d : DeselectFrame) (s : State) : CallOut := deselectOut (runPos deselectPos s.quantum d s)

/-- `deselect_all` from its start: the masters of `ENABLED` in ascending order (rule R240). -/
def beginDeselect (s : State) : CallOut := resumeDeselect (deselectFrame (enabledAscending s.cfg) false) s

/-! Resuming. -/

/-- A suspended call goes on. -/
def resumeCall (k : Call) (s : State) : CallOut :=
  match k with
  | .prim m pr => primCall m pr true s
  | .exec m f => resumeExecCall m f s
  | .mux m f => muxCall m f s
  | .access f => resumeAccessCall f s
  | .deselectAll d => resumeDeselect d s

/-! Lock actions of an agent's program. -/

/-- Drop the first item of this agent's program. -/
def State.dropItem (s : State) : State := s.mapSelf (fun a => { a with program := a.program.tail })

/-- `acquire(m)` (rule R68): a blocked agent takes no step, so only the schedule has moved. Outside `ENABLED` the record is
never used (rule R300), so there the agent gets what a call naming the master gets (rule R281; log entry 18). -/
def acquireItem (m : MasterIx) (s : State) : Host.Outcome State Fault Refusal :=
  if masterEnabled s.cfg m = false then answer (.err .invalidArgument) s.dropItem
  else if (s.port m).unit.record.isNone then .fault .noRecord
  else
    match acquireLock s.self (s.port m) with
    | none => .next s
    | some p => .next ((s.withPort m p).dropItem)

/-- `release(m)` (rule R69). -/
def releaseItem (m : MasterIx) (s : State) : Host.Outcome State Fault Refusal :=
  match releaseLock s.self (s.port m) with
  | none => .fault .badRelease
  | some p => .next ((s.withPort m p).dropItem)

/-! The scheduler. -/

/-- The scheduler's choice (rule R68, 93 U12): the turn at the head of the schedule, or a free one. -/
def State.takeTurn (s : State) : State :=
  match s.schedule with
  | t :: rest => { s with self := t.agent, quantum := t.quantum, schedule := rest, turns := s.turns + 1 }
  | [] => { s with self := Config.freeTurn s.turns, quantum := Config.freeQuantum s.turns, turns := s.turns + 1 }

end Sys2Proof.Machine
end

