-- ==== Sys2Proof/Machine/Commands.lean ====
section
/-! DEFINITION. The command bytes (rules R84, R142 to R148), each as the primitive of the master core it is. -/

namespace Sys2Proof.Machine

/-- `START m, ab` and, with the bus held, `RSTART` (rules R142, R143). -/
def execCmdStart (m ab : Byte) (s : State) : Host.Outcome State Fault Refusal := startPrim m (.start ab) s

/-- `WRB m, b` (rule R144). -/
def execCmdWrite (m b : Byte) (s : State) : Host.Outcome State Fault Refusal := startPrim m (.wrb b) s

/-- `RDB_ACK m` (rule R145). -/
def execCmdReadAck (m : Byte) (s : State) : Host.Outcome State Fault Refusal := startPrim m .rdbAck s

/-- `RDB_NACK m` (rule R146). -/
def execCmdReadNack (m : Byte) (s : State) : Host.Outcome State Fault Refusal := startPrim m .rdbNack s

/-- `STOP m` (rule R147): one write, not waited on. -/
def execCmdStop (m : Byte) (s : State) : Host.Outcome State Fault Refusal :=
  onMaster m s fun k =>
    finishCall (.done .unit (s.withPort k (stopBus s.cfg k (s.port k))))

/-- `IACK` (rule R148): "A model of the engine has no step that writes `CMD_IACK`." -/
def execCmdIack (_m : Byte) (_s : State) : Host.Outcome State Fault Refusal := .refused .commandNotIssued

end Sys2Proof.Machine
end

