-- ==== Sys2Proof/Machine/Layers.lean ====
section
/-! DEFINITION. The composer and the mux layer as calls (rules R172, R223, R226, R240). -/

namespace Sys2Proof.Machine

/-- `EXECUTE m, t` (rules R170 to R179). -/
def execExecute (m : Byte) (t : Txn) (s : State) : Host.Outcome State Fault Refusal := startExecute m t s

/-- `ACCESS ep, t` (rules R222, R223); the channel is not compared with `N_CHANNELS` (log entry 19). -/
def execAccess (ep : EndpointRef) (t : Txn) (s : State) : Host.Outcome State Fault Refusal :=
  finishCall (beginAccess ep t s)

/-- `MUX_SELECT m, sw, ch` (rules R91, R226); any channel 0..7 has its mask (log entry 19). -/
def execMuxSelect (m sw : Byte) (ch : BitVec 3) (s : State) : Host.Outcome State Fault Refusal :=
  startMux m sw (channelMask ch) s

/-- `MUX_DESELECT m, sw` (rules R91, R226). -/
def execMuxDeselect (m sw : Byte) (s : State) : Host.Outcome State Fault Refusal := startMux m sw 0x00#8 s

/-- `DESELECT_ALL` (rule R240). -/
def execDeselectAll (s : State) : Host.Outcome State Fault Refusal :=
  finishCall (beginDeselect s)

end Sys2Proof.Machine
end

