-- ==== Sys2Proof/Machine/Lifecycle.lean ====
section
/-! DEFINITION. Engine initialisation and shutdown (rules R300 to R304), by the initialiser: initialisation
before any call starts, shutdown after every call has returned. -/

namespace Sys2Proof.Machine

/-- What the record of master `m` becomes where that of every master is made `x`: there are records for `1..N_MASTERS`
only (rules R20, R27, R300). -/
def recordFor (c : Config.Params) (x : Option MasterState) (m : MasterIx) : Option MasterState :=
  if m.val < c.nMasters.val then x else none

/-- Change the record of every master. -/
def setRecords (x : Option MasterState) (s : State) : State :=
  { s with
    units := ⟨⟨allMasters.map (fun m => { s.unit m with record := recordFor s.cfg x m })⟩, by simp [allMasters]⟩ }

/-- Create every record (rule R300). -/
def createRecords (s : State) : State := { setRecords (some MasterState.fresh) s with phase := .running }

/-- Destroy every record (rule R304). -/
def destroyRecords (s : State) : State := { setRecords none s with phase := .shutDown }

/-- One master initialised by the initialiser (rule R301). -/
def initMaster (s : State) (m : MasterIx) : State :=
  s.withPort m (programDivider s.cfg m s.cfg.div100k (s.port m))

/-- One master shut down (rule R304). -/
def deinitMaster (s : State) (m : MasterIx) : State := s.withPort m (disableMaster s.cfg m (s.port m))

/-- The engine initialised (rules R300, R301). -/
def startEngine (s : State) : State :=
  (enabledAscending s.cfg).foldl initMaster (createRecords s)

/-- The engine shut down (rule R304). -/
def stopEngine (s : State) : State :=
  destroyRecords ((enabledAscending s.cfg).foldl deinitMaster s)

/-- `ENGINE_INIT` (rules R300, R301), once, before any call has started, the configuration checked first (rule R303).
At another time, or by another agent, it would write what the locks guard (rule R310); after shutdown no call has a
step (rule R304). -/
def execEngineInit (s : State) : Host.Outcome State Fault Refusal :=
  match s.phase with
  | .shutDown => .fault .noRecord
  | .running => .fault .unlockedAccess
  | .powerOn =>
    if s.initialiserAlone && s.noneStarted then
      if configOk s.cfg then finishCall (.done .unit (startEngine s)) else .refused .illFormedConfiguration
    else .fault .unlockedAccess

/-- `ENGINE_SHUTDOWN` (rule R304), after every call has returned: a call in progress, or a lock held, is another agent's
use of a master. Before engine initialisation and after shutdown there is no record to destroy. -/
def execEngineShutdown (s : State) : Host.Outcome State Fault Refusal :=
  match s.phase with
  | .shutDown => .fault .noRecord
  | .powerOn => .fault .noRecord
  | .running => if s.initialiserAlone then finishCall (.done .unit (stopEngine s)) else .fault .unlockedAccess

end Sys2Proof.Machine
end

