-- ==== Sys2Proof/Machine/MasterCore.lean ====
section
/-! DEFINITION. Configuration and polls of the master core as calls (rules R131, R133, R137, R138). The operand
`timeout` is always `PHASE_TIMEOUT` in the engine; the model keeps no clock, so the deadline is a draw (rule R135)
and no rule reads the operand. -/

namespace Sys2Proof.Machine

/-- `INIT m, div` (rule R131): another divider than `DIV_100K` is refused before any access, so before the fault of
a master index out of range. -/
def execInit (m : Byte) (div : Half) (s : State) : Host.Outcome State Fault Refusal :=
  if masterIx s.cfg m = none ∧ div ≠ s.cfg.div100k then answer (.err .invalidArgument) s
  else onMaster m s fun k =>
    if div = s.cfg.div100k then
      finishCall (.done .okay (s.withPort k (programDivider s.cfg k div (s.port k))))
    else answer (.err .invalidArgument) s

/-- `DEINIT m` (rule R133). -/
def execDeinit (m : Byte) (s : State) : Host.Outcome State Fault Refusal :=
  onMaster m s fun k =>
    finishCall (.done .okay (s.withPort k (disableMaster s.cfg k (s.port k))))

/-- `WAIT_IDLE m, timeout` (rule R137). -/
def execWaitIdle (m : Byte) (_timeout : Half) (s : State) : Host.Outcome State Fault Refusal :=
  startPrim m .waitIdle s

/-- `WAIT_PHASE_DONE m, timeout, is_write` (rule R138). -/
def execWaitPhaseDone (m : Byte) (_timeout : Half) (isWrite : Bool) (s : State) :
    Host.Outcome State Fault Refusal :=
  startPrim m (.waitPhase isWrite) s

end Sys2Proof.Machine
end

