-- ==== Sys2Proof/Machine/RegisterInterface.lean ====
section
/-! DEFINITION. The register interface as calls (rules R120 to R122): one window access each, no retry. -/

namespace Sys2Proof.Machine

/-- `READ8 m, REG` (rule R120). -/
def execRead8 (m : Byte) (r : Reg) (s : State) : Host.Outcome State Fault Refusal :=
  onMaster m s fun k =>
    let d := readReg k r (s.port k)
    finishCall (.done (.byte d.1) (s.withPort k d.2))

/-- The refusal of a byte that no step of the engine writes: command bytes other than the five (rules R85, R148,
93 U7) and reserved bits of `CTRL` (93 U5). -/
def writeRefusal (b : Config.Bits) (r : Reg) (v : Byte) : Option Refusal :=
  match r with
  | .cmdstat => if commandIssued b v then none else some .commandNotIssued
  | .ctrl => if ctrlBitsKnown b v then none else some .reservedControlBits
  | .prerLo => none
  | .prerHi => none
  | .data => none

/-- `WRITE8 m, REG, v` (rule R121). Where the byte is one the model refuses, the checks of `onMaster` come first, the lock
fault among them: the spec orders no fault before a refusal (log entry 16). -/
def execWrite8 (m : Byte) (r : Reg) (v : Byte) (s : State) : Host.Outcome State Fault Refusal :=
  onMaster m s fun k =>
    match writeRefusal s.cfg.bits r v with
    | some e => .refused e
    | none => finishCall (.done .unit (s.withPort k (writeReg s.cfg k r v (s.port k))))

end Sys2Proof.Machine
end

