-- ==== Sys2Proof/Machine/Verbs.lean ====
section
/-! DEFINITION. The twelve mapped verbs (rules R180 to R190): `execute` with the verb's size class and direction.
The classes that send no command byte ignore `command`, which is 0x00 here. -/

namespace Sys2Proof.Machine

/-- The transaction of a verb. -/
def verbTxn (sc : BitVec 4) (d : Dir) (a c : Byte) (p : Payload) : Txn :=
  { dir := d, addr := a, command := c, sizeClass := sc, payload := p }

/-- `QUICK m, a, W` (rule R180). -/
def execQuickW (m a : Byte) (s : State) : Host.Outcome State Fault Refusal :=
  startExecute m (verbTxn 0#4 .write a 0#8 .quick) s

/-- `QUICK m, a, R` (rule R180). -/
def execQuickR (m a : Byte) (s : State) : Host.Outcome State Fault Refusal :=
  startExecute m (verbTxn 0#4 .read a 0#8 .quick) s

/-- `BYTE_W m, a, v` (rule R181). -/
def execByteW (m a v : Byte) (s : State) : Host.Outcome State Fault Refusal :=
  startExecute m (verbTxn 1#4 .write a 0#8 (.byte v)) s

/-- `BYTE_R m, a` (rule R182). -/
def execByteR (m a : Byte) (s : State) : Host.Outcome State Fault Refusal :=
  startExecute m (verbTxn 1#4 .read a 0#8 .quick) s

/-- `BYTE_DATA_W m, a, c, v` (rule R183). -/
def execByteDataW (m a c v : Byte) (s : State) : Host.Outcome State Fault Refusal :=
  startExecute m (verbTxn 2#4 .write a c (.byte v)) s

/-- `BYTE_DATA_R m, a, c` (rule R184). -/
def execByteDataR (m a c : Byte) (s : State) : Host.Outcome State Fault Refusal :=
  startExecute m (verbTxn 2#4 .read a c .quick) s

/-- `WORD_DATA_W m, a, c, w` (rule R185). -/
def execWordDataW (m a c : Byte) (w : Half) (s : State) : Host.Outcome State Fault Refusal :=
  startExecute m (verbTxn 3#4 .write a c (.word w)) s

/-- `WORD_DATA_R m, a, c` (rule R186). -/
def execWordDataR (m a c : Byte) (s : State) : Host.Outcome State Fault Refusal :=
  startExecute m (verbTxn 3#4 .read a c .quick) s

/-- `BLOCK_W m, a, c, d` (rule R187). -/
def execBlockW (m a c : Byte) (d : List Byte) (s : State) : Host.Outcome State Fault Refusal :=
  startExecute m (verbTxn 5#4 .write a c (.block d)) s

/-- `BLOCK_R m, a, c` (rule R188). -/
def execBlockR (m a c : Byte) (s : State) : Host.Outcome State Fault Refusal :=
  startExecute m (verbTxn 5#4 .read a c .quick) s

/-- `I2C_BLOCK_W m, a, c, d` (rule R189). -/
def execI2cBlockW (m a c : Byte) (d : List Byte) (s : State) : Host.Outcome State Fault Refusal :=
  startExecute m (verbTxn 8#4 .write a c (.block d)) s

/-- `I2C_BLOCK_R m, a, c, n` (rule R190): the payload's length is `n`, its contents are ignored. -/
def execI2cBlockR (m a c n : Byte) (s : State) : Host.Outcome State Fault Refusal :=
  startExecute m (verbTxn 8#4 .read a c (.block (List.replicate n.toNat 0#8))) s

/-! Unmapped (rule R191) and unknown (rule R192) verbs: validation answers them without an access. -/

/-- `PROC_CALL`, size class 4 (rule R191). -/
def execProcCall (d : Dir) (m a c : Byte) (s : State) : Host.Outcome State Fault Refusal :=
  startExecute m (verbTxn 4#4 d a c .quick) s

/-- `I2C_BLOCK_BROKEN`, size class 6 (rule R191). -/
def execI2cBlockBroken (d : Dir) (m a c : Byte) (s : State) : Host.Outcome State Fault Refusal :=
  startExecute m (verbTxn 6#4 d a c .quick) s

/-- `BLOCK_PROC_CALL`, size class 7 (rule R191). -/
def execBlockProcCall (d : Dir) (m a c : Byte) (s : State) : Host.Outcome State Fault Refusal :=
  startExecute m (verbTxn 7#4 d a c .quick) s

/-- Size class 9 (rule R192). -/
def execUnknownSc9 (d : Dir) (m a c : Byte) (s : State) : Host.Outcome State Fault Refusal :=
  startExecute m (verbTxn 9#4 d a c .quick) s

/-- Size classes 10 and 11 (rule R192). -/
def execUnknownSc1011 (low : BitVec 1) (d : Dir) (m a c : Byte) (s : State) :
    Host.Outcome State Fault Refusal :=
  startExecute m (verbTxn (5#3 ++ low) d a c .quick) s

/-- Size classes 12 to 15 (rule R192). -/
def execUnknownSc1215 (low : BitVec 2) (d : Dir) (m a c : Byte) (s : State) :
    Host.Outcome State Fault Refusal :=
  startExecute m (verbTxn (3#2 ++ low) d a c .quick) s

end Sys2Proof.Machine
end

