-- ==== Sys2Proof/Machine/Dispatch.lean ====
section
/-! DEFINITION. One arm per instruction: the meaning each calls. -/

namespace Sys2Proof.Machine

def exec (i : Instr) (s : State) : Host.Outcome State Fault Refusal :=
  match i with
  | .cmdStart m ab => Sys2Proof.Machine.execCmdStart m ab s
  | .cmdWrite m b => Sys2Proof.Machine.execCmdWrite m b s
  | .cmdReadAck m => Sys2Proof.Machine.execCmdReadAck m s
  | .cmdReadNack m => Sys2Proof.Machine.execCmdReadNack m s
  | .cmdStop m => Sys2Proof.Machine.execCmdStop m s
  | .cmdIack m => Sys2Proof.Machine.execCmdIack m s
  | .quickW m a => Sys2Proof.Machine.execQuickW m a s
  | .quickR m a => Sys2Proof.Machine.execQuickR m a s
  | .byteW m a v => Sys2Proof.Machine.execByteW m a v s
  | .byteR m a => Sys2Proof.Machine.execByteR m a s
  | .byteDataW m a c v => Sys2Proof.Machine.execByteDataW m a c v s
  | .byteDataR m a c => Sys2Proof.Machine.execByteDataR m a c s
  | .wordDataW m a c w => Sys2Proof.Machine.execWordDataW m a c w s
  | .wordDataR m a c => Sys2Proof.Machine.execWordDataR m a c s
  | .blockW m a c d => Sys2Proof.Machine.execBlockW m a c d s
  | .blockR m a c => Sys2Proof.Machine.execBlockR m a c s
  | .i2cBlockW m a c d => Sys2Proof.Machine.execI2cBlockW m a c d s
  | .i2cBlockR m a c n => Sys2Proof.Machine.execI2cBlockR m a c n s
  | .procCall d m a c => Sys2Proof.Machine.execProcCall d m a c s
  | .i2cBlockBroken d m a c => Sys2Proof.Machine.execI2cBlockBroken d m a c s
  | .blockProcCall d m a c => Sys2Proof.Machine.execBlockProcCall d m a c s
  | .unknownSc9 d m a c => Sys2Proof.Machine.execUnknownSc9 d m a c s
  | .unknownSc1011 low d m a c => Sys2Proof.Machine.execUnknownSc1011 low d m a c s
  | .unknownSc1215 low d m a c => Sys2Proof.Machine.execUnknownSc1215 low d m a c s
  | .read8 m r => Sys2Proof.Machine.execRead8 m r s
  | .write8 m r v => Sys2Proof.Machine.execWrite8 m r v s
  | .init m div => Sys2Proof.Machine.execInit m div s
  | .deinit m => Sys2Proof.Machine.execDeinit m s
  | .waitIdle m t => Sys2Proof.Machine.execWaitIdle m t s
  | .waitPhaseDone m t w => Sys2Proof.Machine.execWaitPhaseDone m t w s
  | .execute m t => Sys2Proof.Machine.execExecute m t s
  | .access ep t => Sys2Proof.Machine.execAccess ep t s
  | .muxSelect m sw ch => Sys2Proof.Machine.execMuxSelect m sw ch s
  | .muxDeselect m sw => Sys2Proof.Machine.execMuxDeselect m sw s
  | .deselectAll => Sys2Proof.Machine.execDeselectAll s
  | .engineInit => Sys2Proof.Machine.execEngineInit s
  | .engineShutdown => Sys2Proof.Machine.execEngineShutdown s

end Sys2Proof.Machine
end

