-- ==== Sys2Proof/Machine/Fetch.lean ====
section
/-! DEFINITION. What the agent whose turn it is does: it goes on with its suspended call, or starts the next thing of
its program; the initialiser's own work (rules R300, R304) and the arrival of a caller (rule R7). There is no
instruction memory (rules R13, R72): a call is the bytes of one instruction in the agent's program (log entries 4
and 6). -/

namespace Sys2Proof.Config

/-- The call that the next caller makes once the listed arrivals are used up (rule R7 (a): any endpoint and transaction;
none is `deselect_all`). Argument: the number of agents so far. -/
opaque freeCaller : Nat → Option (EndpointRef × Txn)

end Sys2Proof.Config

namespace Sys2Proof.Machine

/-- What an agent in no call does with the first item of its program. A call that starts after shutdown has no step
(rule R304, 93 U19). -/
def stepItem (item : Item) (s : State) : Host.Outcome State Fault Refusal :=
  match item with
  | .acquire m => acquireItem m s
  | .release m => releaseItem m s
  | .call bytes =>
    if s.phase = .shutDown then .fault .noRecord
    else
      match decode bytes with
      | .ok (i, _) => exec i s.dropItem
      | .error e => .refused (.undecodable e)

/-- The initialiser with nothing placed for it: it initialises the engine after power-on (rules R300, R303), and shuts
it down at a time the spec leaves open, when no other agent runs (rule R304). -/
def lifecycleStep (s : State) : Host.Outcome State Fault Refusal :=
  match s.phase with
  | .powerOn => exec .engineInit s
  | .running => if s.initialiserAlone && Config.freeShutdown s.turns then exec .engineShutdown s else .next s
  | .shutDown => .next s

/-- The program of a caller: one call of an exposed operation (rules R7 (a), R222, R240), nothing where its operands have
no encoding. -/
def callerProgram (x : Option (EndpointRef × Txn)) : List Item :=
  let i := match x with
    | some (ep, t) => Instr.access ep t
    | none => Instr.deselectAll
  if wellFormed i then [.call (encode i)] else []

/-- A caller arrives (rule R7 (a)): it is one more agent, with the program listed for it or a free call. -/
def State.arrive (s : State) : State :=
  match s.arrivals with
  | items :: rest => { s with agents := s.agents ++ [{ Agent.idle with program := items }], arrivals := rest }
  | [] => { s with agents := s.agents ++
      [{ Agent.idle with program := callerProgram (Config.freeCaller s.agents.length) }] }

/-- The step of the agent `s.self`. A choice of an agent that does not exist is the arrival of a caller; a caller with
nothing to do does nothing. -/
def stepSelf (s : State) : Host.Outcome State Fault Refusal :=
  match s.agents[s.self]? with
  | none => .next s.arrive
  | some ag =>
    match ag.call with
    | some k => finishCall (resumeCall k s)
    | none =>
      match ag.program with
      | [] => if s.self = initialiser then lifecycleStep s else .next s
      | item :: _ => stepItem item s

/-- The agent that makes a call placed from outside: the initialiser for engine initialisation and shutdown, else the
first caller (rule R7). -/
def placeAgent (bytes : List Byte) : AgentId :=
  match decode bytes with
  | .ok (.engineInit, _) => initialiser
  | .ok (.engineShutdown, _) => initialiser
  | _ => initialiser + 1

/-- The agents, at least `n + 1` of them: an idle one for each that is missing. -/
def agentsUpTo (n : AgentId) (agents : List Agent) : List Agent :=
  agents ++ List.replicate (n + 1 - agents.length) Agent.idle

/-- How far a call placed from outside goes at once: no position of a call without a yield is left over. -/
def placeQuantum : Nat := 100000

/-- Place a call's bytes as the next thing its agent does, in no call, and give it the next turn. -/
def State.placeCall (s : State) (bytes : List Byte) : State :=
  { s with
    agents := (agentsUpTo (placeAgent bytes) s.agents).modify (placeAgent bytes)
      (fun ag => { ag with program := .call bytes :: ag.program, call := none })
    schedule := { agent := placeAgent bytes, quantum := placeQuantum } :: s.schedule }

end Sys2Proof.Machine
end

