-- ==== Sys2Proof/Machine/Step.lean ====
section
/-! DEFINITION. One step: the scheduler picks an agent (log entry 5) and that agent moves. -/

namespace Sys2Proof.Machine

/-- One step of the machine. -/
def step (s : State) : Host.Outcome State Fault Refusal := stepSelf s.takeTurn

/-- An opcode-table word placed as the call that the next step makes (log entry 6): it stands for the loading of a
caller's program from outside. -/
def State.withFetchWord (s : State) (nbits w : Nat) : State := s.placeCall (tableBytes nbits w)

end Sys2Proof.Machine
end

