-- ==== Sys2Proof/Safety.lean ====
section
/-! DEFINITION. What the statements about the engine speak of: who holds a lock, the accesses a call made, the
accesses the spec asks for, what a call on one master leaves alone, and the invariants. -/

namespace Sys2Proof.Machine

/-- This agent holds the lock of `k` (rule R28). -/
def Holds (s : State) (k : MasterIx) : Prop := ∃ r, (s.unit k).record = some r ∧ r.lock = .held s.self

/-- This agent may use master `k`: the master is in `ENABLED` and the agent holds its lock (rules R28, R281). -/
def MayUse (s : State) (k : MasterIx) : Prop := masterEnabled s.cfg k = true ∧ Holds s k

/-- The most data bytes a transaction carries: a block has `BLOCK_MAX`, a word two (rule R90). -/
def maxData (c : Config.Params) : Nat := max 2 c.blockMax.val

/-- No transaction has more phases: beside its data, the address, the command, the length byte and the restart (rule
R193). -/
def maxPhases (c : Config.Params) : Nat := 4 + maxData c

/-- The scheduler lets the moving agent go so far that a call without a retry is not cut short before its next
scheduling point: none has more positions to run; with the `BLOCK_MAX` of rule R5 this is 100 (log entry 5). -/
def Unhurried (s : State) : Prop := 68 + maxData s.cfg ≤ s.quantum

/-- A write access. -/
def Access.isWrite : Access → Bool
  | .wr _ _ => true
  | .rd _ _ => false

/-- The writes among some accesses. -/
def writesOf (h : List Access) : List Access := h.filter Access.isWrite

/-- The access is a STOP command (rule R147). -/
def isStop (c : Config.Params) (a : Access) : Bool := decide (a = .wr .cmdstat (cmdStop c.bits))

/-- Number of STOP commands among some accesses. -/
def stopCount (c : Config.Params) (h : List Access) : Nat := h.countP (isStop c)

/-- An access the engine may make: a write of `CMDSTAT` is one of the five command bytes (rules R84, R85). -/
def accessIssued (b : Config.Bits) : Access → Bool
  | .wr .cmdstat v => commandIssued b v
  | .wr _ _ => true
  | .rd _ _ => true

/-- The status answer ends its poll at once and well: BUSY clear where `wait_idle` polls, TIP, AL and RXACK clear where
`wait_phase_done` does; no other bit matters (rules R137, R138). -/
def answerFits (b : Config.Bits) (idle : Bool) (v : Byte) : Bool :=
  if idle then !bitSet v b.busy else !bitSet v b.tip && !bitSet v b.al && !bitSet v b.rxack

/-- The status answers suit the polls, in order; `true` is a poll of `wait_idle`. -/
def answersFit (b : Config.Bits) : List Bool → List Byte → Bool
  | [], _ => true
  | _ :: _, [] => false
  | k :: ks, v :: vs => answerFits b k v && answersFit b ks vs

/-- The next status answers suit the polls `ks`. -/
def Smooth (c : Config.Params) (q : Inputs) (ks : List Bool) : Prop := answersFit c.bits ks q.status = true

/-- `n` phase polls. -/
def phases (n : Nat) : List Bool := List.replicate n false

/-- The polls of a transaction of `n` phases (rules R172, R175). -/
def txnPolls (n : Nat) : List Bool := true :: phases n

/-- The next answers to `DATA` reads are these bytes. -/
def DataNext (q : Inputs) (d : List Byte) : Prop := d <+: q.data

/-- The four writes of `init` (rule R131). -/
def reinitWrites (c : Config.Params) : List Access :=
  [.wr .ctrl ctrlOff, .wr .prerLo (wordLow c.div100k), .wr .prerHi (wordHigh c.div100k),
   .wr .ctrl (ctrlOn c.bits)]

/-- The writes of a START (rule R142). -/
def startWrites (c : Config.Params) (ab : Byte) : List Access :=
  [.wr .data ab, .wr .cmdstat (cmdStart c.bits)]

/-- The writes that send one byte (rule R144). -/
def sendWrites (c : Config.Params) (b : Byte) : List Access :=
  [.wr .data b, .wr .cmdstat (cmdWrite c.bits)]

/-- The writes that send a list of bytes in index order (rule R64). -/
def sendAllWrites (c : Config.Params) (d : List Byte) : List Access := d.flatMap (sendWrites c)

/-- The writes that receive `n` bytes: all but the last answered ACK (rule R178). -/
def receiveWrites (c : Config.Params) (n : Nat) : List Access :=
  List.replicate (n - 1) (.wr .cmdstat (cmdReadAck c.bits)) ++
    (if n = 0 then [] else [.wr .cmdstat (cmdReadNack c.bits)])

/-- The write of STOP (rule R147). -/
def stopWrites (c : Config.Params) : List Access := [.wr .cmdstat (cmdStop c.bits)]

/-- A transaction's writes: the reinit, the wire sequence, STOP (rules R172 to R174). -/
def txnWrites (c : Config.Params) (middle : List Access) : List Access :=
  reinitWrites c ++ middle ++ stopWrites c

/-- What a transaction writes between the reinit and STOP, `n` being the number of data bytes a read receives (rules
R172, R176, R177, R178). -/
def wireWrites (c : Config.Params) (t : Txn) (n : Nat) : List Access :=
  startWrites c (firstAddr t) ++ (if hasCommand t.sizeClass then sendWrites c t.command else []) ++
    match t.dir with
    | .write =>
      (if t.sizeClass = 5#4 then sendWrites c (BitVec.ofNat 8 (txBytes t).length) else []) ++
        sendAllWrites c (txBytes t)
    | .read =>
      (if hasCommand t.sizeClass then startWrites c (addrR t.addr) else []) ++
        (if t.sizeClass = 5#4 then [.wr .cmdstat (cmdReadAck c.bits)] else []) ++ receiveWrites c n

/-- Number of phases of a transaction that succeeds, `n` as for `wireWrites` (rule R193). -/
def phaseCount (t : Txn) (n : Nat) : Nat :=
  1 + (if hasCommand t.sizeClass then 1 else 0) + (if t.sizeClass = 5#4 then 1 else 0) +
    match t.dir with
    | .write => (txBytes t).length
    | .read => (if hasCommand t.sizeClass then 1 else 0) + n

/-- The payload of a transaction that succeeded and received the data bytes `d` (rules R90, R170, R172). -/
def payloadOf (t : Txn) (d : List Byte) : Payload :=
  match t.dir with
  | .write => .quick
  | .read => packRead t.sizeClass d

/-- The bytes read from `DATA` by a transaction that received `d`: a block read hears the length byte first (rule
R188). -/
def heardBytes (t : Txn) (d : List Byte) : List Byte :=
  if t.dir = .read ∧ t.sizeClass = 5#4 then BitVec.ofNat 8 d.length :: d else d

/-- The byte a read of `DATA` gave. -/
def dataHeard : Access → Option Byte
  | .rd .data v => some v
  | _ => none

/-- The accesses to master `k` since `s` read these bytes from `DATA`, in this order. -/
def Heard (s t : State) (k : MasterIx) (xs : List Byte) : Prop :=
  ∃ new, (t.unit k).history = (s.unit k).history ++ new ∧ new.filterMap dataHeard = xs

/-- `d` are the data bytes the transaction receives: as many as rule R172 says, and the controller's next answers to
`DATA` reads where those are listed. -/
def Receives (c : Config.Params) (q : Inputs) (t : Txn) (d : List Byte) : Prop :=
  (t.dir = .write → d = []) ∧ (t.dir = .read → t.sizeClass ≠ 5#4 → d.length = nRead t) ∧
  (t.dir = .read → t.sizeClass = 5#4 → 1 ≤ d.length ∧ d.length ≤ c.blockMax.val) ∧
  ∀ ys, ys <+: q.data → ys.length = (heardBytes t d).length → heardBytes t d = ys

/-- The controller's answer to a status read of master `k` that follows the accesses `ws` (rules R11, R66). -/
def statusAfter (s : State) (k : MasterIx) (ws : List Access) : Byte :=
  ((s.unit k).inputs.draw k .cmdstat ((s.unit k).history ++ ws)).1

/-- The deadline drawn where that status read shows the bit still set (rule R135). -/
def deadlineAfter (s : State) (k : MasterIx) (ws : List Access) : Bool :=
  (((s.unit k).inputs.draw k .cmdstat ((s.unit k).history ++ ws)).2.drawDeadline k
    ((s.unit k).history ++ ws ++ [.rd .cmdstat (statusAfter s k ws)])).1

/-- The controller's answer to a `DATA` read that follows that status read (rules R145, R146). -/
def dataAfter (s : State) (k : MasterIx) (ws : List Access) : Byte :=
  (((s.unit k).inputs.draw k .cmdstat ((s.unit k).history ++ ws)).2.draw k .data
    ((s.unit k).history ++ ws ++ [.rd .cmdstat (statusAfter s k ws)])).1

/-- What a call on master `k` by the agent `s.self` leaves alone. -/
def OnlyMaster (s t : State) (k : MasterIx) : Prop :=
  t.cfg = s.cfg ∧ t.self = s.self ∧ t.quantum = s.quantum ∧ t.schedule = s.schedule ∧ t.turns = s.turns ∧
  t.phase = s.phase ∧ t.arrivals = s.arrivals ∧
  (∀ j : MasterIx, j ≠ k → (t.unit j) = (s.unit j)) ∧
  (∀ n, n ≠ s.self → t.agents[n]? = s.agents[n]?) ∧
  (∀ a, (∀ r, a ≠ regAddr s.cfg k r) → t.window.read a = s.window.read a)

/-- The call returned `r` to its agent, whose program is as before. -/
def GaveBack (s t : State) (r : Ret) : Prop :=
  t.agents = s.agents.modify s.self (fun a => { a with call := none, returned := a.returned ++ [r] })

/-- What one access stores in the window: a write its byte at its register's address, a read nothing. -/
def storeAccess (c : Config.Params) (k : MasterIx) (w : Memory) : Access → Memory
  | .wr r v => w.write (regAddr c k r) v
  | .rd _ _ => w

/-- What some accesses to master `k`, in order, store in the window. -/
def storeAll (c : Config.Params) (k : MasterIx) (w : Memory) (writes : List Access) : Memory :=
  writes.foldl (storeAccess c k) w

/-- The accesses to master `k` since `s`: their number, and the writes among them in order. -/
def HistoryGrew (s t : State) (k : MasterIx) (writes : List Access) (n : Nat) : Prop :=
  ∃ new, (t.unit k).history = (s.unit k).history ++ new ∧ writesOf new = writes ∧ new.length = n

/-- The accesses of a call on master `k`, and the window after it: what its writes stored, every other byte as
before. -/
def Accessed (s t : State) (k : MasterIx) (writes : List Access) (n : Nat) : Prop :=
  HistoryGrew s t k writes n ∧ t.window = storeAll s.cfg k s.window writes

/-- A call on master `k` ran to its end: what it returned, the accesses it made, and the frame; the record and the
mux chips of the master are as before. -/
def RanOn (s t : State) (k : MasterIx) (r : Ret) (writes : List Access) (n : Nat) : Prop :=
  OnlyMaster s t k ∧ GaveBack s t r ∧ Accessed s t k writes n ∧
  (t.unit k).record = (s.unit k).record ∧ (t.unit k).chips = (s.unit k).chips

/-- A poll of master `k` made one status read after the writes `ws`, which did not end it: `Timeout` where the deadline
has passed, else the agent is suspended at the primitive's poll; no flag is written (rules R135, R137, R138). -/
def PollUnmet (s t : State) (k : MasterIx) (pr : Prim) (ws : List Access) : Prop :=
  OnlyMaster s t k ∧ Accessed s t k ws (ws.length + 1) ∧
  (t.unit k).history = (s.unit k).history ++ ws ++ [.rd .cmdstat (statusAfter s k ws)] ∧
  (t.unit k).record = (s.unit k).record ∧ (t.unit k).chips = (s.unit k).chips ∧
  (deadlineAfter s k ws = true → GaveBack s t (.err .timeout)) ∧
  (deadlineAfter s k ws = false → t.agents = s.agents.modify s.self (fun a => { a with call := some (.prim k pr) }))

/-- A write phase of master `k`, whose record was `r`, completed at the status read after the writes `ws`: the result and
the flags by the AL and RXACK bits of that status byte (rule R141). -/
def WritePhaseDone (s t : State) (k : MasterIx) (r : MasterState) (ws : List Access) : Prop :=
  OnlyMaster s t k ∧ Accessed s t k ws (ws.length + 1) ∧
  (t.unit k).history = (s.unit k).history ++ ws ++ [.rd .cmdstat (statusAfter s k ws)] ∧
  (t.unit k).chips = (s.unit k).chips ∧
  (bitSet (statusAfter s k ws) s.cfg.bits.al = false → bitSet (statusAfter s k ws) s.cfg.bits.rxack = false →
    GaveBack s t .okay ∧ (t.unit k).record = some r) ∧
  (bitSet (statusAfter s k ws) s.cfg.bits.al = false → bitSet (statusAfter s k ws) s.cfg.bits.rxack = true →
    GaveBack s t (.err .noAck) ∧ (t.unit k).record = some { r with retryNeeded := true }) ∧
  (bitSet (statusAfter s k ws) s.cfg.bits.al = true → bitSet (statusAfter s k ws) s.cfg.bits.rxack = false →
    GaveBack s t (.err .arbitrationLost) ∧ (t.unit k).record = some { r with retryNeeded := true }) ∧
  (bitSet (statusAfter s k ws) s.cfg.bits.al = true → bitSet (statusAfter s k ws) s.cfg.bits.rxack = true →
    GaveBack s t (.err .arbitrationLost) ∧
    (t.unit k).record = some { r with retryNeeded := true, persistentNack := true })

/-- A read phase completed: the byte then read from `DATA`, or, where AL is set, `ArbitrationLost` and no read of `DATA`;
RXACK is not looked at (rules R138, R145, R146). -/
def ReadPhaseDone (s t : State) (k : MasterIx) (r : MasterState) (ws : List Access) : Prop :=
  (bitSet (statusAfter s k ws) s.cfg.bits.al = false →
    RanOn s t k (.byte (dataAfter s k ws)) ws (ws.length + 2) ∧
    (t.unit k).history = (s.unit k).history ++ ws ++
      [.rd .cmdstat (statusAfter s k ws), .rd .data (dataAfter s k ws)]) ∧
  (bitSet (statusAfter s k ws) s.cfg.bits.al = true →
    OnlyMaster s t k ∧ Accessed s t k ws (ws.length + 1) ∧
    (t.unit k).history = (s.unit k).history ++ ws ++ [.rd .cmdstat (statusAfter s k ws)] ∧
    (t.unit k).chips = (s.unit k).chips ∧ GaveBack s t (.err .arbitrationLost) ∧
    (t.unit k).record = some { r with retryNeeded := true })

/-- The instruction `i` on master `m` is a write phase: the writes it makes before its poll, and the primitive it is
(rules R142, R144). -/
def WritePhase (c : Config.Params) (m : Byte) (i : Instr) (ws : List Access) (pr : Prim) : Prop :=
  (∃ b, i = .cmdStart m b ∧ ws = [.wr .data b, .wr .cmdstat (cmdStart c.bits)] ∧ pr = .start b) ∨
  (∃ b, i = .cmdWrite m b ∧ ws = [.wr .data b, .wr .cmdstat (cmdWrite c.bits)] ∧ pr = .wrb b)

/-- The same for a read phase (rules R145, R146). -/
def ReadPhase (c : Config.Params) (m : Byte) (i : Instr) (ws : List Access) (pr : Prim) : Prop :=
  (i = .cmdReadAck m ∧ ws = [.wr .cmdstat (cmdReadAck c.bits)] ∧ pr = .rdbAck) ∨
  (i = .cmdReadNack m ∧ ws = [.wr .cmdstat (cmdReadNack c.bits)] ∧ pr = .rdbNack)

/-- The instruction waits on the phase under way, with no write of its own (rule R138). -/
def WaitPhase (m : Byte) (i : Instr) (ws : List Access) (pr : Prim) : Prop :=
  ∃ timeout w, i = .waitPhaseDone m timeout w ∧ ws = [] ∧ pr = .waitPhase w

/-! Transactions position by position (rule R172). -/

/-- The primitive that a position of a transaction runs, where it runs one (rule R172). -/
def ExecFrame.prim (f : ExecFrame) : Option Prim :=
  match f.epc with
  | .waitIdle => some .waitIdle
  | .addr => some (.start (firstAddr f.txn))
  | .cmd => if hasCommand f.txn.sizeClass then some (.wrb f.txn.command) else none
  | .lenW => if f.txn.sizeClass = 5#4 then some (.wrb (BitVec.ofNat 8 (txBytes f.txn).length)) else none
  | .dataW => some (.wrb ((txBytes f.txn).getD f.i 0#8))
  | .rstart => if hasCommand f.txn.sizeClass then some (.start (addrR f.txn.addr)) else none
  | .lenR => if f.txn.sizeClass = 5#4 then some .rdbAck else none
  | .dataR => some (if f.i + 1 = f.len then .rdbNack else .rdbAck)
  | .validate => none
  | .reinit => none
  | .stop => none
  | .ret => none

/-- The position that follows a position without an error, `v` being the byte it received (rules R172, R188); only a
position with a byte to receive reads `v`. -/
def ExecFrame.goesTo (c : Config.Params) (f : ExecFrame) (v : Byte) : ExecFrame :=
  match f.epc with
  | .validate => f.atPos .reinit
  | .reinit => f.atPos .waitIdle
  | .waitIdle => f.atPos .addr
  | .addr => f.atPos .cmd
  | .cmd => f.toBody
  | .lenW => f.toDataW 0
  | .dataW => f.toDataW (f.i + 1)
  | .rstart => f.atPos .lenR
  | .lenR =>
    if f.txn.sizeClass = 5#4 then
      if 1 ≤ v.toNat ∧ v.toNat ≤ c.blockMax.val then f.toDataR 0 v.toNat [] else f.stopWith (.err .invalidArgument)
    else f.toDataR 0 (nRead f.txn) []
  | .dataR => f.toDataR (f.i + 1) f.len (f.rx ++ [v])
  | .stop => f.atPos .ret
  | .ret => f

/-- The accesses a position without a primitive makes: the reinit and the STOP, else none (rules R172 to R174). -/
def ExecFrame.ownWrites (c : Config.Params) (f : ExecFrame) : List Access :=
  match f.epc with
  | .reinit => reinitWrites c
  | .stop => stopWrites c
  | _ => []

/-- The writes of a primitive before its poll (rules R137, R138, R142, R144 to R146). -/
def primWrites (c : Config.Params) : Prim → List Access
  | .start ab => startWrites c ab
  | .wrb b => sendWrites c b
  | .rdbAck => [.wr .cmdstat (cmdReadAck c.bits)]
  | .rdbNack => [.wr .cmdstat (cmdReadNack c.bits)]
  | .waitIdle => []
  | .waitPhase _ => []

/-- The status bit a primitive polls (rules R137, R138). -/
def Prim.bit (b : Config.Bits) : Prim → Fin 8
  | .waitIdle => b.busy
  | _ => b.tip

/-- The phase transmits a byte: RXACK counts (rule R138). -/
def Prim.sends : Prim → Bool
  | .start _ => true
  | .wrb _ => true
  | .waitPhase w => w
  | _ => false

/-- The phase receives a byte, read from `DATA` at its end (rules R145, R146). -/
def Prim.receives : Prim → Bool
  | .rdbAck => true
  | .rdbNack => true
  | _ => false

/-- The poll of `pr` that ended at the status byte `v` ends the primitive with the error `e`: a phase with AL set, or one
that transmits with RXACK set and AL clear; `wait_idle` looks at neither bit (rules R137, R141). -/
def Prim.FailsAt (b : Config.Bits) (pr : Prim) (v : Byte) (e : Err) : Prop :=
  pr ≠ .waitIdle ∧
    ((bitSet v b.al = true ∧ e = .arbitrationLost) ∨
      (bitSet v b.al = false ∧ bitSet v b.rxack = true ∧ pr.sends = true ∧ e = .noAck))

/-- The record after a phase that failed at the status byte `v` (rules R139 to R141). -/
def failedRecord (b : Config.Bits) (pr : Prim) (v : Byte) (r : MasterState) : MasterState :=
  { r with
    retryNeeded := true
    persistentNack := r.persistentNack || (pr.sends && bitSet v b.al && bitSet v b.rxack) }

/-- The poll of `pr` that ended at the status byte `v` ends it with the error `e` and leaves the record `x`, `r` being
that before: a failed phase, or the bit still set and `late` the deadline drawn; a `Timeout` writes no flag (rules R135,
R137, R138). -/
def Prim.Fails (b : Config.Bits) (pr : Prim) (v : Byte) (late : Option Bool) (r : MasterState) (e : Err)
    (x : MasterState) : Prop :=
  (bitSet v (pr.bit b) = false ∧ pr.FailsAt b v e ∧ x = failedRecord b pr v r) ∨
    (bitSet v (pr.bit b) = true ∧ late = some true ∧ e = .timeout ∧ x = r)

/-- The primitives of a transaction in order: `wait_idle`, then its phases, `n` being the number of data bytes a read
receives (rules R172, R175 to R178). -/
def txnPrims (t : Txn) (n : Nat) : List Prim :=
  .waitIdle :: .start (firstAddr t) :: (if hasCommand t.sizeClass then [.wrb t.command] else []) ++
    match t.dir with
    | .write =>
      (if t.sizeClass = 5#4 then [.wrb (BitVec.ofNat 8 (txBytes t).length)] else []) ++ (txBytes t).map .wrb
    | .read =>
      (if hasCommand t.sizeClass then [.start (addrR t.addr)] else []) ++
        (if t.sizeClass = 5#4 then [.rdbAck] else []) ++ List.replicate (n - 1) .rdbAck ++
        (if n = 0 then [] else [.rdbNack])

/-- `n` is the number of data bytes the transaction receives, as far as its first `j` primitives tell: the size class
gives it, or the length byte of a block read, its fifth primitive, which is the first byte the controller's answers list
(rules R172, R188). -/
def ReceivesCount (c : Config.Params) (q : Inputs) (t : Txn) (j n : Nat) : Prop :=
  t.dir = .read → (t.sizeClass ≠ 5#4 → n = nRead t) ∧
    (t.sizeClass = 5#4 → 1 ≤ n ∧ n ≤ c.blockMax.val ∧ (5 ≤ j → DataNext q [BitVec.ofNat 8 n]))

/-- From `s` to `u` the accesses `new` to master `k` were made, its record became `r`, and nothing else changed but the
controller's answers that were used. -/
def Touches (s u : State) (k : MasterIx) (new : List Access) (r : Option MasterState) : Prop :=
  u.cfg = s.cfg ∧ u.self = s.self ∧ u.quantum = s.quantum ∧ u.schedule = s.schedule ∧ u.turns = s.turns ∧
  u.phase = s.phase ∧ u.arrivals = s.arrivals ∧ u.agents = s.agents ∧
  (∀ j : MasterIx, j ≠ k → (u.unit j) = (s.unit j)) ∧
  (u.unit k).history = (s.unit k).history ++ new ∧ u.window = storeAll s.cfg k s.window new ∧
  (u.unit k).record = r ∧ (u.unit k).chips = (s.unit k).chips

/-- The state after the writes `ws` to master `k`, nothing else changed. -/
def State.afterWrites (s : State) (k : MasterIx) (ws : List Access) : State :=
  s.withPort k
    { unit := { s.unit k with history := (s.unit k).history ++ ws }, window := storeAll s.cfg k s.window ws }

/-- `put f` is a call with a transaction on master `k` under way whose sequencer state is `f`: an `execute` or a verb,
an attempt of a mux write, of an access, or of a mux write inside an access or `deselect_all` (rules R31, R223, R226,
R240). -/
inductive Carries (c : Config.Params) (k : MasterIx) : (ExecFrame → Call) → Prop
  | execute : Carries c k (fun f => .exec k f)
  | muxWrite (w : MuxFrame) (hv : validateTxn c k (muxTxn w.sw w.value) = none) :
      Carries c k (fun f => .mux k { w with inner := some f })
  | attempt (a : AccessFrame) (hm : accessMaster c a.ep = some k) (ha : a.apc = .attempt) :
      Carries c k (fun f => .access { a with inner := some f })
  | resolve (a : AccessFrame) (w : MuxFrame) (sw : Byte) (hm : accessMaster c a.ep = some k) (ha : a.apc = .mux)
      (hs : a.ep.sel = .switch sw) : Carries c k (fun f => .access { a with write := some { w with inner := some f } })
  | deselect (d : DeselectFrame) (w : MuxFrame) (rest : List MasterIx) (sw : Byte) (more : List Byte)
      (ht : d.todo = k :: rest) (hl : d.locked = true) (hs : d.switches = sw :: more) :
      Carries c k (fun f => .deselectAll { d with write := some { w with inner := some f } })

/-- The suspended call is at a poll of the status bit `b` of master `k`: a primitive, or a transaction whose poll has
yielded (rule R135). -/
def PollsAt (c : Config.Params) (k : MasterIx) (b : Fin 8) (C : Call) : Prop :=
  (∃ pr, C = .prim k pr ∧ b = pr.bit c.bits) ∨
  (∃ put f pr, Carries c k put ∧ C = put f ∧ f.polling = true ∧ f.prim = some pr ∧ b = pr.bit c.bits)

/-! Conditions of the statements. -/

/-- A caller that holds the lock of an enabled master, with a 7-bit target address, meets an idle bus and `n` phases
that are done and acknowledged at the first status read; the window is canonical and the scheduler lets it run. -/
def Ready (s : State) (k : MasterIx) (a : Byte) (n : Nat) : Prop :=
  masterEnabled s.cfg k = true ∧ Holds s k ∧ a.toNat ≤ 0x7F ∧ Smooth s.cfg (s.unit k).inputs (txnPolls n) ∧
  s.window.wf = true ∧ Unhurried s

/-- The transaction passes validation (rule R171). -/
def Valid (s : State) (k : MasterIx) (t : Txn) : Prop := validateTxn s.cfg k t = none

/-- The payload is the one that rule R90's table asks for with this size class and direction. -/
def PayloadGood (c : Config.Params) (t : Txn) : Prop :=
  (t.sizeClass = 0#4 → t.payload = .quick) ∧
  (t.sizeClass = 1#4 ∨ t.sizeClass = 2#4 →
    (t.dir = .write → ∃ v, t.payload = .byte v) ∧ (t.dir = .read → t.payload = .quick)) ∧
  (t.sizeClass = 3#4 → (t.dir = .write → ∃ w, t.payload = .word w) ∧ (t.dir = .read → t.payload = .quick)) ∧
  (t.sizeClass = 5#4 →
    (t.dir = .write → ∃ d, t.payload = .block d ∧ 1 ≤ d.length ∧ d.length ≤ c.blockMax.val) ∧
    (t.dir = .read → t.payload = .quick)) ∧
  (t.sizeClass = 8#4 → ∃ d, t.payload = .block d ∧ 1 ≤ d.length ∧ d.length ≤ c.blockMax.val)

/-- The transaction that an instruction of the composer runs, and the master it names (rules R180 to R192): the verbs
with their size class and direction, and `execute` itself. -/
def instrTxn : Instr → Option (Byte × Txn)
  | .quickW m a => some (m, ⟨.write, a, 0#8, 0#4, .quick⟩)
  | .quickR m a => some (m, ⟨.read, a, 0#8, 0#4, .quick⟩)
  | .byteW m a v => some (m, ⟨.write, a, 0#8, 1#4, .byte v⟩)
  | .byteR m a => some (m, ⟨.read, a, 0#8, 1#4, .quick⟩)
  | .byteDataW m a c v => some (m, ⟨.write, a, c, 2#4, .byte v⟩)
  | .byteDataR m a c => some (m, ⟨.read, a, c, 2#4, .quick⟩)
  | .wordDataW m a c w => some (m, ⟨.write, a, c, 3#4, .word w⟩)
  | .wordDataR m a c => some (m, ⟨.read, a, c, 3#4, .quick⟩)
  | .blockW m a c d => some (m, ⟨.write, a, c, 5#4, .block d⟩)
  | .blockR m a c => some (m, ⟨.read, a, c, 5#4, .quick⟩)
  | .i2cBlockW m a c d => some (m, ⟨.write, a, c, 8#4, .block d⟩)
  | .i2cBlockR m a c n => some (m, ⟨.read, a, c, 8#4, .block (List.replicate n.toNat 0#8)⟩)
  | .procCall d m a c => some (m, ⟨d, a, c, 4#4, .quick⟩)
  | .i2cBlockBroken d m a c => some (m, ⟨d, a, c, 6#4, .quick⟩)
  | .blockProcCall d m a c => some (m, ⟨d, a, c, 7#4, .quick⟩)
  | .unknownSc9 d m a c => some (m, ⟨d, a, c, 9#4, .quick⟩)
  | .unknownSc1011 low d m a c => some (m, ⟨d, a, c, 5#3 ++ low, .quick⟩)
  | .unknownSc1215 low d m a c => some (m, ⟨d, a, c, 3#2 ++ low, .quick⟩)
  | .execute m t => some (m, t)
  | .cmdStart _ _ => none
  | .cmdWrite _ _ => none
  | .cmdReadAck _ => none
  | .cmdReadNack _ => none
  | .cmdStop _ => none
  | .cmdIack _ => none
  | .read8 _ _ => none
  | .write8 _ _ _ => none
  | .init _ _ => none
  | .deinit _ => none
  | .waitIdle _ _ => none
  | .waitPhaseDone _ _ _ => none
  | .access _ _ => none
  | .muxSelect _ _ _ => none
  | .muxDeselect _ _ => none
  | .deselectAll => none
  | .engineInit => none
  | .engineShutdown => none

/-- The agent `s.self` cannot use master `k`, and the fault it gets: it does not hold the lock of the record, or there is
no record, before engine initialisation or after shutdown (rules R28, R276, R304; log entry 16). -/
def CannotUse (s : State) (k : MasterIx) (e : Fault) : Prop :=
  (e = .unlockedAccess ∧ ∃ r, (s.unit k).record = some r ∧ r.lock ≠ .held s.self) ∨
  (e = .unlockedAccess ∧ (s.unit k).record = none ∧ s.phase ≠ .shutDown) ∨
  (e = .noRecord ∧ (s.unit k).record = none ∧ s.phase = .shutDown)

/-- For a block read, the device's length byte is in range (rule R188); other transactions ask nothing. -/
def LengthByteOk (c : Config.Params) (q : Inputs) (t : Txn) : Prop :=
  sizeClassKind t.sizeClass = .blockData → t.dir = .read → ∃ v rest, q.data = v :: rest ∧ blockLenOk c v.toNat = true

/-- The STOP byte is none of the other four command bytes (it is so in the reference layout, rule R84). -/
def StopDistinct (b : Config.Bits) : Prop :=
  cmdStop b ≠ cmdStart b ∧ cmdStop b ≠ cmdWrite b ∧ cmdStop b ≠ cmdReadAck b ∧ cmdStop b ≠ cmdReadNack b

/-- The writes of one mux write that succeeds at its first attempt (rules R181, R226). -/
def muxWrites (c : Config.Params) (sw v : Byte) : List Access :=
  txnWrites c (startWrites c (addrW sw) ++ sendWrites c v)

/-- The answers of attempts at a mux write none of which is acknowledged: for each, an idle bus, then an address phase
that is done, not lost and not acknowledged (rules R137, R141). -/
def nackedTries (b : Config.Bits) : Nat → List Byte → Bool
  | 0, _ => true
  | n + 1, v0 :: v1 :: rest =>
    answerFits b true v0 && !bitSet v1 b.tip && !bitSet v1 b.al && bitSet v1 b.rxack && nackedTries b n rest
  | _ + 1, _ => false

/-- The error of an attempt whose START meets the status byte `v`, none where the phase is good; that the deadline then
passes where TIP is set is said apart (rules R135, R141). -/
def startError (b : Config.Bits) (v : Byte) : Option Err :=
  if bitSet v b.tip then some .timeout
  else if bitSet v b.al then some .arbitrationLost
  else if bitSet v b.rxack then some .noAck
  else none

/-- The persistent-NACK signature: the phase is done, AL and RXACK are set (rule R140). -/
def signature (b : Config.Bits) (v : Byte) : Bool := !bitSet v b.tip && bitSet v b.al && bitSet v b.rxack

/-- The status answers of attempts each of which meets an idle bus and ends at its START, the bytes there being `vs`. -/
def triesFit (b : Config.Bits) : List Byte → List Byte → Bool
  | [], _ => true
  | v :: vs, v0 :: w :: rest => answerFits b true v0 && decide (w = v) && triesFit b vs rest
  | _ :: _, _ => false

/-- The deadlines of those attempts: passed at each that meets TIP set (rule R135). -/
def triesLate (b : Config.Bits) (vs : List Byte) : List Bool :=
  (vs.filter (fun v => bitSet v b.tip)).map (fun _ => true)

/-- After the failed attempts `seen` and one more that met `v`, another is made: its error is retryable, and the retries
made are fewer than the budget, `RETRY_HIGH` where this attempt set `retry_needed` and one of them all showed the
signature (rules R139, R140, R232 to R234). -/
def retried (c : Config.Params) (seen : List Byte) (v : Byte) : Bool :=
  (!bitSet v c.bits.tip || c.retryOnTimeout) &&
    decide (seen.length <
      if !bitSet v c.bits.tip && (seen ++ [v]).any (signature c.bits) then c.retryHigh else c.retryLow)

/-- After the failed attempts `seen` each of the attempts `vs` fails at its START and is followed by another. -/
def triesGoOn (c : Config.Params) : List Byte → List Byte → Bool
  | _, [] => true
  | seen, v :: vs => (startError c.bits v).isSome && retried c seen v && triesGoOn c (seen ++ [v]) vs

/-- The writes of `n` attempts at `t` that end at their START (rules R142, R172, R173). -/
def refusedWrites (c : Config.Params) (t : Txn) (n : Nat) : List Access :=
  (List.replicate n (txnWrites c (startWrites c (firstAddr t)))).flatten

/-- The status answers of the deselects of one master's switches, in order: acknowledged at the first attempt where the
list says true, at none of the attempts where it says false (rules R226, R240). -/
def deselectAnswers (c : Config.Params) : List Bool → List Byte → Bool
  | [], _ => true
  | true :: rest, l => answersFit c.bits (txnPolls 2) l && deselectAnswers c rest (l.drop 3)
  | false :: rest, l => nackedTries c.bits c.muxAttempts l && deselectAnswers c rest (l.drop (2 * c.muxAttempts))

/-- The writes of a mux write whose every attempt is refused at the address. -/
def nackedWrites (c : Config.Params) (sw : Byte) (n : Nat) : List Access :=
  (List.replicate n (txnWrites c (startWrites c (addrW sw)))).flatten

/-- The writes of the deselects of one master, their outcomes in order. -/
def deselectWrites (c : Config.Params) : List Byte → List Bool → List Access
  | sw :: rest, true :: oks => muxWrites c sw 0x00#8 ++ deselectWrites c rest oks
  | sw :: rest, false :: oks => nackedWrites c sw c.muxAttempts ++ deselectWrites c rest oks
  | _, _ => []

/-- The number of accesses of those deselects. -/
def deselectAccesses (c : Config.Params) (oks : List Bool) : Nat :=
  (oks.map (fun ok => if ok then 12 else 9 * c.muxAttempts)).sum

/-- The number of positions that `deselect_all` runs at most after the first, when no attempt of a mux write goes
further than its address phase without success (rule R240). -/
def deselectPositions (c : Config.Params) : Nat :=
  ((enabledAscending c).map (fun m => 2 + (11 + 7 * c.muxAttempts) * (switchesOf c m).length)).sum

/-- The master an instruction names; none for the three that name no single master. -/
def instrMaster : Instr → Option Byte
  | .cmdStart m _ => some m
  | .cmdWrite m _ => some m
  | .cmdReadAck m => some m
  | .cmdReadNack m => some m
  | .cmdStop m => some m
  | .cmdIack m => some m
  | .quickW m _ => some m
  | .quickR m _ => some m
  | .byteW m _ _ => some m
  | .byteR m _ => some m
  | .byteDataW m _ _ _ => some m
  | .byteDataR m _ _ => some m
  | .wordDataW m _ _ _ => some m
  | .wordDataR m _ _ => some m
  | .blockW m _ _ _ => some m
  | .blockR m _ _ => some m
  | .i2cBlockW m _ _ _ => some m
  | .i2cBlockR m _ _ _ => some m
  | .procCall _ m _ _ => some m
  | .i2cBlockBroken _ m _ _ => some m
  | .blockProcCall _ m _ _ => some m
  | .unknownSc9 _ m _ _ => some m
  | .unknownSc1011 _ _ m _ _ => some m
  | .unknownSc1215 _ _ m _ _ => some m
  | .read8 m _ => some m
  | .write8 m _ _ => some m
  | .init m _ => some m
  | .deinit m => some m
  | .waitIdle m _ => some m
  | .waitPhaseDone m _ _ => some m
  | .execute m _ => some m
  | .access ep _ => some ep.master
  | .muxSelect m _ _ => some m
  | .muxDeselect m _ => some m
  | .deselectAll => none
  | .engineInit => none
  | .engineShutdown => none

/-- The instructions that never write `MS[m]` (rules R122, R131, R133, R137, R147). -/
def leavesRecords : Instr → Bool
  | .read8 _ _ => true
  | .write8 _ _ _ => true
  | .init _ _ => true
  | .deinit _ => true
  | .waitIdle _ _ => true
  | .cmdStop _ => true
  | .procCall _ _ _ _ => true
  | .i2cBlockBroken _ _ _ _ => true
  | .blockProcCall _ _ _ _ => true
  | .unknownSc9 _ _ _ _ => true
  | .unknownSc1011 _ _ _ _ _ => true
  | .unknownSc1215 _ _ _ _ _ => true
  | _ => false

/-- The instructions that write no lock and no selection cache: all but the three calls that take locks and the
lifecycle (rules R179, R229, R240). -/
def leavesLockAndCache : Instr → Bool
  | .access _ _ => false
  | .deselectAll => false
  | .engineInit => false
  | .engineShutdown => false
  | _ => true

/-- From `s` to `t` the lock and the selection cache of master `k` are as before, and its flags are only set, never cleared
(rules R139, R140, R179). -/
def FlagsOnlySet (s t : State) (k : MasterIx) : Prop :=
  ((s.unit k).record = none → (t.unit k).record = none) ∧
  (∀ r, (s.unit k).record = some r → ∃ x, (t.unit k).record = some x ∧ x.lock = r.lock ∧
    x.lastSwitch = r.lastSwitch ∧ x.lastChannel = r.lastChannel ∧
    (r.retryNeeded = true → x.retryNeeded = true) ∧ (r.persistentNack = true → x.persistentNack = true))

/-- The master of a suspended call; none for `deselect_all`, and for an access to a master out of range. -/
def Call.master (c : Config.Params) : Call → Option MasterIx
  | .prim m _ => some m
  | .exec m _ => some m
  | .mux m _ => some m
  | .access f => masterIx c f.ep.master
  | .deselectAll _ => none

/-- The suspended call is below `access`: it takes no lock and writes no selection cache (rules R179, R229, R240). -/
def Call.leavesLockAndCache : Call → Bool
  | .prim _ _ => true
  | .exec _ _ => true
  | .mux _ _ => true
  | .access _ => false
  | .deselectAll _ => false

/-- The suspended call never writes `MS[m]` (rule R137). -/
def Call.leavesRecords : Call → Bool
  | .prim _ .waitIdle => true
  | _ => false

/-- What holds of a call that has returned, and of one that is suspended; a fault is not spoken of. -/
def CallOut.Meets (returned : Ret → State → Prop) (suspended : Call → State → Prop) : CallOut → Prop
  | .done r u => returned r u
  | .paused c u => suspended c u
  | .fault _ => True

/-- Agent `a` is in the call `k`. -/
def InCall (s : State) (a : AgentId) (k : Call) : Prop := ∃ ag, s.agents[a]? = some ag ∧ ag.call = some k

/-- The machine has stopped: a fault or a refusal is its answer. -/
def Halted (s : State) : Prop := ∀ t, step s ≠ .next t

/-- A run: each state is the step's answer to the one before, and a machine that has stopped stays as it is. -/
def IsRun (r : Nat → State) : Prop := ∀ n, step (r n) = .next (r (n + 1)) ∨ (Halted (r n) ∧ r (n + 1) = r n)

/-- The next step is agent `a`'s, which goes on with the call `C`: where that is at a poll, one iteration of it. -/
def Iterates (s : State) (a : AgentId) (C : Call) : Prop := ¬ Halted s ∧ InCall s a C ∧ s.takeTurn.self = a

/-- The status read of the next step shows bit `b` of master `k` set: a poll of it is not met (rule R135). -/
def Unmet (s : State) (k : MasterIx) (b : Fin 8) : Prop := bitSet (statusAfter s k []) b = true

/-- The next step's draw of `DeadlinePassed`, where its poll is not met (rule R135). -/
def DeadlineDrawn (s : State) (k : MasterIx) : Prop := deadlineAfter s k [] = true

/-- A weakly fair run (rule R136), as long as the machine does not stop: an agent in a call moves again, and a poll that
is iterated for ever, its condition not met at any iteration from one on, draws `DeadlinePassed` at one of them. A run
without it is no run of the hardware (93 U11); a claim that calls end takes it as a premise (log entry 5). -/
structure WeaklyFair (r : Nat → State) : Prop where
  run : IsRun r
  moves : ∀ n a C, InCall (r n) a C → ∃ j, n ≤ j ∧ (Halted (r j) ∨ (r j).takeTurn.self = a)
  draws : ∀ n a C k b, PollsAt (r n).cfg k b C → (∀ i, ∃ j, i ≤ j ∧ Iterates (r j) a C) →
    (∀ j, n ≤ j → Iterates (r j) a C → Unmet (r j) k b) →
    ∃ j, n ≤ j ∧ Iterates (r j) a C ∧ DeadlineDrawn (r j) k

/-- The window is in canonical form. -/
def WindowCanonical (s : State) : Prop := s.window.wf = true

/-- Every command byte ever written is one of the five (rules R84, R85). -/
def OnlyIssuedCommands (s : State) : Prop :=
  ∀ m : MasterIx, ∀ a ∈ (s.unit m).history, accessIssued s.cfg.bits a = true

/-- Records exist exactly while the engine is running, one for each master of `1..N_MASTERS`, and then the configuration
is one the model accepts (rules R27, R61, R300, R302, R303, R304). -/
def LifecycleSound (s : State) : Prop :=
  (s.phase = .running → configOk s.cfg = true ∧ ∀ m : MasterIx, (s.unit m).record ≠ none ↔ m.val < s.cfg.nMasters.val) ∧
  (s.phase ≠ .running → ∀ m : MasterIx, (s.unit m).record = none)

/-- A master outside `ENABLED` is never used: its record, where there is one, is as engine initialisation created it, and no
`deselect_all` under way has it before it (rules R240, R281, R300). -/
def ReservedUnused (s : State) : Prop :=
  (∀ m : MasterIx, masterEnabled s.cfg m = false → ∀ r, (s.unit m).record = some r → r = MasterState.fresh) ∧
  (∀ ag ∈ s.agents, ∀ d, ag.call = some (.deselectAll d) → ∀ m ∈ d.todo, masterEnabled s.cfg m = true)

/-- STOPs that a running `execute` can still make (rule R173). -/
def ExecFrame.stopsLeft (f : ExecFrame) : Nat := if f.epc = .ret then 0 else 1

/-- STOPs that a mux write can still make: one for each attempt that is not over (rules R173, R226). -/
def MuxFrame.stopsLeft (c : Config.Params) (w : MuxFrame) : Nat :=
  match w.inner with
  | none => c.muxAttempts - w.tried
  | some e => e.stopsLeft + (c.muxAttempts - (w.tried + 1))

/-- STOPs that an access can still make in its attempts, the current one counted in `now` (rules R233, R236). -/
def attemptsLeft (c : Config.Params) (now retries : Nat) : Nat := now + (max c.retryHigh c.retryLow - retries)

/-- STOPs that an access can still make in `RESOLVE`: two mux writes where none is under way, the select after a deselect
(rule R225), nothing for a direct endpoint (rule R224). -/
def AccessFrame.muxStopsLeft (c : Config.Params) (f : AccessFrame) : Nat :=
  match f.ep.sel, f.write with
  | .direct, _ => 0
  | .switch _, none => 2 * c.muxAttempts
  | .switch _, some w => w.stopsLeft c + if f.deselecting then c.muxAttempts else 0

/-- STOPs that an access can still make: those of its mux writes, then one for each attempt (rules R173, R225, R236). -/
def AccessFrame.stopsLeft (c : Config.Params) (f : AccessFrame) : Nat :=
  match f.apc with
  | .validate => f.muxStopsLeft c + attemptsLeft c 1 0
  | .lock => f.muxStopsLeft c + attemptsLeft c 1 0
  | .mux => f.muxStopsLeft c + attemptsLeft c 1 0
  | .clear => attemptsLeft c 1 0
  | .attempt => attemptsLeft c ((f.inner.map ExecFrame.stopsLeft).getD 1) f.retries
  | .retryDecide => attemptsLeft c 0 f.retries
  | .unlock => 0
  | .ret => 0

/-- No access of any master's history is lost, changed or moved (rule R66). -/
def HistoriesGrow (s t : State) : Prop := ∀ m : MasterIx, (s.unit m).history <+: (t.unit m).history

end Sys2Proof.Machine
end

