-- ==== Sys2Proof/Certificates/Slice0/Obligations.lean ====
section
/-! DEFINITION. The statements about the engine, for the provers. Each docstring names the rules of spec/ it rests on;
what is the model's own choice is said there with its log entry. -/

open Sys2Proof Sys2Proof.Machine

/-! Encoding (log entry 4: bytes around the opcode byte are the model's own; the opcode bytes are rules R84, R89). -/

/-- Decoding an encoded well-formed instruction gives it back, with every operand at every value. The bytes around the
opcode byte are the model's own choice (log entry 4). -/
def Obligations.DecodeOfEncode : Prop :=
  ∀ (i : Instr) (rest : List Byte), wellFormed i = true → decode (encode i ++ rest) = .ok (i, rest)

/-- Bytes that decode are the encoding of the instruction they decode to, which is well formed: one encoding each. The
bytes around the opcode byte are the model's own choice (log entry 4). -/
def Obligations.EncodeOfDecode : Prop :=
  ∀ (bs : List Byte) (i : Instr) (rest : List Byte), decode bs = .ok (i, rest) →
    wellFormed i = true ∧ bs = encode i ++ rest

/-- A few words of the table, and the refusal by name of a command byte the engine does not issue (rules R84, R85,
R89). The format byte and the operand bytes are the model's own choice (log entry 4). -/
def Obligations.TableWordsDecode : Prop :=
  decode [0x90#8, 0#8, 11#8, 0xA0#8] = .ok (.cmdStart 11#8 0xA0#8, []) ∧
  decode [0x28#8, 0#8, 11#8] = .ok (.cmdReadNack 11#8, []) ∧
  decode [0x07#8, 0#8, 11#8, 0x50#8, 0x00#8] = .ok (.wordDataR 11#8 0x50#8 0x00#8, []) ∧
  decode [0x0A#8, 0#8, 2#8, 0x50#8, 0x20#8, 2#8, 0xAA#8, 0xBB#8] =
    .ok (.blockW 2#8 0x50#8 0x20#8 [0xAA#8, 0xBB#8], []) ∧
  decode [0x1F#8, 0#8, 2#8, 0x50#8, 0#8] = .ok (.unknownSc1215 3#2 .read 2#8 0x50#8 0#8, []) ∧
  decode [0xC0#8, 0#8, 2#8] = .error .commandNotIssued

/-- All 32 verb codes decode: the twelve mapped verbs, the unmapped ones in pairs, the unknown ones (rule R89). The
format byte 0 that marks a verb is the model's own choice (log entry 4). -/
def Obligations.VerbCodesAllDecode : Prop :=
  decodeOp 0x00#8 0#8 = .ok .quickW ∧ decodeOp 0x01#8 0#8 = .ok .quickR ∧
  decodeOp 0x02#8 0#8 = .ok .byteW ∧ decodeOp 0x03#8 0#8 = .ok .byteR ∧
  decodeOp 0x04#8 0#8 = .ok .byteDataW ∧ decodeOp 0x05#8 0#8 = .ok .byteDataR ∧
  decodeOp 0x06#8 0#8 = .ok .wordDataW ∧ decodeOp 0x07#8 0#8 = .ok .wordDataR ∧
  decodeOp 0x0A#8 0#8 = .ok .blockW ∧ decodeOp 0x0B#8 0#8 = .ok .blockR ∧
  decodeOp 0x10#8 0#8 = .ok .i2cBlockW ∧ decodeOp 0x11#8 0#8 = .ok .i2cBlockR ∧
  (∀ d : BitVec 1, decodeOp (0x08#8 ||| d.setWidth 8) 0#8 = .ok .procCall ∧
    decodeOp (0x0C#8 ||| d.setWidth 8) 0#8 = .ok .i2cBlockBroken ∧
    decodeOp (0x0E#8 ||| d.setWidth 8) 0#8 = .ok .blockProcCall ∧
    decodeOp (0x12#8 ||| d.setWidth 8) 0#8 = .ok .unknownSc9) ∧
  (∀ d : BitVec 2, decodeOp (0x14#8 ||| d.setWidth 8) 0#8 = .ok .unknownSc1011) ∧
  (∀ d : BitVec 3, decodeOp (0x18#8 ||| d.setWidth 8) 0#8 = .ok .unknownSc1215)

/-- The address byte has the 7-bit address in bits 7:1 and the direction in bit 0 (rule R86). In every layout each command
byte has exactly the bits rule R84 names and `CTRL_ON` exactly the bit EN (rule R81); in the reference layout they are
0x90, 0x10, 0x20, 0x28, 0x40 and 0x80. -/
def Obligations.AddressByteForm : Prop :=
  (∀ a : Byte, a.toNat ≤ 0x7F → (addrW a).toNat = 2 * a.toNat ∧ (addrR a).toNat = 2 * a.toNat + 1) ∧
  (∀ (b : Config.Bits) (n : Fin 8),
    (cmdStart b).getLsbD n.val = decide (n = b.start ∨ n = b.write) ∧
    (cmdWrite b).getLsbD n.val = decide (n = b.write) ∧
    (cmdReadAck b).getLsbD n.val = decide (n = b.read) ∧
    (cmdReadNack b).getLsbD n.val = decide (n = b.read ∨ n = b.ack) ∧
    (cmdStop b).getLsbD n.val = decide (n = b.stop) ∧
    (ctrlOn b).getLsbD n.val = decide (n = b.en) ∧ ctrlOff.getLsbD n.val = false) ∧
  (cmdStart Config.refBits = 0x90#8 ∧ cmdWrite Config.refBits = 0x10#8 ∧ cmdReadAck Config.refBits = 0x20#8 ∧
    cmdReadNack Config.refBits = 0x28#8 ∧ cmdStop Config.refBits = 0x40#8 ∧ ctrlOn Config.refBits = 0x80#8)

/-- A word is sent low byte first and assembled from the bytes received low byte first (rule R92). -/
def Obligations.WordLowByteFirst : Prop :=
  (∀ w : Half, (wordLow w).toNat = w.toNat % 256 ∧ (wordHigh w).toNat = w.toNat / 256 ∧
    txBytes { dir := .write, addr := 0#8, command := 0#8, sizeClass := 3#4, payload := .word w } =
      [wordLow w, wordHigh w]) ∧
  (∀ b0 b1 : Byte, (assembleWord b0 b1).toNat = b0.toNat + 256 * b1.toNat ∧
    packRead 3#4 [b0, b1] = .word (assembleWord b0 b1))

/-- The first address byte carries the read direction for QUICK and BYTE reads, the write direction in every other
case (rule R176). -/
def Obligations.FirstAddressDirection : Prop :=
  ∀ t : Txn,
    (t.dir = .read → (t.sizeClass = 0#4 ∨ t.sizeClass = 1#4) → firstAddr t = addrR t.addr) ∧
    (¬(t.dir = .read ∧ (t.sizeClass = 0#4 ∨ t.sizeClass = 1#4)) → firstAddr t = addrW t.addr)

/-! The step. -/

/-- When the agent whose turn it is is in no call, the engine is not shut down and its next item decodes, the step is
`exec` of that instruction, the turn taken and the item dropped. That an agent's program is a list of such items is the
model's own choice (log entries 5 and 6). -/
def Obligations.StepRunsDecodedCall : Prop :=
  ∀ (s : State) (ag : Agent) (bytes rest : List Byte) (items : List Item) (i : Instr), s.phase ≠ .shutDown →
    s.takeTurn.agents[s.takeTurn.self]? = some ag → ag.call = none → ag.program = .call bytes :: items →
    decode bytes = .ok (i, rest) → step s = exec i s.takeTurn.dropItem

/-- Otherwise: the turn is the head of the schedule; a suspended call goes on; a lock action is taken; undecodable bytes
are refused by name; a call after shutdown has no step (rule R304); a caller with nothing to do does nothing; the
initialiser with nothing to do initialises the engine, may shut it down when it is alone, else does nothing (rules R300,
R304); a choice of an agent that does not exist is the arrival of a caller (rule R7). Schedule, arrivals and the time of
the shutdown are the model's own choices (log entries 5, 6, 8). -/
def Obligations.StepOtherwise : Prop :=
  (∀ (s : State) (t : Turn) (rest : List Turn), s.schedule = t :: rest →
    s.takeTurn = { s with self := t.agent, quantum := t.quantum, schedule := rest, turns := s.turns + 1 }) ∧
  (∀ (s : State) (ag : Agent) (k : Call), s.takeTurn.agents[s.takeTurn.self]? = some ag → ag.call = some k →
    step s = finishCall (resumeCall k s.takeTurn)) ∧
  (∀ (s : State) (ag : Agent) (m : MasterIx) (items : List Item), s.takeTurn.agents[s.takeTurn.self]? = some ag →
    ag.call = none →
    (ag.program = .acquire m :: items → step s = acquireItem m s.takeTurn) ∧
    (ag.program = .release m :: items → step s = releaseItem m s.takeTurn)) ∧
  (∀ (s : State) (ag : Agent) (bytes : List Byte) (items : List Item), s.takeTurn.agents[s.takeTurn.self]? = some ag →
    ag.call = none → ag.program = .call bytes :: items →
    (∀ e : DecodeError, s.phase ≠ .shutDown → decode bytes = .error e → step s = .refused (.undecodable e)) ∧
    (s.phase = .shutDown → step s = .fault .noRecord)) ∧
  (∀ (s : State) (ag : Agent), s.takeTurn.agents[s.takeTurn.self]? = some ag → ag.call = none → ag.program = [] →
    (s.takeTurn.self ≠ 0 → step s = .next s.takeTurn) ∧
    (s.takeTurn.self = 0 →
      (s.phase = .powerOn → step s = exec .engineInit s.takeTurn) ∧
      (s.phase = .running →
        step s = .next s.takeTurn ∨
          (s.takeTurn.initialiserAlone = true ∧ step s = exec .engineShutdown s.takeTurn)) ∧
      (s.phase = .shutDown → step s = .next s.takeTurn))) ∧
  (∀ s : State, s.takeTurn.agents[s.takeTurn.self]? = none →
    step s = .next s.takeTurn.arrive ∧
    ∃ items, s.takeTurn.arrive.agents = s.agents ++ [{ program := items, call := none, returned := [] }] ∧
      ∀ x rest, s.arrivals = x :: rest → items = x ∧ s.takeTurn.arrive.arrivals = rest)

/-- `acquire(m)` of a master in `ENABLED` takes a free lock and drops the item from the agent's program; everything
else of the master, the agent and the machine is as before. An agent that finds the lock held, by another or by
itself, is blocked (rule R68). Outside `ENABLED` it is turned away with `InvalidArgument` and takes no lock (rules
R281, R300). That there is no step without a record, and what `acquire` answers outside `ENABLED`, are the model's
readings (log entries 16, 18). -/
def Obligations.AcquireTakesFreeLock : Prop :=
  (∀ (s : State) (m : MasterIx) (r : MasterState), masterEnabled s.cfg m = true → (s.unit m).record = some r →
    r.lock = .free →
    ∃ t, acquireItem m s = .next t ∧ (t.unit m).record = some { r with lock := .held s.self } ∧
      (t.unit m).history = (s.unit m).history ∧ (t.unit m).chips = (s.unit m).chips ∧
      (t.unit m).inputs = (s.unit m).inputs ∧ t.window = s.window ∧ OnlyMaster s t m ∧
      t.agents = s.agents.modify s.self (fun a => { a with program := a.program.tail })) ∧
  (∀ (s : State) (m : MasterIx) (r : MasterState), masterEnabled s.cfg m = true → (s.unit m).record = some r →
    r.lock ≠ .free → acquireItem m s = .next s) ∧
  (∀ (s : State) (m : MasterIx), masterEnabled s.cfg m = true → (s.unit m).record = none →
    acquireItem m s = .fault .noRecord) ∧
  (∀ (s : State) (m : MasterIx), masterEnabled s.cfg m = false →
    acquireItem m s = .next (s.dropItem.returned (.err .invalidArgument)))

/-- `release(m)` by the holder frees the lock and drops the item from the agent's program; everything else is as before.
By any other agent it is the fault `BadRelease` (rule R69). -/
def Obligations.ReleaseFreesOrFaults : Prop :=
  (∀ (s : State) (m : MasterIx) (r : MasterState), (s.unit m).record = some r → r.lock = .held s.self →
    ∃ t, releaseItem m s = .next t ∧ (t.unit m).record = some { r with lock := .free } ∧
      (t.unit m).history = (s.unit m).history ∧ (t.unit m).chips = (s.unit m).chips ∧
      (t.unit m).inputs = (s.unit m).inputs ∧ t.window = s.window ∧ OnlyMaster s t m ∧
      t.agents = s.agents.modify s.self (fun a => { a with program := a.program.tail })) ∧
  (∀ (s : State) (m : MasterIx), ¬ Holds s m → releaseItem m s = .fault .badRelease)

/-! Reset, initialisation, shutdown. -/

/-- After power-on there is no record, no call, no access made, every mux chip is unspecified (rule R302), each parameter to
which rule R5 gives a value has it, `ENABLED` lies in `1..N_MASTERS`, and the topology table has the shape of rule R220:
65 entries, 48 of kind SFP and 8 of kind QSFP, all behind a switch, and 9 direct ones of kind NONE. -/
def Obligations.ResetIsPowerOn : Prop :=
  (∀ m : MasterIx, (State.reset.unit m).record = none ∧ (State.reset.unit m).history = [] ∧
    ∀ sw : Byte, chipSelection (State.reset.unit m).chips sw = .unspecified) ∧
  (∀ a ∈ State.reset.agents, a.call = none ∧ a.returned = []) ∧ State.reset.phase = .powerOn ∧
  (State.reset.cfg.nMasters.val = 14 ∧ State.reset.cfg.masterStride = 0x20 ∧ State.reset.cfg.blockMax.val = 32 ∧
    State.reset.cfg.nChannels.val = 8 ∧ ∀ m ∈ State.reset.cfg.enabled, m.val < 14) ∧
  (State.reset.cfg.phaseTimeout = 30 ∧ State.reset.cfg.muxAttempts = 3 ∧ State.reset.cfg.retryLow = 5 ∧
    State.reset.cfg.retryHigh = 2000 ∧ State.reset.cfg.retryOnTimeout = false ∧
    State.reset.cfg.div100k ≠ 0x0040#16) ∧
  (State.reset.cfg.topology.length = 65 ∧
    State.reset.cfg.topology.countP (fun e => decide (e.kind = .sfp ∧ e.sel ≠ .direct)) = 48 ∧
    State.reset.cfg.topology.countP (fun e => decide (e.kind = .qsfp ∧ e.sel ≠ .direct)) = 8 ∧
    State.reset.cfg.topology.countP (fun e => decide (e.kind = .plain ∧ e.sel = .direct)) = 9 ∧
    Config.topologyShape State.reset.cfg.topology = true)

/-- Engine initialisation after power-on, by the initialiser alone and before any call has started, creates the
record of every master of `1..N_MASTERS`, and no other, with the values of rule R300, makes the four writes of `init` on
every enabled master and no other access (rule R301).
What counts as the initialiser alone, and that the configuration is checked here, are the model's own readings (log
entries 8 and 13). -/
def Obligations.EngineInitCompletes : Prop :=
  ∀ s : State, s.phase = .powerOn → s.initialiserAlone = true → s.noneStarted = true → configOk s.cfg = true →
    ∃ t, exec .engineInit s = .next t ∧
      (∀ m : MasterIx, (t.unit m).record = if m.val < s.cfg.nMasters.val then
        some { lock := .free, lastSwitch := 0#8, lastChannel := 0#3, persistentNack := false, retryNeeded := false }
        else none) ∧
      (∀ m ∈ s.cfg.enabled, (t.unit m).history = (s.unit m).history ++ reinitWrites s.cfg) ∧
      (∀ m, m ∉ s.cfg.enabled → (t.unit m).history = (s.unit m).history) ∧
      (∀ m, (t.unit m).chips = (s.unit m).chips ∧ (t.unit m).inputs = (s.unit m).inputs) ∧
      GaveBack s t .unit ∧ t.cfg = s.cfg ∧ t.phase = .running ∧ t.self = s.self ∧ t.quantum = s.quantum ∧
      t.schedule = s.schedule ∧ t.turns = s.turns ∧ t.arrivals = s.arrivals

/-- After engine initialisation the divider and control registers of every enabled master hold `DIV_100K` and
`CTRL_ON`, and every other byte of the window is as before (rules R61, R131, R302). -/
def Obligations.EngineInitSetsRegisters : Prop :=
  ∀ s t : State, s.window.wf = true → configOk s.cfg = true → exec .engineInit s = .next t →
    (∀ m ∈ s.cfg.enabled,
      t.window.read (regAddr s.cfg m .prerLo) = wordLow s.cfg.div100k ∧
      t.window.read (regAddr s.cfg m .prerHi) = wordHigh s.cfg.div100k ∧
      t.window.read (regAddr s.cfg m .ctrl) = ctrlOn s.cfg.bits) ∧
    (∀ a, (∀ m ∈ s.cfg.enabled, a ≠ regAddr s.cfg m .prerLo ∧ a ≠ regAddr s.cfg m .prerHi ∧
        a ≠ regAddr s.cfg m .ctrl) → t.window.read a = s.window.read a)

/-- Engine initialisation is made once, before any call has started, and by the initialiser alone; at another time
while the engine is not shut down, or by another agent, it is the fault `UnlockedAccess`. Shutdown while the engine
runs, but not by the initialiser alone, is `UnlockedAccess`; before initialisation it has no record to destroy and is
`noRecord`. After shutdown both are `noRecord`: there is no step (rules R28, R300, R304, R310). An ill-formed
configuration is refused, and these are the conditions of a well-formed one (rules R5, R61, R80, R221, R276). What
counts as the initialiser alone, and that initialisation is where the configuration is refused, are the model's own
readings (log entries 8, 13, 16). -/
def Obligations.LifecycleStops : Prop :=
  (∀ s : State, s.phase = .powerOn →
    (s.initialiserAlone = false ∨ s.noneStarted = false → exec .engineInit s = .fault .unlockedAccess) ∧
    (s.initialiserAlone = true → s.noneStarted = true → configOk s.cfg = false →
      exec .engineInit s = .refused .illFormedConfiguration) ∧
    exec .engineShutdown s = .fault .noRecord) ∧
  (∀ s : State, s.phase = .running → exec .engineInit s = .fault .unlockedAccess ∧
    (s.initialiserAlone = false → exec .engineShutdown s = .fault .unlockedAccess)) ∧
  (∀ s : State, s.phase = .shutDown →
    exec .engineInit s = .fault .noRecord ∧ exec .engineShutdown s = .fault .noRecord) ∧
  (∀ c : Config.Params, configOk c = true ↔
    [c.offs.prerLo, c.offs.prerHi, c.offs.ctrl, c.offs.cmdstat, c.offs.data].Nodup ∧
    (∀ r : Reg, regOffset c.offs r < c.masterStride) ∧
    c.regBase + c.nMasters.val * c.masterStride ≤ 2 ^ c.windowBits ∧ c.div100k ≠ 0x0040#16 ∧
    (∀ m ∈ c.enabled, m.val < c.nMasters.val) ∧ (c.topology.map (fun e => e.name)).Nodup ∧
    ∀ e ∈ c.topology, 1 ≤ e.master.toNat ∧ e.master.toNat ≤ c.nMasters.val ∧ e.channel.toNat < c.nChannels.val ∧
      (e.sel = .direct → e.kind = .plain) ∧ ∀ sw, e.sel = .switch sw → 1 ≤ sw.toNat ∧ sw.toNat ≤ 0x7F)

/-- Engine shutdown by the initialiser alone writes `CTRL_OFF` on every enabled master, makes no other access, and destroys
every record (rule R304). What counts as the initialiser alone is the model's own reading (log entry 8). -/
def Obligations.EngineShutdownCompletes : Prop :=
  ∀ s : State, s.phase = .running → s.initialiserAlone = true →
    ∃ t, exec .engineShutdown s = .next t ∧
      (∀ m : MasterIx, (t.unit m).record = none) ∧
      (∀ m ∈ s.cfg.enabled, (t.unit m).history = (s.unit m).history ++ [.wr .ctrl ctrlOff]) ∧
      (∀ m, m ∉ s.cfg.enabled → (t.unit m).history = (s.unit m).history) ∧
      (∀ m, (t.unit m).chips = (s.unit m).chips ∧ (t.unit m).inputs = (s.unit m).inputs) ∧
      GaveBack s t .unit ∧ t.cfg = s.cfg ∧ t.phase = .shutDown ∧ t.self = s.self ∧ t.quantum = s.quantum ∧
      t.schedule = s.schedule ∧ t.turns = s.turns ∧ t.arrivals = s.arrivals ∧
      (s.window.wf = true →
        (∀ m ∈ s.cfg.enabled, t.window.read (regAddr s.cfg m .ctrl) = 0x00#8) ∧
        (∀ a, (∀ m ∈ s.cfg.enabled, a ≠ regAddr s.cfg m .ctrl) → t.window.read a = s.window.read a))

/-! The register interface. -/

/-- `read8` by the lock holder makes one read access, returns the controller's answer, which may depend on every access
made before, and changes no register (rules R11, R65, R66, R120). -/
def Obligations.Read8Completes : Prop :=
  ∀ (s : State) (m : Byte) (k : MasterIx) (r : Reg), masterIx s.cfg m = some k → MayUse s k →
    ∃ t v, exec (.read8 m r) s = .next t ∧ v = ((s.unit k).inputs.draw k r (s.unit k).history).1 ∧
      (t.unit k).history = (s.unit k).history ++ [.rd r v] ∧ t.window = s.window ∧
      RanOn s t k (.byte v) [] 1

/-- `write8` makes one write access: the byte stands at the register's address, every other byte of the window is as
before (rules R61, R65, R121). Bytes the model refuses are `WriteRefusedByName`'s. -/
def Obligations.Write8Completes : Prop :=
  ∀ (s : State) (m : Byte) (k : MasterIx) (r : Reg) (v : Byte), masterIx s.cfg m = some k → MayUse s k →
    s.window.wf = true →
    (r = .cmdstat → v ∈ [cmdStart s.cfg.bits, cmdWrite s.cfg.bits, cmdReadAck s.cfg.bits,
      cmdReadNack s.cfg.bits, cmdStop s.cfg.bits]) →
    (r = .ctrl → v &&& ~~~(bitMask s.cfg.bits.en ||| bitMask s.cfg.bits.ien) = 0#8) →
    ∃ t, exec (.write8 m r v) s = .next t ∧
      t.window.read (regAddr s.cfg k r) = v ∧
      (∀ a, a ≠ regAddr s.cfg k r → t.window.read a = s.window.read a) ∧
      (t.unit k).inputs = (s.unit k).inputs ∧ RanOn s t k .unit [.wr r v] 1

/-- The command bytes the engine does not issue, `CMD_IACK` among them, and reserved bits of `CTRL` are refused by name
(rules R85, R148; file 93, U5 and U7; log entry 12). -/
def Obligations.WriteRefusedByName : Prop :=
  (∀ (s : State) (m : Byte), exec (.cmdIack m) s = .refused .commandNotIssued) ∧
  (∀ (s : State) (m : Byte) (k : MasterIx) (v : Byte), masterIx s.cfg m = some k → MayUse s k →
    v ∉ [cmdStart s.cfg.bits, cmdWrite s.cfg.bits, cmdReadAck s.cfg.bits, cmdReadNack s.cfg.bits,
      cmdStop s.cfg.bits] →
    exec (.write8 m .cmdstat v) s = .refused .commandNotIssued) ∧
  (∀ (s : State) (m : Byte) (k : MasterIx) (v : Byte), masterIx s.cfg m = some k → MayUse s k →
    v &&& ~~~(bitMask s.cfg.bits.en ||| bitMask s.cfg.bits.ien) ≠ 0#8 →
    exec (.write8 m .ctrl v) s = .refused .reservedControlBits)

/-- A register access, or a master-core call, for a master index outside `1..N_MASTERS` is the fault `BadMasterIndex` (rules
R120, R121, R276). -/
def Obligations.BadMasterIndexFaults : Prop :=
  ∀ (s : State) (m : Byte), (m.toNat = 0 ∨ s.cfg.nMasters.val < m.toNat) →
    (∀ r, exec (.read8 m r) s = .fault .badMasterIndex) ∧
    (∀ r v, exec (.write8 m r v) s = .fault .badMasterIndex) ∧
    (∀ ab, exec (.cmdStart m ab) s = .fault .badMasterIndex) ∧
    (∀ b, exec (.cmdWrite m b) s = .fault .badMasterIndex) ∧
    exec (.cmdReadAck m) s = .fault .badMasterIndex ∧ exec (.cmdReadNack m) s = .fault .badMasterIndex ∧
    exec (.cmdStop m) s = .fault .badMasterIndex ∧ exec (.deinit m) s = .fault .badMasterIndex ∧
    exec (.init m s.cfg.div100k) s = .fault .badMasterIndex ∧
    (∀ t, exec (.waitIdle m t) s = .fault .badMasterIndex) ∧
    (∀ t w, exec (.waitPhaseDone m t w) s = .fault .badMasterIndex)

/-- An agent that does not hold the lock of a master's record gets the fault `UnlockedAccess` from every call on that
master, one in `ENABLED`, that would touch it: the register accesses, the master core, `execute` and the verbs of a
transaction that validation lets through, the mux writes (rules R28, R130, R179, R276). Where there is no record the
fault is `UnlockedAccess` before engine initialisation and `noRecord` after shutdown, and `access` and `deselect_all`
stop with `noRecord` (rule R304; these faults, and that a fault comes before a refused byte of `WRITE8`, are log entry
16). -/
def Obligations.UnlockedAccessFaults : Prop :=
  (∀ (s : State) (m : Byte) (k : MasterIx) (e : Fault), masterIx s.cfg m = some k → masterEnabled s.cfg k = true →
    CannotUse s k e →
    (∀ reg, exec (.read8 m reg) s = .fault e) ∧ (∀ reg v, exec (.write8 m reg v) s = .fault e) ∧
    (∀ ab, exec (.cmdStart m ab) s = .fault e) ∧ (∀ b, exec (.cmdWrite m b) s = .fault e) ∧
    exec (.cmdReadAck m) s = .fault e ∧ exec (.cmdReadNack m) s = .fault e ∧
    exec (.cmdStop m) s = .fault e ∧ exec (.deinit m) s = .fault e ∧ (∀ d, exec (.init m d) s = .fault e) ∧
    (∀ t, exec (.waitIdle m t) s = .fault e) ∧ (∀ t w, exec (.waitPhaseDone m t w) s = .fault e) ∧
    (∀ i t, instrTxn i = some (m, t) → Valid s k t → exec i s = .fault e) ∧
    (∀ sw ch, sw.toNat ≤ 0x7F →
      exec (.muxSelect m sw ch) s = .fault e ∧ exec (.muxDeselect m sw) s = .fault e)) ∧
  (∀ (s : State) (ep : EndpointRef) (t : Txn) (k : MasterIx), masterIx s.cfg ep.master = some k →
    masterEnabled s.cfg k = true → (s.unit k).record = none → exec (.access ep t) s = .fault .noRecord) ∧
  (∀ (s : State) (k : MasterIx), k ∈ s.cfg.enabled → (∀ j ∈ s.cfg.enabled, k ≤ j) → (s.unit k).record = none →
    exec .deselectAll s = .fault .noRecord)

/-! The master core. -/

/-- On a master in `ENABLED`, `init` with `DIV_100K` disables the master, programs the divider and enables it again,
in four writes; with any other divider it returns `InvalidArgument` and makes no access (rules R93, R131, R281). -/
def Obligations.InitProgramsDivider : Prop :=
  ∀ (s : State) (m : Byte) (k : MasterIx) (div : Half), masterIx s.cfg m = some k → MayUse s k → s.window.wf = true →
    (div = s.cfg.div100k → ∃ t, exec (.init m div) s = .next t ∧ RanOn s t k .okay (reinitWrites s.cfg) 4) ∧
    (div ≠ s.cfg.div100k → exec (.init m div) s = .next (s.returned (.err .invalidArgument)))

/-- `deinit` of a master in `ENABLED` writes `CTRL_OFF` and returns Ok, whether or not the master was initialised (rules
R133, R281; log entry 18). -/
def Obligations.DeinitDisables : Prop :=
  ∀ (s : State) (m : Byte) (k : MasterIx), masterIx s.cfg m = some k → MayUse s k → s.window.wf = true →
    ∃ t, exec (.deinit m) s = .next t ∧ t.window.read (regAddr s.cfg k .ctrl) = 0x00#8 ∧
      RanOn s t k .okay [.wr .ctrl ctrlOff] 1

/-- `wait_idle`, started or resumed after a yield, reads the status once: BUSY clear ends it with Ok; BUSY set ends it
with `Timeout` when the deadline has passed, and otherwise it yields. No flag is written (rules R135, R137). -/
def Obligations.WaitIdlePollsBusy : Prop :=
  ∀ (s : State) (m : Byte) (k : MasterIx) (timeout : Half), masterIx s.cfg m = some k → MayUse s k → s.window.wf = true →
    ∃ t, exec (.waitIdle m timeout) s = .next t ∧ finishCall (resumeCall (.prim k .waitIdle) s) = .next t ∧
      (bitSet (statusAfter s k []) s.cfg.bits.busy = false → RanOn s t k .okay [] 1 ∧
        (t.unit k).history = (s.unit k).history ++ [.rd .cmdstat (statusAfter s k [])]) ∧
      (bitSet (statusAfter s k []) s.cfg.bits.busy = true → PollUnmet s t k .waitIdle [])

/-- `wait_phase_done`, started or resumed, on a status byte with TIP clear: the outcome table of rule R141, result and
flags; AL comes before RXACK, and RXACK counts on a write phase only. -/
def Obligations.PhaseOutcomeTable : Prop :=
  ∀ (s : State) (m : Byte) (k : MasterIx) (timeout : Half) (w : Bool) (v : Byte) (r : MasterState),
    masterIx s.cfg m = some k → MayUse s k → s.window.wf = true → (s.unit k).record = some r →
    v = statusAfter s k [] → bitSet v s.cfg.bits.tip = false →
    ∃ t, exec (.waitPhaseDone m timeout w) s = .next t ∧
      finishCall (resumeCall (.prim k (.waitPhase w)) s) = .next t ∧ OnlyMaster s t k ∧ t.window = s.window ∧
      (t.unit k).chips = (s.unit k).chips ∧
      (t.unit k).history = (s.unit k).history ++ [.rd .cmdstat v] ∧
      (w = true → bitSet v s.cfg.bits.al = false → bitSet v s.cfg.bits.rxack = false →
        GaveBack s t .okay ∧ (t.unit k).record = some r) ∧
      (w = true → bitSet v s.cfg.bits.al = false → bitSet v s.cfg.bits.rxack = true →
        GaveBack s t (.err .noAck) ∧ (t.unit k).record = some { r with retryNeeded := true }) ∧
      (w = true → bitSet v s.cfg.bits.al = true → bitSet v s.cfg.bits.rxack = false →
        GaveBack s t (.err .arbitrationLost) ∧ (t.unit k).record = some { r with retryNeeded := true }) ∧
      (w = true → bitSet v s.cfg.bits.al = true → bitSet v s.cfg.bits.rxack = true →
        GaveBack s t (.err .arbitrationLost) ∧
        (t.unit k).record = some { r with retryNeeded := true, persistentNack := true }) ∧
      (w = false → bitSet v s.cfg.bits.al = false → GaveBack s t .okay ∧ (t.unit k).record = some r) ∧
      (w = false → bitSet v s.cfg.bits.al = true →
        GaveBack s t (.err .arbitrationLost) ∧ (t.unit k).record = some { r with retryNeeded := true })

/-- A poll that finds TIP set, of `wait_phase_done`, START, the byte write or a byte read: `Timeout` without a flag when
the deadline has passed, otherwise the call yields; resumed, it polls again and writes no command again (rules R66, R135,
R138). The same of a transaction, alone or inside a mux write, an access or `deselect_all`, at a position that runs a
primitive: it writes the command once and then stands at the poll; resumed there, it makes one status read, stays at its
position while the bit is set and no deadline is drawn, and goes to `E_STOP` with `Timeout` where one is (rules R137, R172,
R173). In a weakly fair run, whose fairness is on the draws of `DeadlinePassed`, a primitive suspended at its poll
returns, and a transaction suspended at one comes to an iteration at which the bit is clear or the deadline drawn, unless
the machine stops (rule R136; how fairness is said is log entry 5). The positions are the model's own (log entry 7). -/
def Obligations.PhasePollTimesOut : Prop :=
  (∀ (s : State) (m : Byte) (k : MasterIx) (i : Instr) (ws : List Access) (pr : Prim),
    WritePhase s.cfg m i ws pr ∨ ReadPhase s.cfg m i ws pr ∨ WaitPhase m i ws pr →
    masterIx s.cfg m = some k → MayUse s k → s.window.wf = true →
    (bitSet (statusAfter s k ws) s.cfg.bits.tip = true → ∃ t, exec i s = .next t ∧ PollUnmet s t k pr ws) ∧
    (bitSet (statusAfter s k []) s.cfg.bits.tip = true →
      ∃ t, finishCall (resumeCall (.prim k pr) s) = .next t ∧ PollUnmet s t k pr [])) ∧
  (∀ (s : State) (k : MasterIx) (put : ExecFrame → Call) (f : ExecFrame) (pr : Prim), Carries s.cfg k put →
    f.prim = some pr →
    resumeCall (put { f with polling := false }) s =
      resumeCall (put { f with polling := true }) (s.afterWrites k (primWrites s.cfg pr)) ∧
    (Holds s k → f.polling = true → bitSet (statusAfter s k []) (pr.bit s.cfg.bits) = true →
      ∃ u, Touches s u k [.rd .cmdstat (statusAfter s k [])] (s.unit k).record ∧
        (deadlineAfter s k [] = false → resumeCall (put f) s = .paused (put f) u) ∧
        (deadlineAfter s k [] = true → s.quantum = 0 →
          resumeCall (put f) s = .paused (put (f.stopWith (.err .timeout))) u))) ∧
  (∀ (r : Nat → State) (n : Nat) (a : AgentId) (ag : Agent) (k : MasterIx) (pr : Prim), WeaklyFair r →
    (r n).agents[a]? = some ag → ag.call = some (.prim k pr) →
    ∃ j, n ≤ j ∧ (Halted (r j) ∨
      ∃ x, (r j).agents[a]? = some { ag with call := none, returned := ag.returned ++ [x] })) ∧
  (∀ (r : Nat → State) (n : Nat) (a : AgentId) (k : MasterIx) (put : ExecFrame → Call) (f : ExecFrame) (pr : Prim),
    WeaklyFair r → Carries (r n).cfg k put → f.prim = some pr → f.polling = true → InCall (r n) a (put f) →
    ∃ j, n ≤ j ∧ (Halted (r j) ∨
      (Iterates (r j) a (put f) ∧ (¬ Unmet (r j) k (pr.bit (r n).cfg.bits) ∨ DeadlineDrawn (r j) k))))

/-- START (and repeated START) and the byte write put the byte in `DATA`, write the command, and on a status answer with
TIP, AL and RXACK clear return Ok (rules R142, R143, R144). -/
def Obligations.StartAndWriteComplete : Prop :=
  ∀ (s : State) (m : Byte) (k : MasterIx) (b : Byte), masterIx s.cfg m = some k → MayUse s k →
    s.window.wf = true → Smooth s.cfg (s.unit k).inputs (phases 1) →
    (∃ t, exec (.cmdStart m b) s = .next t ∧
      RanOn s t k .okay [.wr .data b, .wr .cmdstat (cmdStart s.cfg.bits)] 3) ∧
    (∃ t, exec (.cmdWrite m b) s = .next t ∧
      RanOn s t k .okay [.wr .data b, .wr .cmdstat (cmdWrite s.cfg.bits)] 3)

/-- The address phase and the byte write are write phases: on a status byte with TIP clear they end by the table of rule
R141, with `NoAck` where RXACK is set and `ArbitrationLost` where AL is, and set the flags of rules R139 and R140; so
they do when they are resumed after a yield, with no command written again (rule R135). -/
def Obligations.WritePhaseFailures : Prop :=
  ∀ (s : State) (m : Byte) (k : MasterIx) (r : MasterState) (i : Instr) (ws : List Access) (pr : Prim),
    WritePhase s.cfg m i ws pr → masterIx s.cfg m = some k → MayUse s k → (s.unit k).record = some r →
    s.window.wf = true →
    (bitSet (statusAfter s k ws) s.cfg.bits.tip = false → ∃ t, exec i s = .next t ∧ WritePhaseDone s t k r ws) ∧
    (bitSet (statusAfter s k []) s.cfg.bits.tip = false →
      ∃ t, finishCall (resumeCall (.prim k pr) s) = .next t ∧ WritePhaseDone s t k r [])

/-- The two byte reads write their command, and when the status answer has TIP and AL clear return the byte then read
from `DATA`, whatever RXACK is; where AL is set they fail with `ArbitrationLost` and read no `DATA`; so they do when they
are resumed after a yield, with no command written again (rules R135, R138, R145, R146). -/
def Obligations.ReadByteCompletes : Prop :=
  ∀ (s : State) (m : Byte) (k : MasterIx) (r : MasterState) (i : Instr) (ws : List Access) (pr : Prim),
    ReadPhase s.cfg m i ws pr → masterIx s.cfg m = some k → MayUse s k → (s.unit k).record = some r →
    s.window.wf = true →
    (bitSet (statusAfter s k ws) s.cfg.bits.tip = false → ∃ t, exec i s = .next t ∧ ReadPhaseDone s t k r ws) ∧
    (bitSet (statusAfter s k []) s.cfg.bits.tip = false →
      ∃ t, finishCall (resumeCall (.prim k pr) s) = .next t ∧ ReadPhaseDone s t k r [])

/-- STOP is one write of the command byte, not waited on (rules R147, R281). -/
def Obligations.StopCompletes : Prop :=
  ∀ (s : State) (m : Byte) (k : MasterIx), masterIx s.cfg m = some k → MayUse s k → s.window.wf = true →
    ∃ t, exec (.cmdStop m) s = .next t ∧ (t.unit k).inputs = (s.unit k).inputs ∧
      RanOn s t k .unit [.wr .cmdstat (cmdStop s.cfg.bits)] 1

/-! The composer. -/

/-- The unmapped verbs, by their verb codes, return `NotSupported` on an enabled master with no access and no STOP: the
state is as before but for the result handed back (rule R191). -/
def Obligations.UnmappedVerbsNotSupported : Prop :=
  (∀ m a c : Byte,
    opcodeByte (.procCall .write m a c) = 0x08#8 ∧ opcodeByte (.procCall .read m a c) = 0x09#8 ∧
    opcodeByte (.i2cBlockBroken .write m a c) = 0x0C#8 ∧ opcodeByte (.i2cBlockBroken .read m a c) = 0x0D#8 ∧
    opcodeByte (.blockProcCall .write m a c) = 0x0E#8 ∧ opcodeByte (.blockProcCall .read m a c) = 0x0F#8) ∧
  (∀ (s : State) (d : Dir) (m a c : Byte) (k : MasterIx) (i : Instr),
    i = .procCall d m a c ∨ i = .i2cBlockBroken d m a c ∨ i = .blockProcCall d m a c →
    masterIx s.cfg m = some k → masterEnabled s.cfg k = true →
    exec i s = .next (s.returned (.err .notSupported)))

/-- The unknown size classes 9 to 15, by their verb codes, return `InvalidArgument` with no access and no STOP, whatever
the master (rule R192). -/
def Obligations.UnknownVerbsInvalid : Prop :=
  (∀ x m a c : Byte, 0x12 ≤ x.toNat → x.toNat ≤ 0x1F → ∃ (l1 : BitVec 1) (l2 : BitVec 2) (d : Dir),
    opcodeByte (.unknownSc9 d m a c) = x ∨ opcodeByte (.unknownSc1011 l1 d m a c) = x ∨
      opcodeByte (.unknownSc1215 l2 d m a c) = x) ∧
  (∀ (s : State) (l1 : BitVec 1) (l2 : BitVec 2) (d : Dir) (m a c : Byte) (i : Instr),
    i = .unknownSc9 d m a c ∨ i = .unknownSc1011 l1 d m a c ∨ i = .unknownSc1215 l2 d m a c →
    exec i s = .next (s.returned (.err .invalidArgument)))

/-- Validation of `execute` in the order of rule R171: each refusal changes nothing but the result handed back; what
passes is `Valid`. The payload is checked against the table of rule R90: another tag, a block of 0 bytes and one of more
than `BLOCK_MAX` are refused. The verbs are `execute` of their size class and direction (rules R180 to R190), so they
are validated in the same way. -/
def Obligations.ExecuteValidationOrder : Prop :=
  (∀ (s : State) (m : Byte) (t : Txn),
    (m.toNat = 0 ∨ s.cfg.nMasters.val < m.toNat → exec (.execute m t) s = .next (s.returned (.err .invalidArgument))) ∧
    (∀ k : MasterIx, masterIx s.cfg m = some k →
      (masterEnabled s.cfg k = false → exec (.execute m t) s = .next (s.returned (.err .invalidArgument))) ∧
      (masterEnabled s.cfg k = true →
        (9 ≤ t.sizeClass.toNat → exec (.execute m t) s = .next (s.returned (.err .invalidArgument))) ∧
        (t.sizeClass ∈ [4#4, 6#4, 7#4] → exec (.execute m t) s = .next (s.returned (.err .notSupported))) ∧
        (t.sizeClass ∈ [0#4, 1#4, 2#4, 3#4, 5#4, 8#4] →
          (0x7F < t.addr.toNat → exec (.execute m t) s = .next (s.returned (.err .invalidArgument))) ∧
          (t.addr.toNat ≤ 0x7F → ¬ PayloadGood s.cfg t →
            exec (.execute m t) s = .next (s.returned (.err .invalidArgument))) ∧
          (t.addr.toNat ≤ 0x7F → PayloadGood s.cfg t → Valid s k t))))) ∧
  (∀ (s : State) (m a c : Byte) (k : MasterIx) (d : List Byte), masterIx s.cfg m = some k → masterEnabled s.cfg k = true →
    d.length = 0 ∨ s.cfg.blockMax.val < d.length → ∀ dir : Dir,
    exec (.execute m ⟨.write, a, c, 5#4, .block d⟩) s = .next (s.returned (.err .invalidArgument)) ∧
    exec (.execute m ⟨dir, a, c, 8#4, .block d⟩) s = .next (s.returned (.err .invalidArgument))) ∧
  (∀ (i : Instr) (s : State) (m : Byte) (t : Txn), instrTxn i = some (m, t) → exec i s = exec (.execute m t) s)

/-- QUICK with every phase acknowledged: the direction bit is all that is sent, in 9 accesses (rules R180, R193). -/
def Obligations.QuickCompletes : Prop :=
  ∀ (s : State) (m a : Byte) (k : MasterIx), masterIx s.cfg m = some k → Ready s k a 1 →
    (∃ t, exec (.quickW m a) s = .next t ∧
      RanOn s t k (.payload .quick) (txnWrites s.cfg (startWrites s.cfg (addrW a))) 9) ∧
    (∃ t, exec (.quickR m a) s = .next t ∧
      RanOn s t k (.payload .quick) (txnWrites s.cfg (startWrites s.cfg (addrR a))) 9)

/-- BYTE with every phase acknowledged, in 12 accesses (rules R181, R182, R193). -/
def Obligations.ByteCompletes : Prop :=
  ∀ (s : State) (m a v : Byte) (k : MasterIx), masterIx s.cfg m = some k → Ready s k a 2 →
    (∃ t, exec (.byteW m a v) s = .next t ∧
      RanOn s t k (.payload .quick)
        (txnWrites s.cfg (startWrites s.cfg (addrW a) ++ sendWrites s.cfg v)) 12) ∧
    (DataNext (s.unit k).inputs [v] → ∃ t, exec (.byteR m a) s = .next t ∧
      RanOn s t k (.payload (.byte v))
        (txnWrites s.cfg (startWrites s.cfg (addrR a) ++ receiveWrites s.cfg 1)) 12)

/-- BYTE_DATA with every phase acknowledged (rules R183, R184, R193). -/
def Obligations.ByteDataCompletes : Prop :=
  ∀ (s : State) (m a c v : Byte) (k : MasterIx), masterIx s.cfg m = some k → Ready s k a 4 →
    (∃ t, exec (.byteDataW m a c v) s = .next t ∧
      RanOn s t k (.payload .quick)
        (txnWrites s.cfg (startWrites s.cfg (addrW a) ++ sendWrites s.cfg c ++ sendWrites s.cfg v)) 15) ∧
    (DataNext (s.unit k).inputs [v] → ∃ t, exec (.byteDataR m a c) s = .next t ∧
      RanOn s t k (.payload (.byte v))
        (txnWrites s.cfg (startWrites s.cfg (addrW a) ++ sendWrites s.cfg c ++ startWrites s.cfg (addrR a) ++
          receiveWrites s.cfg 1)) 18)

/-- WORD_DATA with every phase acknowledged, low byte first; the read makes 21 accesses (rules R92, R185, R186, R193). -/
def Obligations.WordDataCompletes : Prop :=
  ∀ (s : State) (m a c : Byte) (w : Half) (k : MasterIx), masterIx s.cfg m = some k → Ready s k a 5 →
    (∃ t, exec (.wordDataW m a c w) s = .next t ∧
      RanOn s t k (.payload .quick)
        (txnWrites s.cfg (startWrites s.cfg (addrW a) ++ sendWrites s.cfg c ++
          sendAllWrites s.cfg [wordLow w, wordHigh w])) 18) ∧
    (DataNext (s.unit k).inputs [wordLow w, wordHigh w] → ∃ t, exec (.wordDataR m a c) s = .next t ∧
      RanOn s t k (.payload (.word w))
        (txnWrites s.cfg (startWrites s.cfg (addrW a) ++ sendWrites s.cfg c ++ startWrites s.cfg (addrR a) ++
          receiveWrites s.cfg 2)) 21)

/-- BLOCK_DATA with every phase acknowledged: the length byte counts the data bytes; a length byte of the device out of
range ends the read with `InvalidArgument` and STOP, with nothing read after it (rules R187, R188, R193). -/
def Obligations.BlockCompletes : Prop :=
  ∀ (s : State) (m a c : Byte) (d : List Byte) (k : MasterIx), masterIx s.cfg m = some k → Ready s k a (4 + d.length) →
    (1 ≤ d.length → d.length ≤ s.cfg.blockMax.val →
      (∃ t, exec (.blockW m a c d) s = .next t ∧
        RanOn s t k (.payload .quick)
          (txnWrites s.cfg (startWrites s.cfg (addrW a) ++ sendWrites s.cfg c ++
            sendWrites s.cfg (BitVec.ofNat 8 d.length) ++ sendAllWrites s.cfg d)) (15 + 3 * d.length)) ∧
      (DataNext (s.unit k).inputs (BitVec.ofNat 8 d.length :: d) → ∃ t, exec (.blockR m a c) s = .next t ∧
        RanOn s t k (.payload (.block d))
          (txnWrites s.cfg (startWrites s.cfg (addrW a) ++ sendWrites s.cfg c ++ startWrites s.cfg (addrR a) ++
            [.wr .cmdstat (cmdReadAck s.cfg.bits)] ++ receiveWrites s.cfg d.length)) (18 + 3 * d.length))) ∧
    (∀ v : Byte, v.toNat = 0 ∨ s.cfg.blockMax.val < v.toNat → DataNext (s.unit k).inputs [v] →
      ∃ t, exec (.blockR m a c) s = .next t ∧
        RanOn s t k (.err .invalidArgument)
          (txnWrites s.cfg (startWrites s.cfg (addrW a) ++ sendWrites s.cfg c ++ startWrites s.cfg (addrR a) ++
            [.wr .cmdstat (cmdReadAck s.cfg.bits)])) 18)

/-- I2C_BLOCK with every phase acknowledged: no length byte (rules R189, R190, R193). -/
def Obligations.I2cBlockCompletes : Prop :=
  ∀ (s : State) (m a c n : Byte) (d : List Byte) (k : MasterIx), masterIx s.cfg m = some k →
    Ready s k a (3 + d.length) → 1 ≤ d.length → d.length ≤ s.cfg.blockMax.val →
    (∃ t, exec (.i2cBlockW m a c d) s = .next t ∧
      RanOn s t k (.payload .quick)
        (txnWrites s.cfg (startWrites s.cfg (addrW a) ++ sendWrites s.cfg c ++ sendAllWrites s.cfg d))
        (12 + 3 * d.length)) ∧
    (n.toNat = d.length → DataNext (s.unit k).inputs d → ∃ t, exec (.i2cBlockR m a c n) s = .next t ∧
      RanOn s t k (.payload (.block d))
        (txnWrites s.cfg (startWrites s.cfg (addrW a) ++ sendWrites s.cfg c ++ startWrites s.cfg (addrR a) ++
          receiveWrites s.cfg d.length)) (15 + 3 * d.length))

/-- Every valid transaction of a lock holder completes when the bus is idle, every phase is done and acknowledged at its
first status read, and a block read's length byte is in range: the writes of its wire sequence, the reinit first and STOP
last and nowhere else, the bytes read from `DATA`, and the payload made of them (`Quick` for a write) (rules R172, R173,
R174, R177, R178). Where `wait_idle` or any of its phases fails, those before it being good, the transaction, by `execute`
or by a verb, returns that error unchanged: it writes what comes up to the failing primitive and then, the status read of
the error being its last access but one, STOP and nothing else; the record keeps the flags that the phase set, and a
`Timeout` sets none (rules R135, R141, R149, R172, R173, R175, R179, R275). -/
def Obligations.ExecuteCompletes : Prop :=
  (∀ (s : State) (m : Byte) (k : MasterIx) (t : Txn), masterIx s.cfg m = some k → Valid s k t → Holds s k →
    s.window.wf = true → Unhurried s → Smooth s.cfg (s.unit k).inputs (txnPolls (maxPhases s.cfg)) →
    LengthByteOk s.cfg (s.unit k).inputs t →
    ∃ u d, exec (.execute m t) s = .next u ∧ Receives s.cfg (s.unit k).inputs t d ∧
      RanOn s u k (.payload (payloadOf t d)) (txnWrites s.cfg (wireWrites s.cfg t d.length))
        (6 + 3 * phaseCount t d.length) ∧
      Heard s u k (heardBytes t d) ∧
      (StopDistinct s.cfg.bits → stopCount s.cfg (wireWrites s.cfg t d.length) = 0)) ∧
  (∀ (s : State) (i : Instr) (m : Byte) (k : MasterIx) (t : Txn) (n j : Nat) (pr : Prim) (v : Byte) (e : Err)
    (r x : MasterState), instrTxn i = some (m, t) → masterIx s.cfg m = some k → Valid s k t → Holds s k →
    (s.unit k).record = some r → s.window.wf = true → Unhurried s → ReceivesCount s.cfg (s.unit k).inputs t j n →
    (txnPrims t n)[j]? = some pr → Smooth s.cfg (s.unit k).inputs ((txnPolls j).take j) →
    (s.unit k).inputs.status[j]? = some v →
    pr.Fails s.cfg.bits v (s.unit k).inputs.deadline.head? r e x →
    ∃ u, exec i s = .next u ∧ OnlyMaster s u k ∧ GaveBack s u (.err e) ∧
      Accessed s u k (txnWrites s.cfg (((txnPrims t n).take (j + 1)).flatMap (primWrites s.cfg)))
        (3 + 3 * j + if pr.receives then 2 else 3) ∧
      (∃ new, (u.unit k).history =
        (s.unit k).history ++ new ++ [.rd .cmdstat v, .wr .cmdstat (cmdStop s.cfg.bits)]) ∧
      (u.unit k).record = some x ∧ (u.unit k).chips = (s.unit k).chips)

/-- A transaction that passed validation makes exactly one STOP, and it is its last access, on every path, however the
scheduler cuts it (rule R173): a part that does not come to the position of its return makes none; the part that comes to
it makes one, at its end; what is left then makes no access. One that validation refuses makes no access at all. The same
of each position alone, as `access` and the mux writes run them: `E_STOP` makes one STOP, every other position none. The
steps of rule R172's table, of a transaction alone or inside a mux write, an access or `deselect_all`: a position whose
primitive fails goes to `E_STOP` with that error and makes no access after the status read, whichever position it is; one
whose primitive is good goes on to the position that follows, a read phase with the byte then read from `DATA`; the others
make the reinit, the STOP or no access (rules R141, R145, R149, R172, R174, R179, R275). The parts and the positions are
the model's own (log entry 7), and so is the premise that the STOP byte is another than the other four (log entry 10). -/
def Obligations.ExactlyOneStop : Prop :=
  (∀ (s : State) (k : MasterIx) (o : CallOut), StopDistinct s.cfg.bits →
    ((∃ t, Valid s k t ∧ beginExecute k t s = o) ∨
      (∃ f : ExecFrame, f.epc ≠ .validate ∧ f.epc ≠ .ret ∧ resumeExecCall k f s = o)) →
    o.Meets
      (fun _ u => ∃ new, (u.unit k).history = (s.unit k).history ++ new ++ [.wr .cmdstat (cmdStop s.cfg.bits)] ∧
        stopCount s.cfg new = 0)
      (fun c u => ∃ new f, c = .exec k f ∧ f.epc ≠ .validate ∧ stopCount s.cfg new = 0 ∧
        (f.epc ≠ .ret → (u.unit k).history = (s.unit k).history ++ new) ∧
        (f.epc = .ret →
          (u.unit k).history = (s.unit k).history ++ new ++ [.wr .cmdstat (cmdStop s.cfg.bits)]))) ∧
  (∀ (s : State) (k : MasterIx) (f : ExecFrame), f.epc = .ret → Holds s k →
    resumeExecCall k f s = .done (retOfRes f.res) s) ∧
  (∀ (s : State) (k : MasterIx) (t : Txn), ¬ Valid s k t → ∃ e, beginExecute k t s = .done (.err e) s) ∧
  (∀ (c : Config.Params) (k : MasterIx) (f g : ExecFrame) (p q : Port), StopDistinct c.bits →
    (execPos c k f p = .go g q ∨ execPos c k f p = .wait g q) →
    ∃ new, q.unit.history = p.unit.history ++ new ∧ stopCount c new = if f.epc = .stop then 1 else 0) ∧
  (∀ (s : State) (k : MasterIx) (put : ExecFrame → Call) (f : ExecFrame) (pr : Prim) (r : MasterState) (v x : Byte),
    Carries s.cfg k put → Holds s k → (s.unit k).record = some r → f.prim = some pr → f.polling = true →
    s.quantum = 0 → v = statusAfter s k [] → x = dataAfter s k [] → bitSet v (pr.bit s.cfg.bits) = false →
    (∀ e, pr.FailsAt s.cfg.bits v e → ∃ u, resumeCall (put f) s = .paused (put (f.stopWith (.err e))) u ∧
      Touches s u k [.rd .cmdstat v] (some (failedRecord s.cfg.bits pr v r))) ∧
    ((∀ e, ¬ pr.FailsAt s.cfg.bits v e) →
      (pr.receives = false → ∃ u, resumeCall (put f) s = .paused (put (f.goesTo s.cfg 0#8)) u ∧
        Touches s u k [.rd .cmdstat v] (some r)) ∧
      (pr.receives = true → ∃ u, resumeCall (put f) s = .paused (put (f.goesTo s.cfg x)) u ∧
        Touches s u k [.rd .cmdstat v, .rd .data x] (some r)))) ∧
  (∀ (s : State) (k : MasterIx) (put : ExecFrame → Call) (f : ExecFrame), Carries s.cfg k put → Holds s k →
    f.prim = none → f.epc ≠ .validate → f.epc ≠ .ret → s.quantum = 0 →
    ∃ u, resumeCall (put f) s = .paused (put (f.goesTo s.cfg 0#8)) u ∧
      Touches s u k (f.ownWrites s.cfg) (s.unit k).record)

/-- No instruction but `access`, `deselect_all` and the lifecycle writes a lock or a selection cache; the flags of
`MS[m]` are only set, never cleared; the instructions of `leavesRecords` leave every record as it was (rules R122, R131,
R133, R137, R139, R140, R179). The same of every part of such a call that is resumed, however the scheduler cuts it (log
entry 7). -/
def Obligations.RecordFrame : Prop :=
  (∀ (i : Instr) (s t : State) (k : MasterIx), exec i s = .next t →
    (leavesRecords i = true → (t.unit k).record = (s.unit k).record) ∧
    (leavesLockAndCache i = true → FlagsOnlySet s t k)) ∧
  (∀ (c : Call) (s : State) (k : MasterIx),
    (c.leavesRecords = true → (resumeCall c s).Meets (fun _ t => (t.unit k).record = (s.unit k).record)
      (fun _ t => (t.unit k).record = (s.unit k).record)) ∧
    (c.leavesLockAndCache = true →
      (resumeCall c s).Meets (fun _ t => FlagsOnlySet s t k)
        (fun d t => FlagsOnlySet s t k ∧ d.leavesLockAndCache = true)))

/-! The mux layer. -/

/-- `access` on a master out of range or not enabled returns `InvalidArgument` and changes nothing but the result
handed back (rule R222). So, `CMD_IACK` aside, does every other call that names a master outside `ENABLED`, whoever holds
its lock: the register accesses, the master core, `execute` and the verbs; a mux write there fails, and `acquire` takes no lock (rules
R171, R226, R281; file 93, U21; that this comes before the lock, and what `acquire` answers, are log entry 18). -/
def Obligations.AccessOutOfRange : Prop :=
  (∀ (s : State) (ep : EndpointRef) (t : Txn),
    (ep.master.toNat = 0 ∨ s.cfg.nMasters.val < ep.master.toNat ∨
      ∃ k, masterIx s.cfg ep.master = some k ∧ masterEnabled s.cfg k = false) →
    exec (.access ep t) s = .next (s.returned (.err .invalidArgument))) ∧
  (∀ (s u : State) (m : Byte) (k : MasterIx), masterIx s.cfg m = some k → masterEnabled s.cfg k = false →
    u = s.returned (.err .invalidArgument) →
    (∀ reg, exec (.read8 m reg) s = .next u) ∧ (∀ reg v, exec (.write8 m reg v) s = .next u) ∧
    (∀ ab, exec (.cmdStart m ab) s = .next u) ∧ (∀ b, exec (.cmdWrite m b) s = .next u) ∧
    exec (.cmdReadAck m) s = .next u ∧ exec (.cmdReadNack m) s = .next u ∧ exec (.cmdStop m) s = .next u ∧
    (∀ d, exec (.init m d) s = .next u) ∧ exec (.deinit m) s = .next u ∧
    (∀ t, exec (.waitIdle m t) s = .next u) ∧ (∀ t w, exec (.waitPhaseDone m t w) s = .next u) ∧
    (∀ i t, instrTxn i = some (m, t) → exec i s = .next u) ∧
    (∀ sw ch, exec (.muxSelect m sw ch) s = .next (s.returned .fail) ∧
      exec (.muxDeselect m sw) s = .next (s.returned .fail)) ∧
    acquireItem k s = .next (s.dropItem.returned (.err .invalidArgument)))

/-- `access` on a master whose lock is held, by another agent or by its own, waits at `A_LOCK`: no access is made,
nothing of the machine changes, and the agent stays blocked while the lock is held (rule R68). -/
def Obligations.AccessBlockedAtLock : Prop :=
  ∀ (s : State) (ep : EndpointRef) (t : Txn) (k : MasterIx) (r : MasterState), masterIx s.cfg ep.master = some k →
    masterEnabled s.cfg k = true → (s.unit k).record = some r → r.lock ≠ .free →
    exec (.access ep t) s = .next (s.suspended (.access (accessFrame ep t .lock))) ∧
    resumeCall (.access (accessFrame ep t .lock)) s = .paused (.access (accessFrame ep t .lock)) s

/-- From `A_LOCK` to `A_UNLOCK` an access holds the lock of its master, and it has released it when it comes to its return
and whenever it returns (rules R223, R230, R235, R238). -/
def Obligations.AccessReturnsUnlocked : Prop :=
  ∀ (s : State) (ep : EndpointRef) (t : Txn) (k : MasterIx) (o : CallOut), accessMaster s.cfg ep = some k →
    (beginAccess ep t s = o ∨
      ∃ f : AccessFrame, f.ep = ep ∧ f.txn = t ∧ f.apc ≠ .ret ∧ resumeAccessCall f s = o) →
    o.Meets (fun _ u => ∃ x, (u.unit k).record = some x ∧ x.lock = .free)
      (fun c u => ∃ f : AccessFrame, c = .access f ∧ f.ep = ep ∧ f.txn = t ∧
        (f.apc = .lock ∨ (f.apc = .ret ∧ ∃ x, (u.unit k).record = some x ∧ x.lock = .free) ∨ Holds u k))

/-- A direct access, and one that finds its switch and channel in the cache, run the caller's transaction alone: the
writes are those of its wire sequence, the result its payload; no mux write is made and no chip changes (rules R223, R224,
R225, R227, R231, R235). -/
def Obligations.AccessWithoutMuxCompletes : Prop :=
  ∀ (s : State) (ep : EndpointRef) (t : Txn) (k : MasterIx) (r : MasterState), masterIx s.cfg ep.master = some k →
    (s.unit k).record = some r → r.lock = .free → Valid s k t → s.window.wf = true → Unhurried s →
    Smooth s.cfg (s.unit k).inputs (txnPolls (maxPhases s.cfg)) → LengthByteOk s.cfg (s.unit k).inputs t →
    (ep.sel = .direct ∨ (r.lastSwitch ≠ 0#8 ∧ ep.sel = .switch r.lastSwitch ∧ ep.channel = r.lastChannel)) →
    ∃ u d, exec (.access ep t) s = .next u ∧ Receives s.cfg (s.unit k).inputs t d ∧ OnlyMaster s u k ∧
      GaveBack s u (.payload (payloadOf t d)) ∧
      Accessed s u k (txnWrites s.cfg (wireWrites s.cfg t d.length)) (6 + 3 * phaseCount t d.length) ∧
      Heard s u k (heardBytes t d) ∧
      (u.unit k).record = some { r with retryNeeded := false, persistentNack := false } ∧
      (u.unit k).chips = (s.unit k).chips

/-- With the cache empty, or the same switch and another channel cached, `access` makes one select; with another
switch cached it first deselects that one. Then the caller's transaction is run: the writes of its wire sequence, its
payload the result. The cache names the pair, the chips select what was written, every other chip what it did (rules
R223, R225, R226, R227, R228, R229). -/
def Obligations.AccessWithMuxCompletes : Prop :=
  ∀ (s : State) (ep : EndpointRef) (t : Txn) (k : MasterIx) (r : MasterState) (sw : Byte),
    masterIx s.cfg ep.master = some k → ep.sel = .switch sw → sw.toNat ≤ 0x7F → 1 ≤ s.cfg.muxAttempts →
    (s.unit k).record = some r → r.lock = .free → Valid s k t → s.window.wf = true → Unhurried s →
    LengthByteOk s.cfg (s.unit k).inputs t →
    (r.lastSwitch = 0#8 ∨ (r.lastSwitch = sw ∧ r.lastChannel ≠ ep.channel) →
      Smooth s.cfg (s.unit k).inputs (txnPolls 2 ++ txnPolls (maxPhases s.cfg)) →
      ∃ u d, exec (.access ep t) s = .next u ∧ Receives s.cfg (s.unit k).inputs t d ∧ OnlyMaster s u k ∧
        GaveBack s u (.payload (payloadOf t d)) ∧
        Accessed s u k (muxWrites s.cfg sw (channelMask ep.channel) ++
          txnWrites s.cfg (wireWrites s.cfg t d.length)) (12 + (6 + 3 * phaseCount t d.length)) ∧
        Heard s u k (heardBytes t d) ∧
        (u.unit k).record = some { r with lastSwitch := sw, lastChannel := ep.channel, retryNeeded := false,
                                          persistentNack := false } ∧
        chipSelection (u.unit k).chips sw = .mask (channelMask ep.channel) ∧
        ∀ x, x ≠ sw → chipSelection (u.unit k).chips x = chipSelection (s.unit k).chips x) ∧
    (r.lastSwitch ≠ 0#8 → r.lastSwitch ≠ sw → r.lastSwitch.toNat ≤ 0x7F →
      Smooth s.cfg (s.unit k).inputs (txnPolls 2 ++ (txnPolls 2 ++ txnPolls (maxPhases s.cfg))) →
      ∃ u d, exec (.access ep t) s = .next u ∧ Receives s.cfg (s.unit k).inputs t d ∧ OnlyMaster s u k ∧
        GaveBack s u (.payload (payloadOf t d)) ∧
        Accessed s u k (muxWrites s.cfg r.lastSwitch 0x00#8 ++ (muxWrites s.cfg sw (channelMask ep.channel) ++
          txnWrites s.cfg (wireWrites s.cfg t d.length))) (12 + (12 + (6 + 3 * phaseCount t d.length))) ∧
        Heard s u k (heardBytes t d) ∧
        (u.unit k).record = some { r with lastSwitch := sw, lastChannel := ep.channel, retryNeeded := false,
                                          persistentNack := false } ∧
        chipSelection (u.unit k).chips sw = .mask (channelMask ep.channel) ∧
        chipSelection (u.unit k).chips r.lastSwitch = .mask 0x00#8 ∧
        ∀ x, x ≠ sw → x ≠ r.lastSwitch →
          chipSelection (u.unit k).chips x = chipSelection (s.unit k).chips x)

/-- A direct access leaves the selection cache and every chip as they were, on every path (rule R224). -/
def Obligations.DirectAccessLeavesMux : Prop :=
  ∀ (s : State) (ep : EndpointRef) (t : Txn) (k : MasterIx) (r : MasterState) (o : CallOut),
    accessMaster s.cfg ep = some k → ep.sel = .direct → (s.unit k).record = some r →
    (beginAccess ep t s = o ∨ ∃ f : AccessFrame, f.ep = ep ∧ f.txn = t ∧ resumeAccessCall f s = o) →
    ∀ u, (∃ x, o = .done x u) ∨ (∃ c, o = .paused c u) →
      (u.unit k).chips = (s.unit k).chips ∧
      ∃ x, (u.unit k).record = some x ∧ x.lastSwitch = r.lastSwitch ∧ x.lastChannel = r.lastChannel

/-- An access that returns `MuxSelectFailed`, started, or resumed at its lock, its mux step or its unlock, is no direct one
unless it was past its mux step already, leaves the selection cache as it was and has released the lock (rules R229, R230).
A part of an access that is cut off before its mux step is over, or after it failed, leaves the cache as it was too; the
parts are the model's own (log entry 7). -/
def Obligations.MuxSelectFailedKeepsCache : Prop :=
  (∀ (s u : State) (ep : EndpointRef) (t : Txn) (k : MasterIx) (r : MasterState),
    accessMaster s.cfg ep = some k → (s.unit k).record = some r →
    beginAccess ep t s = .done (.err .muxSelectFailed) u →
    ep.sel ≠ .direct ∧ ∃ x, (u.unit k).record = some x ∧ x.lock = .free ∧ x.lastSwitch = r.lastSwitch ∧
      x.lastChannel = r.lastChannel) ∧
  (∀ (s u : State) (f : AccessFrame) (k : MasterIx) (r : MasterState),
    accessMaster s.cfg f.ep = some k → (s.unit k).record = some r → f.apc ∈ [.validate, .lock, .mux, .unlock] →
    resumeAccessCall f s = .done (.err .muxSelectFailed) u →
    (f.apc ≠ .unlock → f.ep.sel ≠ .direct) ∧ ∃ x, (u.unit k).record = some x ∧ x.lock = .free ∧
      x.lastSwitch = r.lastSwitch ∧ x.lastChannel = r.lastChannel) ∧
  (∀ (s u : State) (f g : AccessFrame) (k : MasterIx) (r : MasterState),
    accessMaster s.cfg f.ep = some k → (s.unit k).record = some r → f.apc ∈ [.validate, .lock, .mux, .unlock] →
    resumeAccessCall f s = .paused (.access g) u →
    g.apc ∈ [.lock, .mux] ∨ (g.apc ∈ [.unlock, .ret] ∧ g.res = .err .muxSelectFailed) →
    ∃ x, (u.unit k).record = some x ∧ x.lastSwitch = r.lastSwitch ∧ x.lastChannel = r.lastChannel)

/-- A mux write, a select or a deselect, whose every attempt is not acknowledged at the address makes `MUX_ATTEMPTS`
transactions, each with its STOP, and fails; the chip's selection is then unspecified (rules R173, R226; file 93, U13). That
the scheduler lets it run so far is the premise on `quantum` (log entry 5). -/
def Obligations.MuxWriteGivesUp : Prop :=
  ∀ (s : State) (m sw : Byte) (ch : BitVec 3) (i : Instr) (k : MasterIx) (r : MasterState),
    i = .muxSelect m sw ch ∨ i = .muxDeselect m sw →
    masterIx s.cfg m = some k → masterEnabled s.cfg k = true → sw.toNat ≤ 0x7F → s.window.wf = true → Holds s k →
    (s.unit k).record = some r → 1 ≤ s.cfg.muxAttempts → 7 * s.cfg.muxAttempts ≤ s.quantum →
    nackedTries s.cfg.bits s.cfg.muxAttempts (s.unit k).inputs.status = true →
    ∃ t, exec i s = .next t ∧ OnlyMaster s t k ∧ GaveBack s t .fail ∧
      Accessed s t k (nackedWrites s.cfg sw s.cfg.muxAttempts) (9 * s.cfg.muxAttempts) ∧
      (t.unit k).record = some { r with retryNeeded := true } ∧
      chipSelection (t.unit k).chips sw = .unspecified ∧
      ∀ x, x ≠ sw → chipSelection (t.unit k).chips x = chipSelection (s.unit k).chips x

/-- The retry policy. Its bound: on a direct endpoint at most one more STOP than the larger budget, and at most one more
than `RETRY_LOW` when the persistent-NACK signature was never seen; a part that is cut off keeps to what its frame counts,
and so does a part resumed at an attempt. A part resumed at any position makes no more STOPs than its frame still allows
(those of its mux writes, then one for each attempt left), what is left after it is as many less, and the retry count stays
within the larger budget (rules R173, R225, R232, R233, R236). As an attempt begins, `retry_needed` is cleared and
`persistent_nack` kept (rule R232). The decision at `A_RETRY_DECIDE`: another attempt exactly when the result is a
retryable error (`Timeout` only with the flag) and fewer than the budget were made (rules R223, R233, R234). Its runs:
attempts that fail at their START, each with its own error, the last of them one after which the policy makes no other,
end with that one's error, `retry_needed` being what the last attempt left and `persistent_nack` whether one of them showed
the signature; an endpoint that never acknowledges gets `1 + RETRY_LOW` attempts, `1 + RETRY_HIGH` where the first showed
the signature, and `NoAck` (rules R139, R140, R234, R237). Failed attempts and then a good one end with its payload and
`retry_needed` clear. A transaction that validation refuses gets one attempt, with no access (rule R236). The positions and
`quantum` are the model's own (log entries 5 and 7). -/
def Obligations.RetryBudgetBounds : Prop :=
  (∀ (s : State) (ep : EndpointRef) (t : Txn) (k : MasterIx) (o : CallOut), StopDistinct s.cfg.bits →
    accessMaster s.cfg ep = some k → ep.sel = .direct → beginAccess ep t s = o →
    o.Meets
      (fun _ u => ∃ new, (u.unit k).history = (s.unit k).history ++ new ∧
        stopCount s.cfg new ≤ 1 + max s.cfg.retryHigh s.cfg.retryLow ∧
        (∀ x, (u.unit k).record = some x → x.persistentNack = false → stopCount s.cfg new ≤ 1 + s.cfg.retryLow))
      (fun c u => ∃ new f, (u.unit k).history = (s.unit k).history ++ new ∧ c = .access f ∧
        stopCount s.cfg new ≤ f.retries + 1 ∧ f.retries ≤ max s.cfg.retryHigh s.cfg.retryLow)) ∧
  (∀ (s : State) (f : AccessFrame) (k : MasterIx) (o : CallOut), StopDistinct s.cfg.bits →
    accessMaster s.cfg f.ep = some k → f.apc = .attempt →
    f.retries ≤ max s.cfg.retryHigh s.cfg.retryLow → resumeAccessCall f s = o →
    o.Meets
      (fun _ u => ∃ new, (u.unit k).history = (s.unit k).history ++ new ∧
        f.retries + stopCount s.cfg new ≤ 1 + max s.cfg.retryHigh s.cfg.retryLow)
      (fun c u => ∃ new g, (u.unit k).history = (s.unit k).history ++ new ∧ c = .access g ∧
        f.retries + stopCount s.cfg new ≤ g.retries + 1 ∧ g.retries ≤ max s.cfg.retryHigh s.cfg.retryLow)) ∧
  (∀ (s : State) (f : AccessFrame) (k : MasterIx) (o : CallOut), StopDistinct s.cfg.bits →
    accessMaster s.cfg f.ep = some k → resumeAccessCall f s = o →
    o.Meets
      (fun _ u => ∃ new, (u.unit k).history = (s.unit k).history ++ new ∧ stopCount s.cfg new ≤ f.stopsLeft s.cfg)
      (fun c u => ∃ new g, (u.unit k).history = (s.unit k).history ++ new ∧ c = .access g ∧
        stopCount s.cfg new + g.stopsLeft s.cfg ≤ f.stopsLeft s.cfg ∧
        (f.retries ≤ max s.cfg.retryHigh s.cfg.retryLow → g.retries ≤ max s.cfg.retryHigh s.cfg.retryLow))) ∧
  (∀ (s : State) (f : AccessFrame) (k : MasterIx) (r : MasterState), accessMaster s.cfg f.ep = some k → Holds s k →
    (s.unit k).record = some r → f.apc = .retryDecide → s.quantum = 0 →
    ((f.res = .err .arbitrationLost ∨ f.res = .err .noAck ∨
        (f.res = .err .timeout ∧ s.cfg.retryOnTimeout = true)) →
      (r.retryNeeded = true ∧ r.persistentNack = true → f.retries < s.cfg.retryHigh) →
      (¬(r.retryNeeded = true ∧ r.persistentNack = true) → f.retries < s.cfg.retryLow) →
      resumeAccessCall f s =
        .paused (.access { f with apc := .attempt, retries := f.retries + 1, inner := none }) s) ∧
    ((∃ p, f.res = .ok p) ∨ f.res = .err .invalidArgument ∨ f.res = .err .notSupported ∨
        (f.res = .err .timeout ∧ s.cfg.retryOnTimeout = false) ∨
        (r.retryNeeded = true ∧ r.persistentNack = true ∧ s.cfg.retryHigh ≤ f.retries) ∨
        (¬(r.retryNeeded = true ∧ r.persistentNack = true) ∧ s.cfg.retryLow ≤ f.retries) →
      resumeAccessCall f s = .paused (.access { f with apc := .unlock }) s)) ∧
  (∀ (s : State) (f : AccessFrame) (k : MasterIx) (r : MasterState), accessMaster s.cfg f.ep = some k → Holds s k →
    (s.unit k).record = some r → f.apc = .attempt → f.inner = none → s.quantum = 0 →
    ∃ u, resumeAccessCall f s = .paused (.access { f with inner := some (execStart f.txn) }) u ∧
      Touches s u k [] (some { r with retryNeeded := false })) ∧
  (∀ (s : State) (ep : EndpointRef) (t : Txn) (k : MasterIx) (r : MasterState), masterIx s.cfg ep.master = some k →
    ep.sel = .direct → (s.unit k).record = some r → r.lock = .free → Valid s k t → s.window.wf = true →
    13 + 8 * s.cfg.retryLow ≤ s.quantum →
    nackedTries s.cfg.bits (1 + s.cfg.retryLow) (s.unit k).inputs.status = true →
    ∃ u, exec (.access ep t) s = .next u ∧ OnlyMaster s u k ∧ GaveBack s u (.err .noAck) ∧
      Accessed s u k (refusedWrites s.cfg t (1 + s.cfg.retryLow)) (9 * (1 + s.cfg.retryLow)) ∧
      (u.unit k).record = some { r with retryNeeded := true, persistentNack := false } ∧
      (u.unit k).chips = (s.unit k).chips) ∧
  (∀ (s : State) (ep : EndpointRef) (t : Txn) (k : MasterIx) (r : MasterState) (v : Byte),
    masterIx s.cfg ep.master = some k → ep.sel = .direct → (s.unit k).record = some r → r.lock = .free → Valid s k t →
    s.window.wf = true → 1 ≤ s.cfg.retryHigh → 13 + 8 * s.cfg.retryHigh ≤ s.quantum →
    signature s.cfg.bits v = true → triesFit s.cfg.bits [v] (s.unit k).inputs.status = true →
    nackedTries s.cfg.bits s.cfg.retryHigh ((s.unit k).inputs.status.drop 2) = true →
    ∃ u, exec (.access ep t) s = .next u ∧ OnlyMaster s u k ∧ GaveBack s u (.err .noAck) ∧
      Accessed s u k (refusedWrites s.cfg t (1 + s.cfg.retryHigh)) (9 * (1 + s.cfg.retryHigh)) ∧
      (u.unit k).record = some { r with retryNeeded := true, persistentNack := true } ∧
      (u.unit k).chips = (s.unit k).chips) ∧
  (∀ (s : State) (ep : EndpointRef) (t : Txn) (k : MasterIx) (r : MasterState) (vs : List Byte) (v : Byte) (e : Err),
    masterIx s.cfg ep.master = some k → ep.sel = .direct → (s.unit k).record = some r → r.lock = .free → Valid s k t →
    s.window.wf = true → 13 + 8 * vs.length ≤ s.quantum → triesGoOn s.cfg [] vs = true →
    startError s.cfg.bits v = some e → retried s.cfg vs v = false →
    triesFit s.cfg.bits (vs ++ [v]) (s.unit k).inputs.status = true →
    triesLate s.cfg.bits (vs ++ [v]) <+: (s.unit k).inputs.deadline →
    ∃ u, exec (.access ep t) s = .next u ∧ OnlyMaster s u k ∧ GaveBack s u (.err e) ∧
      Accessed s u k (refusedWrites s.cfg t (vs.length + 1)) (9 * (vs.length + 1)) ∧
      (u.unit k).record = some { r with
        retryNeeded := !bitSet v s.cfg.bits.tip, persistentNack := (vs ++ [v]).any (signature s.cfg.bits) } ∧
      (u.unit k).chips = (s.unit k).chips) ∧
  (∀ (s : State) (ep : EndpointRef) (t : Txn) (k : MasterIx) (r : MasterState) (vs : List Byte),
    masterIx s.cfg ep.master = some k → ep.sel = .direct → (s.unit k).record = some r → r.lock = .free → Valid s k t →
    s.window.wf = true → 68 + maxData s.cfg + 8 * vs.length ≤ s.quantum → triesGoOn s.cfg [] vs = true →
    triesFit s.cfg.bits vs (s.unit k).inputs.status = true →
    triesLate s.cfg.bits vs <+: (s.unit k).inputs.deadline →
    answersFit s.cfg.bits (txnPolls (maxPhases s.cfg)) ((s.unit k).inputs.status.drop (2 * vs.length)) = true →
    LengthByteOk s.cfg (s.unit k).inputs t →
    ∃ u d, exec (.access ep t) s = .next u ∧ Receives s.cfg (s.unit k).inputs t d ∧ OnlyMaster s u k ∧
      GaveBack s u (.payload (payloadOf t d)) ∧
      Accessed s u k (refusedWrites s.cfg t vs.length ++ txnWrites s.cfg (wireWrites s.cfg t d.length))
        (9 * vs.length + (6 + 3 * phaseCount t d.length)) ∧
      (u.unit k).record = some { r with retryNeeded := false, persistentNack := vs.any (signature s.cfg.bits) } ∧
      (u.unit k).chips = (s.unit k).chips) ∧
  (∀ (s : State) (ep : EndpointRef) (t : Txn) (k : MasterIx) (r : MasterState), accessMaster s.cfg ep = some k →
    ep.sel = .direct → (s.unit k).record = some r → r.lock = .free → ¬ Valid s k t → s.window.wf = true →
    Unhurried s →
    ∃ u e, exec (.access ep t) s = .next u ∧ validateTxn s.cfg k t = some e ∧
      (e = .invalidArgument ∨ e = .notSupported) ∧ OnlyMaster s u k ∧ GaveBack s u (.err e) ∧ Accessed s u k [] 0 ∧
      (u.unit k).record = some { r with retryNeeded := false, persistentNack := false } ∧
      (u.unit k).chips = (s.unit k).chips)

/-- A mux select, and a deselect, that succeed at the first attempt are one BYTE write of the mask (0x00 for a
deselect): the chip then selects exactly that, every other chip what it did (rules R33, R91, R181, R226). -/
def Obligations.MuxSelectAndDeselectComplete : Prop :=
  ∀ (s : State) (m sw : Byte) (ch : BitVec 3) (k : MasterIx), masterIx s.cfg m = some k → Ready s k sw 2 →
    1 ≤ s.cfg.muxAttempts →
    (channelMask ch).toNat = 2 ^ ch.toNat ∧
    (∃ t, exec (.muxSelect m sw ch) s = .next t ∧ OnlyMaster s t k ∧ GaveBack s t .okay ∧
      Accessed s t k (muxWrites s.cfg sw (channelMask ch)) 12 ∧ (t.unit k).record = (s.unit k).record ∧
      chipSelection (t.unit k).chips sw = .mask (channelMask ch) ∧
      ∀ x, x ≠ sw → chipSelection (t.unit k).chips x = chipSelection (s.unit k).chips x) ∧
    (∃ t, exec (.muxDeselect m sw) s = .next t ∧ OnlyMaster s t k ∧ GaveBack s t .okay ∧
      Accessed s t k (muxWrites s.cfg sw 0x00#8) 12 ∧ (t.unit k).record = (s.unit k).record ∧
      chipSelection (t.unit k).chips sw = .mask 0x00#8 ∧
      ∀ x, x ≠ sw → chipSelection (t.unit k).chips x = chipSelection (s.unit k).chips x)

/-- `deselect_all` takes the enabled masters in ascending order, and on each, with its lock held, writes 0x00 to every
switch that a TOPOLOGY entry uses there, in ascending order, whatever became of the ones before. Where every deselect of a
master succeeded its cache is emptied, else it is kept; the lock is freed; the result is `MuxSelectFailed` if any failed,
else Ok; no other master is touched. Each deselect here is acknowledged at its first attempt (`true` in `oks`) or at none
(`false`). At a lock that is held, by another agent or by its own, the agent waits and nothing changes (rules R68, R226,
R240). That the scheduler lets it run so far is the premise on `quantum` (log entry 5). -/
def Obligations.DeselectAllCompletes : Prop :=
  (∀ (c : Config.Params) (m : MasterIx),
    (switchesOf c m).Pairwise (fun x y => x.toNat < y.toNat) ∧
    (∀ sw, sw ∈ switchesOf c m ↔ ∃ e ∈ c.topology, masterIx c e.master = some m ∧ e.sel = .switch sw) ∧
    (enabledAscending c).Pairwise (fun x y => x.val < y.val) ∧
    (m ∈ enabledAscending c ↔ m ∈ c.enabled)) ∧
  (∀ (s : State) (oks : MasterIx → List Bool), s.window.wf = true → 1 ≤ s.cfg.muxAttempts →
    deselectPositions s.cfg ≤ s.quantum →
    (∀ m ∈ s.cfg.enabled, (∃ r, (s.unit m).record = some r ∧ r.lock = .free) ∧
      (oks m).length = (switchesOf s.cfg m).length ∧
      deselectAnswers s.cfg (oks m) (s.unit m).inputs.status = true ∧
      ∀ sw ∈ switchesOf s.cfg m, sw.toNat ≤ 0x7F) →
    ∃ t, exec .deselectAll s = .next t ∧
      ((∀ m ∈ s.cfg.enabled, false ∉ oks m) → GaveBack s t .okay) ∧
      ((∃ m ∈ s.cfg.enabled, false ∈ oks m) → GaveBack s t (.err .muxSelectFailed)) ∧
      t.cfg = s.cfg ∧ t.phase = s.phase ∧ t.self = s.self ∧ t.quantum = s.quantum ∧ t.schedule = s.schedule ∧
      t.turns = s.turns ∧ t.arrivals = s.arrivals ∧
      (∀ m ∈ s.cfg.enabled,
        (∀ r, (s.unit m).record = some r →
          (false ∉ oks m → (t.unit m).record = some { r with lastSwitch := 0#8, lastChannel := 0#3 }) ∧
          (false ∈ oks m → (t.unit m).record = some { r with retryNeeded := true })) ∧
        HistoryGrew s t m (deselectWrites s.cfg (switchesOf s.cfg m) (oks m)) (deselectAccesses s.cfg (oks m)) ∧
        (∀ (n : Nat) (sw : Byte) (ok : Bool), (switchesOf s.cfg m)[n]? = some sw → (oks m)[n]? = some ok →
          chipSelection (t.unit m).chips sw = if ok then .mask 0x00#8 else .unspecified) ∧
        (∀ x, x ∉ switchesOf s.cfg m → chipSelection (t.unit m).chips x = chipSelection (s.unit m).chips x)) ∧
      (∀ m, m ∉ s.cfg.enabled → t.unit m = s.unit m) ∧
      (∀ a, (∀ m ∈ s.cfg.enabled, ∀ r, a ≠ regAddr s.cfg m r) → t.window.read a = s.window.read a)) ∧
  (∀ (s : State) (k : MasterIx) (r : MasterState), k ∈ s.cfg.enabled → (∀ j ∈ s.cfg.enabled, k ≤ j) →
    (s.unit k).record = some r → r.lock ≠ .free →
    exec .deselectAll s = .next (s.suspended (.deselectAll (deselectFrame (enabledAscending s.cfg) false)))) ∧
  (∀ (s : State) (d : DeselectFrame) (k : MasterIx) (todo : List MasterIx) (r : MasterState), d.todo = k :: todo →
    d.locked = false → (s.unit k).record = some r → r.lock ≠ .free →
    resumeCall (.deselectAll d) s = .paused (.deselectAll d) s)

/-! The whole machine. -/

/-- Every step keeps the register window in its canonical form, which is the model's own (log entry 3). -/
def Obligations.StepKeepsWindowCanonical : Prop :=
  ∀ s t : State, WindowCanonical s → step s = .next t → WindowCanonical t

/-- The reset state meets the four invariants that every step keeps. -/
def Obligations.ResetMeetsInvariants : Prop :=
  WindowCanonical State.reset ∧ OnlyIssuedCommands State.reset ∧ LifecycleSound State.reset ∧
    ReservedUnused State.reset

/-- Every step keeps this: the only command bytes ever written are the five of rule R84 (rules R84, R85, R148). -/
def Obligations.StepKeepsIssuedCommands : Prop :=
  ∀ s t : State, OnlyIssuedCommands s → step s = .next t → OnlyIssuedCommands t

/-- No step changes the configuration, loses an agent, or loses, changes or moves an access already made (rules R20,
R66). Every step keeps this: records exist exactly while the engine runs, one for each master of `1..N_MASTERS`, and it
runs only on a configuration the model accepts (rules R27, R61, R300, R304; where the configuration is checked is log
entry 13). Every step keeps this too: a master outside `ENABLED` is never used; and then the step makes no access to one, so none is ever initialised or accessed (rules
R281, R300; log entry 18). -/
def Obligations.StepKeepsConfigAndHistory : Prop :=
  ∀ s t : State, step s = .next t →
    t.cfg = s.cfg ∧ s.agents.length ≤ t.agents.length ∧ HistoriesGrow s t ∧ (LifecycleSound s → LifecycleSound t) ∧
    (ReservedUnused s → ReservedUnused t ∧ ∀ m : MasterIx, masterEnabled s.cfg m = false →
      (t.unit m).history = (s.unit m).history ∧ (t.unit m).chips = (s.unit m).chips ∧
      (t.unit m).inputs = (s.unit m).inputs)

/-- The address of a register is `REG_BASE + (m - 1) * MASTER_STRIDE + OFF_REG` for a master index `m` (rule R61). With a
legal layout the registers of all blocks are distinct addresses, from `REG_BASE` on, and with the 14 masters and the stride
0x20 of rule R5 none is above `REG_BASE + 0x1BF` (rule R60); with a configuration the model accepts they are addresses of
the window. -/
def Obligations.AddressesDistinct : Prop :=
  (∀ (c : Config.Params) (m : Byte) (k : MasterIx) (r : Reg), masterIx c m = some k →
    regAddr c k r = c.regBase + (m.toNat - 1) * c.masterStride + regOffset c.offs r) ∧
  (∀ (c : Config.Params) (m j : MasterIx) (r q : Reg), layoutOk c = true →
    (regAddr c m r = regAddr c j q → m = j ∧ r = q) ∧ c.regBase ≤ regAddr c m r ∧
    (m.val < c.nMasters.val → c.nMasters.val = 14 → c.masterStride = 0x20 → regAddr c m r ≤ c.regBase + 0x1BF)) ∧
  (∀ (c : Config.Params) (m : MasterIx) (r : Reg), configOk c = true → m.val < c.nMasters.val →
    regAddr c m r < 2 ^ c.windowBits)

/-- While an agent holds the lock of a master, no step of another agent touches that master: not its record, not its
chips, not one access is made to its block (rules R28, R67, R238). -/
def Obligations.LockIsolates : Prop :=
  ∀ (s t : State) (m : MasterIx) (r : MasterState) (a : AgentId), (s.unit m).record = some r →
    r.lock = .held a → s.takeTurn.self ≠ a → step s = .next t → t.unit m = s.unit m

/-- An instruction that names a master, and a part of such a call that is resumed, leaves every other master, every other
agent and every byte outside its block as they were; an instruction that names a master out of range hands back a result
and changes nothing else (rules R61, R65, R122, R238). -/
def Obligations.OtherMastersUntouched : Prop :=
  (∀ (i : Instr) (s t : State) (m : Byte), instrMaster i = some m → s.window.wf = true → exec i s = .next t →
    (∀ k, masterIx s.cfg m = some k → OnlyMaster s t k) ∧ (masterIx s.cfg m = none → ∃ r, t = s.returned r)) ∧
  (∀ (c : Call) (s : State) (k : MasterIx), c.master s.cfg = some k → s.window.wf = true →
    (resumeCall c s).Meets (fun _ t => OnlyMaster s t k) (fun d t => OnlyMaster s t k ∧ d.master s.cfg = some k))
end

