-- ==== Sys2Proof/Laws/Memory.lean ====
section
/-! SUPPORT. The laws of the register window: read after write, the canonical form kept, equal reads make equal
memories, and writes at different addresses commute. -/

namespace Sys2Proof.Machine

@[simp] theorem Memory.read_nil (a : Nat) : Memory.read [] a = 0#8 := rfl

theorem Memory.read_cons (x : Nat) (v : Byte) (rest : Memory) (a : Nat) :
    Memory.read ((x, v) :: rest) a = if a = x then v else Memory.read rest a := rfl

@[simp] theorem Memory.above_nil (a : Nat) : Memory.above a [] = true := rfl

theorem Memory.above_cons (a x : Nat) (v : Byte) (rest : Memory) :
    Memory.above a ((x, v) :: rest) = (decide (a < x) && Memory.above a rest) := rfl

/-- A memory above `a` lists neither `a` nor anything below it. -/
theorem Memory.read_of_above {a b : Nat} (h : b ≤ a) : ∀ {mem : Memory}, Memory.above a mem = true →
    Memory.read mem b = 0#8
  | [], _ => rfl
  | (x, v) :: rest, hab => by
    rw [Memory.above_cons, Bool.and_eq_true, decide_eq_true_eq] at hab
    rw [Memory.read_cons, if_neg (by omega)]
    exact Memory.read_of_above h hab.2

theorem Memory.above_mono {a b : Nat} (h : a ≤ b) {mem : Memory} (hb : Memory.above b mem = true) :
    Memory.above a mem = true := by
  simp only [Memory.above, List.all_eq_true, decide_eq_true_eq] at *
  exact fun e he => lt_of_le_of_lt h (hb e he)

theorem Memory.read_put (a : Nat) (v : Byte) (rest : Memory) (b : Nat) (h : Memory.read rest a = 0#8) :
    Memory.read (Memory.put a v rest) b = if b = a then v else Memory.read rest b := by
  unfold Memory.put
  by_cases hv : v = 0#8
  · by_cases hb : b = a <;> simp [hv, hb, h]
  · simp [hv, Memory.read_cons]

theorem Memory.above_put {a x : Nat} {v : Byte} {rest : Memory} (hx : a < x) (h : Memory.above a rest = true) :
    Memory.above a (Memory.put x v rest) = true := by
  unfold Memory.put
  split
  · exact h
  · simp [Memory.above_cons, hx, h]

theorem Memory.wf_cons (x : Nat) (v : Byte) (rest : Memory) :
    Memory.wf ((x, v) :: rest) = true ↔ v ≠ 0#8 ∧ Memory.above x rest = true ∧ Memory.wf rest = true := by
  simp [Memory.wf, and_assoc]

theorem Memory.wf_put {a : Nat} {v : Byte} {rest : Memory} (h : Memory.above a rest = true)
    (hw : Memory.wf rest = true) : Memory.wf (Memory.put a v rest) = true := by
  unfold Memory.put
  split
  · exact hw
  · next hv => exact (Memory.wf_cons a v rest).2 ⟨hv, h, hw⟩

theorem Memory.above_write {b a : Nat} {v : Byte} (hb : b < a) :
    ∀ {mem : Memory}, Memory.above b mem = true → Memory.above b (Memory.write mem a v) = true
  | [], h => Memory.above_put hb h
  | (x, w) :: rest, h => by
    have h' := h
    rw [Memory.above_cons, Bool.and_eq_true, decide_eq_true_eq] at h'
    unfold Memory.write
    split
    · exact Memory.above_put hb h
    · split
      · exact Memory.above_put hb h'.2
      · rw [Memory.above_cons, Bool.and_eq_true, decide_eq_true_eq]
        exact ⟨h'.1, Memory.above_write hb h'.2⟩

/-- Every write keeps the canonical form. -/
theorem Memory.wf_write (a : Nat) (v : Byte) :
    ∀ {mem : Memory}, Memory.wf mem = true → Memory.wf (Memory.write mem a v) = true
  | [], _ => Memory.wf_put rfl rfl
  | (x, w) :: rest, h => by
    have ⟨hw, hx, hr⟩ := (Memory.wf_cons x w rest).1 h
    unfold Memory.write
    split
    · next hax =>
      refine Memory.wf_put ?_ h
      rw [Memory.above_cons, Bool.and_eq_true, decide_eq_true_eq]
      exact ⟨hax, Memory.above_mono hax.le hx⟩
    · split
      · next _ hax => exact Memory.wf_put (hax ▸ hx) hr
      · exact (Memory.wf_cons _ _ _).2 ⟨hw, Memory.above_write (by omega) hx, Memory.wf_write a v hr⟩

/-- A read after a write gives the byte written, and a write leaves every other address alone. -/
theorem Memory.read_write (a : Nat) (v : Byte) (b : Nat) :
    ∀ {mem : Memory}, Memory.wf mem = true →
      Memory.read (Memory.write mem a v) b = if b = a then v else Memory.read mem b
  | [], _ => Memory.read_put a v [] b rfl
  | (x, w) :: rest, h => by
    have ⟨_, hx, hr⟩ := (Memory.wf_cons x w rest).1 h
    unfold Memory.write
    split
    · next hax =>
      refine Memory.read_put a v _ b ?_
      rw [Memory.read_cons, if_neg (by omega)]
      exact Memory.read_of_above hax.le hx
    · split
      · next _ hax =>
        rw [Memory.read_put a v rest b (Memory.read_of_above (by omega) hx), Memory.read_cons]
        by_cases hb : b = a
        · rw [if_pos hb, if_pos hb]
        · rw [if_neg hb, if_neg hb, if_neg (by omega)]
      · rw [Memory.read_cons, Memory.read_cons, Memory.read_write a v b hr]
        by_cases hb : b = x
        · rw [if_pos hb, if_neg (by omega), if_pos hb]
        · rw [if_neg hb, if_neg hb]

theorem Memory.read_write_same {mem : Memory} (h : Memory.wf mem = true) (a : Nat) (v : Byte) :
    Memory.read (Memory.write mem a v) a = v := by rw [Memory.read_write a v a h, if_pos rfl]

theorem Memory.read_write_other {mem : Memory} (h : Memory.wf mem = true) {a b : Nat} (v : Byte) (hb : b ≠ a) :
    Memory.read (Memory.write mem a v) b = Memory.read mem b := by
  rw [Memory.read_write a v b h, if_neg hb]

/-- Canonical memories that read alike are equal. -/
theorem Memory.ext_of_read : ∀ {x y : Memory}, Memory.wf x = true → Memory.wf y = true →
    (∀ a, Memory.read x a = Memory.read y a) → x = y
  | [], [], _, _, _ => rfl
  | [], (b, w) :: rest, _, hy, h => by
    have ⟨hw, _, _⟩ := (Memory.wf_cons b w rest).1 hy
    exact absurd (by simpa [Memory.read_cons] using (h b).symm) hw
  | (a, v) :: rest, [], hx, _, h => by
    have ⟨hv, _, _⟩ := (Memory.wf_cons a v rest).1 hx
    exact absurd (by simpa [Memory.read_cons] using h a) hv
  | (a, v) :: xs, (b, w) :: ys, hx, hy, h => by
    have ⟨hv, hax, hxs⟩ := (Memory.wf_cons a v xs).1 hx
    have ⟨hw, hby, hys⟩ := (Memory.wf_cons b w ys).1 hy
    have hab : a = b := by
      rcases Nat.lt_trichotomy a b with hlt | heq | hgt
      · have := h a
        rw [Memory.read_cons, if_pos rfl, Memory.read_cons, if_neg (by omega),
          Memory.read_of_above hlt.le hby] at this
        exact absurd this hv
      · exact heq
      · have := h b
        rw [Memory.read_cons, if_neg (by omega), Memory.read_cons, if_pos rfl,
          Memory.read_of_above hgt.le hax] at this
        exact absurd this.symm hw
    subst hab
    have hvw : v = w := by simpa [Memory.read_cons] using h a
    subst hvw
    have hrest : ∀ c, Memory.read xs c = Memory.read ys c := by
      intro c
      by_cases hc : c = a
      · rw [hc, Memory.read_of_above le_rfl hax, Memory.read_of_above le_rfl hby]
      · simpa [Memory.read_cons, hc] using h c
    rw [Memory.ext_of_read hxs hys hrest]

/-- Writes at different addresses commute. -/
theorem Memory.write_comm {mem : Memory} (h : Memory.wf mem = true) {a b : Nat} (v w : Byte) (hab : a ≠ b) :
    Memory.write (Memory.write mem a v) b w = Memory.write (Memory.write mem b w) a v := by
  refine Memory.ext_of_read (Memory.wf_write _ _ (Memory.wf_write _ _ h))
    (Memory.wf_write _ _ (Memory.wf_write _ _ h)) fun c => ?_
  rw [Memory.read_write _ _ _ (Memory.wf_write _ _ h), Memory.read_write _ _ _ h,
    Memory.read_write _ _ _ (Memory.wf_write _ _ h), Memory.read_write _ _ _ h]
  by_cases hca : c = a <;> by_cases hcb : c = b <;> simp [hca, hcb, hab, Ne.symm hab]

/-- The window of the reset state has the canonical form. -/
theorem State.reset_window_wf : State.reset.window.wf = true := rfl

end Sys2Proof.Machine
end

