-- ==== Sys2Proof/Laws/Positions.lean ====
section
/-! SUPPORT. Running positions (`runPos`), said once for every sequence: what every position keeps holds of the whole
run (`runPos_meets`), and a known run of positions (`Steps`) gives its outcome. -/

namespace Sys2Proof.Machine

variable {F G R Q S T : Type}

/-- What holds of a sequence that is not over, and of one that is; a fault is not spoken of. -/
def PosOut.Meets (P : F → S → Prop) (E : R → S → Prop) : PosOut F R S → Prop
  | .go f x => P f x
  | .wait f x => P f x
  | .ended r x => E r x
  | .fault _ => True

/-- The same of what is acted on, whatever the outcome. -/
def PosOut.Leaves (L : S → Prop) : PosOut F R S → Prop := PosOut.Meets (fun _ => L) (fun _ => L)

theorem PosOut.Meets.imp {P P' : F → S → Prop} {E E' : R → S → Prop} {o : PosOut F R S} (h : o.Meets P E)
    (hp : ∀ f x, P f x → P' f x) (he : ∀ r x, E r x → E' r x) : o.Meets P' E' := by
  cases o with
  | go f x => exact hp f x h
  | wait f x => exact hp f x h
  | ended r x => exact he r x h
  | fault e => trivial

/-- What each position keeps, and brings about when the sequence ends, holds of any run of positions. -/
theorem runPos_meets {pos : F → S → PosOut F R S} {P : F → S → Prop} {E : R → S → Prop}
    (h : ∀ f x, P f x → (pos f x).Meets P E) : ∀ (n : Nat) (f : F) (x : S), P f x → (runPos pos n f x).Meets P E
  | 0, f, x, hp => h f x hp
  | n + 1, f, x, hp => by
    have hx := h f x hp
    rw [runPos]
    split <;> (rename_i he; rw [he] at hx)
    · exact runPos_meets h n _ _ hx
    · exact hx
    · exact hx
    · trivial

/-- A reflexive and transitive relation that every position keeps holds from the start of a run to its end. -/
theorem runPos_leaves {pos : F → S → PosOut F R S} {L : S → S → Prop} (refl : ∀ x, L x x)
    (trans : ∀ x y z, L x y → L y z → L x z) (h : ∀ f x, (pos f x).Leaves (L x)) (n : Nat) (f : F) (x : S) :
    (runPos pos n f x).Leaves (L x) :=
  runPos_meets (P := fun _ => L x) (E := fun _ => L x)
    (fun g y hy => (h g y).imp (fun _ z hz => trans x y z hy hz) (fun _ z hz => trans x y z hy hz)) n f x (refl x)

/-- `n` positions, none of which waits or ends the sequence, lead from the first frame to the second. -/
inductive Steps (pos : F → S → PosOut F R S) : Nat → F → S → F → S → Prop
  | refl (f : F) (x : S) : Steps pos 0 f x f x
  | cons {n : Nat} {f f1 f2 : F} {x x1 x2 : S} (h : pos f x = .go f1 x1) (t : Steps pos n f1 x1 f2 x2) :
      Steps pos (n + 1) f x f2 x2

variable {pos : F → S → PosOut F R S} {f g e : F} {x y z : S} {n k : Nat} {r : R}

theorem Steps.one (h : pos f x = .go g y) : Steps pos 1 f x g y := .cons h (.refl g y)

theorem Steps.trans (h : Steps pos n f x g y) (t : Steps pos k g y e z) : Steps pos (n + k) f x e z := by
  induction h with
  | refl => rw [Nat.zero_add]; exact t
  | cons h _ ih => rw [Nat.add_right_comm]; exact .cons h (ih t)

theorem Steps.snoc (h : Steps pos n f x g y) (t : pos g y = .go e z) : Steps pos (n + 1) f x e z := h.trans (.one t)

theorem Steps.cast {n' : Nat} (h : Steps pos n f x g y) (hn : n = n') : Steps pos n' f x g y := hn ▸ h

/-- A run goes through a known run of positions. -/
theorem runPos_steps (h : Steps pos n f x g y) (k : Nat) : runPos pos (n + k) f x = runPos pos k g y := by
  induction h with
  | refl => rw [Nat.zero_add]
  | cons h _ ih => rw [Nat.add_right_comm, runPos, h]; exact ih

theorem runPos_ended (h : pos f x = .ended r y) : ∀ k, runPos pos k f x = .ended r y
  | 0 => h
  | k + 1 => by rw [runPos, h]

theorem runPos_wait (h : pos f x = .wait g y) : ∀ k, runPos pos k f x = .wait g y
  | 0 => h
  | k + 1 => by rw [runPos, h]

/-- A known run that ends the sequence is the outcome, if the scheduler lets it go that far. -/
theorem Steps.ends (h : Steps pos n f x g y) (ho : pos g y = .ended r z) (hk : n ≤ k) :
    runPos pos k f x = .ended r z := by
  rw [← Nat.add_sub_cancel' hk, runPos_steps h, runPos_ended ho]

/-- A known run that comes to a scheduling point. -/
theorem Steps.waits (h : Steps pos n f x g y) (ho : pos g y = .wait e z) (hk : n ≤ k) :
    runPos pos k f x = .wait e z := by
  rw [← Nat.add_sub_cancel' hk, runPos_steps h, runPos_wait ho]

/-- A run of one sequence as a run of the sequence it is part of, `I` being kept along it. -/
theorem Steps.lift {pos' : G → T → PosOut G Q T} (a : F → G) (b : S → T) (I : S → Prop)
    (hl : ∀ f x f1 x1, I x → pos f x = .go f1 x1 → I x1 ∧ pos' (a f) (b x) = .go (a f1) (b x1))
    (h : Steps pos n f x g y) (hi : I x) : Steps pos' n (a f) (b x) (a g) (b y) ∧ I y := by
  induction h with
  | refl => exact ⟨.refl _ _, hi⟩
  | cons h _ ih =>
    obtain ⟨h1, h2⟩ := hl _ _ _ _ hi h
    exact ⟨.cons h2 (ih h1).1, (ih h1).2⟩

end Sys2Proof.Machine
end

