-- ==== Sys2Proof/Laws/State.lean ====
section
/-! SUPPORT. The small lemmas of State, Port and MasterUnit updates, one per field and update. -/

namespace Sys2Proof.Machine

/-! `State.withPort` and `State.port`. -/

@[simp] theorem State.withPort_cfg (s : State) (m : MasterIx) (p : Port) : (s.withPort m p).cfg = s.cfg := rfl
@[simp] theorem State.withPort_agents (s : State) (m : MasterIx) (p : Port) :
    (s.withPort m p).agents = s.agents := rfl
@[simp] theorem State.withPort_self (s : State) (m : MasterIx) (p : Port) : (s.withPort m p).self = s.self := rfl
@[simp] theorem State.withPort_schedule (s : State) (m : MasterIx) (p : Port) :
    (s.withPort m p).schedule = s.schedule := rfl
@[simp] theorem State.withPort_turns (s : State) (m : MasterIx) (p : Port) : (s.withPort m p).turns = s.turns := rfl
@[simp] theorem State.withPort_quantum (s : State) (m : MasterIx) (p : Port) :
    (s.withPort m p).quantum = s.quantum := rfl
@[simp] theorem State.withPort_phase (s : State) (m : MasterIx) (p : Port) : (s.withPort m p).phase = s.phase := rfl
@[simp] theorem State.withPort_arrivals (s : State) (m : MasterIx) (p : Port) :
    (s.withPort m p).arrivals = s.arrivals := rfl
@[simp] theorem State.withPort_window (s : State) (m : MasterIx) (p : Port) :
    (s.withPort m p).window = p.window := rfl
@[simp] theorem State.port_unit (s : State) (m : MasterIx) : (s.port m).unit = s.unit m := rfl
@[simp] theorem State.port_window (s : State) (m : MasterIx) : (s.port m).window = s.window := rfl

theorem State.withPort_unit (s : State) (m j : MasterIx) (p : Port) :
    (s.withPort m p).unit j = if j = m then p.unit else s.unit j := by
  show (s.units.set m.val p.unit m.isLt)[j.val] = _
  rw [Vector.getElem_set]
  by_cases h : j = m
  · simp [h]
  · rw [if_neg h, if_neg (fun hv => h (Fin.ext hv.symm))]
    rfl

@[simp] theorem State.withPort_unit_same (s : State) (m : MasterIx) (p : Port) :
    (s.withPort m p).unit m = p.unit := by rw [State.withPort_unit, if_pos rfl]

theorem State.withPort_unit_other (s : State) {m j : MasterIx} (p : Port) (h : j ≠ m) :
    (s.withPort m p).unit j = s.unit j := by rw [State.withPort_unit, if_neg h]

@[simp] theorem State.withPort_port (s : State) (m : MasterIx) (p : Port) : (s.withPort m p).port m = p := by
  simp [State.port]

/-- The second of two ports put back on one master is the one that counts. -/
@[simp] theorem State.withPort_withPort (s : State) (m : MasterIx) (p q : Port) :
    (s.withPort m p).withPort m q = s.withPort m q := by
  simp [State.withPort]

/-! `State.mapSelf`, `State.returned`, `State.suspended`, `State.dropItem`. -/

@[simp] theorem State.mapSelf_cfg (s : State) (f : Agent → Agent) : (s.mapSelf f).cfg = s.cfg := rfl
@[simp] theorem State.mapSelf_units (s : State) (f : Agent → Agent) : (s.mapSelf f).units = s.units := rfl
@[simp] theorem State.mapSelf_unit (s : State) (f : Agent → Agent) (m : MasterIx) :
    (s.mapSelf f).unit m = s.unit m := rfl
@[simp] theorem State.mapSelf_window (s : State) (f : Agent → Agent) : (s.mapSelf f).window = s.window := rfl
@[simp] theorem State.mapSelf_self (s : State) (f : Agent → Agent) : (s.mapSelf f).self = s.self := rfl
@[simp] theorem State.mapSelf_schedule (s : State) (f : Agent → Agent) :
    (s.mapSelf f).schedule = s.schedule := rfl
@[simp] theorem State.mapSelf_turns (s : State) (f : Agent → Agent) : (s.mapSelf f).turns = s.turns := rfl
@[simp] theorem State.mapSelf_quantum (s : State) (f : Agent → Agent) : (s.mapSelf f).quantum = s.quantum := rfl
@[simp] theorem State.mapSelf_phase (s : State) (f : Agent → Agent) : (s.mapSelf f).phase = s.phase := rfl
@[simp] theorem State.mapSelf_arrivals (s : State) (f : Agent → Agent) : (s.mapSelf f).arrivals = s.arrivals := rfl
@[simp] theorem State.mapSelf_agents (s : State) (f : Agent → Agent) :
    (s.mapSelf f).agents = s.agents.modify s.self f := rfl

@[simp] theorem State.returned_cfg (s : State) (r : Ret) : (s.returned r).cfg = s.cfg := rfl
@[simp] theorem State.returned_units (s : State) (r : Ret) : (s.returned r).units = s.units := rfl
@[simp] theorem State.returned_unit (s : State) (r : Ret) (m : MasterIx) :
    (s.returned r).unit m = s.unit m := rfl
@[simp] theorem State.returned_window (s : State) (r : Ret) : (s.returned r).window = s.window := rfl
@[simp] theorem State.returned_self (s : State) (r : Ret) : (s.returned r).self = s.self := rfl
@[simp] theorem State.returned_schedule (s : State) (r : Ret) : (s.returned r).schedule = s.schedule := rfl
@[simp] theorem State.returned_turns (s : State) (r : Ret) : (s.returned r).turns = s.turns := rfl
@[simp] theorem State.returned_quantum (s : State) (r : Ret) : (s.returned r).quantum = s.quantum := rfl
@[simp] theorem State.returned_phase (s : State) (r : Ret) : (s.returned r).phase = s.phase := rfl
@[simp] theorem State.returned_arrivals (s : State) (r : Ret) : (s.returned r).arrivals = s.arrivals := rfl
@[simp] theorem State.returned_agents (s : State) (r : Ret) :
    (s.returned r).agents =
      s.agents.modify s.self (fun a => { a with call := none, returned := a.returned ++ [r] }) := rfl

@[simp] theorem State.suspended_cfg (s : State) (k : Call) : (s.suspended k).cfg = s.cfg := rfl
@[simp] theorem State.suspended_units (s : State) (k : Call) : (s.suspended k).units = s.units := rfl
@[simp] theorem State.suspended_unit (s : State) (k : Call) (m : MasterIx) :
    (s.suspended k).unit m = s.unit m := rfl
@[simp] theorem State.suspended_window (s : State) (k : Call) : (s.suspended k).window = s.window := rfl
@[simp] theorem State.suspended_self (s : State) (k : Call) : (s.suspended k).self = s.self := rfl
@[simp] theorem State.suspended_schedule (s : State) (k : Call) : (s.suspended k).schedule = s.schedule := rfl
@[simp] theorem State.suspended_turns (s : State) (k : Call) : (s.suspended k).turns = s.turns := rfl
@[simp] theorem State.suspended_quantum (s : State) (k : Call) : (s.suspended k).quantum = s.quantum := rfl
@[simp] theorem State.suspended_phase (s : State) (k : Call) : (s.suspended k).phase = s.phase := rfl
@[simp] theorem State.suspended_arrivals (s : State) (k : Call) : (s.suspended k).arrivals = s.arrivals := rfl
@[simp] theorem State.suspended_agents (s : State) (k : Call) :
    (s.suspended k).agents = s.agents.modify s.self (fun a => { a with call := some k }) := rfl

@[simp] theorem State.dropItem_cfg (s : State) : s.dropItem.cfg = s.cfg := rfl
@[simp] theorem State.dropItem_units (s : State) : s.dropItem.units = s.units := rfl
@[simp] theorem State.dropItem_unit (s : State) (m : MasterIx) : s.dropItem.unit m = s.unit m := rfl
@[simp] theorem State.dropItem_window (s : State) : s.dropItem.window = s.window := rfl
@[simp] theorem State.dropItem_self (s : State) : s.dropItem.self = s.self := rfl

@[simp] theorem State.dropItem_quantum (s : State) : s.dropItem.quantum = s.quantum := rfl
@[simp] theorem State.dropItem_phase (s : State) : s.dropItem.phase = s.phase := rfl

/-! `State.takeTurn`. -/

@[simp] theorem State.takeTurn_cfg (s : State) : s.takeTurn.cfg = s.cfg := by
  unfold State.takeTurn; split <;> rfl
@[simp] theorem State.takeTurn_units (s : State) : s.takeTurn.units = s.units := by
  unfold State.takeTurn; split <;> rfl
@[simp] theorem State.takeTurn_unit (s : State) (m : MasterIx) : s.takeTurn.unit m = s.unit m := by
  unfold State.takeTurn; split <;> rfl
@[simp] theorem State.takeTurn_window (s : State) : s.takeTurn.window = s.window := by
  unfold State.takeTurn; split <;> rfl
@[simp] theorem State.takeTurn_agents (s : State) : s.takeTurn.agents = s.agents := by
  unfold State.takeTurn; split <;> rfl

@[simp] theorem State.takeTurn_phase (s : State) : s.takeTurn.phase = s.phase := by
  unfold State.takeTurn; split <;> rfl
@[simp] theorem State.takeTurn_arrivals (s : State) : s.takeTurn.arrivals = s.arrivals := by
  unfold State.takeTurn; split <;> rfl

/-! `State.arrive`. -/

@[simp] theorem State.arrive_cfg (s : State) : s.arrive.cfg = s.cfg := by unfold State.arrive; split <;> rfl
@[simp] theorem State.arrive_units (s : State) : s.arrive.units = s.units := by unfold State.arrive; split <;> rfl
@[simp] theorem State.arrive_unit (s : State) (m : MasterIx) : s.arrive.unit m = s.unit m := by
  unfold State.arrive; split <;> rfl
@[simp] theorem State.arrive_window (s : State) : s.arrive.window = s.window := by unfold State.arrive; split <;> rfl
@[simp] theorem State.arrive_phase (s : State) : s.arrive.phase = s.phase := by unfold State.arrive; split <;> rfl

/-- A caller that arrives is one more agent, after the others. -/
theorem State.arrive_agents (s : State) : ∃ ag, s.arrive.agents = s.agents ++ [ag] := by
  unfold State.arrive; split <;> exact ⟨_, rfl⟩

/-! Port updates. -/

@[simp] theorem readReg_window (m : MasterIx) (r : Reg) (p : Port) : (readReg m r p).2.window = p.window := rfl
@[simp] theorem readReg_record (m : MasterIx) (r : Reg) (p : Port) :
    (readReg m r p).2.unit.record = p.unit.record := rfl
@[simp] theorem readReg_chips (m : MasterIx) (r : Reg) (p : Port) :
    (readReg m r p).2.unit.chips = p.unit.chips := rfl
@[simp] theorem readReg_history (m : MasterIx) (r : Reg) (p : Port) :
    (readReg m r p).2.unit.history = p.unit.history ++ [.rd r (readReg m r p).1] := rfl
@[simp] theorem readReg_inputs (m : MasterIx) (r : Reg) (p : Port) :
    (readReg m r p).2.unit.inputs = (p.unit.inputs.draw m r p.unit.history).2 := rfl
theorem readReg_value (m : MasterIx) (r : Reg) (p : Port) :
    (readReg m r p).1 = (p.unit.inputs.draw m r p.unit.history).1 := rfl

@[simp] theorem writeReg_window (c : Config.Params) (m : MasterIx) (r : Reg) (v : Byte) (p : Port) :
    (writeReg c m r v p).window = p.window.write (regAddr c m r) v := rfl
@[simp] theorem writeReg_record (c : Config.Params) (m : MasterIx) (r : Reg) (v : Byte) (p : Port) :
    (writeReg c m r v p).unit.record = p.unit.record := rfl
@[simp] theorem writeReg_chips (c : Config.Params) (m : MasterIx) (r : Reg) (v : Byte) (p : Port) :
    (writeReg c m r v p).unit.chips = p.unit.chips := rfl
@[simp] theorem writeReg_inputs (c : Config.Params) (m : MasterIx) (r : Reg) (v : Byte) (p : Port) :
    (writeReg c m r v p).unit.inputs = p.unit.inputs := rfl
@[simp] theorem writeReg_history (c : Config.Params) (m : MasterIx) (r : Reg) (v : Byte) (p : Port) :
    (writeReg c m r v p).unit.history = p.unit.history ++ [.wr r v] := rfl

@[simp] theorem drawDeadline_window (m : MasterIx) (p : Port) : (drawDeadline m p).2.window = p.window := rfl
@[simp] theorem drawDeadline_record (m : MasterIx) (p : Port) :
    (drawDeadline m p).2.unit.record = p.unit.record := rfl
@[simp] theorem drawDeadline_chips (m : MasterIx) (p : Port) :
    (drawDeadline m p).2.unit.chips = p.unit.chips := rfl
@[simp] theorem drawDeadline_history (m : MasterIx) (p : Port) :
    (drawDeadline m p).2.unit.history = p.unit.history := rfl

@[simp] theorem mapRecord_window (f : MasterState → MasterState) (p : Port) :
    (mapRecord f p).window = p.window := rfl
@[simp] theorem mapRecord_record (f : MasterState → MasterState) (p : Port) :
    (mapRecord f p).unit.record = p.unit.record.map f := rfl
@[simp] theorem mapRecord_chips (f : MasterState → MasterState) (p : Port) :
    (mapRecord f p).unit.chips = p.unit.chips := rfl
@[simp] theorem mapRecord_inputs (f : MasterState → MasterState) (p : Port) :
    (mapRecord f p).unit.inputs = p.unit.inputs := rfl
@[simp] theorem mapRecord_history (f : MasterState → MasterState) (p : Port) :
    (mapRecord f p).unit.history = p.unit.history := rfl

@[simp] theorem chipWritten_window (s v : Byte) (p : Port) : (chipWritten s v p).window = p.window := rfl
@[simp] theorem chipWritten_record (s v : Byte) (p : Port) : (chipWritten s v p).unit.record = p.unit.record := rfl
@[simp] theorem chipWritten_history (s v : Byte) (p : Port) :
    (chipWritten s v p).unit.history = p.unit.history := rfl
@[simp] theorem chipLost_window (s : Byte) (p : Port) : (chipLost s p).window = p.window := rfl
@[simp] theorem chipLost_record (s : Byte) (p : Port) : (chipLost s p).unit.record = p.unit.record := rfl
@[simp] theorem chipLost_history (s : Byte) (p : Port) : (chipLost s p).unit.history = p.unit.history := rfl

/-! Flags of a phase. -/

@[simp] theorem setPhaseFlags_lock (o : PhaseOutcome) (r : MasterState) : (setPhaseFlags o r).lock = r.lock := rfl
@[simp] theorem setPhaseFlags_lastSwitch (o : PhaseOutcome) (r : MasterState) :
    (setPhaseFlags o r).lastSwitch = r.lastSwitch := rfl
@[simp] theorem setPhaseFlags_lastChannel (o : PhaseOutcome) (r : MasterState) :
    (setPhaseFlags o r).lastChannel = r.lastChannel := rfl

/-- A phase that reports nothing changes no flag. -/
theorem setPhaseFlags_none (r : MasterState) :
    setPhaseFlags { err := none, setRetry := false, setPersist := false } r = r := by
  simp [setPhaseFlags]

end Sys2Proof.Machine
end

