-- ==== Sys2Proof/Laws/Evolve.lean ====
section
/-! SUPPORT. What the operations on one master's port can do, said once: `Evolves` is a finite sequence of single
accesses, deadline draws, record changes and chip changes. Every position of every sequence is one, and what holds of
each single action (accesses appended, window canonical, other addresses untouched) then holds of all of them. -/

namespace Sys2Proof.Machine

/-- One action on a port. -/
inductive PortStep (c : Config.Params) (m : MasterIx) : Port → Port → Prop
  | read (r : Reg) (p : Port) : PortStep c m p (readReg m r p).2
  | write (r : Reg) (v : Byte) (p : Port) (h : accessIssued c.bits (.wr r v) = true) :
      PortStep c m p (writeReg c m r v p)
  | draw (p : Port) : PortStep c m p (drawDeadline m p).2
  | record (f : MasterState → MasterState) (p : Port) : PortStep c m p (mapRecord f p)
  | chips (cs : List (Byte × Byte)) (p : Port) : PortStep c m p { p with unit := { p.unit with chips := cs } }

/-- Finitely many actions on a port. -/
def Evolves (c : Config.Params) (m : MasterIx) : Port → Port → Prop := Relation.ReflTransGen (PortStep c m)

variable {c : Config.Params} {m : MasterIx} {p q r : Port}

theorem Evolves.refl (p : Port) : Evolves c m p p := Relation.ReflTransGen.refl

theorem Evolves.trans (h : Evolves c m p q) (k : Evolves c m q r) : Evolves c m p r :=
  Relation.ReflTransGen.trans h k

theorem PortStep.evolves (h : PortStep c m p q) : Evolves c m p q := Relation.ReflTransGen.single h

/-- Accesses are only appended, and every write of `CMDSTAT` is an issued command. -/
theorem Evolves.history (h : Evolves c m p q) :
    ∃ new, q.unit.history = p.unit.history ++ new ∧ ∀ a ∈ new, accessIssued c.bits a = true := by
  induction h with
  | refl => exact ⟨[], by simp⟩
  | @tail x y _ hs ih =>
    obtain ⟨new, hn, ha⟩ := ih
    cases hs with
    | read r =>
      refine ⟨new ++ [.rd r (readReg m r x).1], by simp [hn], fun a h => ?_⟩
      rcases List.mem_append.1 h with h | h
      · exact ha a h
      · rw [List.mem_singleton.1 h]; rfl
    | write r v _ hi =>
      refine ⟨new ++ [.wr r v], by simp [hn], fun a h => ?_⟩
      rcases List.mem_append.1 h with h | h
      · exact ha a h
      · rw [List.mem_singleton.1 h]; exact hi
    | draw => exact ⟨new, hn, ha⟩
    | record f => exact ⟨new, hn, ha⟩
    | chips cs => exact ⟨new, hn, ha⟩

/-- The canonical form of the window is kept. -/
theorem Evolves.window_wf (h : Evolves c m p q) (hw : p.window.wf = true) : q.window.wf = true := by
  induction h with
  | refl => exact hw
  | tail _ hs ih =>
    cases hs with
    | write r v _ _ => exact Memory.wf_write _ _ ih
    | read r => exact ih
    | draw => exact ih
    | record f => exact ih
    | chips cs => exact ih

/-- Only the master's own five addresses are written. -/
theorem Evolves.window_other (h : Evolves c m p q) (hw : p.window.wf = true) (a : Nat)
    (ha : ∀ r, a ≠ regAddr c m r) : q.window.read a = p.window.read a := by
  induction h with
  | refl => rfl
  | tail hq hs ih =>
    cases hs with
    | write r v _ _ =>
      rw [writeReg_window, Memory.read_write_other (Evolves.window_wf hq hw) v (ha r), ih]
    | read r => exact ih
    | draw => exact ih
    | record f => exact ih
    | chips cs => exact ih

/-- A record is neither created nor destroyed. -/
theorem Evolves.record_isSome (h : Evolves c m p q) : q.unit.record.isSome = p.unit.record.isSome := by
  induction h with
  | refl => rfl
  | tail _ hs ih =>
    cases hs with
    | record f => rw [mapRecord_record, Option.isSome_map]; exact ih
    | write r v _ _ => exact ih
    | read r => exact ih
    | draw => exact ih
    | chips cs => exact ih

/-! The command bytes are issued ones. -/

@[simp] theorem commandIssued_start (b : Config.Bits) : commandIssued b (cmdStart b) = true := by
  simp [commandIssued]
@[simp] theorem commandIssued_write (b : Config.Bits) : commandIssued b (cmdWrite b) = true := by
  simp [commandIssued]
@[simp] theorem commandIssued_readAck (b : Config.Bits) : commandIssued b (cmdReadAck b) = true := by
  simp [commandIssued]
@[simp] theorem commandIssued_readNack (b : Config.Bits) : commandIssued b (cmdReadNack b) = true := by
  simp [commandIssued]
@[simp] theorem commandIssued_stop (b : Config.Bits) : commandIssued b (cmdStop b) = true := by
  simp [commandIssued]

/-! The register operations. -/

theorem evolves_read (r : Reg) : Evolves c m p (readReg m r p).2 := (PortStep.read r p).evolves

theorem evolves_write (r : Reg) (v : Byte) (h : accessIssued c.bits (.wr r v) = true) :
    Evolves c m p (writeReg c m r v p) := (PortStep.write r v p h).evolves

theorem evolves_record (f : MasterState → MasterState) : Evolves c m p (mapRecord f p) :=
  (PortStep.record f p).evolves

theorem evolves_chipWritten (s v : Byte) : Evolves c m p (chipWritten s v p) := (PortStep.chips _ p).evolves

theorem evolves_chipLost (s : Byte) : Evolves c m p (chipLost s p) := (PortStep.chips _ p).evolves

theorem evolves_stopBus : Evolves c m p (stopBus c m p) := evolves_write _ _ (by simp [accessIssued])

theorem evolves_disableMaster : Evolves c m p (disableMaster c m p) := evolves_write _ _ rfl

theorem evolves_programDivider (div : Half) : Evolves c m p (programDivider c m div p) :=
  (((evolves_write .ctrl _ rfl).trans (evolves_write .prerLo _ rfl)).trans (evolves_write .prerHi _ rfl)).trans
    (evolves_write .ctrl _ rfl)

theorem evolves_acquire {a : AgentId} (h : acquireLock a p = some q) : Evolves c m p q := by
  unfold acquireLock at h
  split at h
  · cases h; exact evolves_record _
  · cases h

theorem evolves_release {a : AgentId} (h : releaseLock a p = some q) : Evolves c m p q := by
  unfold releaseLock at h
  split at h
  · cases h; exact evolves_record _
  · cases h

/-! Polls and primitives. -/

theorem evolves_pollOnce (b : Fin 8) : Evolves c m p (pollOnce m b p).2 := by
  unfold pollOnce
  dsimp only
  split
  · exact (evolves_read .cmdstat).trans (PortStep.draw _).evolves
  · exact evolves_read .cmdstat

theorem evolves_waitIdleOnce : Evolves c m p (waitIdleOnce c m p).2 := by
  have h := evolves_pollOnce (c := c) (m := m) (p := p) c.bits.busy
  unfold waitIdleOnce
  split <;> next heq => rw [heq] at h; exact h

theorem evolves_waitPhaseOnce (w : Bool) : Evolves c m p (waitPhaseOnce c m w p).2 := by
  have h := evolves_pollOnce (c := c) (m := m) (p := p) c.bits.tip
  unfold waitPhaseOnce
  split
  · next heq =>
    rw [heq] at h
    dsimp only
    split <;> exact h.trans (evolves_record _)
  · next heq => rw [heq] at h; exact h
  · next heq => rw [heq] at h; exact h

theorem evolves_readPhaseOnce : Evolves c m p (readPhaseOnce c m p).2 := by
  have h := evolves_waitPhaseOnce (c := c) (m := m) (p := p) false
  unfold readPhaseOnce
  split
  · next heq => rw [heq] at h; exact h.trans (evolves_read .data)
  · next heq => rw [heq] at h; exact h
  · next heq => rw [heq] at h; exact h

theorem evolves_primBegin (pr : Prim) : Evolves c m p (primBegin c m pr p) := by
  cases pr with
  | start ab => exact (evolves_write .data ab rfl).trans (evolves_write .cmdstat _ (by simp [accessIssued]))
  | wrb b => exact (evolves_write .data b rfl).trans (evolves_write .cmdstat _ (by simp [accessIssued]))
  | rdbAck => exact evolves_write .cmdstat _ (by simp [accessIssued])
  | rdbNack => exact evolves_write .cmdstat _ (by simp [accessIssued])
  | waitIdle => exact Evolves.refl p
  | waitPhase w => exact Evolves.refl p

theorem evolves_primPoll (pr : Prim) : Evolves c m p (primPoll c m pr p).2 := by
  cases pr with
  | start ab => exact evolves_waitPhaseOnce true
  | wrb b => exact evolves_waitPhaseOnce true
  | rdbAck => exact evolves_readPhaseOnce
  | rdbNack => exact evolves_readPhaseOnce
  | waitIdle => exact evolves_waitIdleOnce
  | waitPhase w => exact evolves_waitPhaseOnce w

theorem evolves_runPrim (pr : Prim) (polling : Bool) : Evolves c m p (runPrim c m pr polling p).2 := by
  unfold runPrim
  cases polling
  · exact (evolves_primBegin pr).trans (evolves_primPoll pr)
  · exact evolves_primPoll pr

/-- `evolves_runPrim` for a result that is known. -/
theorem evolves_of_runPrim {pr : Prim} {polling : Bool} {o : PrimOut}
    (h : runPrim c m pr polling p = (o, q)) : Evolves c m p q := by
  have := evolves_runPrim (c := c) (m := m) (p := p) pr polling
  rwa [h] at this

/-! The sequences, position by position. -/

theorem evolves_primPos (pr : Prim) (f : ExecFrame) (next : Byte → ExecFrame) :
    (primPos c m pr f p next).Leaves (Evolves c m p) := by
  have h := evolves_runPrim (c := c) (m := m) (p := p) pr f.polling
  rw [primPos]
  split <;> (next he => rw [he] at h; exact h)

theorem evolves_execPos (f : ExecFrame) : (execPos c m f p).Leaves (Evolves c m p) := by
  rw [execPos]
  split
  · rw [posValidate]; split <;> exact Evolves.refl p
  · exact evolves_programDivider _
  · exact evolves_primPos _ _ _
  · exact evolves_primPos _ _ _
  · rw [posCmd]; split
    · exact evolves_primPos _ _ _
    · exact Evolves.refl p
  · rw [posLenW]; split
    · exact evolves_primPos _ _ _
    · exact Evolves.refl p
  · exact evolves_primPos _ _ _
  · rw [posRstart]; split
    · exact evolves_primPos _ _ _
    · exact Evolves.refl p
  · rw [posLenR]; split
    · exact evolves_primPos _ _ _
    · exact Evolves.refl p
  · exact evolves_primPos _ _ _
  · exact evolves_stopBus
  · exact Evolves.refl p

theorem evolves_muxPos (w : MuxFrame) : (muxPos c m w p).Leaves (Evolves c m p) := by
  rw [muxPos]
  split
  · split <;> exact Evolves.refl p
  · next e _ =>
    have h := evolves_execPos (c := c) (m := m) (p := p) e
    split <;> (rename_i he; rw [he] at h)
    · exact h
    · exact h
    · rw [muxAttemptOver.eq_def]
      split
      · exact Evolves.trans h (evolves_chipWritten _ _)
      · exact Evolves.trans h (evolves_chipLost _)
    · trivial

theorem evolves_accessPos (self : AgentId) (f : AccessFrame) : (accessPos c self m f p).Leaves (Evolves c m p) := by
  rw [accessPos]
  split
  · exact Evolves.refl p
  · rw [posLock]; split
    · exact Evolves.refl p
    · next h => exact evolves_acquire h
  · rw [posMux]; split
    · exact Evolves.refl p
    · split
      · exact Evolves.refl p
      · next w _ =>
        have h := evolves_muxPos (c := c) (m := m) (p := p) w
        split <;> (rename_i he; rw [he] at h)
        · exact h
        · exact h
        · rw [muxStepOver]; split
          · exact h
          · split
            · exact h
            · exact Evolves.trans h (evolves_record _)
        · trivial
  · exact evolves_record _
  · rw [posAttempt]; split
    · exact evolves_record _
    · next e _ =>
      have h := evolves_execPos (c := c) (m := m) (p := p) e
      split <;> (next he => rw [he] at h; exact h)
  · rw [posRetryDecide]; split <;> exact Evolves.refl p
  · rw [posUnlock]; split
    · trivial
    · next h => exact evolves_release h
  · exact Evolves.refl p

/-- Any run of positions that each evolve the port evolves it. -/
theorem evolves_runPos {F R : Type} {pos : F → Port → PosOut F R Port}
    (h : ∀ f p, (pos f p).Leaves (Evolves c m p)) (n : Nat) (f : F) : (runPos pos n f p).Leaves (Evolves c m p) :=
  runPos_leaves Evolves.refl (fun _ _ _ => Evolves.trans) h n f p

end Sys2Proof.Machine
end

