-- ==== Sys2Proof/Laws/Smooth.lean ====
section
/-! SUPPORT. What the primitives and the positions of a transaction do when every status answer they meet is smooth
(the phase done, acknowledged, no arbitration lost, the bus idle): `Glide` says it once, in a form that composes. -/

namespace Sys2Proof.Machine

variable {c : Config.Params} {m : MasterIx} {p q r : Port}

/-- From `p` to `q` with `k` status answers used, the bytes `xs` read from `DATA`, the writes `ws` made and `n` accesses
made in all; record and chips as before. -/
structure Glide (c : Config.Params) (m : MasterIx) (p q : Port) (k : Nat) (xs : List Byte) (ws : List Access)
    (n : Nat) : Prop where
  evolves : Evolves c m p q
  accesses : ∃ new, q.unit.history = p.unit.history ++ new ∧ writesOf new = ws ∧ new.length = n ∧
    new.filterMap dataHeard = xs
  window : q.window = storeAll c m p.window ws
  record : q.unit.record = p.unit.record
  chips : q.unit.chips = p.unit.chips
  status : q.unit.inputs.status = p.unit.inputs.status.drop k
  data : q.unit.inputs.data = p.unit.inputs.data.drop xs.length
  deadline : q.unit.inputs.deadline = p.unit.inputs.deadline
  listed : ∀ ys, ys <+: p.unit.inputs.data → ys.length = xs.length → xs = ys

theorem Glide.refl (p : Port) : Glide c m p p 0 [] [] 0 :=
  ⟨Evolves.refl p, ⟨[], by simp [writesOf]⟩, rfl, rfl, rfl, rfl, rfl, rfl,
    fun _ _ h => (List.eq_nil_of_length_eq_zero h).symm⟩

theorem Glide.trans {k₁ k₂ n₁ n₂ : Nat} {x₁ x₂ : List Byte} {w₁ w₂ : List Access} (g : Glide c m p q k₁ x₁ w₁ n₁)
    (h : Glide c m q r k₂ x₂ w₂ n₂) : Glide c m p r (k₁ + k₂) (x₁ ++ x₂) (w₁ ++ w₂) (n₁ + n₂) := by
  obtain ⟨a, ha, hwa, hna, hxa⟩ := g.accesses
  obtain ⟨b, hb, hwb, hnb, hxb⟩ := h.accesses
  refine ⟨g.evolves.trans h.evolves, ⟨a ++ b, ?_, ?_, ?_, ?_⟩, ?_, h.record.trans g.record, h.chips.trans g.chips,
    ?_, ?_, h.deadline.trans g.deadline, ?_⟩
  · rw [hb, ha, List.append_assoc]
  · rw [writesOf, List.filter_append]; exact congrArg₂ _ hwa hwb
  · rw [List.length_append, hna, hnb]
  · rw [List.filterMap_append, hxa, hxb]
  · rw [h.window, g.window, storeAll, storeAll, storeAll, List.foldl_append]
  · rw [h.status, g.status, List.drop_drop]
  · rw [h.data, g.data, List.drop_drop, List.length_append]
  · intro ys hys hl
    rw [List.length_append] at hl
    rw [← List.take_append_drop x₁.length ys]
    obtain ⟨rest, hr⟩ := hys
    have h1 := g.listed (ys.take x₁.length) ⟨ys.drop x₁.length ++ rest, by rw [← hr, ← List.append_assoc,
      List.take_append_drop]⟩ (by rw [List.length_take]; omega)
    have h2 := h.listed (ys.drop x₁.length) ⟨rest, by
      rw [g.data, ← hr, List.drop_append_of_le_length (by omega)]⟩ (by rw [List.length_drop]; omega)
    rw [← h1, ← h2]

theorem Glide.cast {k k' n n' : Nat} {x x' : List Byte} {w w' : List Access} (g : Glide c m p q k x w n) (hk : k = k')
    (hx : x = x') (hw : w = w') (hn : n = n') : Glide c m p q k' x' w' n' := by
  subst hk hx hw hn; exact g

theorem answersFit_append {b : Config.Bits} : ∀ {a k : List Bool} {l : List Byte},
    answersFit b (a ++ k) l = true → answersFit b a l = true ∧ answersFit b k (l.drop a.length) = true
  | [], _, _, h => ⟨rfl, h⟩
  | _ :: _, _, [], h => by simp [answersFit] at h
  | x :: a, k, v :: l, h => by
    simp only [List.cons_append, answersFit, Bool.and_eq_true] at h ⊢
    have := answersFit_append h.2
    exact ⟨⟨h.1, this.1⟩, this.2⟩

/-- Answers used up leave the rest fitting. -/
theorem Smooth.drop {s s' : Inputs} {a k : List Bool} (h : Smooth c s (a ++ k))
    (hs : s'.status = s.status.drop a.length) : Smooth c s' k := by
  rw [Smooth, hs]; exact (answersFit_append h).2

theorem Smooth.head {s : Inputs} {a k : List Bool} (h : Smooth c s (a ++ k)) : Smooth c s a := (answersFit_append h).1

theorem phases_add (k n : Nat) : phases (k + n) = phases k ++ phases n := by
  simp [phases, List.replicate_append_replicate]

theorem Smooth.mono {s : Inputs} {k n : Nat} (h : Smooth c s (phases n)) (hk : k ≤ n) : Smooth c s (phases k) := by
  rw [← Nat.add_sub_cancel' hk, phases_add] at h; exact h.head

theorem Smooth.next {s s' : Inputs} (k : Nat) {n : Nat} (h : Smooth c s (phases (k + n)))
    (hs : s'.status = s.status.drop k) : Smooth c s' (phases n) := by
  rw [phases_add] at h
  exact h.drop (by simpa [phases] using hs)

/-- The first answer. -/
theorem Smooth.one {s : Inputs} {k : Bool} (h : Smooth c s [k]) :
    ∃ v rest, s.status = v :: rest ∧ answerFits c.bits k v = true := by
  rw [Smooth] at h
  cases hs : s.status with
  | nil => rw [hs] at h; cases h
  | cons v rest =>
    rw [hs] at h
    exact ⟨v, rest, rfl, by simpa [answersFit] using h⟩

theorem glide_write (r : Reg) (v : Byte) (h : accessIssued c.bits (.wr r v) = true) :
    Glide c m p (writeReg c m r v p) 0 [] [.wr r v] 1 :=
  ⟨evolves_write r v h, ⟨[.wr r v], rfl, rfl, rfl, rfl⟩, rfl, rfl, rfl, rfl, rfl, rfl,
    (Glide.refl (c := c) (m := m) p).listed⟩

theorem glide_readStatus : Glide c m p (readReg m .cmdstat p).2 1 [] [] 1 := by
  refine ⟨evolves_read _, ⟨[.rd .cmdstat (readReg m .cmdstat p).1], rfl, rfl, rfl, rfl⟩, rfl, rfl, rfl, ?_, rfl, rfl,
    (Glide.refl (c := c) (m := m) p).listed⟩
  show (drawFrom _ p.unit.inputs.status).2 = _
  cases p.unit.inputs.status <;> rfl

theorem readStatus_value {v : Byte} {rest : List Byte} (h : p.unit.inputs.status = v :: rest) :
    (readReg m .cmdstat p).1 = v := by
  show (drawFrom _ p.unit.inputs.status).1 = v
  rw [h]; rfl

theorem readData_value {v : Byte} {rest : List Byte} (h : p.unit.inputs.data = v :: rest) :
    (readReg m .data p).1 = v := by
  show (drawFrom _ p.unit.inputs.data).1 = v
  rw [h]; rfl

theorem glide_readData : Glide c m p (readReg m .data p).2 0 [(readReg m .data p).1] [] 1 := by
  refine ⟨evolves_read _, ⟨[.rd .data (readReg m .data p).1], rfl, rfl, rfl, rfl⟩, rfl, rfl, rfl, rfl, ?_, rfl, ?_⟩
  · show (drawFrom _ p.unit.inputs.data).2 = _
    cases p.unit.inputs.data <;> rfl
  · rintro ys ⟨rest, hr⟩ hl
    obtain ⟨y, rfl⟩ := List.length_eq_one_iff.1 hl
    rw [readData_value (v := y) (rest := rest) hr.symm]

theorem mapRecord_id {f : MasterState → MasterState} (h : ∀ x, f x = x) (p : Port) : mapRecord f p = p := by
  have : f = id := funext h
  subst this
  simp [mapRecord]

theorem waitIdleOnce_smooth (h : Smooth c p.unit.inputs [true]) :
    waitIdleOnce c m p = (.ok 0#8, (readReg m .cmdstat p).2) := by
  obtain ⟨v, rest, hs, hv⟩ := h.one
  have hb : bitSet v c.bits.busy = false := by simpa [answerFits] using hv
  simp only [waitIdleOnce, pollOnce, readStatus_value hs, hb, Bool.false_eq_true, if_false]

theorem waitPhaseOnce_smooth (w : Bool) (h : Smooth c p.unit.inputs (phases 1)) :
    waitPhaseOnce c m w p = (.ok 0#8, (readReg m .cmdstat p).2) := by
  obtain ⟨v, rest, hs, hv⟩ := Smooth.one (k := false) h
  have ⟨⟨ht, ha⟩, hr⟩ : (bitSet v c.bits.tip = false ∧ bitSet v c.bits.al = false) ∧
      bitSet v c.bits.rxack = false := by simpa [answerFits] using hv
  have ho : phaseOutcome c.bits w v = { err := none, setRetry := false, setPersist := false } := by
    simp [phaseOutcome, ha, hr]
  simp only [waitPhaseOnce, pollOnce, readStatus_value hs, ht, Bool.false_eq_true, if_false, ho,
    mapRecord_id setPhaseFlags_none]

/-- `wait_idle` on an idle bus (rule R137). -/
theorem runPrim_waitIdle_smooth (h : Smooth c p.unit.inputs [true]) :
    ∃ q, runPrim c m .waitIdle false p = (.ok 0#8, q) ∧ Glide c m p q 1 [] [] 1 :=
  ⟨_, waitIdleOnce_smooth h, glide_readStatus⟩

/-- START on a smooth answer (rule R142). -/
theorem runPrim_start_smooth (ab : Byte) (h : Smooth c p.unit.inputs (phases 1)) :
    ∃ q, runPrim c m (.start ab) false p = (.ok 0#8, q) ∧ Glide c m p q 1 [] (startWrites c ab) 3 := by
  refine ⟨_, waitPhaseOnce_smooth true ?_, ?_⟩
  · exact h
  · exact (((glide_write .data ab rfl).trans (glide_write .cmdstat _ (by simp [accessIssued]))).trans
      glide_readStatus).cast rfl rfl rfl rfl

/-- A byte sent on a smooth answer (rule R144). -/
theorem runPrim_wrb_smooth (b : Byte) (h : Smooth c p.unit.inputs (phases 1)) :
    ∃ q, runPrim c m (.wrb b) false p = (.ok 0#8, q) ∧ Glide c m p q 1 [] (sendWrites c b) 3 := by
  refine ⟨_, waitPhaseOnce_smooth true ?_, ?_⟩
  · exact h
  · exact (((glide_write .data b rfl).trans (glide_write .cmdstat _ (by simp [accessIssued]))).trans
      glide_readStatus).cast rfl rfl rfl rfl

/-- A byte received on a smooth answer (rules R145, R146). -/
theorem runPrim_rdb_smooth (last : Bool) (h : Smooth c p.unit.inputs (phases 1)) :
    ∃ q v, runPrim c m (if last then .rdbNack else .rdbAck) false p = (.ok v, q) ∧
      Glide c m p q 1 [v] [.wr .cmdstat (if last then cmdReadNack c.bits else cmdReadAck c.bits)] 3 := by
  have key : ∀ b : Byte, accessIssued c.bits (.wr .cmdstat b) = true →
      ∃ q v, readPhaseOnce c m (writeReg c m .cmdstat b p) = (.ok v, q) ∧
        Glide c m p q 1 [v] [.wr .cmdstat b] 3 := by
    intro b hb
    have hs : Smooth c (writeReg c m .cmdstat b p).unit.inputs (phases 1) := h
    exact ⟨_, (readReg m .data (readReg m .cmdstat (writeReg c m .cmdstat b p)).2).1,
      by simp only [readPhaseOnce, waitPhaseOnce_smooth false hs],
      (((glide_write .cmdstat b hb).trans glide_readStatus).trans glide_readData).cast rfl rfl rfl rfl⟩
  cases last
  · exact key _ (by simp [accessIssued])
  · exact key _ (by simp [accessIssued])

theorem glide_programDivider : Glide c m p (programDivider c m c.div100k p) 0 [] (reinitWrites c) 4 :=
  ((((glide_write .ctrl _ rfl).trans (glide_write .prerLo _ rfl)).trans (glide_write .prerHi _ rfl)).trans
    (glide_write .ctrl _ rfl)).cast rfl rfl rfl rfl

theorem glide_stopBus : Glide c m p (stopBus c m p) 0 [] (stopWrites c) 1 :=
  glide_write .cmdstat _ (by simp [accessIssued])

end Sys2Proof.Machine
end

