-- ==== Sys2Proof/Laws/Transaction.lean ====
section
/-! SUPPORT. The positions of a transaction on smooth status answers, as runs (`Steps`): how many, the frame they end
in, and by `Glide` the accesses they make and the answers they use. -/

namespace Sys2Proof.Machine

variable {c : Config.Params} {m : MasterIx} {p q r : Port} {f g : ExecFrame}

theorem primPos_ok {pr : Prim} {v : Byte} (next : Byte → ExecFrame) (h : runPrim c m pr f.polling p = (.ok v, q)) :
    primPos c m pr f p next = .go (next v) q := by rw [primPos, h]

theorem primPos_err {pr : Prim} {e : Err} (next : Byte → ExecFrame) (h : runPrim c m pr f.polling p = (.err e, q)) :
    primPos c m pr f p next = .go (f.stopWith (.err e)) q := by rw [primPos, h]

@[simp] theorem ExecFrame.toDataW_txn (f : ExecFrame) (i : Nat) : (f.toDataW i).txn = f.txn := by
  rw [ExecFrame.toDataW]; split <;> rfl

/-- `n` positions from `f` lead to `E_STOP` with the result `x`. -/
def Stops (c : Config.Params) (m : MasterIx) (n : Nat) (f : ExecFrame) (p : Port) (x : Res) (q : Port) : Prop :=
  ∃ g, Steps (execPos c m) n f p g q ∧ g.epc = .stop ∧ g.res = x

theorem Stops.here (x : Res) : Stops c m 0 (f.stopWith x) p x p := ⟨_, .refl _ _, rfl, rfl⟩

theorem Stops.first {n : Nat} {x : Res} (h : execPos c m f p = .go g q) (k : Stops c m n g q x r) :
    Stops c m (n + 1) f p x r := by
  obtain ⟨e, hs, he⟩ := k
  exact ⟨e, .cons h hs, he⟩

theorem Stops.after {n k : Nat} {x : Res} (h : Steps (execPos c m) n f p g q) (t : Stops c m k g q x r) :
    Stops c m (n + k) f p x r := by
  obtain ⟨e, hs, he⟩ := t
  exact ⟨e, h.trans hs, he⟩

/-- From `E_STOP` the STOP is written and the result returned (rule R173). -/
theorem Stops.ret {n : Nat} {x : Res} (h : Stops c m n f p x q) :
    ∃ g, Steps (execPos c m) (n + 1) f p g (stopBus c m q) ∧ execPos c m g (stopBus c m q) = .ended x (stopBus c m q) := by
  obtain ⟨g, hs, he, hr⟩ := h
  refine ⟨g.atPos .ret, hs.snoc ?_, ?_⟩
  · rw [execPos, he]
  · rw [← hr]; rfl

theorem receiveWrites_succ (n : Nat) : receiveWrites c (n + 1) =
    .wr .cmdstat (if n = 0 then cmdReadNack c.bits else cmdReadAck c.bits) :: receiveWrites c n := by
  cases n <;> simp [receiveWrites, List.replicate_succ]

/-- `E_DATA_W` on smooth answers, from byte `i` on. -/
theorem dataW_smooth : ∀ (n i : Nat) (f : ExecFrame) (p : Port), i + n = (txBytes f.txn).length →
    Smooth c p.unit.inputs (phases n) →
    ∃ q, Stops c m n (f.toDataW i) p (.ok .quick) q ∧
      Glide c m p q n [] (sendAllWrites c ((txBytes f.txn).drop i)) (3 * n)
  | 0, i, f, p, hi, _ => by
    rw [ExecFrame.toDataW, if_neg (by omega), List.drop_eq_nil_of_le (by omega)]
    exact ⟨p, Stops.here _, Glide.refl p⟩
  | n + 1, i, f, p, hi, h => by
    have hl : i < (txBytes f.txn).length := by omega
    rw [ExecFrame.toDataW, if_pos hl]
    obtain ⟨q, hq, g⟩ := runPrim_wrb_smooth (m := m) ((txBytes f.txn).getD i 0#8) (h.mono (by omega))
    obtain ⟨q', hs, g'⟩ := dataW_smooth n (i + 1) { f with epc := .dataW, polling := false, i := i } q
      (by dsimp only; omega) (Smooth.next 1 (h.mono (by omega)) g.status)
    refine ⟨q', Stops.first (primPos_ok _ hq) hs, (g.trans g').cast (by omega) rfl ?_ (by omega)⟩
    rw [List.drop_eq_getElem_cons hl (l := txBytes f.txn), List.getD_eq_getElem _ _ hl]
    rw [sendAllWrites, sendAllWrites, List.flatMap_cons]

/-- `E_DATA_R` on smooth answers (rule R178), from byte `i` of `len` on. -/
theorem dataR_smooth : ∀ (n i len : Nat) (rx : List Byte) (f : ExecFrame) (p : Port), i + n = len →
    Smooth c p.unit.inputs (phases n) →
    ∃ q xs, Stops c m n (f.toDataR i len rx) p (.ok (packRead f.txn.sizeClass (rx ++ xs))) q ∧ xs.length = n ∧
      Glide c m p q n xs (receiveWrites c n) (3 * n)
  | 0, i, len, rx, f, p, hi, _ => by
    rw [ExecFrame.toDataR, if_neg (by omega)]
    exact ⟨p, [], by rw [List.append_nil]; exact Stops.here _, rfl, Glide.refl p⟩
  | n + 1, i, len, rx, f, p, hi, h => by
    rw [ExecFrame.toDataR, if_pos (by omega)]
    obtain ⟨q, v, hq, g⟩ := runPrim_rdb_smooth (m := m) (decide (n = 0)) (h.mono (by omega))
    obtain ⟨q', xs, hs, hx, g'⟩ := dataR_smooth n (i + 1) len (rx ++ [v])
      { f with epc := .dataR, polling := false, i := i, len := len, rx := rx } q (by omega)
      (Smooth.next 1 (h.mono (by omega)) g.status)
    have he : (i + 1 = len) = (n = 0) := by apply propext; omega
    simp only [decide_eq_true_eq, ← he] at hq
    have hpos : execPos c m { f with epc := .dataR, polling := false, i := i, len := len, rx := rx } p =
        .go (ExecFrame.toDataR { f with epc := .dataR, polling := false, i := i, len := len, rx := rx } (i + 1) len
          (rx ++ [v])) q := primPos_ok _ hq
    refine ⟨q', v :: xs, Stops.first hpos (by simpa using hs), by simp [hx],
      (g.trans g').cast (by omega) rfl ?_ (by omega)⟩
    rw [receiveWrites_succ]; simp

/-- From validation to the end of the address phase (rules R171, R174 to R176). -/
theorem opening_smooth (t : Txn) (hv : validateTxn c m t = none) (h : Smooth c p.unit.inputs (txnPolls 1)) :
    ∃ g q, Steps (execPos c m) 4 (execStart t) p g q ∧ g.epc = .cmd ∧ g.txn = t ∧ g.polling = false ∧
      Glide c m p q 2 [] (reinitWrites c ++ startWrites c (firstAddr t)) 8 := by
  have g0 : Glide c m p _ 0 [] _ 4 := glide_programDivider
  have h0 : Smooth c (programDivider c m c.div100k p).unit.inputs ([true] ++ phases 1) := h
  obtain ⟨q1, hq1, g1⟩ := runPrim_waitIdle_smooth (m := m) h0.head
  obtain ⟨q2, hq2, g2⟩ := runPrim_start_smooth (m := m) (firstAddr t) (h0.drop g1.status)
  refine ⟨_, q2, .cons (f1 := (execStart t).atPos .reinit) (x1 := p) ?_ (.cons rfl (.cons (primPos_ok _ hq1)
    (.one (primPos_ok _ hq2)))), rfl, rfl, rfl, ((g0.trans g1).trans g2).cast rfl rfl (by simp) rfl⟩
  show posValidate c m (execStart t) p = _
  rw [posValidate]
  show (match validateTxn c m t with
    | some e => PosOut.ended (Res.err e) p
    | none => PosOut.go ((execStart t).atPos .reinit) p) = _
  rw [hv]

/-- `E_CMD` on a smooth answer (rule R177). -/
theorem cmd_smooth (hf : f.epc = .cmd) (hp : f.polling = false)
    (h : Smooth c p.unit.inputs (phases (if hasCommand f.txn.sizeClass then 1 else 0))) :
    ∃ q, execPos c m f p = .go f.toBody q ∧
      Glide c m p q (if hasCommand f.txn.sizeClass then 1 else 0) []
        (if hasCommand f.txn.sizeClass then sendWrites c f.txn.command else [])
        (3 * if hasCommand f.txn.sizeClass then 1 else 0) := by
  rw [execPos, hf]
  show ∃ q, posCmd c m f p = _ ∧ _
  rw [posCmd]
  by_cases hc : hasCommand f.txn.sizeClass = true
  · simp only [hc, if_true] at h ⊢
    obtain ⟨q, hq, g⟩ := runPrim_wrb_smooth (m := m) f.txn.command h
    exact ⟨q, primPos_ok _ (hp ▸ hq), g⟩
  · simp only [hc] at h ⊢
    exact ⟨p, rfl, Glide.refl p⟩

theorem toBody_write (h : f.txn.dir = .write) : f.toBody = f.atPos .lenW := by rw [ExecFrame.toBody, h]

theorem toBody_read (h : f.txn.dir = .read) : f.toBody = f.atPos .rstart := by rw [ExecFrame.toBody, h]

theorem kind_blockData {sc : BitVec 4} : sizeClassKind sc = .blockData ↔ sc = 5#4 := by
  revert sc; decide

/-- The write half after the command byte (rules R172, R187). -/
theorem lenW_smooth {n : Nat} (hf : f.epc = .lenW) (hp : f.polling = false)
    (hn : n = (if f.txn.sizeClass = 5#4 then 1 else 0) + (txBytes f.txn).length)
    (h : Smooth c p.unit.inputs (phases n)) :
    ∃ q, Stops c m (1 + (txBytes f.txn).length) f p (.ok .quick) q ∧
      Glide c m p q n []
        ((if f.txn.sizeClass = 5#4 then sendWrites c (BitVec.ofNat 8 (txBytes f.txn).length) else []) ++
          sendAllWrites c (txBytes f.txn)) (3 * n) := by
  by_cases hb : f.txn.sizeClass = 5#4
  · simp only [hb, if_true] at hn ⊢
    obtain ⟨q, hq, g⟩ := runPrim_wrb_smooth (m := m) (BitVec.ofNat 8 (txBytes f.txn).length) (h.mono (by omega))
    obtain ⟨q', hs, g'⟩ := dataW_smooth (c := c) (m := m) (txBytes f.txn).length 0 f q (by omega)
      (Smooth.next 1 (h.mono (by omega)) g.status)
    refine ⟨q', (Stops.first ?_ hs : Stops c m ((txBytes f.txn).length + 1) f p _ q').imp (fun g hg => by
      rw [Nat.add_comm]; exact hg), (g.trans g').cast (by omega) rfl (by simp) (by omega)⟩
    rw [execPos, hf]
    show posLenW c m f p = _
    rw [posLenW, if_pos (kind_blockData.2 hb)]
    exact primPos_ok _ (hp ▸ hq)
  · simp only [hb, if_false] at hn ⊢
    obtain ⟨q', hs, g'⟩ := dataW_smooth (c := c) (m := m) (txBytes f.txn).length 0 f p (by omega) (h.mono (by omega))
    refine ⟨q', (Stops.first ?_ hs : Stops c m ((txBytes f.txn).length + 1) f p _ q').imp (fun g hg => by
      rw [Nat.add_comm]; exact hg), g'.cast (by omega) rfl (by simp) (by omega)⟩
    rw [execPos, hf]
    show posLenW c m f p = _
    rw [posLenW, if_neg (fun hx => hb (kind_blockData.1 hx))]

/-- The turn-round (rule R177). -/
theorem rstart_smooth (hf : f.epc = .rstart) (hp : f.polling = false)
    (h : Smooth c p.unit.inputs (phases (if hasCommand f.txn.sizeClass then 1 else 0))) :
    ∃ q, execPos c m f p = .go (f.atPos .lenR) q ∧
      Glide c m p q (if hasCommand f.txn.sizeClass then 1 else 0) []
        (if hasCommand f.txn.sizeClass then startWrites c (addrR f.txn.addr) else [])
        (3 * if hasCommand f.txn.sizeClass then 1 else 0) := by
  rw [execPos, hf]
  show ∃ q, posRstart c m f p = _ ∧ _
  rw [posRstart]
  by_cases hc : hasCommand f.txn.sizeClass = true
  · simp only [hc, if_true] at h ⊢
    obtain ⟨q, hq, g⟩ := runPrim_start_smooth (m := m) (addrR f.txn.addr) h
    exact ⟨q, primPos_ok _ (hp ▸ hq), g⟩
  · simp only [hc] at h ⊢
    exact ⟨p, rfl, Glide.refl p⟩

/-- The read half after the turn-round, for the classes without a length byte. -/
theorem lenR_smooth (hf : f.epc = .lenR) (hb : f.txn.sizeClass ≠ 5#4)
    (h : Smooth c p.unit.inputs (phases (nRead f.txn))) :
    ∃ q xs, Stops c m (1 + nRead f.txn) f p (.ok (packRead f.txn.sizeClass xs)) q ∧ xs.length = nRead f.txn ∧
      Glide c m p q (nRead f.txn) xs (receiveWrites c (nRead f.txn)) (3 * nRead f.txn) := by
  obtain ⟨q, xs, hs, hx, g⟩ := dataR_smooth (c := c) (m := m) (nRead f.txn) 0 (nRead f.txn) [] f p (by omega) h
  refine ⟨q, xs, (Stops.first ?_ hs : Stops c m (nRead f.txn + 1) f p _ q).imp (fun g hg => by
    rw [Nat.add_comm]; exact hg), hx, g⟩
  rw [execPos, hf]
  show posLenR c m f p = _
  rw [posLenR, if_neg (fun hx => hb (kind_blockData.1 hx))]

/-- The length byte of a block read on a smooth answer (rule R188). -/
theorem lenR_byte (hf : f.epc = .lenR) (hp : f.polling = false) (hb : f.txn.sizeClass = 5#4)
    (h : Smooth c p.unit.inputs (phases 1)) :
    ∃ q v, execPos c m f p = .go (if blockLenOk c v.toNat then f.toDataR 0 v.toNat [] else
        f.stopWith (.err .invalidArgument)) q ∧
      Glide c m p q 1 [v] [.wr .cmdstat (cmdReadAck c.bits)] 3 := by
  obtain ⟨q, v, hq, g⟩ := runPrim_rdb_smooth (m := m) false h
  refine ⟨q, v, ?_, g⟩
  rw [execPos, hf]
  show posLenR c m f p = _
  rw [posLenR, if_pos (kind_blockData.2 hb)]
  exact primPos_ok _ (hp ▸ hq)

/-! Whole transactions. -/

theorem txnPolls_add (k n : Nat) : txnPolls (k + n) = txnPolls k ++ phases n := by
  rw [txnPolls, phases_add]; rfl

/-- A write transaction on smooth answers (rules R172, R193). -/
theorem write_smooth (t : Txn) (hv : validateTxn c m t = none) (hd : t.dir = .write)
    (h : Smooth c p.unit.inputs (txnPolls (phaseCount t 0))) :
    ∃ q, Stops c m (6 + (txBytes t).length) (execStart t) p (.ok .quick) q ∧
      Glide c m p q (1 + phaseCount t 0) [] (reinitWrites c ++ wireWrites c t 0) (5 + 3 * phaseCount t 0) := by
  have hc : phaseCount t 0 = 1 + ((if hasCommand t.sizeClass then 1 else 0) +
      ((if t.sizeClass = 5#4 then 1 else 0) + (txBytes t).length)) := by
    simp only [phaseCount, hd]; omega
  rw [hc, txnPolls_add] at h
  obtain ⟨f1, q1, s1, hf1, ht1, hp1, g1⟩ := opening_smooth t hv h.head
  have h1 := h.drop (s' := q1.unit.inputs) g1.status
  rw [phases_add] at h1
  obtain ⟨q2, s2, g2⟩ := cmd_smooth (c := c) (m := m) (p := q1) hf1 hp1 (by rw [ht1]; exact h1.head)
  rw [ht1] at g2
  have h2 := h1.drop (s' := q2.unit.inputs) (by rw [g2.status]; simp [phases])
  rw [toBody_write (by rw [ht1, hd])] at s2
  obtain ⟨q3, s3, g3⟩ := lenW_smooth (c := c) (m := m) (f := f1.atPos .lenW) (p := q2) rfl rfl rfl
    (by show Smooth c _ (phases ((if f1.txn.sizeClass = 5#4 then 1 else 0) + (txBytes f1.txn).length))
        rw [ht1]; exact h2)
  have ht3 : (f1.atPos .lenW).txn = t := ht1
  rw [ht3] at s3 g3
  refine ⟨q3, ?_, ((g1.trans g2).trans g3).cast ?_ rfl ?_ ?_⟩
  · have := Stops.after (s1.snoc s2) s3
    rw [show 4 + 1 + (1 + (txBytes t).length) = 6 + (txBytes t).length by omega] at this
    exact this
  · rw [hc]; omega
  · simp [wireWrites, hd]
  · rw [hc]; omega

/-- The read half up to `E_LEN_R`, common to the reads. -/
theorem readOpening_smooth (t : Txn) (hv : validateTxn c m t = none) (hd : t.dir = .read) {n : Nat}
    (h : Smooth c p.unit.inputs
      (txnPolls (1 + ((if hasCommand t.sizeClass then 1 else 0) + ((if hasCommand t.sizeClass then 1 else 0) + n))))) :
    ∃ g q, Steps (execPos c m) 6 (execStart t) p g q ∧ g.epc = .lenR ∧ g.txn = t ∧ g.polling = false ∧
      Smooth c q.unit.inputs (phases n) ∧
      Glide c m p q (2 + (if hasCommand t.sizeClass then 1 else 0) + (if hasCommand t.sizeClass then 1 else 0)) []
        (reinitWrites c ++ (startWrites c (firstAddr t) ++
          (if hasCommand t.sizeClass then sendWrites c t.command else []) ++
          (if hasCommand t.sizeClass then startWrites c (addrR t.addr) else [])))
        (8 + (3 * if hasCommand t.sizeClass then 1 else 0) + (3 * if hasCommand t.sizeClass then 1 else 0)) := by
  rw [txnPolls_add] at h
  obtain ⟨f1, q1, s1, hf1, ht1, hp1, g1⟩ := opening_smooth t hv h.head
  have h1 := h.drop (s' := q1.unit.inputs) g1.status
  rw [phases_add] at h1
  obtain ⟨q2, s2, g2⟩ := cmd_smooth (c := c) (m := m) (p := q1) hf1 hp1 (by rw [ht1]; exact h1.head)
  rw [ht1] at g2
  have h2 := h1.drop (s' := q2.unit.inputs) (by rw [g2.status]; simp [phases])
  rw [toBody_read (by rw [ht1, hd])] at s2
  rw [phases_add] at h2
  obtain ⟨q3, s3, g3⟩ := rstart_smooth (c := c) (m := m) (f := f1.atPos .rstart) (p := q2) rfl rfl
    (by show Smooth c _ (phases (if hasCommand f1.txn.sizeClass then 1 else 0)); rw [ht1]; exact h2.head)
  have ht3 : (f1.atPos .rstart).txn = t := ht1
  rw [ht3] at g3
  exact ⟨_, q3, (s1.snoc s2).snoc s3, rfl, ht1, rfl,
    h2.drop (s' := q3.unit.inputs) (by rw [g3.status]; simp [phases]),
    ((g1.trans g2).trans g3).cast rfl rfl (by simp) rfl⟩

/-- A read transaction without a length byte on smooth answers (rules R172, R193). -/
theorem read_smooth (t : Txn) (hv : validateTxn c m t = none) (hd : t.dir = .read) (hb : t.sizeClass ≠ 5#4)
    (h : Smooth c p.unit.inputs (txnPolls (phaseCount t (nRead t)))) :
    ∃ q xs, Stops c m (7 + nRead t) (execStart t) p (.ok (packRead t.sizeClass xs)) q ∧ xs.length = nRead t ∧
      Glide c m p q (1 + phaseCount t (nRead t)) xs (reinitWrites c ++ wireWrites c t (nRead t))
        (5 + 3 * phaseCount t (nRead t)) := by
  have hc : phaseCount t (nRead t) = 1 + ((if hasCommand t.sizeClass then 1 else 0) +
      ((if hasCommand t.sizeClass then 1 else 0) + nRead t)) := by
    simp only [phaseCount, hd, hb, if_false]; omega
  rw [hc] at h
  obtain ⟨f1, q1, s1, hf1, ht1, hp1, h1, g1⟩ := readOpening_smooth t hv hd h
  obtain ⟨q2, xs, s2, hx, g2⟩ := lenR_smooth (c := c) (m := m) (p := q1) hf1 (by rw [ht1]; exact hb)
    (by rw [ht1]; exact h1)
  rw [ht1] at s2 hx g2
  refine ⟨q2, xs, ?_, hx, (g1.trans g2).cast ?_ (by simp) ?_ ?_⟩
  · have := Stops.after s1 s2
    rw [show 6 + (1 + nRead t) = 7 + nRead t by omega] at this
    exact this
  · rw [hc]; omega
  · simp [wireWrites, hd, hb]
  · rw [hc]; omega

theorem hasCommand_block : hasCommand 5#4 = true := rfl

/-- A block read on smooth answers: the device's length byte is in range, and the data bytes follow, or it is not, and
the transaction ends with `InvalidArgument` (rules R188, R193). -/
theorem blockRead_smooth (t : Txn) (hv : validateTxn c m t = none) (hd : t.dir = .read) (hb : t.sizeClass = 5#4)
    {n : Nat} (h : Smooth c p.unit.inputs (txnPolls (4 + n)))
    (hn : ∀ v rest, p.unit.inputs.data = v :: rest → blockLenOk c v.toNat = true → v.toNat ≤ n)
    (hl : p.unit.inputs.data ≠ []) :
    ∃ q v, (∃ rest, p.unit.inputs.data = v :: rest) ∧
      (blockLenOk c v.toNat = true → ∃ xs, xs.length = v.toNat ∧
        Stops c m (7 + v.toNat) (execStart t) p (.ok (.block xs)) q ∧
        Glide c m p q (1 + phaseCount t xs.length) (v :: xs) (reinitWrites c ++ wireWrites c t xs.length)
          (5 + 3 * phaseCount t xs.length)) ∧
      (blockLenOk c v.toNat = false → Stops c m 7 (execStart t) p (.err .invalidArgument) q ∧
        Glide c m p q 5 [v] (reinitWrites c ++ (startWrites c (firstAddr t) ++ sendWrites c t.command ++
          startWrites c (addrR t.addr) ++ [.wr .cmdstat (cmdReadAck c.bits)])) 17) := by
  have hc : hasCommand t.sizeClass = true := by rw [hb]; rfl
  obtain ⟨f1, q1, s1, hf1, ht1, hp1, h1, g1⟩ := readOpening_smooth (c := c) (m := m) (p := p) t hv hd (n := 1 + n)
    (by simp only [hc, if_true]; rw [show 1 + (1 + (1 + (1 + n))) = 4 + n by omega]; exact h)
  rw [phases_add] at h1
  simp only [hc, if_true] at g1
  obtain ⟨q2, v, s2, g2⟩ := lenR_byte (c := c) (m := m) (p := q1) hf1 hp1 (by rw [ht1]; exact hb) h1.head
  have h2 := h1.drop (s' := q2.unit.inputs) (by rw [g2.status]; simp [phases])
  have hv1 : ∃ rest, p.unit.inputs.data = v :: rest := by
    obtain ⟨w, rest, hw⟩ := List.exists_cons_of_ne_nil hl
    have := g2.listed [w] ⟨rest, by rw [g1.data, hw]; rfl⟩ rfl
    obtain rfl := List.cons.inj this |>.1
    exact ⟨rest, hw⟩
  by_cases hk : blockLenOk c v.toNat = true
  · rw [if_pos hk] at s2
    obtain ⟨rest, hr⟩ := hv1
    obtain ⟨q3, xs, s3, hx, g3⟩ := dataR_smooth (c := c) (m := m) v.toNat 0 v.toNat [] f1 q2 (by omega)
      (h2.mono (hn v rest hr hk))
    refine ⟨q3, v, ⟨rest, hr⟩, fun _ => ⟨xs, hx, ?_, ?_⟩, fun h => by rw [hk] at h; cases h⟩
    · have := Stops.after (s1.snoc s2) s3
      rw [ht1, hb] at this
      exact this
    · have hp : phaseCount t xs.length = 4 + v.toNat := by
        simp only [phaseCount, hd, hb, hasCommand_block, if_true, hx]; omega
      refine ((g1.trans g2).trans g3).cast (by rw [hp]; omega) (by simp) ?_ (by rw [hp]; omega)
      rw [hx]
      simp [wireWrites, hd, hb, hasCommand_block]
  · rw [if_neg hk] at s2
    refine ⟨q2, v, hv1, fun h => absurd h hk, fun _ => ⟨Stops.after (s1.snoc s2) (Stops.here _), ?_⟩⟩
    exact (g1.trans g2).cast rfl rfl (by simp) rfl

theorem blockLenOk_iff {n : Nat} : blockLenOk c n = true ↔ 1 ≤ n ∧ n ≤ c.blockMax.val := by
  rw [blockLenOk, Bool.and_eq_true, decide_eq_true_eq, decide_eq_true_eq]

theorem blockMax_le_maxData (c : Config.Params) : c.blockMax.val ≤ maxData c := Nat.le_max_right ..

theorem two_le_maxData (c : Config.Params) : 2 ≤ maxData c := Nat.le_max_left ..

/-- A block payload that fits has 1 to `BLOCK_MAX` bytes (rule R90). -/
theorem payloadFits_block {sc : BitVec 4} {d : Dir} {b : List Byte} (h : payloadFits c sc d (.block b) = true) :
    1 ≤ b.length ∧ b.length ≤ c.blockMax.val := by
  refine blockLenOk_iff.1 ?_
  unfold payloadFits at h
  generalize sizeClassKind sc = k at h
  cases k <;> cases d <;> first | exact h | exact Bool.noConfusion h

/-- What validation asks of the payload (rule R171). -/
theorem payloadFits_of_valid {t : Txn} (hv : validateTxn c m t = none) :
    payloadFits c t.sizeClass t.dir t.payload = true := by
  simp only [validateTxn] at hv
  repeat (first | cases hv | split at hv)
  all_goals simp_all

/-- A valid transaction that is no block read receives at most `maxData` bytes, and one that writes sends no more. -/
theorem validLengths {t : Txn} (hv : validateTxn c m t = none) :
    (t.dir = .write → (txBytes t).length ≤ maxData c) ∧ nRead t ≤ maxData c := by
  have h2 := two_le_maxData c
  have hf := payloadFits_of_valid hv
  have hn : nRead t ≤ max 2 (txBytes t).length := by
    simp only [nRead]
    split <;> omega
  have ht : (txBytes t).length ≤ maxData c := by
    cases hp : t.payload with
    | block d =>
      rw [hp] at hf
      rw [txBytes, hp]
      exact Nat.le_trans (payloadFits_block hf).2 (blockMax_le_maxData c)
    | quick => rw [txBytes, hp]; exact Nat.zero_le _
    | byte v => rw [txBytes, hp]; exact Nat.le_of_succ_le h2
    | word v => rw [txBytes, hp]; exact h2
  exact ⟨fun _ => ht, by omega⟩

theorem receives_write {t : Txn} {q : Inputs} (hd : t.dir = .write) : Receives c q t [] := by
  have hh : heardBytes t [] = [] := by simp [heardBytes, hd]
  refine ⟨fun _ => rfl, fun h => (by rw [hd] at h; cases h), fun h => (by rw [hd] at h; cases h), fun ys _ hy => ?_⟩
  rw [hh] at hy ⊢
  exact (List.eq_nil_of_length_eq_zero hy).symm

theorem receives_read {t : Txn} {q : Inputs} {d : List Byte} (hd : t.dir = .read)
    (h1 : t.sizeClass ≠ 5#4 → d.length = nRead t) (h2 : t.sizeClass = 5#4 → 1 ≤ d.length ∧ d.length ≤ c.blockMax.val)
    (h3 : ∀ ys, ys <+: q.data → ys.length = (heardBytes t d).length → heardBytes t d = ys) : Receives c q t d :=
  ⟨fun h => (by rw [hd] at h; cases h), fun _ => h1, fun _ => h2, h3⟩

/-- Any valid transaction on smooth answers: at most `7 + maxData` positions to its STOP, the accesses of its wire
sequence, the payload of what it received (rules R172, R193). -/
theorem execute_smooth (t : Txn) (hv : validateTxn c m t = none) (h : Smooth c p.unit.inputs (txnPolls (maxPhases c)))
    (hl : LengthByteOk c p.unit.inputs t) :
    ∃ q d n k, n ≤ 7 + maxData c ∧ Stops c m n (execStart t) p (.ok (payloadOf t d)) q ∧ Receives c p.unit.inputs t d ∧
      Glide c m p q k (heardBytes t d) (reinitWrites c ++ wireWrites c t d.length) (5 + 3 * phaseCount t d.length) := by
  have hle := validLengths hv
  have hcut : ∀ k, k ≤ maxPhases c → Smooth c p.unit.inputs (txnPolls k) := by
    intro k hk
    have := h
    rw [← Nat.add_sub_cancel' hk, txnPolls_add] at this
    exact this.head
  have hb1 : (if hasCommand t.sizeClass then 1 else 0 : Nat) ≤ 1 := by split <;> simp
  have hb2 : (if t.sizeClass = 5#4 then 1 else 0 : Nat) ≤ 1 := by split <;> simp
  cases hd : t.dir with
  | write =>
    have hx := hle.1 hd
    obtain ⟨q, hs, g⟩ := write_smooth (c := c) (m := m) (p := p) t hv hd
      (hcut _ (by simp only [phaseCount, hd, maxPhases]; omega))
    have hh : heardBytes t [] = [] := by simp [heardBytes, hd]
    have hp : payloadOf t [] = .quick := by rw [payloadOf, hd]
    exact ⟨q, [], 6 + (txBytes t).length, _, by omega, hp ▸ hs, receives_write hd, hh ▸ g⟩
  | read =>
    by_cases hb : t.sizeClass = 5#4
    · have hk : sizeClassKind t.sizeClass = .blockData := kind_blockData.2 hb
      obtain ⟨v0, rest, hdata, hok⟩ := hl hk hd
      have hv32 := blockLenOk_iff.1 hok
      have hvm := Nat.le_trans hv32.2 (blockMax_le_maxData c)
      obtain ⟨q, v, ⟨rest', hr⟩, h1, _⟩ := blockRead_smooth (c := c) (m := m) (p := p) t hv hd hb (n := maxData c) h
        (fun v r _ hv => Nat.le_trans (blockLenOk_iff.1 hv).2 (blockMax_le_maxData c)) (by rw [hdata]; simp)
      have hvv : v = v0 := by rw [hdata] at hr; exact (List.cons.inj hr).1.symm
      subst hvv
      obtain ⟨xs, hx, hs, g⟩ := h1 hok
      have hh : heardBytes t xs = v :: xs := by
        rw [heardBytes, if_pos ⟨hd, hb⟩, hx]; simp
      have hp : payloadOf t xs = .block xs := by rw [payloadOf, hd]; simp only [packRead, hk]
      refine ⟨q, xs, 7 + v.toNat, _, by omega, hp ▸ hs,
        receives_read hd (fun h => absurd hb h) (fun _ => by rw [hx]; exact hv32) (fun ys hp hy => ?_), hh ▸ g⟩
      rw [hh] at hy ⊢
      exact g.listed ys hp hy
    · obtain ⟨q, xs, hs, hx, g⟩ := read_smooth (c := c) (m := m) (p := p) t hv hd hb
        (hcut _ (by simp only [phaseCount, hd, hb, if_false, maxPhases]; omega))
      have hh : heardBytes t xs = xs := by rw [heardBytes, if_neg (fun h => hb h.2)]
      have hp : payloadOf t xs = packRead t.sizeClass xs := by rw [payloadOf, hd]
      refine ⟨q, xs, 7 + nRead t, _, by omega, hp ▸ hs,
        receives_read hd (fun _ => hx) (fun h => absurd h hb) (fun ys hp hy => ?_), by rw [hh, hx]; exact g⟩
      rw [hh] at hy ⊢
      exact g.listed ys hp hy

end Sys2Proof.Machine
end

