-- ==== Sys2Proof/Laws/Calls.lean ====
section
/-! SUPPORT. Calls on the whole state: who passes the lock check, the frame of a call on one master, a call that
returns, and a mux write on smooth status answers. -/

namespace Sys2Proof.Machine

variable {s : State} {k : MasterIx} {q : Port} {r : Ret}

theorem holderFault_none_iff : s.holderFault k = none ↔ Holds s k := by
  simp only [State.holderFault, Holds, State.port_unit]
  cases (s.unit k).record with
  | none => by_cases hp : s.phase = .shutDown <;> simp [hp]
  | some x => simp

/-- An agent that does not hold the lock of an existing record. -/
theorem holderFault_of_record {x : MasterState} (hr : (s.unit k).record = some x) (hl : x.lock ≠ .held s.self) :
    s.holderFault k = some .unlockedAccess := by
  rw [State.holderFault, State.port_unit, hr]; exact if_neg hl

@[simp] theorem accessMaster_eq {c : Config.Params} {ep : EndpointRef} :
    accessMaster c ep = some k ↔ masterIx c ep.master = some k ∧ masterEnabled c k = true := by
  simp only [accessMaster]
  cases h : masterIx c ep.master with
  | none => simp
  | some j =>
    simp only [Option.some.injEq]
    constructor
    · intro hj
      split at hj
      · obtain rfl := Option.some.inj hj; exact ⟨rfl, by assumption⟩
      · cases hj
    · rintro ⟨rfl, he⟩; simp [he]

/-- The frame of a call on one master that returns. -/
theorem onlyMaster_returned (h : Evolves s.cfg k (s.port k) q) (hw : s.window.wf = true) :
    OnlyMaster s ((s.withPort k q).returned r) k := by
  refine ⟨rfl, rfl, rfl, rfl, rfl, rfl, rfl, fun j hj => by simp [State.withPort_unit_other s q hj], ?_, ?_⟩
  · intro n hn
    simp only [State.returned_agents, State.withPort_agents, State.withPort_self, List.getElem?_modify]
    cases s.agents[n]? <;> simp [Ne.symm hn]
  · intro a ha
    exact h.window_other hw a ha

/-- The frame of a call on one master that is suspended. -/
theorem onlyMaster_suspended {c : Call} (h : Evolves s.cfg k (s.port k) q) (hw : s.window.wf = true) :
    OnlyMaster s ((s.withPort k q).suspended c) k := by
  refine ⟨rfl, rfl, rfl, rfl, rfl, rfl, rfl, fun j hj => by simp [State.withPort_unit_other s q hj], ?_, ?_⟩
  · intro n hn
    simp only [State.suspended_agents, State.withPort_agents, State.withPort_self, List.getElem?_modify]
    cases s.agents[n]? <;> simp [Ne.symm hn]
  · intro a ha
    exact h.window_other hw a ha

/-- A call on one master that ran smoothly to its end. -/
theorem ranOn_of_glide {n i : Nat} {xs : List Byte} {ws : List Access} (g : Glide s.cfg k (s.port k) q i xs ws n)
    (hw : s.window.wf = true) : RanOn s ((s.withPort k q).returned r) k r ws n := by
  obtain ⟨new, h1, h2, h3, _⟩ := g.accesses
  refine ⟨onlyMaster_returned g.evolves hw, rfl, ⟨⟨new, ?_, h2, h3⟩, g.window⟩, ?_, ?_⟩
  · simpa using h1
  · simpa using g.record
  · simpa using g.chips

/-- The bytes it read from `DATA`. -/
theorem heard_of_glide {n i : Nat} {xs : List Byte} {ws : List Access} (g : Glide s.cfg k (s.port k) q i xs ws n) :
    Heard s ((s.withPort k q).returned r) k xs := by
  obtain ⟨new, h1, _, _, h4⟩ := g.accesses
  exact ⟨new, by simpa using h1, h4⟩

/-- `execute` of a transaction whose positions are known up to its STOP (rule R173). -/
theorem beginExecute_stops {t : Txn} {n : Nat} {x : Res} (hv : validateTxn s.cfg k t = none) (hh : Holds s k)
    (h : Stops s.cfg k n (execStart t) (s.port k) x q) (hn : n + 1 ≤ s.quantum) :
    beginExecute k t s = .done (retOfRes x) (s.withPort k (stopBus s.cfg k q)) := by
  obtain ⟨g, hs, ho⟩ := h.ret
  have hr := hs.ends ho hn
  simp only [beginExecute, hv, resumeExecCall, holderFault_none_iff.2 hh, hr, portOut]

theorem validate_muxTxn {c : Config.Params} {m : MasterIx} {sw v : Byte} (he : masterEnabled c m = true)
    (ha : sw.toNat ≤ 0x7F) : validateTxn c m (muxTxn sw v) = none := by
  have hk : sizeClassKind (muxTxn sw v).sizeClass = .byte := rfl
  have hf : payloadFits c (muxTxn sw v).sizeClass (muxTxn sw v).dir (muxTxn sw v).payload = true := rfl
  have hg : ¬ (muxTxn sw v).addr.toNat > 0x7F := Nat.not_lt.2 ha
  rw [validateTxn, if_neg (by rw [he]; exact Bool.noConfusion), hk]
  simp only [if_neg hg, hf, Bool.true_eq_false, if_false]

theorem muxPos_inner {c : Config.Params} {m : MasterIx} {w : MuxFrame} {e e1 : ExecFrame} {p q : Port}
    (h : execPos c m e p = .go e1 q) :
    muxPos c m { w with inner := some e } p = .go { w with inner := some e1 } q := by
  simp only [muxPos, h]

/-- An attempt of a mux write whose positions are known up to its STOP. -/
theorem mux_attempt {c : Config.Params} {m : MasterIx} {w : MuxFrame} {p q : Port} {n : Nat} {x : Res}
    (hi : w.inner = none) (ht : w.tried < c.muxAttempts)
    (h : Stops c m n (execStart (muxTxn w.sw w.value)) p x q) :
    ∃ g, Steps (muxPos c m) (n + 2) w p g (stopBus c m q) ∧
      muxPos c m g (stopBus c m q) = muxAttemptOver w x (stopBus c m q) := by
  obtain ⟨g, hs, ho⟩ := h.ret
  have hb : muxPos c m w p = .go { w with inner := some (execStart (muxTxn w.sw w.value)) } p := by
    rw [muxPos, hi]; exact if_pos ht
  have hl := (hs.lift (fun e => { w with inner := some e }) id (fun _ => True)
    (fun _ _ _ _ _ h => ⟨trivial, muxPos_inner h⟩) trivial).1
  refine ⟨{ w with inner := some g }, (Steps.cons hb hl).cast (by omega), ?_⟩
  have : muxPos c m { w with inner := some g } (stopBus c m q) =
      muxAttemptOver { w with inner := some g } x (stopBus c m q) := by simp only [muxPos, ho]
  rw [this]
  cases x <;> simp [muxAttemptOver]

/-- A mux write whose first attempt meets smooth status answers (rules R181, R226). -/
theorem mux_smooth {c : Config.Params} {m : MasterIx} {p : Port} {sw v : Byte} (he : masterEnabled c m = true)
    (ha : sw.toNat ≤ 0x7F) (hl : 1 ≤ c.muxAttempts) (h : Smooth c p.unit.inputs (txnPolls 2)) :
    ∃ g q, Steps (muxPos c m) 9 (muxStart sw v) p g q ∧ muxPos c m g q = .ended true (chipWritten sw v q) ∧
      Glide c m p q 3 [] (muxWrites c sw v) 12 := by
  have hf : firstAddr (muxTxn sw v) = addrW sw := by simp [firstAddr, muxTxn]
  have hc : phaseCount (muxTxn sw v) 0 = 2 := by rfl
  obtain ⟨q, hs, g⟩ := write_smooth (c := c) (m := m) (p := p) (muxTxn sw v) (validate_muxTxn he ha) rfl
    (by rw [hc]; exact h)
  obtain ⟨g1, h1, h2⟩ := mux_attempt (w := muxStart sw v) rfl hl hs
  refine ⟨g1, _, h1, h2, (g.trans glide_stopBus).cast (by rw [hc]) rfl ?_ (by rw [hc])⟩
  rw [muxWrites, txnWrites, wireWrites, hf]
  rfl

/-- `execute` not acknowledged at the address: its two status answers are an idle bus and a phase with RXACK set. -/
theorem nacked_stops {c : Config.Params} {m : MasterIx} {p : Port} (t : Txn) (hv : validateTxn c m t = none) {v0 v1 : Byte}
    {rest : List Byte} (hs : p.unit.inputs.status = v0 :: v1 :: rest) (h0 : bitSet v0 c.bits.busy = false)
    (h1 : bitSet v1 c.bits.tip = false) (h2 : bitSet v1 c.bits.al = false) (h3 : bitSet v1 c.bits.rxack = true) :
    ∃ q q0, Stops c m 4 (execStart t) p (.err .noAck) q ∧
      q = mapRecord (setPhaseFlags { err := some .noAck, setRetry := true, setPersist := false }) q0 ∧
      Glide c m p q0 2 [] (reinitWrites c ++ startWrites c (firstAddr t)) 8 := by
  have g0 : Glide c m p _ 0 [] _ 4 := glide_programDivider
  have hsm : Smooth c (programDivider c m c.div100k p).unit.inputs [true] := by
    show answersFit c.bits [true] p.unit.inputs.status = true
    rw [hs]; simp [answersFit, answerFits, h0]
  obtain ⟨q1, hq1, g1⟩ := runPrim_waitIdle_smooth (m := m) hsm
  have hst : q1.unit.inputs.status = v1 :: rest := by
    rw [g1.status]
    show p.unit.inputs.status.drop 1 = _
    rw [hs]; rfl
  have hst' : (primBegin c m (.start (firstAddr t)) q1).unit.inputs.status = v1 :: rest := hst
  have g2 : Glide c m q1 (readReg m .cmdstat (primBegin c m (.start (firstAddr t)) q1)).2 1 [] _ 3 :=
    (((glide_write .data (firstAddr t) rfl).trans (glide_write .cmdstat _ (by simp [accessIssued]))).trans
      glide_readStatus).cast rfl rfl rfl rfl
  have ho : phaseOutcome c.bits true v1 = { err := some .noAck, setRetry := true, setPersist := false } := by
    simp [phaseOutcome, h2, h3]
  have hq2 : runPrim c m (.start (firstAddr t)) false q1 = (.err .noAck, mapRecord (setPhaseFlags
      { err := some .noAck, setRetry := true, setPersist := false })
      (readReg m .cmdstat (primBegin c m (.start (firstAddr t)) q1)).2) := by
    show waitPhaseOnce c m true _ = _
    simp only [waitPhaseOnce, pollOnce, Bool.false_eq_true, if_false, readStatus_value hst', h1, ho]
  refine ⟨_, _, ⟨_, .cons (f1 := (execStart t).atPos .reinit) (x1 := p) ?_ (.cons rfl (.cons (primPos_ok _ hq1)
    (.one (primPos_err _ hq2)))), rfl, rfl⟩, rfl, ((g0.trans g1).trans g2).cast rfl rfl (by simp [startWrites]) rfl⟩
  show posValidate c m (execStart t) p = _
  rw [posValidate]
  show (match validateTxn c m t with
    | some e => PosOut.ended (Res.err e) p
    | none => PosOut.go ((execStart t).atPos .reinit) p) = _
  rw [hv]

end Sys2Proof.Machine
end

