-- ==== Sys2Proof/Laws/Reach.lean ====
section
/-! SUPPORT. What a call, an instruction and a step can do to the whole state, said once: `Reaches K` is a finite
sequence of single moves, each of which works on one master in `K` whose lock no other agent holds, changes the moving
agent, or is the lifecycle's creation or destruction of all records. -/

namespace Sys2Proof.Machine

/-- No agent but the moving one holds the lock of `m`. -/
def Unheld (s : State) (m : MasterIx) : Prop :=
  ∀ r a, (s.unit m).record = some r → r.lock = .held a → a = s.self

/-- One move of the agent `s.self`. -/
inductive StateMove (K : MasterIx → Prop) : State → State → Prop
  | port (s : State) (m : MasterIx) (q : Port) (hk : K m) (hu : Unheld s m) (h : Evolves s.cfg m (s.port m) q) :
      StateMove K s (s.withPort m q)
  | agent (s : State) (f : Agent → Agent) : StateMove K s (s.mapSelf f)
  | records (s : State) (x : Option MasterState) (ph : Phase) (hk : ∀ m, K m) (hu : ∀ m, Unheld s m)
      (hx : (x = none ∧ ph ≠ .running) ∨ (x ≠ none ∧ ph = .running ∧ configOk s.cfg = true)) :
      StateMove K s { setRecords x s with phase := ph }

/-- Finitely many moves. -/
def Reaches (K : MasterIx → Prop) : State → State → Prop := Relation.ReflTransGen (StateMove K)

variable {K : MasterIx → Prop} {s t u : State} {m : MasterIx} {q : Port}

theorem Reaches.refl (s : State) : Reaches K s s := Relation.ReflTransGen.refl

theorem Reaches.trans (h : Reaches K s t) (k : Reaches K t u) : Reaches K s u := Relation.ReflTransGen.trans h k

theorem reaches_port (hk : K m) (hu : Unheld s m) (h : Evolves s.cfg m (s.port m) q) :
    Reaches K s (s.withPort m q) := Relation.ReflTransGen.single (.port s m q hk hu h)

theorem reaches_agent (f : Agent → Agent) : Reaches K s (s.mapSelf f) := Relation.ReflTransGen.single (.agent s f)

/-! What follows from it. -/

theorem Reaches.cfg (h : Reaches K s t) : t.cfg = s.cfg := by
  induction h with
  | refl => rfl
  | tail _ hm ih => cases hm <;> exact ih

theorem Reaches.self (h : Reaches K s t) : t.self = s.self := by
  induction h with
  | refl => rfl
  | tail _ hm ih => cases hm <;> exact ih

theorem Reaches.schedule (h : Reaches K s t) :
    t.schedule = s.schedule ∧ t.turns = s.turns ∧ t.quantum = s.quantum ∧ t.arrivals = s.arrivals := by
  induction h with
  | refl => exact ⟨rfl, rfl, rfl, rfl⟩
  | tail _ hm ih => cases hm <;> exact ih

theorem Reaches.agents (h : Reaches K s t) :
    t.agents.length = s.agents.length ∧ ∀ n, n ≠ s.self → t.agents[n]? = s.agents[n]? := by
  induction h with
  | refl => exact ⟨rfl, fun _ _ => rfl⟩
  | @tail x y hx hm ih =>
    cases hm with
    | port => exact ih
    | records => exact ih
    | agent f =>
      refine ⟨by simp [ih.1], fun n hn => ?_⟩
      rw [← ih.2 n hn, State.mapSelf_agents, List.getElem?_modify, Reaches.self hx]
      cases x.agents[n]? <;> simp [Ne.symm hn]

theorem setRecords_unit (x : Option MasterState) (s : State) (m : MasterIx) :
    (setRecords x s).unit m = { s.unit m with record := recordFor s.cfg x m } := by
  simp [State.unit, setRecords, allMasters]

theorem recordFor_none (c : Config.Params) (m : MasterIx) : recordFor c none m = none := by simp [recordFor]

/-- Once every record is made `x`, the masters of `1..N_MASTERS` have the record `x` is, and no other has one. -/
theorem recordFor_eq_some {c : Config.Params} {x : Option MasterState} {y : MasterState} :
    recordFor c x m = some y ↔ m.val < c.nMasters.val ∧ x = some y := by simp [recordFor]

/-- The lifecycle touches every master. -/
theorem Reaches.phase (h : Reaches K s t) {m : MasterIx} (hm : ¬ K m) : t.phase = s.phase := by
  induction h with
  | refl => rfl
  | tail _ hs ih =>
    cases hs with
    | records _ _ hk _ _ => exact absurd (hk m) hm
    | port => exact ih
    | agent => exact ih

theorem Reaches.window_wf (h : Reaches K s t) (hw : s.window.wf = true) : t.window.wf = true := by
  induction h with
  | refl => exact hw
  | tail _ hm ih =>
    cases hm with
    | port m q _ _ he => exact he.window_wf ih
    | agent => exact ih
    | records => exact ih

theorem Reaches.history (h : Reaches K s t) (m : MasterIx) :
    ∃ new, (t.unit m).history = (s.unit m).history ++ new ∧ ∀ a ∈ new, accessIssued s.cfg.bits a = true := by
  induction h with
  | refl => exact ⟨[], by simp⟩
  | @tail x y hx hm ih =>
    obtain ⟨new, hn, ha⟩ := ih
    cases hm with
    | agent f => exact ⟨new, hn, ha⟩
    | records r ph _ _ _ =>
      exact ⟨new, by show ((setRecords r x).unit m).history = _; rw [setRecords_unit]; exact hn, ha⟩
    | port j q _ _ he =>
      by_cases hj : m = j
      · subst hj
        obtain ⟨more, hm, hb⟩ := he.history
        refine ⟨new ++ more, ?_, fun a h => ?_⟩
        · rw [State.withPort_unit_same, hm]
          show (x.unit m).history ++ more = _
          rw [hn, List.append_assoc]
        · rcases List.mem_append.1 h with h | h
          · exact ha a h
          · rw [← Reaches.cfg hx]; exact hb a h
      · rw [State.withPort_unit_other x q hj]; exact ⟨new, hn, ha⟩

theorem Reaches.unit_other (h : Reaches K s t) {m : MasterIx} (hm : ¬ K m) : t.unit m = s.unit m := by
  induction h with
  | refl => rfl
  | @tail x y _ hs ih =>
    cases hs with
    | agent f => exact ih
    | records r ph hk _ _ => exact absurd (hk m) hm
    | port j q hk _ _ => rw [State.withPort_unit_other x q (fun e => hm (by rw [e]; exact hk)), ih]

theorem Reaches.window_other (h : Reaches K s t) (hw : s.window.wf = true) (a : Nat)
    (ha : ∀ m, K m → ∀ r, a ≠ regAddr s.cfg m r) : t.window.read a = s.window.read a := by
  induction h with
  | refl => rfl
  | @tail x y hx hs ih =>
    cases hs with
    | agent f => exact ih
    | records r ph _ _ _ => exact ih
    | port j q hk _ he =>
      have hx' : Reaches K s x := hx
      rw [← ih]
      exact he.window_other (Reaches.window_wf hx hw) a (by rw [hx'.cfg]; exact ha j hk)

/-- A master whose lock another agent holds is not touched. -/
theorem Reaches.unit_held (h : Reaches K s t) {r : MasterState} {a : AgentId}
    (hr : (s.unit m).record = some r) (hl : r.lock = .held a) (ha : s.self ≠ a) : t.unit m = s.unit m := by
  induction h with
  | refl => rfl
  | @tail x y hx hs ih =>
    have hself : x.self = s.self := Reaches.self hx
    cases hs with
    | agent f => exact ih
    | records v ph _ hu _ => exact absurd ((hu m r a (by rw [ih, hr]) hl).symm.trans rfl) (by rw [hself]; exact ha)
    | port j q _ hu _ =>
      by_cases hj : m = j
      · subst hj; exact absurd (hu r a (by rw [ih, hr]) hl).symm (by rw [hself]; exact ha)
      · rw [State.withPort_unit_other x q hj, ih]

/-! Who may touch a master. -/

theorem unheld_of_holds (h : Holds s m) : Unheld s m := by
  obtain ⟨x, hx, hl⟩ := h
  intro r a hr ha
  rw [hx] at hr
  obtain rfl := Option.some.inj hr
  rw [hl] at ha
  exact (Lock.held.inj ha).symm

theorem unheld_of_alone (h : s.initialiserAlone = true) (m : MasterIx) : Unheld s m := by
  intro r a hr ha
  simp only [State.initialiserAlone, Bool.and_eq_true, List.all_eq_true] at h
  have hm : s.unit m ∈ s.units.toList := by simp [State.unit]
  have hu := h.2 _ hm
  simp only [lockNotOthers, hr, ha, Bool.or_eq_true, decide_eq_true_eq, reduceCtorEq, false_or] at hu
  exact Lock.held.inj hu

theorem unheld_of_acquire (h : acquireLock s.self (s.port m) = some q) : Unheld s m := by
  intro r a hr ha
  rw [acquireLock] at h
  split at h
  · next hf =>
    simp only [recordOf, State.port_unit, hr, Option.getD_some, ha] at hf
    cases hf
  · cases h

/-! Calls. -/

/-- A call's outcome is reached by moves on the masters of `K`. -/
def CallOut.Good (K : MasterIx → Prop) (s : State) : CallOut → Prop
  | .done _ t => Reaches K s t
  | .paused _ t => Reaches K s t
  | .fault _ => True

theorem CallOut.Good.after {o : CallOut} (h : Reaches K s t) (k : o.Good K t) : o.Good K s := by
  cases o with
  | done r x => exact h.trans k
  | paused f x => exact h.trans k
  | fault e => trivial

theorem finishCall_reaches {o : CallOut} (h : o.Good K s) (ht : finishCall o = .next t) : Reaches K s t := by
  cases o with
  | done r x => obtain rfl := Host.Outcome.next.inj ht; exact Reaches.trans h (reaches_agent _)
  | paused f x => obtain rfl := Host.Outcome.next.inj ht; exact Reaches.trans h (reaches_agent _)
  | fault e => cases ht

theorem answer_reaches {r : Ret} (ht : answer r s = .next t) : Reaches K s t :=
  finishCall_reaches (o := .done r s) (Reaches.refl s) ht

theorem primCall_good (hk : K m) (pr : Prim) (polling : Bool) : (primCall m pr polling s).Good K s := by
  rw [primCall]
  split
  · trivial
  · next hf =>
    have hu := unheld_of_holds (holderFault_none_iff.1 hf)
    split <;> (next h => exact reaches_port hk hu (evolves_of_runPrim h))

/-- Positions run on the port of a master no other agent holds. -/
theorem portOut_good {F R : Type} (hk : K m) (hu : Unheld s m) {call : F → Call} {ret : R → Ret}
    {o : PosOut F R Port} (h : o.Leaves (Evolves s.cfg m (s.port m))) : (portOut m s call ret o).Good K s := by
  cases o with
  | go f p => exact reaches_port hk hu h
  | wait f p => exact reaches_port hk hu h
  | ended r p => exact reaches_port hk hu h
  | fault e => trivial

theorem resumeExecCall_good (hk : K m) (f : ExecFrame) : (resumeExecCall m f s).Good K s := by
  rw [resumeExecCall]
  split
  · trivial
  · next hf =>
    exact portOut_good hk (unheld_of_holds (holderFault_none_iff.1 hf)) (evolves_runPos (fun f _ => evolves_execPos f) _ f)

theorem beginExecute_good (hk : K m) (t : Txn) : (beginExecute m t s).Good K s := by
  rw [beginExecute]
  split
  · exact Reaches.refl s
  · exact resumeExecCall_good hk _

theorem muxCall_good (hk : K m) (f : MuxFrame) : (muxCall m f s).Good K s := by
  rw [muxCall]
  split
  · exact Reaches.refl s
  · split
    · trivial
    · next hf =>
      exact portOut_good hk (unheld_of_holds (holderFault_none_iff.1 hf)) (evolves_runPos (fun f _ => evolves_muxPos f) _ f)

theorem withPort_self (s : State) (m : MasterIx) : s.withPort m (s.port m) = s := by
  simp [State.withPort, State.port, State.unit]

/-- An access of an agent that neither holds nor can take the lock leaves the port as it is. -/
theorem accessPos_still (hn : ¬ Unheld s m) (f : AccessFrame) (hf : f.apc.lockFree = true) :
    (accessPos s.cfg s.self m f (s.port m)).Meets (fun g q => q = s.port m ∧ g.apc.lockFree = true)
      (fun _ q => q = s.port m) := by
  rw [accessPos]
  split
  · exact ⟨rfl, rfl⟩
  · rw [posLock]; split
    · exact ⟨rfl, hf⟩
    · next h => exact absurd (unheld_of_acquire h) hn
  all_goals first
    | (next h => rw [h] at hf; cases hf)
    | rfl

theorem runAccess_good (hk : K m) (f : AccessFrame) (hf : f.apc.lockFree = true ∨ Holds s m) :
    (runAccess m f s).Good K s := by
  rw [runAccess]
  by_cases hu : Unheld s m
  · exact portOut_good hk hu (evolves_runPos (fun f _ => evolves_accessPos s.self f) _ f)
  · have hf' := hf.resolve_right (fun h => hu (unheld_of_holds h))
    have h := runPos_meets (pos := accessPos s.cfg s.self m)
      (P := fun g q => q = s.port m ∧ g.apc.lockFree = true) (E := fun _ q => q = s.port m)
      (fun g q hg => hg.1 ▸ accessPos_still hu g hg.2) s.quantum f (s.port m) ⟨rfl, hf'⟩
    cases ho : runPos (accessPos s.cfg s.self m) s.quantum f (s.port m) with
    | go g q => rw [ho] at h; rw [portOut, h.1, withPort_self]; exact Reaches.refl s
    | wait g q => rw [ho] at h; rw [portOut, h.1, withPort_self]; exact Reaches.refl s
    | ended r q => rw [ho] at h; rw [portOut, show q = s.port m from h, withPort_self]; exact Reaches.refl s
    | fault e => trivial

theorem accessFault_none {f : AccessFrame} (h : accessFault m f s = none) : f.apc.lockFree = true ∨ Holds s m := by
  rw [accessFault] at h
  split at h
  · next hr => left; rw [hr]; rfl
  · split at h
    · next hl => exact .inl hl
    · exact .inr (holderFault_none_iff.1 h)

theorem resumeAccessCall_good (f : AccessFrame) (hk : ∀ m, masterIx s.cfg f.ep.master = some m → K m) :
    (resumeAccessCall f s).Good K s := by
  rw [resumeAccessCall]
  split
  · exact Reaches.refl s
  · next m hm =>
    split
    · trivial
    · next hf => exact runAccess_good (hk m (accessMaster_eq.1 hm).1) f (accessFault_none hf)

/-- One position of `deselect_all`. -/
theorem deselectPos_reaches (hk : ∀ m, K m) (d : DeselectFrame) (s : State) :
    (deselectPos d s).Leaves (Reaches K s) := by
  rw [deselectPos]
  split
  · exact Reaches.refl s
  · next m rest _ =>
    split
    · split
      · trivial
      · next hf =>
        have hu := unheld_of_holds (holderFault_none_iff.1 hf)
        split
        · rw [deselectRelease]
          split
          · trivial
          · next hr =>
            refine reaches_port (hk m) hu (Evolves.trans ?_ (evolves_release hr))
            split
            · exact evolves_record _
            · exact Evolves.refl _
        · rw [deselectWrite]
          next sw more _ =>
          have h := evolves_muxPos (c := s.cfg) (m := m) (p := s.port m) (d.write.getD (muxStart sw 0x00#8))
          split <;> (rename_i he; rw [he] at h)
          · exact reaches_port (hk m) hu h
          · exact reaches_port (hk m) hu h
          · exact reaches_port (hk m) hu h
          · trivial
    · rw [deselectAcquire]
      split
      · trivial
      · split
        · exact Reaches.refl s
        · next hp => exact reaches_port (hk m) (unheld_of_acquire hp) (evolves_acquire hp)

theorem resumeDeselect_good (hk : ∀ m, K m) (d : DeselectFrame) : (resumeDeselect d s).Good K s := by
  rw [resumeDeselect]
  have h := runPos_leaves (L := Reaches K) Reaches.refl (fun _ _ _ => Reaches.trans)
    (fun d s => deselectPos_reaches hk d s) s.quantum d s
  cases ho : runPos deselectPos s.quantum d s <;> rw [ho] at h <;> exact h

/-- A resumed call. -/
theorem resumeCall_good (k : Call) : (resumeCall k s).Good (fun _ => True) s := by
  cases k with
  | prim m pr => exact primCall_good trivial pr true
  | exec m f => exact resumeExecCall_good trivial f
  | mux m f => exact muxCall_good trivial f
  | access f => exact resumeAccessCall_good f (fun _ _ => trivial)
  | deselectAll d => exact resumeDeselect_good (fun _ => trivial) d

/-! Instructions. -/

/-- A call that names a master by its index reaches what its body reaches, or changes only its agent. -/
theorem onMaster_reaches {b : Byte} {run : MasterIx → Host.Outcome State Fault Refusal}
    (h : ∀ m, masterIx s.cfg b = some m → Unheld s m → run m = .next t → Reaches K s t) (ht : onMaster b s run = .next t) :
    Reaches K s t := by
  rw [onMaster] at ht
  split at ht
  · cases ht
  · next m hm =>
    split at ht
    · split at ht
      · cases ht
      · next hf => exact h m hm (unheld_of_holds (holderFault_none_iff.1 hf)) ht
    · exact answer_reaches ht

theorem startPrim_reaches {b : Byte} (hk : ∀ m, masterIx s.cfg b = some m → K m) {pr : Prim}
    (ht : startPrim b pr s = .next t) : Reaches K s t :=
  onMaster_reaches (fun m hm _ => finishCall_reaches (primCall_good (hk m hm) pr false)) ht

theorem startExecute_reaches {b : Byte} (hk : ∀ m, masterIx s.cfg b = some m → K m) {x : Txn}
    (ht : startExecute b x s = .next t) : Reaches K s t := by
  rw [startExecute] at ht
  split at ht
  · exact answer_reaches ht
  · next m hm => exact finishCall_reaches (beginExecute_good (hk m hm) x) ht

theorem startMux_reaches {b sw v : Byte} (hk : ∀ m, masterIx s.cfg b = some m → K m)
    (ht : startMux b sw v s = .next t) : Reaches K s t := by
  rw [startMux] at ht
  split at ht
  · exact answer_reaches ht
  · next m hm => exact finishCall_reaches (muxCall_good (hk m hm) _) ht

theorem execCmdStop_reaches {b : Byte} (hk : ∀ m, masterIx s.cfg b = some m → K m)
    (ht : execCmdStop b s = .next t) : Reaches K s t :=
  onMaster_reaches (fun m hm hu => finishCall_reaches (o := .done .unit _)
    (reaches_port (hk m hm) hu evolves_stopBus)) ht

theorem execRead8_reaches {b : Byte} {r : Reg} (hk : ∀ m, masterIx s.cfg b = some m → K m)
    (ht : execRead8 b r s = .next t) : Reaches K s t :=
  onMaster_reaches (fun m hm hu => finishCall_reaches (o := .done _ _)
    (reaches_port (hk m hm) hu (evolves_read r))) ht

theorem issued_of_writeRefusal {b : Config.Bits} {r : Reg} {v : Byte} (h : writeRefusal b r v = none) :
    accessIssued b (.wr r v) = true := by
  cases r <;> simp_all [writeRefusal, accessIssued]

theorem execWrite8_reaches {b v : Byte} {r : Reg} (hk : ∀ m, masterIx s.cfg b = some m → K m)
    (ht : execWrite8 b r v s = .next t) : Reaches K s t := by
  refine onMaster_reaches (fun m hm hu hr => ?_) ht
  split at hr
  · cases hr
  · next hw =>
    exact finishCall_reaches (o := .done _ _)
      (reaches_port (hk m hm) hu (evolves_write r v (issued_of_writeRefusal hw))) hr

theorem execInit_reaches {b : Byte} {div : Half} (hk : ∀ m, masterIx s.cfg b = some m → K m)
    (ht : execInit b div s = .next t) : Reaches K s t := by
  rw [execInit] at ht
  split at ht
  · exact answer_reaches ht
  · refine onMaster_reaches (fun m hm hu hr => ?_) ht
    split at hr
    · exact finishCall_reaches (o := .done _ _)
        (reaches_port (hk m hm) hu (evolves_programDivider div)) hr
    · exact answer_reaches hr

theorem execDeinit_reaches {b : Byte} (hk : ∀ m, masterIx s.cfg b = some m → K m)
    (ht : execDeinit b s = .next t) : Reaches K s t :=
  onMaster_reaches (fun m hm hu => finishCall_reaches (o := .done _ _)
    (reaches_port (hk m hm) hu evolves_disableMaster)) ht

/-- The masters an instruction may touch. -/
def mayTouch (c : Config.Params) (i : Instr) (k : MasterIx) : Prop :=
  ∀ m, instrMaster i = some m → masterIx c m = some k

/-- A fold of port moves over masters no other agent holds. -/
theorem reaches_foldl (f : State → MasterIx → State) (hk : ∀ m, K m)
    (hf : ∀ s m, ∃ q, f s m = s.withPort m q ∧ Evolves s.cfg m (s.port m) q ∧ q.unit.record = (s.unit m).record) :
    ∀ (l : List MasterIx) (s : State), (∀ m, Unheld s m) →
      Reaches K s (l.foldl f s) ∧ ∀ m, ((l.foldl f s).unit m).record = (s.unit m).record
  | [], s, _ => ⟨Reaches.refl s, fun _ => rfl⟩
  | m :: rest, s, hu => by
    obtain ⟨q, hq, he, hr⟩ := hf s m
    have hrec : ∀ j, ((f s m).unit j).record = (s.unit j).record := by
      intro j
      rw [hq]
      by_cases hj : j = m
      · subst hj; rw [State.withPort_unit_same, hr]
      · rw [State.withPort_unit_other s q hj]
    have hu' : ∀ j, Unheld (f s m) j := by
      intro j r a h1 h2
      rw [hrec j] at h1
      have := hu j r a h1 h2
      rw [this, hq]; rfl
    obtain ⟨h1, h2⟩ := reaches_foldl f hk hf rest (f s m) hu'
    refine ⟨Reaches.trans ?_ h1, fun j => (h2 j).trans (hrec j)⟩
    rw [hq]; exact reaches_port (hk m) (hu m) he

theorem execEngineInit_reaches (hk : ∀ m, K m) (ht : execEngineInit s = .next t) : Reaches K s t := by
  rw [execEngineInit] at ht
  split at ht
  · cases ht
  · cases ht
  · split at ht
    · next ha =>
      rw [Bool.and_eq_true] at ha
      split at ht
      · next hc =>
        refine finishCall_reaches (o := .done _ _) ?_ ht
        have hr : Reaches K s (createRecords s) :=
          Relation.ReflTransGen.single (.records s (some MasterState.fresh) .running hk (unheld_of_alone ha.1)
            (.inr ⟨by simp, rfl, hc⟩))
        refine Reaches.trans hr (reaches_foldl initMaster hk (fun s m => ⟨_, rfl, evolves_programDivider _, rfl⟩) _ _
          ?_).1
        intro m r a hr hl
        have hrec : ((createRecords s).unit m).record = recordFor s.cfg (some MasterState.fresh) m := by
          show ((setRecords _ s).unit m).record = _
          rw [setRecords_unit]
        rw [hrec] at hr
        obtain rfl := Option.some.inj (recordFor_eq_some.1 hr).2
        cases hl
      · cases ht
    · cases ht

theorem execEngineShutdown_reaches (hk : ∀ m, K m) (ht : execEngineShutdown s = .next t) : Reaches K s t := by
  rw [execEngineShutdown] at ht
  split at ht
  · cases ht
  · cases ht
  · split at ht
    · next ha =>
      refine finishCall_reaches (o := .done _ _) ?_ ht
      obtain ⟨h1, h2⟩ := reaches_foldl deinitMaster hk (fun s m => ⟨_, rfl, evolves_disableMaster, rfl⟩)
        (enabledAscending s.cfg) s (unheld_of_alone ha)
      refine Reaches.trans h1 (Relation.ReflTransGen.single (.records _ none .shutDown hk ?_ (.inl ⟨rfl, by simp⟩)))
      intro m r a hr hl
      rw [h2 m] at hr
      exact (unheld_of_alone ha m r a hr hl).trans (Reaches.self h1).symm
    · cases ht

/-- An instruction that answers a next state reached it by moves on the masters it names. -/
theorem exec_reaches (i : Instr) (ht : exec i s = .next t) : Reaches (mayTouch s.cfg i) s t := by
  have all : ∀ {m : Byte} {k : MasterIx}, instrMaster i = some m → masterIx s.cfg m = some k → mayTouch s.cfg i k := by
    intro m k hi hm b hb
    rw [hi] at hb
    obtain rfl := Option.some.inj hb
    exact hm
  cases i
  case cmdIack => cases ht
  case cmdStop m => exact execCmdStop_reaches (fun k h => all rfl h) ht
  case read8 m r => exact execRead8_reaches (fun k h => all rfl h) ht
  case write8 m r v => exact execWrite8_reaches (fun k h => all rfl h) ht
  case init m d => exact execInit_reaches (fun k h => all rfl h) ht
  case deinit m => exact execDeinit_reaches (fun k h => all rfl h) ht
  case access ep x => exact finishCall_reaches (resumeAccessCall_good _ (fun k h => all rfl h)) ht
  case muxSelect => exact startMux_reaches (fun k h => all rfl h) ht
  case muxDeselect => exact startMux_reaches (fun k h => all rfl h) ht
  case deselectAll => exact finishCall_reaches (resumeDeselect_good (fun k b hb => by cases hb) _) ht
  case engineInit => exact execEngineInit_reaches (fun k b hb => by cases hb) ht
  case engineShutdown => exact execEngineShutdown_reaches (fun k b hb => by cases hb) ht
  all_goals first
    | exact startPrim_reaches (fun k h => all rfl h) ht
    | exact startExecute_reaches (fun k h => all rfl h) ht

/-! The step. -/

theorem Reaches.mono {L : MasterIx → Prop} (h : Reaches K s t) (hkl : ∀ m, K m → L m) : Reaches L s t := by
  induction h with
  | refl => exact Reaches.refl _
  | tail _ hs ih =>
    refine Reaches.trans ih (Relation.ReflTransGen.single ?_)
    cases hs with
    | port m q hk hu he => exact .port _ m q (hkl m hk) hu he
    | agent f => exact .agent _ f
    | records x ph hk hu hx => exact .records _ x ph (fun m => hkl m (hk m)) hu hx

theorem acquireItem_reaches (hk : K m) (ht : acquireItem m s = .next t) : Reaches K s t := by
  rw [acquireItem] at ht
  split at ht
  · exact Reaches.trans (reaches_agent _) (answer_reaches ht)
  · split at ht
    · cases ht
    · split at ht
      · obtain rfl := Host.Outcome.next.inj ht; exact Reaches.refl s
      · next hp =>
        obtain rfl := Host.Outcome.next.inj ht
        exact Reaches.trans (reaches_port hk (unheld_of_acquire hp) (evolves_acquire hp)) (reaches_agent _)

theorem releaseItem_reaches (hk : K m) (ht : releaseItem m s = .next t) : Reaches K s t := by
  rw [releaseItem] at ht
  split at ht
  · cases ht
  · next hp =>
    obtain rfl := Host.Outcome.next.inj ht
    refine Reaches.trans (reaches_port hk ?_ (evolves_release hp)) (reaches_agent _)
    rw [releaseLock] at hp
    split at hp
    · next hl =>
      intro r a hr ha
      have := hl.2
      rw [recordOf, State.port_unit, hr, Option.getD_some, ha] at this
      exact Lock.held.inj this
    · cases hp

theorem lifecycleStep_reaches (ht : lifecycleStep s = .next t) : Reaches (fun _ => True) s t := by
  rw [lifecycleStep] at ht
  split at ht
  · exact (exec_reaches _ ht).mono (fun _ _ => trivial)
  · split at ht
    · exact (exec_reaches _ ht).mono (fun _ _ => trivial)
    · obtain rfl := Host.Outcome.next.inj ht; exact Reaches.refl _
  · obtain rfl := Host.Outcome.next.inj ht; exact Reaches.refl _

/-- A step reached its next state by moves of the agent whose turn it was, or is the arrival of a caller. -/
theorem step_reaches (ht : step s = .next t) : Reaches (fun _ => True) s.takeTurn t ∨ t = s.takeTurn.arrive := by
  rw [step, stepSelf] at ht
  split at ht
  · exact .inr (Host.Outcome.next.inj ht).symm
  · left
    split at ht
    · exact finishCall_reaches (resumeCall_good _) ht
    · split at ht
      · split at ht
        · exact lifecycleStep_reaches ht
        · obtain rfl := Host.Outcome.next.inj ht; exact Reaches.refl _
      · next item _ _ =>
        cases item with
        | acquire m => exact acquireItem_reaches trivial ht
        | release m => exact releaseItem_reaches trivial ht
        | call bytes =>
          rw [stepItem] at ht
          split at ht
          · cases ht
          · split at ht
            · exact Reaches.trans (reaches_agent _) ((exec_reaches _ ht).mono (fun _ _ => trivial))
            · cases ht

/-- A step of another agent leaves an agent as it is. -/
theorem step_other_agent {a : AgentId} {ag : Agent} (ht : step s = .next t) (hs : s.takeTurn.self ≠ a)
    (ha : s.agents[a]? = some ag) : t.agents[a]? = some ag := by
  rcases step_reaches ht with h | rfl
  · rw [h.agents.2 a (Ne.symm hs), State.takeTurn_agents]; exact ha
  · obtain ⟨x, hx⟩ := State.arrive_agents s.takeTurn
    rw [hx, State.takeTurn_agents, List.getElem?_append_left (List.getElem?_eq_some_iff.1 ha).1]; exact ha

/-- The step of an agent in a call goes on with it. -/
theorem step_call {a : AgentId} {ag : Agent} {k : Call} (hs : s.takeTurn.self = a) (ha : s.agents[a]? = some ag)
    (hk : ag.call = some k) : step s = finishCall (resumeCall k s.takeTurn) := by
  rw [step, stepSelf, State.takeTurn_agents, hs, ha]; simp only [hk]

end Sys2Proof.Machine
end

