-- ==== Sys2Proof/Laws/Calm.lean ====
section
/-! SUPPORT. What a transaction leaves of a master's record and chips and where its STOP stands, on every path: the
parts before STOP are `Calm`, and STOP is the last access of one that returns. -/

namespace Sys2Proof.Machine

variable {c : Config.Params} {m : MasterIx} {p q r : Port}

/-- The lock and the selection cache are the same, the flags are the same or newly set (rules R139, R140, R179). -/
def RecordUp : Option MasterState → Option MasterState → Prop
  | none, none => True
  | some r, some x => x.lock = r.lock ∧ x.lastSwitch = r.lastSwitch ∧ x.lastChannel = r.lastChannel ∧
      (r.retryNeeded = true → x.retryNeeded = true) ∧ (r.persistentNack = true → x.persistentNack = true)
  | _, _ => False

theorem RecordUp.refl : ∀ x : Option MasterState, RecordUp x x
  | none => trivial
  | some _ => ⟨rfl, rfl, rfl, id, id⟩

theorem RecordUp.trans : ∀ {x y z : Option MasterState}, RecordUp x y → RecordUp y z → RecordUp x z
  | none, none, none, _, _ => trivial
  | some _, some _, some _, ⟨a, b, d, e, f⟩, ⟨a', b', d', e', f'⟩ =>
    ⟨a'.trans a, b'.trans b, d'.trans d, e' ∘ e, f' ∘ f⟩

/-- No STOP, no chip, no lock, no cache touched. -/
structure Calm (c : Config.Params) (p q : Port) : Prop where
  history : ∃ new, q.unit.history = p.unit.history ++ new ∧ (StopDistinct c.bits → stopCount c new = 0)
  record : RecordUp p.unit.record q.unit.record
  chips : q.unit.chips = p.unit.chips

theorem Calm.refl (p : Port) : Calm c p p := ⟨⟨[], by simp [stopCount]⟩, RecordUp.refl _, rfl⟩

theorem Calm.trans (h : Calm c p q) (k : Calm c q r) : Calm c p r := by
  obtain ⟨a, ha, hs⟩ := h.history
  obtain ⟨b, hb, ht⟩ := k.history
  refine ⟨⟨a ++ b, by rw [hb, ha, List.append_assoc], fun d => ?_⟩, h.record.trans k.record, k.chips.trans h.chips⟩
  have h1 := hs d
  have h2 := ht d
  rw [stopCount] at h1 h2 ⊢
  rw [List.countP_append, h1, h2]

theorem calm_read (g : Reg) : Calm c p (readReg m g p).2 :=
  ⟨⟨[.rd g (readReg m g p).1], rfl, fun _ => by simp [stopCount, isStop]⟩, RecordUp.refl _, rfl⟩

theorem calm_write (g : Reg) (v : Byte) (h : StopDistinct c.bits → g = .cmdstat → v ≠ cmdStop c.bits) :
    Calm c p (writeReg c m g v p) :=
  ⟨⟨[.wr g v], rfl, fun d => by
    have := h d
    simp only [stopCount, isStop, List.countP_singleton, decide_eq_true_eq, ite_eq_right_iff]
    intro he
    injection he with h1 h2
    exact absurd h2 (this h1)⟩, RecordUp.refl _, rfl⟩

theorem calm_drawDeadline : Calm c p (drawDeadline m p).2 := ⟨⟨[], by simp [stopCount, drawDeadline]⟩, RecordUp.refl _, rfl⟩

theorem calm_setPhaseFlags (o : PhaseOutcome) : Calm c p (mapRecord (setPhaseFlags o) p) := by
  refine ⟨⟨[], by simp [stopCount]⟩, ?_, rfl⟩
  rw [mapRecord_record]
  cases p.unit.record with
  | none => trivial
  | some x => exact ⟨rfl, rfl, rfl, fun h => by simp [setPhaseFlags, h], fun h => by simp [setPhaseFlags, h]⟩

theorem calm_pollOnce (b : Fin 8) : Calm c p (pollOnce m b p).2 := by
  rw [pollOnce]
  split
  · exact (calm_read .cmdstat).trans calm_drawDeadline
  · exact calm_read .cmdstat

theorem calm_waitIdleOnce : Calm c p (waitIdleOnce c m p).2 := by
  rw [waitIdleOnce]
  have h := calm_pollOnce (c := c) (m := m) (p := p) c.bits.busy
  split <;> (next h1 => rw [h1] at h; exact h)

theorem calm_waitPhaseOnce (w : Bool) : Calm c p (waitPhaseOnce c m w p).2 := by
  rw [waitPhaseOnce]
  have h := calm_pollOnce (c := c) (m := m) (p := p) c.bits.tip
  split
  · next h1 =>
    rw [h1] at h
    dsimp only
    split <;> exact h.trans (calm_setPhaseFlags _)
  · next h1 => rw [h1] at h; exact h
  · next h1 => rw [h1] at h; exact h

theorem calm_readPhaseOnce : Calm c p (readPhaseOnce c m p).2 := by
  rw [readPhaseOnce]
  have h := calm_waitPhaseOnce (c := c) (m := m) (p := p) false
  split
  · next h1 => rw [h1] at h; exact h.trans (calm_read .data)
  · next h1 => rw [h1] at h; exact h
  · next h1 => rw [h1] at h; exact h

theorem calm_primBegin (pr : Prim) : Calm c p (primBegin c m pr p) := by
  cases pr with
  | start ab => exact (calm_write .data ab (fun _ h => by cases h)).trans (calm_write _ _ (fun d _ => d.1.symm))
  | wrb b => exact (calm_write .data b (fun _ h => by cases h)).trans (calm_write _ _ (fun d _ => d.2.1.symm))
  | rdbAck => exact calm_write _ _ (fun d _ => d.2.2.1.symm)
  | rdbNack => exact calm_write _ _ (fun d _ => d.2.2.2.symm)
  | waitIdle => exact Calm.refl p
  | waitPhase w => exact Calm.refl p

theorem calm_runPrim (pr : Prim) (polling : Bool) : Calm c p (runPrim c m pr polling p).2 := by
  have key : ∀ x : Port, Calm c x (primPoll c m pr x).2 := by
    intro x
    cases pr with
    | start ab => exact calm_waitPhaseOnce true
    | wrb b => exact calm_waitPhaseOnce true
    | rdbAck => exact calm_readPhaseOnce
    | rdbNack => exact calm_readPhaseOnce
    | waitIdle => exact calm_waitIdleOnce
    | waitPhase w => exact calm_waitPhaseOnce w
  rw [runPrim]
  cases polling
  · exact (calm_primBegin pr).trans (key _)
  · exact key _

theorem calm_of_runPrim {pr : Prim} {polling : Bool} {o : PrimOut} (h : runPrim c m pr polling p = (o, q)) :
    Calm c p q := by
  have := calm_runPrim (c := c) (m := m) (p := p) pr polling
  rw [h] at this; exact this

theorem calm_programDivider (div : Half) : Calm c p (programDivider c m div p) :=
  (((calm_write .ctrl _ (fun _ h => by cases h)).trans (calm_write .prerLo _ (fun _ h => by cases h))).trans
    (calm_write .prerHi _ (fun _ h => by cases h))).trans (calm_write .ctrl _ (fun _ h => by cases h))

/-! Errors: no primitive and no transaction fails with `MuxSelectFailed`. -/

theorem phaseOutcome_err {b : Config.Bits} {w : Bool} {v : Byte} :
    (phaseOutcome b w v).err ≠ some .muxSelectFailed := by
  rw [phaseOutcome]
  split
  · simp
  · split <;> simp

theorem waitPhaseOnce_err {w : Bool} {e : Err} (h : waitPhaseOnce c m w p = (.err e, q)) : e ≠ .muxSelectFailed := by
  rw [waitPhaseOnce] at h
  split at h
  · next v _ _ =>
    dsimp only at h
    split at h
    · next e' he =>
      obtain rfl := PrimOut.err.inj (Prod.mk.inj h).1
      rintro rfl
      exact phaseOutcome_err he
    · cases h
  · cases h; simp
  · cases h

/-- A primitive never fails with `MuxSelectFailed`. -/
theorem runPrim_err {pr : Prim} {polling : Bool} {e : Err} (h : runPrim c m pr polling p = (.err e, q)) :
    e ≠ .muxSelectFailed := by
  have key : ∀ x : Port, readPhaseOnce c m x = (.err e, q) → e ≠ .muxSelectFailed := by
    intro x hx
    rw [readPhaseOnce] at hx
    split at hx
    · cases hx
    · next h1 =>
      obtain rfl := PrimOut.err.inj (Prod.mk.inj hx).1
      exact waitPhaseOnce_err h1
    · cases hx
  rw [runPrim] at h
  cases pr with
  | start ab => exact waitPhaseOnce_err h
  | wrb b => exact waitPhaseOnce_err h
  | rdbAck => exact key _ h
  | rdbNack => exact key _ h
  | waitPhase w => exact waitPhaseOnce_err h
  | waitIdle =>
    replace h : waitIdleOnce c m _ = _ := h
    rw [waitIdleOnce] at h
    split at h
    · cases h
    · cases h; simp
    · cases h

/-! The positions of a transaction. -/

/-- The transaction `t` is under way: it is not about to return, and a result it has is not `MuxSelectFailed`. -/
def OnWay (t : Txn) (f : ExecFrame) : Prop :=
  f.txn = t ∧ f.epc ≠ .ret ∧ (f.epc = .stop → f.res ≠ .err .muxSelectFailed)

variable {t : Txn} {f : ExecFrame}

theorem onWay_atPos {pos : EPos} (h : f.txn = t) (hp : pos ≠ .ret) (hs : pos ≠ .stop) : OnWay t (f.atPos pos) :=
  ⟨h, hp, fun hx => absurd hx hs⟩

theorem onWay_stopWith {x : Res} (h : f.txn = t) (hx : x ≠ .err .muxSelectFailed) : OnWay t (f.stopWith x) :=
  ⟨h, by simp [ExecFrame.stopWith], fun _ => hx⟩

theorem onWay_toDataW {i : Nat} (h : f.txn = t) : OnWay t (f.toDataW i) := by
  rw [ExecFrame.toDataW]
  split
  · exact ⟨h, by simp, by simp⟩
  · exact onWay_stopWith h (by simp)

theorem onWay_toDataR {i len : Nat} {rx : List Byte} (h : f.txn = t) : OnWay t (f.toDataR i len rx) := by
  rw [ExecFrame.toDataR]
  split
  · exact ⟨h, by simp, by simp⟩
  · exact onWay_stopWith h (by simp)

theorem onWay_toBody (h : f.txn = t) : OnWay t f.toBody := by
  rw [ExecFrame.toBody]
  split <;> exact onWay_atPos h (by simp) (by simp)

/-- A position that is one primitive keeps the transaction under way. -/
theorem primPos_onWay {E : Res → Port → Prop} {pr : Prim} {next : Byte → ExecFrame} (h : OnWay t f)
    (hn : ∀ v, OnWay t (next v)) :
    (primPos c m pr f p next).Meets (fun g q => OnWay t g ∧ Calm c p q) E := by
  rw [primPos]
  split
  · next hr => exact ⟨h, calm_of_runPrim hr⟩
  · next hr => exact ⟨onWay_stopWith h.1 (fun hx => runPrim_err hr (Res.err.inj hx)), calm_of_runPrim hr⟩
  · next hr => exact ⟨hn _, calm_of_runPrim hr⟩

theorem validateTxn_err {e : Err} (h : validateTxn c m t = some e) : e ≠ .muxSelectFailed := by
  rintro rfl
  simp only [validateTxn] at h
  repeat (first | cases h | split at h)

/-- A position before `E_STOP` makes no STOP and touches no chip, lock or cache; only a refusal ends there. -/
theorem execPos_onWay (h : OnWay t f) (hs : f.epc ≠ .stop) :
    (execPos c m f p).Meets (fun g q => OnWay t g ∧ Calm c p q)
      (fun x q => x ≠ .err .muxSelectFailed ∧ q = p ∧ f.epc = .validate ∧ validateTxn c m t ≠ none) := by
  rw [execPos]
  split
  · next he =>
    rw [posValidate, h.1]
    split
    · next hv => exact ⟨fun hx => validateTxn_err hv (Res.err.inj hx), rfl, he, by simp [hv]⟩
    · exact ⟨onWay_atPos h.1 (by simp) (by simp), Calm.refl p⟩
  · exact ⟨onWay_atPos h.1 (by simp) (by simp), calm_programDivider _⟩
  · exact primPos_onWay h (fun _ => onWay_atPos h.1 (by simp) (by simp))
  · exact primPos_onWay h (fun _ => onWay_atPos h.1 (by simp) (by simp))
  · rw [posCmd]; split
    · exact primPos_onWay h (fun _ => onWay_toBody h.1)
    · exact ⟨onWay_toBody h.1, Calm.refl p⟩
  · rw [posLenW]; split
    · exact primPos_onWay h (fun _ => onWay_toDataW h.1)
    · exact ⟨onWay_toDataW h.1, Calm.refl p⟩
  · exact primPos_onWay h (fun _ => onWay_toDataW h.1)
  · rw [posRstart]; split
    · exact primPos_onWay h (fun _ => onWay_atPos h.1 (by simp) (by simp))
    · exact ⟨onWay_atPos h.1 (by simp) (by simp), Calm.refl p⟩
  · rw [posLenR]; split
    · refine primPos_onWay h (fun v => ?_)
      split
      · exact onWay_toDataR h.1
      · exact onWay_stopWith h.1 (by simp)
    · exact ⟨onWay_toDataR h.1, Calm.refl p⟩
  · exact primPos_onWay h (fun _ => onWay_toDataR h.1)
  · next he => exact absurd he hs
  · next he => exact absurd he h.2.1

/-- What a transaction has done since `p`: no STOP while it is under way; one, as its last access, when it is to
return (rule R173). -/
def Stopping (c : Config.Params) (m : MasterIx) (t : Txn) (p : Port) (f : ExecFrame) (q : Port) : Prop :=
  (OnWay t f ∧ Calm c p q) ∨
    (f.txn = t ∧ f.epc = .ret ∧ f.res ≠ .err .muxSelectFailed ∧ ∃ mid, Calm c p mid ∧ q = stopBus c m mid)

/-- What a transaction that returns has done since `p`: one STOP, its last access, or nothing where validation refuses
it (rules R171, R173). -/
def Returning (c : Config.Params) (m : MasterIx) (t : Txn) (p : Port) (x : Res) (q : Port) : Prop :=
  x ≠ .err .muxSelectFailed ∧
    ((∃ mid, Calm c p mid ∧ q = stopBus c m mid) ∨ (validateTxn c m t ≠ none ∧ Calm c p q))

theorem stopping_refl (h : OnWay t f) : Stopping c m t p f p := .inl ⟨h, Calm.refl p⟩

theorem onWay_start (t : Txn) : OnWay t (execStart t) := ⟨rfl, by simp [execStart], by simp [execStart]⟩

/-- Every position of a transaction. -/
theorem execPos_stopping (h : Stopping c m t p f q) :
    (execPos c m f q).Meets (Stopping c m t p) (Returning c m t p) := by
  rcases h with ⟨hw, hc⟩ | ⟨ht, he, hr, mid, hm, rfl⟩
  · by_cases hs : f.epc = .stop
    · rw [execPos, hs]
      exact .inr ⟨hw.1, rfl, hw.2.2 hs, q, hc, rfl⟩
    · exact (execPos_onWay hw hs).imp (fun g x hx => .inl ⟨hx.1, hc.trans hx.2⟩)
        (fun x y hy => ⟨hy.1, .inr ⟨hy.2.2.2, hy.2.1 ▸ hc⟩⟩)
  · rw [execPos, he]
    exact ⟨hr, .inl ⟨mid, hm, rfl⟩⟩

/-- A run of positions of a transaction. -/
theorem runExec_stopping (n : Nat) (h : Stopping c m t p f q) :
    (runPos (execPos c m) n f q).Meets (Stopping c m t p) (Returning c m t p) :=
  runPos_meets (fun _ _ => execPos_stopping) n f q h

end Sys2Proof.Machine
end

