-- ==== Sys2Proof/Laws/Access.lean ====
section
/-! SUPPORT. What the positions of a mux write and of an access leave of the lock and of the record, on every path
(rules R223, R229, R230, R235, R238). -/

namespace Sys2Proof.Machine

variable {c : Config.Params} {m : MasterIx} {p q r : Port} {self : AgentId}

/-- The record's lock and cache are the same, its flags the same or newly set. -/
def Port.Up (p q : Port) : Prop := RecordUp p.unit.record q.unit.record

theorem Port.Up.refl (p : Port) : p.Up p := RecordUp.refl _

theorem Port.Up.trans (h : p.Up q) (k : q.Up r) : p.Up r := RecordUp.trans h k

theorem Calm.up (h : Calm c p q) : p.Up q := h.record

/-- One position of a transaction, at whatever frame. -/
theorem up_execPos (f : ExecFrame) : (execPos c m f p).Leaves p.Up := by
  by_cases hs : f.epc = .stop
  · rw [execPos, hs]; exact RecordUp.refl _
  · by_cases hr : f.epc = .ret
    · rw [execPos, hr]; exact Port.Up.refl p
    · exact (execPos_onWay (t := f.txn) ⟨rfl, hr, fun h => absurd h hs⟩ hs).imp (fun _ _ h => h.2.up)
        (fun _ _ h => h.2.1 ▸ Port.Up.refl p)

/-- A mux write leaves the lock and the cache alone. -/
theorem up_muxPos (w : MuxFrame) : (muxPos c m w p).Leaves p.Up := by
  rw [muxPos]
  split
  · split <;> exact Port.Up.refl p
  · next e _ =>
    have h := up_execPos (c := c) (m := m) (p := p) e
    split <;> (rename_i he; rw [he] at h)
    · exact h
    · exact h
    · rw [muxAttemptOver.eq_def]
      split <;> exact h
    · trivial

/-- A mux write goes on as the mux write it is. -/
theorem muxPos_same (w : MuxFrame) :
    (muxPos c m w p).Meets (fun g _ => g.sw = w.sw ∧ g.value = w.value) (fun _ _ => True) := by
  rw [muxPos]
  split
  · split
    · exact ⟨rfl, rfl⟩
    · trivial
  · split
    · exact ⟨rfl, rfl⟩
    · exact ⟨rfl, rfl⟩
    · rw [muxAttemptOver.eq_def]
      split
      · trivial
      · exact ⟨rfl, rfl⟩
    · trivial

/-! The lock. -/

/-- This agent holds the lock on this port. -/
def Port.HeldBy (self : AgentId) (p : Port) : Prop := ∃ x, p.unit.record = some x ∧ x.lock = .held self

/-- No agent holds it. -/
def Port.Freed (p : Port) : Prop := ∃ x, p.unit.record = some x ∧ x.lock = .free

theorem Port.HeldBy.up (h : p.HeldBy self) (u : p.Up q) : q.HeldBy self := by
  obtain ⟨r, hr, hl⟩ := h
  rw [Port.Up, hr] at u
  cases hq : q.unit.record with
  | none => rw [hq] at u; exact u.elim
  | some x => rw [hq] at u; exact ⟨x, hq, u.1.trans hl⟩

theorem Port.HeldBy.map {f : MasterState → MasterState} (h : p.HeldBy self) (hf : ∀ x, (f x).lock = x.lock) :
    (mapRecord f p).HeldBy self := by
  obtain ⟨r, hr, hl⟩ := h
  exact ⟨f r, by rw [mapRecord_record, hr]; rfl, (hf r).trans hl⟩

theorem heldBy_of_acquire (h : acquireLock self p = some q) (hr : p.unit.record ≠ none) : q.HeldBy self := by
  rw [acquireLock] at h
  split at h
  · obtain rfl := Option.some.inj h
    obtain ⟨r, hr⟩ := Option.ne_none_iff_exists'.1 hr
    exact ⟨_, by rw [mapRecord_record, hr]; rfl, rfl⟩
  · cases h

theorem freed_of_release (h : releaseLock self p = some q) : q.Freed := by
  rw [releaseLock] at h
  split at h
  · next hs =>
    obtain rfl := Option.some.inj h
    obtain ⟨r, hr⟩ := Option.isSome_iff_exists.1 hs.1
    exact ⟨_, by rw [mapRecord_record, hr]; rfl, rfl⟩
  · cases h

/-! The positions of an access. -/

/-- What an access has of the lock at its position: nothing up to `A_LOCK`, the lock from there to `A_UNLOCK`, nothing
any more when it is to return. -/
def AccessHeld (self : AgentId) (f : AccessFrame) (q : Port) : Prop :=
  if f.apc = .ret then q.Freed else if f.apc.lockFree then q.unit.record ≠ none else q.HeldBy self

theorem accessHeld_of_held {f : AccessFrame} (h : f.apc.lockFree = false) (hq : q.HeldBy self) :
    AccessHeld self f q := by
  rw [AccessHeld, if_neg (by rintro hr; rw [hr] at h; cases h), h]
  exact hq

/-- The same access at a position where the lock is held, and held. -/
def Onward (self : AgentId) (f g : AccessFrame) (q : Port) : Prop :=
  g.ep = f.ep ∧ g.txn = f.txn ∧ g.apc.lockFree = false ∧ q.HeldBy self

/-- `A_MUX`. -/
theorem posMux_onward {E : Res → Port → Prop} {f : AccessFrame} (hf : f.apc = .mux) (h : p.HeldBy self) :
    (posMux c m f p).Meets (Onward self f) E := by
  have hl : f.apc.lockFree = false := by rw [hf]; rfl
  rw [posMux]
  split
  · exact ⟨rfl, rfl, rfl, h⟩
  · split
    · simp only [muxChoice]
      split
      · exact ⟨rfl, rfl, hl, h⟩
      · split
        · exact ⟨rfl, rfl, hl, h⟩
        · exact ⟨rfl, rfl, rfl, h⟩
    · next w _ =>
      have hu := up_muxPos (c := c) (m := m) (p := p) w
      split <;> (rename_i he; rw [he] at hu)
      · exact ⟨rfl, rfl, hl, h.up hu⟩
      · exact ⟨rfl, rfl, hl, h.up hu⟩
      · rw [muxStepOver]
        split
        · exact ⟨rfl, rfl, rfl, h.up hu⟩
        · split
          · exact ⟨rfl, rfl, hl, h.up hu⟩
          · exact ⟨rfl, rfl, rfl, (h.up hu).map (fun _ => rfl)⟩
      · trivial

/-- `A_ATTEMPT`. -/
theorem posAttempt_onward {E : Res → Port → Prop} {f : AccessFrame} (hf : f.apc = .attempt) (h : p.HeldBy self) :
    (posAttempt c m f p).Meets (Onward self f) E := by
  have hl : f.apc.lockFree = false := by rw [hf]; rfl
  rw [posAttempt]
  split
  · exact ⟨rfl, rfl, hl, h.map (fun _ => rfl)⟩
  · next e _ =>
    have hu := up_execPos (c := c) (m := m) (p := p) e
    split <;> (rename_i he; rw [he] at hu)
    · exact ⟨rfl, rfl, hl, h.up hu⟩
    · exact ⟨rfl, rfl, hl, h.up hu⟩
    · exact ⟨rfl, rfl, rfl, h.up hu⟩
    · trivial

/-- Every position of an access (rules R223, R235, R238). -/
theorem accessPos_held {f : AccessFrame} (h : AccessHeld self f p) :
    (accessPos c self m f p).Meets (fun g q => g.ep = f.ep ∧ g.txn = f.txn ∧ AccessHeld self g q)
      (fun _ q => q.Freed) := by
  have held : f.apc.lockFree = false → p.HeldBy self := by
    intro hl
    rw [AccessHeld, if_neg (by rintro hr; rw [hr] at hl; cases hl), hl] at h
    exact h
  have onward : ∀ {o : PosOut AccessFrame Res Port} {E}, o.Meets (Onward self f) E →
      o.Meets (fun g q => g.ep = f.ep ∧ g.txn = f.txn ∧ AccessHeld self g q) E :=
    fun ho => ho.imp (fun _ _ hx => ⟨hx.1, hx.2.1, accessHeld_of_held hx.2.2.1 hx.2.2.2⟩) (fun _ _ hx => hx)
  rw [accessPos]
  split
  · next ha => exact ⟨rfl, rfl, by rw [AccessHeld, ha] at h; exact h⟩
  · next ha =>
    have hr : p.unit.record ≠ none := by rw [AccessHeld, ha] at h; exact h
    rw [posLock]; split
    · exact ⟨rfl, rfl, by rw [AccessHeld, ha]; exact hr⟩
    · next hq => exact ⟨rfl, rfl, heldBy_of_acquire hq hr⟩
  · next ha => exact onward (posMux_onward ha (held (by rw [ha]; rfl)))
  · next ha => exact ⟨rfl, rfl, (held (by rw [ha]; rfl)).map (fun _ => rfl)⟩
  · next ha => exact onward (posAttempt_onward ha (held (by rw [ha]; rfl)))
  · next ha =>
    rw [posRetryDecide]
    split <;> exact ⟨rfl, rfl, held (by rw [ha]; rfl)⟩
  · rw [posUnlock]; split
    · trivial
    · next hq => exact ⟨rfl, rfl, freed_of_release hq⟩
  · next ha => rw [AccessHeld, if_pos ha] at h; exact h

/-- A run of positions of an access. -/
theorem runAccess_held (n : Nat) {f : AccessFrame} (h : AccessHeld self f p) :
    (runPos (accessPos c self m) n f p).Meets (fun g q => g.ep = f.ep ∧ g.txn = f.txn ∧ AccessHeld self g q)
      (fun _ q => q.Freed) :=
  runPos_meets (P := fun g q => g.ep = f.ep ∧ g.txn = f.txn ∧ AccessHeld self g q)
    (fun _ _ hg => (accessPos_held hg.2.2).imp
      (fun _ _ hx => ⟨hx.1.trans hg.1, hx.2.1.trans hg.2.1, hx.2.2⟩) (fun _ _ hx => hx)) n f p ⟨rfl, rfl, h⟩

/-! Runs of an access whose parts are known. -/

theorem accessPos_mux {f : AccessFrame} (h : f.apc = .mux) : accessPos c self m f p = posMux c m f p := by
  rw [accessPos, h]

theorem accessPos_attempt {f : AccessFrame} (h : f.apc = .attempt) : accessPos c self m f p = posAttempt c m f p := by
  rw [accessPos, h]

/-- An attempt whose positions are known up to its STOP (rules R223, R232). -/
theorem access_attempt {f : AccessFrame} {n : Nat} {x : Res} (ha : f.apc = .attempt) (hi : f.inner = none)
    (h : Stops c m n (execStart f.txn) (mapRecord clearRetryFlag p) x q) :
    Steps (accessPos c self m) (n + 3) f p { f with apc := .retryDecide, inner := none, res := x } (stopBus c m q) := by
  obtain ⟨g, hs, ho⟩ := h.ret
  have hb : accessPos c self m f p = .go { f with inner := some (execStart f.txn) } (mapRecord clearRetryFlag p) := by
    rw [accessPos_attempt ha, posAttempt, hi]
  have hl := (hs.lift (pos' := accessPos c self m) (fun e => { f with inner := some e }) id (fun _ => True)
    (fun e y e1 y1 _ he => ⟨trivial, by
      rw [accessPos_attempt (by exact ha), posAttempt]
      show (match execPos c m e y with
        | .go e1 p1 => PosOut.go { f with inner := some e1 } p1
        | .wait e1 p1 => .wait { f with inner := some e1 } p1
        | .ended r p1 => .go { f with apc := .retryDecide, inner := none, res := r } p1
        | .fault e1 => .fault e1) = _
      rw [he]; rfl⟩) trivial).1
  refine ((Steps.cons hb hl).snoc ?_).cast (by omega)
  rw [accessPos_attempt (by exact ha), posAttempt]
  show (match execPos c m g (stopBus c m q) with
    | .go e1 p1 => PosOut.go { f with inner := some e1 } p1
    | .wait e1 p1 => .wait { f with inner := some e1 } p1
    | .ended r p1 => .go { f with apc := .retryDecide, inner := none, res := r } p1
    | .fault e1 => .fault e1) = _
  rw [ho]

/-- A mux write of `RESOLVE` whose positions are known (rules R225, R226). -/
theorem access_muxWrite {f : AccessFrame} {sw : Byte} {w g : MuxFrame} {n : Nat} {ok : Bool} (ha : f.apc = .mux)
    (hs : f.ep.sel = .switch sw) (hw : f.write = some w) (h : Steps (muxPos c m) n w p g q)
    (ho : muxPos c m g q = .ended ok r) :
    ∃ e, Steps (accessPos c self m) n f p e q ∧ accessPos c self m e q = muxStepOver f sw ok r := by
  have step : ∀ (w : MuxFrame) (y : Port), accessPos c self m { f with write := some w } y =
      match muxPos c m w y with
      | .go w1 p1 => .go { f with write := some w1 } p1
      | .wait w1 p1 => .wait { f with write := some w1 } p1
      | .ended ok p1 => muxStepOver { f with write := some w } sw ok p1
      | .fault e => .fault e := by
    intro w y
    rw [accessPos_mux (by exact ha), posMux]
    cases h : muxPos c m w y <;> simp only [hs, h]
  have hl := (h.lift (pos' := accessPos c self m) (fun w => { f with write := some w }) id (fun _ => True)
    (fun w y w1 y1 _ he => ⟨trivial, by rw [step, id, he]; rfl⟩) trivial).1
  refine ⟨{ f with write := some g }, ?_, ?_⟩
  · have : f = { f with write := some w } := by cases f; simp_all
    rw [this]; exact hl
  · rw [step, ho]
    simp only [muxStepOver]

end Sys2Proof.Machine
end

