-- ==== Sys2Proof/Laws/Runs.lean ====
section
/-! SUPPORT. Runs of an access and of a mux write whose answers are known, the refused attempts among them: `Trail` says
which accesses they make and how many status answers they use, whatever becomes of the record and the chips. -/

namespace Sys2Proof.Machine

variable {c : Config.Params} {m : MasterIx} {p q r : Port} {self : AgentId}

/-- From `p` to `q` with `k` status answers used, the writes `ws` made and `n` accesses made in all. -/
structure Trail (c : Config.Params) (m : MasterIx) (p q : Port) (k : Nat) (ws : List Access) (n : Nat) : Prop where
  evolves : Evolves c m p q
  accesses : ∃ new, q.unit.history = p.unit.history ++ new ∧ writesOf new = ws ∧ new.length = n
  window : q.window = storeAll c m p.window ws
  status : q.unit.inputs.status = p.unit.inputs.status.drop k

theorem Glide.trail {k n : Nat} {xs : List Byte} {ws : List Access} (g : Glide c m p q k xs ws n) :
    Trail c m p q k ws n := by
  obtain ⟨new, h1, h2, h3, _⟩ := g.accesses
  exact ⟨g.evolves, ⟨new, h1, h2, h3⟩, g.window, g.status⟩

theorem Trail.refl (p : Port) : Trail c m p p 0 [] 0 := (Glide.refl p).trail

theorem Trail.trans {k₁ k₂ n₁ n₂ : Nat} {w₁ w₂ : List Access} (g : Trail c m p q k₁ w₁ n₁)
    (h : Trail c m q r k₂ w₂ n₂) : Trail c m p r (k₁ + k₂) (w₁ ++ w₂) (n₁ + n₂) := by
  obtain ⟨a, ha, hwa, hna⟩ := g.accesses
  obtain ⟨b, hb, hwb, hnb⟩ := h.accesses
  refine ⟨g.evolves.trans h.evolves, ⟨a ++ b, ?_, ?_, ?_⟩, ?_, ?_⟩
  · rw [hb, ha, List.append_assoc]
  · rw [writesOf, List.filter_append]; exact congrArg₂ _ hwa hwb
  · rw [List.length_append, hna, hnb]
  · rw [h.window, g.window, storeAll, storeAll, storeAll, List.foldl_append]
  · rw [h.status, g.status, List.drop_drop]

theorem Trail.cast {k k' n n' : Nat} {w w' : List Access} (g : Trail c m p q k w n) (hk : k = k') (hw : w = w')
    (hn : n = n') : Trail c m p q k' w' n' := by
  subst hk hw hn; exact g

theorem trail_record (f : MasterState → MasterState) : Trail c m p (mapRecord f p) 0 [] 0 :=
  ⟨evolves_record f, ⟨[], by simp [writesOf]⟩, rfl, rfl⟩

theorem trail_chips (cs : List (Byte × Byte)) :
    Trail c m p { p with unit := { p.unit with chips := cs } } 0 [] 0 :=
  ⟨(PortStep.chips cs p).evolves, ⟨[], by simp [writesOf]⟩, rfl, rfl⟩

/-! A transaction that is not acknowledged at its address. -/

/-- The flags after a phase that was not acknowledged (rules R139, R141). -/
def afterNack (x : MasterState) : MasterState := { x with retryNeeded := true }

/-- From its start to its STOP (rules R172, R173). -/
theorem nacked_execute (t : Txn) (hv : validateTxn c m t = none) {n : Nat}
    (h : nackedTries c.bits (n + 1) p.unit.inputs.status = true) :
    ∃ q, Stops c m 4 (execStart t) p (.err .noAck) q ∧ q.unit.record = p.unit.record.map afterNack ∧
      q.unit.chips = p.unit.chips ∧
      Trail c m p (stopBus c m q) 2 (txnWrites c (startWrites c (firstAddr t))) 9 ∧
      nackedTries c.bits n (stopBus c m q).unit.inputs.status = true := by
  match hs : p.unit.inputs.status, h with
  | v0 :: v1 :: rest, h =>
    simp only [nackedTries, Bool.and_eq_true, Bool.not_eq_true', answerFits, if_true] at h
    obtain ⟨⟨⟨⟨h0, h1⟩, h2⟩, h3⟩, hn⟩ := h
    obtain ⟨q, q0, hst, rfl, g⟩ := nacked_stops (c := c) (m := m) (p := p) t hv hs h0 h1 h2 h3
    have ht := (g.trail.trans (trail_record (setPhaseFlags ⟨some .noAck, true, false⟩))).trans
      (glide_stopBus (c := c) (m := m)).trail
    refine ⟨_, hst, ?_, g.chips, ht.cast rfl (by simp [txnWrites]) rfl, ?_⟩
    · rw [mapRecord_record, g.record]
      congr 1
      funext x
      simp [setPhaseFlags, afterNack]
    · rw [ht.status, hs]; exact hn

/-- Attempts of a mux write that is never acknowledged: what is left of them fails, and the chip's selection is forgotten
(rule R226; 93 U13). -/
theorem mux_nacked {sw v : Byte} (he : masterEnabled c m = true) (hsw : sw.toNat ≤ 0x7F) : ∀ (n : Nat) (w : MuxFrame)
    (p : Port), w.sw = sw → w.value = v → w.inner = none → w.tried + n = c.muxAttempts →
    nackedTries c.bits n p.unit.inputs.status = true →
    ∃ g q, Steps (muxPos c m) (7 * n) w p g q ∧ muxPos c m g q = .ended false q ∧
      Trail c m p q (2 * n) (nackedWrites c sw n) (9 * n) ∧
      q.unit.record = (if n = 0 then p.unit.record else p.unit.record.map afterNack) ∧
      q.unit.chips = (if n = 0 then p.unit.chips else chipForget sw p.unit.chips)
  | 0, w, p, _, _, hi, hn, _ => by
    refine ⟨w, p, .refl w p, ?_, Trail.refl p, rfl, rfl⟩
    rw [muxPos, hi]; exact if_neg (by omega)
  | n + 1, w, p, h1, h2, hi, hn, h => by
    have hf : firstAddr (muxTxn w.sw w.value) = addrW sw := by rw [h1]; simp [firstAddr, muxTxn]
    obtain ⟨q, hst, hr, hc, ht, hrest⟩ := nacked_execute (c := c) (m := m) (p := p) (muxTxn w.sw w.value)
      (validate_muxTxn he (by rw [h1]; exact hsw)) h
    rw [hf] at ht
    obtain ⟨g1, s1, o1⟩ := mux_attempt hi (by omega) hst
    have o2 : muxPos c m g1 (stopBus c m q) =
        .go { w with tried := w.tried + 1, inner := none } (chipLost sw (stopBus c m q)) := by rw [o1, ← h1]; rfl
    obtain ⟨g, q', s2, o3, ht2, hr2, hc2⟩ := mux_nacked he hsw n { w with tried := w.tried + 1, inner := none }
      (chipLost sw (stopBus c m q)) h1 h2 rfl (by simp only; omega) hrest
    refine ⟨g, q', ((s1.snoc o2).trans s2).cast (by omega), o3,
      ((ht.trans (trail_chips (chipForget sw (stopBus c m q).unit.chips))).trans ht2).cast (by omega) ?_ (by omega), ?_, ?_⟩
    · simp [nackedWrites, List.replicate_succ]
    · have : (chipLost sw (stopBus c m q)).unit.record = p.unit.record.map afterNack := hr
      rw [hr2, this, if_neg (show ¬ n + 1 = 0 by omega)]
      split
      · rfl
      · rw [Option.map_map]; rfl
    · have : (chipLost sw (stopBus c m q)).unit.chips = chipForget sw p.unit.chips := by
        show chipForget sw q.unit.chips = _
        rw [hc]
      rw [hc2, this, if_neg (show ¬ n + 1 = 0 by omega)]
      split
      · rfl
      · simp [chipForget]

/-! The way of an access to its transaction and from it. -/

/-- The port with the lock taken, and with it freed. -/
def lockTaken (a : AgentId) (p : Port) : Port := mapRecord (fun x => { x with lock := .held a }) p
def lockFreed (p : Port) : Port := mapRecord (fun x => { x with lock := .free }) p

theorem releaseLock_held (h : p.HeldBy self) : releaseLock self p = some (lockFreed p) := by
  obtain ⟨x, hx, hl⟩ := h
  rw [releaseLock, if_pos ⟨by rw [hx]; rfl, by rw [recordOf, hx]; exact hl⟩]
  rfl

/-- From its start an access takes a free lock and comes to its mux step. -/
theorem access_locked {x : MasterState} (ep : EndpointRef) (t : Txn) (hr : p.unit.record = some x) (hl : x.lock = .free) :
    Steps (accessPos c self m) 2 (accessFrame ep t .validate) p (accessFrame ep t .mux) (lockTaken self p) := by
  refine .cons (f1 := accessFrame ep t .lock) (x1 := p) rfl (.one ?_)
  show posLock self (accessFrame ep t .lock) p = _
  rw [posLock, acquireLock, if_pos (by rw [recordOf, hr]; exact hl)]
  rfl

/-- From `A_CLEAR` an access whose first attempt is its last comes to its return (rules R231, R232, R235). -/
theorem access_once {f : AccessFrame} {n : Nat} {x : Res} (hf : f.apc = .clear)
    (h : Stops c m n (execStart f.txn) (mapRecord clearRetryFlag (mapRecord clearBothFlags p)) x q)
    (hx : retryAgain c 0 x (recordOf (stopBus c m q)) = false) (hq : (stopBus c m q).HeldBy self) :
    Steps (accessPos c self m) (n + 6) f p { f with apc := .ret, retries := 0, inner := none, res := x }
      (lockFreed (stopBus c m q)) := by
  have h1 : accessPos c self m f p =
      .go { f with apc := .attempt, retries := 0, inner := none } (mapRecord clearBothFlags p) := by
    rw [accessPos, hf]; rfl
  have h2 := access_attempt (c := c) (m := m) (self := self)
    (f := { f with apc := .attempt, retries := 0, inner := none }) rfl rfl h
  refine (((Steps.cons h1 h2).snoc (e := { f with apc := .unlock, retries := 0, inner := none, res := x })
    (z := stopBus c m q) ?_).snoc ?_).cast (by omega)
  · rw [accessPos]
    show posRetryDecide _ _ _ = _
    rw [posRetryDecide, if_neg (by simp [hx])]
  · rw [accessPos]
    show posUnlock _ _ _ = _
    rw [posUnlock, releaseLock_held hq]

/-- An access whose positions are known up to its return, as a call. -/
theorem access_returns {s : State} {k : MasterIx} {ep : EndpointRef} {t : Txn} {n : Nat} {g : AccessFrame}
    (hm : accessMaster s.cfg ep = some k) (hr : (s.unit k).record ≠ none)
    (h : Steps (accessPos s.cfg s.self k) n (accessFrame ep t .validate) (s.port k) g q) (hg : g.apc = .ret)
    (hn : n ≤ s.quantum) : beginAccess ep t s = .done (retOfRes g.res) (s.withPort k q) := by
  have hm' : accessMaster s.cfg (accessFrame ep t .validate).ep = some k := hm
  have hf : accessFault k (accessFrame ep t .validate) s = none := by
    rw [accessFault, if_neg (by simp [accessFrame])]
    simp [accessFrame, APos.lockFree, hr]
  rw [beginAccess, resumeAccessCall, hm']
  simp only [hf, runAccess, h.ends (r := g.res) (z := q) (by rw [accessPos, hg]) hn, portOut]

end Sys2Proof.Machine
end

