-- ==== Sys2Proof/Laws/Deselect.lean ====
section
/-! SUPPORT. `deselect_all` where each deselect is acknowledged at its first attempt or at none: one switch, one master,
and the lists it goes through (rule R240). -/

namespace Sys2Proof.Machine

variable {s : State} {m : MasterIx} {q : Port}

/-! The lists. -/

theorem mem_insertAscending {a x : Byte} : ∀ {l : List Byte}, x ∈ insertAscending a l ↔ x = a ∨ x ∈ l
  | [] => by simp [insertAscending]
  | b :: l => by
    rw [insertAscending]
    split
    · simp
    · split
      · next h => subst h; simp
      · rw [List.mem_cons, mem_insertAscending (l := l), List.mem_cons]
        exact or_left_comm

theorem sorted_insertAscending {a : Byte} : ∀ {l : List Byte}, l.Pairwise (fun x y => x.toNat < y.toNat) →
    (insertAscending a l).Pairwise (fun x y => x.toNat < y.toNat)
  | [], _ => by simp [insertAscending]
  | b :: l, h => by
    have h' := List.pairwise_cons.1 h
    rw [insertAscending]
    split
    · next hab =>
      refine List.pairwise_cons.2 ⟨fun x hx => ?_, h⟩
      rcases List.mem_cons.1 hx with rfl | hx
      · exact hab
      · exact Nat.lt_trans hab (h'.1 x hx)
    · split
      · exact h
      · next h1 h2 =>
        refine List.pairwise_cons.2 ⟨fun x hx => ?_, sorted_insertAscending h'.2⟩
        rcases mem_insertAscending.1 hx with rfl | hx
        · have : b.toNat ≠ x.toNat := fun he => h2 (BitVec.eq_of_toNat_eq he.symm)
          omega
        · exact h'.1 x hx

/-- The switches of a master, each once, ascending. -/
theorem switchesOf_sorted (c : Config.Params) (m : MasterIx) :
    (switchesOf c m).Pairwise (fun x y => x.toNat < y.toNat) := by
  rw [switchesOf]
  induction c.topology.filterMap (entrySwitch c m) with
  | nil => exact List.Pairwise.nil
  | cons a l ih => exact sorted_insertAscending ih

/-! One switch. -/

/-- The frame of `deselect_all` at a switch of the master it has locked. -/
theorem deselectPos_write {d : DeselectFrame} {rest : List MasterIx} {sw : Byte} {more : List Byte}
    (ht : d.todo = m :: rest) (hl : d.locked = true) (hs : d.switches = sw :: more) (hh : Holds s m) :
    deselectPos d s = deselectWrite d m sw more s := by
  rw [deselectPos, ht]
  simp only [hl, if_true, holderFault_none_iff.2 hh, hs]

theorem holds_withPort {a : AgentId} (h : q.HeldBy a) (ha : a = s.self) : Holds (s.withPort m q) m := by
  obtain ⟨x, hx, hl⟩ := h
  exact ⟨x, by simpa using hx, by rw [hl, ha]; rfl⟩

theorem Steps.first {F R S : Type} {pos : F → S → PosOut F R S} {f f' g : F} {x y : S} {n : Nat}
    (h : Steps pos (n + 1) f x g y) (he : pos f' x = pos f x) : Steps pos (n + 1) f' x g y := by
  cases h with
  | cons h t => exact .cons (he.trans h) t

/-- A deselect whose positions are known, as positions of `deselect_all`. -/
theorem deselect_switch {d : DeselectFrame} {rest : List MasterIx} {sw : Byte} {more : List Byte} {n : Nat}
    {g : MuxFrame} {done : Bool} {r : Port} (ht : d.todo = m :: rest) (hl : d.locked = true)
    (hs : d.switches = sw :: more) (hw : d.write = none) (hh : Holds s m)
    (h : Steps (muxPos s.cfg m) (n + 1) (muxStart sw 0x00#8) (s.port m) g q)
    (ho : muxPos s.cfg m g q = .ended done r) :
    Steps deselectPos (n + 2) d s { d with switches := more, ok := d.ok && done, write := none } (s.withPort m r) := by
  have key : ∀ (w : MuxFrame) (p : Port), p.HeldBy s.self →
      deselectPos { d with write := some w } (s.withPort m p) =
        match muxPos s.cfg m w p with
        | .go w1 p1 => .go { d with write := some w1 } (s.withPort m p1)
        | .wait w1 p1 => .wait { d with write := some w1 } (s.withPort m p1)
        | .ended done p1 => .go { d with switches := more, ok := d.ok && done, write := none } (s.withPort m p1)
        | .fault e => .fault e := by
    intro w p hp
    rw [deselectPos_write (d := { d with write := some w }) ht hl hs (holds_withPort hp rfl), deselectWrite]
    simp only [Option.getD_some, State.withPort_cfg, State.withPort_port]
    cases muxPos s.cfg m w p <;> simp
  have hlift := h.lift (pos' := deselectPos) (fun w => { d with write := some w }) (s.withPort m)
    (fun p => p.HeldBy s.self) (fun w p w1 p1 hp he => by
      have hu := up_muxPos (c := s.cfg) (m := m) (p := p) w
      rw [he] at hu
      exact ⟨hp.up hu, by rw [key w p hp, he]⟩) hh
  rw [withPort_self] at hlift
  have hfirst : deselectPos d s = deselectPos { d with write := some (muxStart sw 0x00#8) } s := by
    rw [deselectPos_write ht hl hs hh,
      deselectPos_write (d := { d with write := some (muxStart sw 0x00#8) }) ht hl hs hh, deselectWrite, deselectWrite, hw]
    cases muxPos s.cfg m (muxStart sw 0x00#8) (s.port m) <;> rfl
  refine (hlift.1.first hfirst).snoc ?_
  rw [key g q hlift.2, ho]

/-! The switches of one master. -/

/-- The chips after the deselects of some switches, their outcomes in order. -/
def deselectedChips : List Byte → List Bool → List (Byte × Byte) → List (Byte × Byte)
  | sw :: rest, true :: oks, chips => deselectedChips rest oks (chipSet sw 0x00#8 chips)
  | sw :: rest, false :: oks, chips => deselectedChips rest oks (chipForget sw chips)
  | _, _, chips => chips

/-- All of them are tried. -/
theorem deselect_switches (he : masterEnabled s.cfg m = true) (hM : 1 ≤ s.cfg.muxAttempts) {rest : List MasterIx} :
    ∀ (sws : List Byte) (oks : List Bool) (d : DeselectFrame) (p : Port), d.todo = m :: rest → d.locked = true →
      d.switches = sws → d.write = none → p.HeldBy s.self → sws.length = oks.length →
      (∀ sw ∈ sws, sw.toNat ≤ 0x7F) → deselectAnswers s.cfg oks p.unit.inputs.status = true →
      ∃ q k n, n ≤ (11 + 7 * s.cfg.muxAttempts) * sws.length ∧
        Steps deselectPos n d (s.withPort m p) { d with switches := [], ok := d.ok && oks.all id, write := none }
          (s.withPort m q) ∧
        Trail s.cfg m p q k (deselectWrites s.cfg sws oks) (deselectAccesses s.cfg oks) ∧
        q.unit.record = (if false ∈ oks then p.unit.record.map afterNack else p.unit.record) ∧
        q.unit.chips = deselectedChips sws oks p.unit.chips
  | [], [], d, p, ht, hl, hs, hw, hh, _, _, _ => by
    refine ⟨p, 0, 0, by simp, ?_, Trail.refl p, by simp, rfl⟩
    have : { d with switches := [], ok := d.ok && ([] : List Bool).all id, write := none } = d := by
      cases d; simp_all
    rw [this]; exact .refl _ _
  | [], _ :: _, _, _, _, _, _, _, _, h, _, _ => by simp at h
  | _ :: _, [], _, _, _, _, _, _, _, h, _, _ => by simp at h
  | sw :: sws, ok :: oks, d, p, ht, hl, hs, hw, hh, hlen, hsw, ha => by
    have hsw0 := hsw sw (by simp)
    have hH : Holds (s.withPort m p) m := holds_withPort hh rfl
    have step : ∃ g q r n k, Steps (muxPos s.cfg m) (n + 1) (muxStart sw 0x00#8) p g q ∧
        muxPos s.cfg m g q = .ended ok r ∧ n + 2 ≤ 11 + 7 * s.cfg.muxAttempts ∧
        Trail s.cfg m p r k (if ok then muxWrites s.cfg sw 0x00#8 else nackedWrites s.cfg sw s.cfg.muxAttempts)
          (if ok then 12 else 9 * s.cfg.muxAttempts) ∧
        r.unit.record = (if ok then p.unit.record else p.unit.record.map afterNack) ∧
        r.unit.chips = (if ok then chipSet sw 0x00#8 p.unit.chips else chipForget sw p.unit.chips) ∧
        deselectAnswers s.cfg oks r.unit.inputs.status = true := by
      cases ok with
      | true =>
        rw [deselectAnswers, Bool.and_eq_true] at ha
        obtain ⟨g, q, h1, h2, h3⟩ := mux_smooth (c := s.cfg) (m := m) (p := p) (v := 0x00#8) he hsw0 hM ha.1
        refine ⟨g, q, _, 8, 3, h1, h2, by omega, ?_, h3.record, ?_, ?_⟩
        · exact (h3.trail.trans (trail_chips (chipSet sw 0x00#8 q.unit.chips))).cast rfl (by simp) rfl
        · show chipSet sw 0x00#8 q.unit.chips = _
          rw [h3.chips]; rfl
        · show deselectAnswers s.cfg oks q.unit.inputs.status = true
          rw [h3.status]; exact ha.2
      | false =>
        rw [deselectAnswers, Bool.and_eq_true] at ha
        obtain ⟨g, q, h1, h2, h3, h4, h5⟩ := mux_nacked (c := s.cfg) (m := m) (v := 0x00#8) he hsw0 s.cfg.muxAttempts
          (muxStart sw 0x00#8) p rfl rfl rfl (by simp [muxStart]) ha.1
        refine ⟨g, q, q, 7 * s.cfg.muxAttempts - 1, _, h1.cast (by omega), h2, by omega, h3, ?_, ?_, ?_⟩
        · rw [h4, if_neg (by omega)]; rfl
        · rw [h5, if_neg (by omega)]; rfl
        · rw [h3.status]; exact ha.2
    obtain ⟨g, q, r, n, k, h1, h2, h3, h4, h5, h6, h7⟩ := step
    have s1 := deselect_switch (s := s.withPort m p) ht hl hs hw hH (q := q) (by simpa using h1) (by simpa using h2)
    rw [State.withPort_withPort] at s1
    have hr : r.HeldBy s.self := by
      have hu : p.Up r := by
        show RecordUp p.unit.record r.unit.record
        rw [h5]
        cases ok with
        | true => exact RecordUp.refl _
        | false =>
          cases p.unit.record with
          | none => exact RecordUp.refl _
          | some x => exact ⟨rfl, rfl, rfl, fun _ => rfl, id⟩
      exact hh.up hu
    obtain ⟨q', k', n', hn, s2, ht2, hr2, hc2⟩ := deselect_switches he hM sws oks
      { d with switches := sws, ok := d.ok && ok, write := none } r ht hl rfl rfl hr (by simpa using hlen)
      (fun x hx => hsw x (by simp [hx])) h7
    refine ⟨q', k + k', (n + 2) + n', ?_, ?_, (h4.trans ht2).cast rfl ?_ ?_, ?_, ?_⟩
    · rw [List.length_cons, Nat.mul_add]
      omega
    · have := s1.trans s2
      simp only [Bool.and_assoc] at this
      exact this
    · cases ok <;> rfl
    · cases ok <;> simp [deselectAccesses]
    · have hc : afterNack ∘ afterNack = afterNack := rfl
      rw [hr2, h5]
      by_cases hf : false ∈ oks <;> cases ok <;> simp [hf, hc]
    · rw [hc2, h6]
      cases ok <;> rfl

/-! One master. -/

/-- The record after a master's turn: the cache emptied where every deselect succeeded, else `retry_needed` set. -/
def afterDeselect (oks : List Bool) (x : MasterState) : MasterState :=
  if false ∈ oks then { x with retryNeeded := true } else { x with lastSwitch := 0#8, lastChannel := 0#3 }

theorem all_id_iff {oks : List Bool} : oks.all id = true ↔ false ∉ oks := by
  simp [List.all_eq_true]

/-- A master's turn: its lock taken, every switch tried, the lock freed (rule R240). -/
theorem deselect_master {oks : List Bool} {x : MasterState} (he : masterEnabled s.cfg m = true)
    (hM : 1 ≤ s.cfg.muxAttempts) (hr : (s.unit m).record = some x) (hl : x.lock = .free)
    (hlen : (switchesOf s.cfg m).length = oks.length) (hsw : ∀ sw ∈ switchesOf s.cfg m, sw.toNat ≤ 0x7F)
    (ha : deselectAnswers s.cfg oks (s.unit m).inputs.status = true) (rest : List MasterIx) (failed : Bool) :
    ∃ q k n, n ≤ 2 + (11 + 7 * s.cfg.muxAttempts) * (switchesOf s.cfg m).length ∧
      Steps deselectPos n (deselectFrame (m :: rest) failed) s (deselectFrame rest (failed || !oks.all id))
        (s.withPort m q) ∧
      Trail s.cfg m (s.port m) q k (deselectWrites s.cfg (switchesOf s.cfg m) oks) (deselectAccesses s.cfg oks) ∧
      q.unit.record = some (afterDeselect oks x) ∧
      q.unit.chips = deselectedChips (switchesOf s.cfg m) oks (s.unit m).chips := by
  let d1 : DeselectFrame :=
    { todo := m :: rest, locked := true, switches := switchesOf s.cfg m, ok := true, failed := failed, write := none }
  have hrec1 : (lockTaken s.self (s.port m)).unit.record = some { x with lock := .held s.self } := by
    show (s.unit m).record.map _ = _
    rw [hr]; rfl
  have a1 : deselectPos (deselectFrame (m :: rest) failed) s = .go d1 (s.withPort m (lockTaken s.self (s.port m))) := by
    show deselectAcquire _ m s = _
    rw [deselectAcquire, if_neg (by rw [State.port_unit, hr]; simp), acquireLock,
      if_pos (by rw [recordOf, State.port_unit, hr]; exact hl)]
    rfl
  obtain ⟨q, k, n, hn, s2, ht, hq, hc⟩ := deselect_switches (s := s) (rest := rest) he hM (switchesOf s.cfg m) oks d1
    (lockTaken s.self (s.port m)) rfl rfl rfl rfl ⟨_, hrec1, rfl⟩ hlen hsw ha
  let d2 : DeselectFrame := { d1 with switches := [], ok := d1.ok && oks.all id, write := none }
  have hqr : ∃ y, q.unit.record = some y ∧ y.lock = .held s.self ∧
      { (if oks.all id then { y with lastSwitch := 0#8, lastChannel := 0#3 } else y) with lock := Lock.free } =
        afterDeselect oks x := by
    rw [hrec1] at hq
    by_cases hf : false ∈ oks
    · have : oks.all id = false := by rw [← Bool.not_eq_true, all_id_iff]; exact not_not_intro hf
      exact ⟨_, by rw [hq, if_pos hf]; rfl, rfl, by simp [this, afterDeselect, hf, afterNack, ← hl]⟩
    · have : oks.all id = true := all_id_iff.2 hf
      exact ⟨_, by rw [hq, if_neg hf], rfl, by simp [this, afterDeselect, hf, ← hl]⟩
  obtain ⟨y, hy, hyl, hfin⟩ := hqr
  let p3 : Port := if oks.all id then clearCache q else q
  have hp3 : p3.unit.record = some (if oks.all id then { y with lastSwitch := 0#8, lastChannel := 0#3 } else y) := by
    show (if oks.all id then clearCache q else q).unit.record = _
    split
    · show q.unit.record.map _ = _
      rw [hy]; rfl
    · exact hy
  have h3 : p3.HeldBy s.self := ⟨_, hp3, by split <;> exact hyl⟩
  have a3 : deselectPos d2 (s.withPort m q) =
      .go (deselectFrame rest (failed || !oks.all id)) (s.withPort m (lockFreed p3)) := by
    rw [deselectPos]
    show (if d2.locked = true then _ else _) = _
    rw [if_pos rfl, holderFault_none_iff.2 (holds_withPort ⟨y, hy, hyl⟩ rfl)]
    show deselectRelease d2 m rest (s.withPort m q) = _
    rw [deselectRelease]
    show (match releaseLock s.self (if (true && oks.all id) = true then clearCache _ else _) with
      | none => PosOut.fault .badRelease
      | some p => PosOut.go (deselectFrame rest (failed || !(true && oks.all id))) ((s.withPort m q).withPort m p)) = _
    rw [State.withPort_port, Bool.true_and, releaseLock_held h3]
    show PosOut.go _ ((s.withPort m q).withPort m (lockFreed p3)) = _
    rw [State.withPort_withPort]
  refine ⟨lockFreed p3, k, 1 + n + 1, by omega, (((Steps.one a1).trans s2).snoc a3), ?_, ?_, ?_⟩
  · have t1 : Trail s.cfg m (s.port m) (lockTaken s.self (s.port m)) 0 [] 0 := trail_record _
    have t3 : Trail s.cfg m q p3 0 [] 0 := by
      show Trail s.cfg m q (if oks.all id then clearCache q else q) 0 [] 0
      split
      · exact trail_record _
      · exact Trail.refl q
    exact (((t1.trans ht).trans t3).trans (trail_record _)).cast (by omega) (by simp) (by omega)
  · show p3.unit.record.map _ = _
    rw [hp3, Option.map_some, hfin]
  · show (if oks.all id then clearCache q else q).unit.chips = _
    split <;> exact hc

end Sys2Proof.Machine
end

