-- ==== Sys2Proof/Laws/Polling.lean ====
section
/-! SUPPORT. A position of a transaction by the primitive it runs (rule R172): what one iteration of its poll comes to,
and the same position inside a call that carries the transaction (`Carries`). -/

namespace Sys2Proof.Machine

variable {c : Config.Params} {m k : MasterIx} {p q : Port} {f g : ExecFrame} {pr : Prim} {e : Err} {s : State}
  {put : ExecFrame → Call}

/-! One iteration of a primitive's poll. -/

/-- The accesses before the poll: each write once. -/
theorem primBegin_port (pr : Prim) (p : Port) : primBegin c m pr p =
    { unit := { p.unit with history := p.unit.history ++ primWrites c pr },
      window := storeAll c m p.window (primWrites c pr) } := by
  cases pr <;> simp [primBegin, primWrites, startWrites, sendWrites, writeReg, storeAll, storeAccess]

/-- Not met: the deadline is drawn. -/
theorem primPoll_unmet (h : bitSet (readReg m .cmdstat p).1 (pr.bit c.bits) = true) :
    primPoll c m pr p = (if (drawDeadline m (readReg m .cmdstat p).2).1 then .err .timeout else .again,
      (drawDeadline m (readReg m .cmdstat p).2).2) := by
  cases pr <;> simp only [Prim.bit] at h <;>
    simp only [primPoll, readPhaseOnce, waitPhaseOnce, waitIdleOnce, pollOnce, h, if_true] <;>
    cases (drawDeadline m (readReg m .cmdstat p).2).1 <;> rfl

theorem failedRecord_eq {b : Config.Bits} {pr : Prim} {v : Byte} {o : PhaseOutcome} (h1 : o.setRetry = true)
    (h2 : o.setPersist = (pr.sends && bitSet v b.al && bitSet v b.rxack)) :
    setPhaseFlags o = failedRecord b pr v := by
  funext x; simp [setPhaseFlags, failedRecord, h1, h2]

/-- What a phase that failed reports and sets (rule R141). -/
theorem phaseOutcome_fails {b : Config.Bits} {v : Byte} (h : pr.FailsAt b v e) :
    (phaseOutcome b pr.sends v).err = some e ∧ setPhaseFlags (phaseOutcome b pr.sends v) = failedRecord b pr v := by
  rcases h.2 with ⟨ha, rfl⟩ | ⟨ha, hr, hs, rfl⟩
  · simp only [phaseOutcome, ha, if_true]
    exact ⟨trivial, failedRecord_eq rfl (by simp [ha])⟩
  · simp only [phaseOutcome, ha, hr, hs]
    exact ⟨rfl, failedRecord_eq rfl (by simp [ha])⟩

theorem phaseOutcome_holds {b : Config.Bits} {v : Byte} (hi : pr ≠ .waitIdle) (h : ∀ e, ¬ pr.FailsAt b v e) :
    phaseOutcome b pr.sends v = { err := none, setRetry := false, setPersist := false } := by
  have ha : bitSet v b.al = false := by
    by_contra hx
    exact h .arbitrationLost ⟨hi, .inl ⟨by simpa using hx, rfl⟩⟩
  have hr : (pr.sends && bitSet v b.rxack) = false := by
    by_contra hx
    simp only [Bool.not_eq_false, Bool.and_eq_true] at hx
    exact h .noAck ⟨hi, .inr ⟨ha, hx.2, hx.1, rfl⟩⟩
  rw [phaseOutcome, ha, hr]; rfl

/-- A phase that ended and failed. -/
theorem primPoll_fails (h : bitSet (readReg m .cmdstat p).1 (pr.bit c.bits) = false)
    (hf : pr.FailsAt c.bits (readReg m .cmdstat p).1 e) :
    primPoll c m pr p =
      (.err e, mapRecord (failedRecord c.bits pr (readReg m .cmdstat p).1) (readReg m .cmdstat p).2) := by
  obtain ⟨h1, h2⟩ := phaseOutcome_fails hf
  cases pr
  case waitIdle => exact absurd rfl hf.1
  all_goals
    simp only [Prim.bit, Prim.sends] at h h1 h2
    simp only [primPoll, readPhaseOnce, waitPhaseOnce, pollOnce, h, Bool.false_eq_true, if_false, h1, h2]

/-- A poll that is met without an error; a read phase then reads its byte. -/
theorem primPoll_met (h : bitSet (readReg m .cmdstat p).1 (pr.bit c.bits) = false)
    (hf : ∀ e, ¬ pr.FailsAt c.bits (readReg m .cmdstat p).1 e) :
    primPoll c m pr p = if pr.receives then
        (.ok (readReg m .data (readReg m .cmdstat p).2).1, (readReg m .data (readReg m .cmdstat p).2).2)
      else (.ok 0#8, (readReg m .cmdstat p).2) := by
  cases pr
  case waitIdle =>
    simp only [Prim.bit] at h
    simp only [primPoll, waitIdleOnce, pollOnce, h, Bool.false_eq_true, if_false, Prim.receives]
  all_goals
    have ho := phaseOutcome_holds (by simp) hf
    simp only [Prim.bit, Prim.sends] at h ho
    simp only [primPoll, readPhaseOnce, waitPhaseOnce, pollOnce, h, Bool.false_eq_true, if_false, if_true, ho,
      mapRecord_id setPhaseFlags_none, Prim.receives]

/-! A position by its primitive. -/

/-- A position that runs a primitive. -/
theorem execPos_prim (h : f.prim = some pr) : execPos c m f p = primPos c m pr f p (f.goesTo c) := by
  rw [ExecFrame.prim] at h
  cases he : f.epc <;> rw [he] at h <;> simp only [reduceCtorEq] at h
  case waitIdle =>
    obtain rfl := Option.some.inj h
    simp only [execPos, he]; congr 1; funext v; rw [ExecFrame.goesTo, he]
  case addr =>
    obtain rfl := Option.some.inj h
    simp only [execPos, he]; congr 1; funext v; rw [ExecFrame.goesTo, he]
  case cmd =>
    split at h
    · next hc =>
      obtain rfl := Option.some.inj h
      simp only [execPos, he, posCmd, if_pos hc]; congr 1; funext v; rw [ExecFrame.goesTo, he]
    · cases h
  case lenW =>
    split at h
    · next hc =>
      obtain rfl := Option.some.inj h
      simp only [execPos, he, posLenW, if_pos (kind_blockData.2 hc)]; congr 1; funext v; rw [ExecFrame.goesTo, he]
    · cases h
  case dataW =>
    obtain rfl := Option.some.inj h
    simp only [execPos, he, posDataW]; congr 1; funext v; rw [ExecFrame.goesTo, he]
  case rstart =>
    split at h
    · next hc =>
      obtain rfl := Option.some.inj h
      simp only [execPos, he, posRstart, if_pos hc]; congr 1; funext v; rw [ExecFrame.goesTo, he]
    · cases h
  case lenR =>
    split at h
    · next hc =>
      obtain rfl := Option.some.inj h
      simp only [execPos, he, posLenR, if_pos (kind_blockData.2 hc)]; congr 1; funext v
      rw [ExecFrame.goesTo, he]
      simp only [if_pos hc, blockLenOk_iff]
    · cases h
  case dataR =>
    obtain rfl := Option.some.inj h
    simp only [execPos, he, posDataR]; congr 1; funext v; rw [ExecFrame.goesTo, he]

/-- A position that runs none makes the reinit, the STOP, or no access. -/
theorem execPos_silent (h : f.prim = none) (h1 : f.epc ≠ .validate) (h2 : f.epc ≠ .ret) :
    ∃ q, execPos c m f p = .go (f.goesTo c 0#8) q ∧ Glide c m p q 0 [] (f.ownWrites c) (f.ownWrites c).length := by
  rw [ExecFrame.prim] at h
  cases he : f.epc <;> rw [he] at h <;> simp only [reduceCtorEq] at h <;>
    simp only [execPos, he, ExecFrame.goesTo, ExecFrame.ownWrites]
  case validate => exact absurd he h1
  case ret => exact absurd he h2
  case reinit => exact ⟨_, rfl, glide_programDivider⟩
  case stop => exact ⟨_, rfl, glide_stopBus⟩
  case cmd =>
    split at h
    · cases h
    · next hc => exact ⟨p, by rw [posCmd, if_neg hc], Glide.refl p⟩
  case lenW =>
    split at h
    · cases h
    · next hc => exact ⟨p, by rw [posLenW, if_neg (fun hx => hc (kind_blockData.1 hx))], Glide.refl p⟩
  case rstart =>
    split at h
    · cases h
    · next hc => exact ⟨p, by rw [posRstart, if_neg hc], Glide.refl p⟩
  case lenR =>
    split at h
    · cases h
    · next hc => exact ⟨p, by rw [posLenR, if_neg (fun hx => hc (kind_blockData.1 hx)), if_neg hc], Glide.refl p⟩

theorem goesTo_polling (h : f.prim = some pr) (b : Bool) (v : Byte) :
    ({ f with polling := b } : ExecFrame).goesTo c v = f.goesTo c v := by
  rw [ExecFrame.prim] at h
  cases he : f.epc <;> rw [he] at h <;> simp only [reduceCtorEq] at h <;>
    simp only [ExecFrame.goesTo, he, ExecFrame.toBody, ExecFrame.toDataW, ExecFrame.toDataR, ExecFrame.atPos,
      ExecFrame.stopWith]

/-- A position does its primitive's writes, then what it does resumed at its poll (rule R135). -/
theorem execPos_begin (h : f.prim = some pr) :
    execPos c m { f with polling := false } p = execPos c m { f with polling := true } (primBegin c m pr p) := by
  have h' : ∀ b, ({ f with polling := b } : ExecFrame).prim = some pr := fun _ => h
  rw [execPos_prim (h' false), execPos_prim (h' true)]
  simp only [primPos, runPrim, if_true, Bool.false_eq_true, if_false]
  split <;> simp only [ExecFrame.stopWith, goesTo_polling h]

/-- Resumed at its poll: not met and no deadline, it stays where it is (rule R135). -/
theorem execPos_waits (h : f.prim = some pr) (hp : f.polling = true)
    (hb : bitSet (readReg m .cmdstat p).1 (pr.bit c.bits) = true)
    (hd : (drawDeadline m (readReg m .cmdstat p).2).1 = false) :
    execPos c m f p = .wait f (drawDeadline m (readReg m .cmdstat p).2).2 := by
  rw [execPos_prim h, primPos, hp, runPrim, if_pos rfl, primPoll_unmet hb, hd]
  simp only [Bool.false_eq_true, if_false]
  rw [← hp]

/-- Not met, and the deadline has passed (rules R135, R172). -/
theorem execPos_times_out (h : f.prim = some pr) (hp : f.polling = true)
    (hb : bitSet (readReg m .cmdstat p).1 (pr.bit c.bits) = true)
    (hd : (drawDeadline m (readReg m .cmdstat p).2).1 = true) :
    execPos c m f p = .go (f.stopWith (.err .timeout)) (drawDeadline m (readReg m .cmdstat p).2).2 := by
  rw [execPos_prim h, primPos, hp, runPrim, if_pos rfl, primPoll_unmet hb, hd]
  simp only [if_true]

/-- Met, with an error (rules R141, R172). -/
theorem execPos_fails (h : f.prim = some pr) (hp : f.polling = true)
    (hb : bitSet (readReg m .cmdstat p).1 (pr.bit c.bits) = false)
    (hf : pr.FailsAt c.bits (readReg m .cmdstat p).1 e) :
    execPos c m f p = .go (f.stopWith (.err e))
      (mapRecord (failedRecord c.bits pr (readReg m .cmdstat p).1) (readReg m .cmdstat p).2) := by
  rw [execPos_prim h, primPos, hp, runPrim, if_pos rfl, primPoll_fails hb hf]

/-- Met, without an error. -/
theorem execPos_goes (h : f.prim = some pr) (hp : f.polling = true)
    (hb : bitSet (readReg m .cmdstat p).1 (pr.bit c.bits) = false)
    (hf : ∀ e, ¬ pr.FailsAt c.bits (readReg m .cmdstat p).1 e) :
    execPos c m f p = if pr.receives then
        .go (f.goesTo c (readReg m .data (readReg m .cmdstat p).2).1) (readReg m .data (readReg m .cmdstat p).2).2
      else .go (f.goesTo c 0#8) (readReg m .cmdstat p).2 := by
  rw [execPos_prim h, primPos, hp, runPrim, if_pos rfl, primPoll_met hb hf]
  cases pr.receives <;> rfl

/-! The position inside a call. -/

/-- What the resumed call does with its transaction's position is told by that position. -/
theorem Carries.wait (hc : Carries s.cfg k put) (hh : Holds s k) (h : execPos s.cfg k f (s.port k) = .wait g q) :
    resumeCall (put f) s = .paused (put g) (s.withPort k q) := by
  have hf := holderFault_none_iff.2 hh
  cases hc with
  | execute => simp only [resumeCall, resumeExecCall, hf, runPos_wait h, portOut]
  | muxWrite w hv =>
    have hm : muxPos s.cfg k { w with inner := some f } (s.port k) = .wait { w with inner := some g } q := by
      simp only [muxPos, h]
    simp only [resumeCall, muxCall, hv, hf, runPos_wait hm, portOut]
  | attempt a hm ha =>
    have hp : accessPos s.cfg s.self k { a with inner := some f } (s.port k) = .wait { a with inner := some g } q := by
      rw [accessPos_attempt (by exact ha)]; simp only [posAttempt, h]
    have hx : accessFault k { a with inner := some f } s = none := by
      simp only [accessFault, ha, APos.lockFree, reduceCtorEq, Bool.false_eq_true, if_false, hf]
    simp only [resumeCall, resumeAccessCall, hm, hx, runAccess, runPos_wait hp, portOut]
  | resolve a w sw hm ha hs =>
    have hp : accessPos s.cfg s.self k { a with write := some { w with inner := some f } } (s.port k) =
        .wait { a with write := some { w with inner := some g } } q := by
      rw [accessPos_mux (by exact ha)]; simp only [posMux, hs, muxPos, h]
    have hx : accessFault k { a with write := some { w with inner := some f } } s = none := by
      simp only [accessFault, ha, APos.lockFree, reduceCtorEq, Bool.false_eq_true, if_false, hf]
    simp only [resumeCall, resumeAccessCall, hm, hx, runAccess, runPos_wait hp, portOut]
  | deselect d w rest sw more ht hl hs =>
    have hp : deselectPos { d with write := some { w with inner := some f } } s =
        .wait { d with write := some { w with inner := some g } } (s.withPort k q) := by
      simp only [deselectPos, ht, hl, if_true, hf, hs, deselectWrite, Option.getD_some, muxPos, h]
    simp only [resumeCall, resumeDeselect, runPos_wait hp, deselectOut]

theorem Carries.go (hc : Carries s.cfg k put) (hh : Holds s k) (hq : s.quantum = 0)
    (h : execPos s.cfg k f (s.port k) = .go g q) : resumeCall (put f) s = .paused (put g) (s.withPort k q) := by
  have hf := holderFault_none_iff.2 hh
  cases hc with
  | execute => simp only [resumeCall, resumeExecCall, hf, hq, runPos, h, portOut]
  | muxWrite w hv => simp only [resumeCall, muxCall, hv, hf, hq, runPos, muxPos, h, portOut]
  | attempt a hm ha =>
    have hp : accessPos s.cfg s.self k { a with inner := some f } (s.port k) = .go { a with inner := some g } q := by
      rw [accessPos_attempt (by exact ha)]; simp only [posAttempt, h]
    have hx : accessFault k { a with inner := some f } s = none := by
      simp only [accessFault, ha, APos.lockFree, reduceCtorEq, Bool.false_eq_true, if_false, hf]
    simp only [resumeCall, resumeAccessCall, hm, hx, runAccess, hq, runPos, hp, portOut]
  | resolve a w sw hm ha hs =>
    have hp : accessPos s.cfg s.self k { a with write := some { w with inner := some f } } (s.port k) =
        .go { a with write := some { w with inner := some g } } q := by
      rw [accessPos_mux (by exact ha)]; simp only [posMux, hs, muxPos, h]
    have hx : accessFault k { a with write := some { w with inner := some f } } s = none := by
      simp only [accessFault, ha, APos.lockFree, reduceCtorEq, Bool.false_eq_true, if_false, hf]
    simp only [resumeCall, resumeAccessCall, hm, hx, runAccess, hq, runPos, hp, portOut]
  | deselect d w rest sw more ht hl hs =>
    simp only [resumeCall, resumeDeselect, hq, runPos, deselectPos, ht, hl, if_true, hf, hs, deselectWrite,
      Option.getD_some, muxPos, h, deselectOut]

theorem runPos_same {F R S : Type} {pos : F → S → PosOut F R S} {f f' : F} {x x' : S} (h : pos f x = pos f' x') :
    ∀ n, runPos pos n f x = runPos pos n f' x'
  | 0 => h
  | n + 1 => by rw [runPos, runPos, h]

/-- The same outcome of the position from another port with the same record is the same outcome of the call. -/
theorem Carries.same (hc : Carries s.cfg k put) (hr : q.unit.record = (s.unit k).record)
    (h : execPos s.cfg k f (s.port k) = execPos s.cfg k g q) :
    resumeCall (put f) s = resumeCall (put g) (s.withPort k q) := by
  have hf : (s.withPort k q).holderFault k = s.holderFault k := by
    simp only [State.holderFault, State.withPort_port, State.port_unit, hr, State.withPort_phase, State.withPort_self]
    cases (s.unit k).record <;> rfl
  have out : ∀ {F R : Type} (call : F → Call) (ret : R → Ret) (o : PosOut F R Port),
      portOut k (s.withPort k q) call ret o = portOut k s call ret o := by
    intro F R call ret o; cases o <;> simp only [portOut, State.withPort_withPort]
  cases hc with
  | execute =>
    simp only [resumeCall, resumeExecCall, hf, out, State.withPort_cfg, State.withPort_quantum, State.withPort_port,
      runPos_same (pos := execPos s.cfg k) h]
  | muxWrite w hv =>
    have hm : muxPos s.cfg k { w with inner := some f } (s.port k) = muxPos s.cfg k { w with inner := some g } q := by
      simp only [muxPos, h]; cases execPos s.cfg k g q <;> simp only [muxAttemptOver]
    simp only [resumeCall, muxCall, hv, hf, out, State.withPort_cfg, State.withPort_quantum, State.withPort_port,
      runPos_same (pos := muxPos s.cfg k) hm]
  | attempt a hm ha =>
    have hp : accessPos s.cfg s.self k { a with inner := some f } (s.port k) =
        accessPos s.cfg s.self k { a with inner := some g } q := by
      rw [accessPos_attempt (by exact ha), accessPos_attempt (by exact ha)]; simp only [posAttempt, h]
    have hx : ∀ (f : ExecFrame) (t : State), accessFault k { a with inner := some f } t = t.holderFault k := by
      intro f t; simp only [accessFault, ha, APos.lockFree, reduceCtorEq, Bool.false_eq_true, if_false]
    simp only [resumeCall, resumeAccessCall, hm, hx, hf, runAccess, out, State.withPort_cfg, State.withPort_quantum,
      State.withPort_port, State.withPort_self, runPos_same (pos := accessPos s.cfg s.self k) hp]
  | resolve a w sw hm ha hs =>
    have hp : accessPos s.cfg s.self k { a with write := some { w with inner := some f } } (s.port k) =
        accessPos s.cfg s.self k { a with write := some { w with inner := some g } } q := by
      rw [accessPos_mux (by exact ha), accessPos_mux (by exact ha)]
      simp only [posMux, hs, muxPos, h]
      cases execPos s.cfg k g q with
      | ended r p => cases r <;> simp only [muxAttemptOver, muxStepOver]
      | _ => rfl
    have hx : ∀ (f : ExecFrame) (t : State),
        accessFault k { a with write := some { w with inner := some f } } t = t.holderFault k := by
      intro f t; simp only [accessFault, ha, APos.lockFree, reduceCtorEq, Bool.false_eq_true, if_false]
    simp only [resumeCall, resumeAccessCall, hm, hx, hf, runAccess, out, State.withPort_cfg, State.withPort_quantum,
      State.withPort_port, State.withPort_self, runPos_same (pos := accessPos s.cfg s.self k) hp]
  | deselect d w rest sw more ht hl hs =>
    have hp : deselectPos { d with write := some { w with inner := some f } } s =
        deselectPos { d with write := some { w with inner := some g } } (s.withPort k q) := by
      simp only [deselectPos, ht, hl, if_true, hf, hs, deselectWrite, Option.getD_some, State.withPort_cfg,
        State.withPort_port, muxPos, h]
      cases s.holderFault k with
      | some e => rfl
      | none =>
        cases execPos s.cfg k g q with
        | ended r p => cases r <;> simp only [muxAttemptOver, State.withPort_withPort]
        | _ => simp only [State.withPort_withPort]
    simp only [resumeCall, resumeDeselect, State.withPort_quantum, runPos_same (pos := deselectPos) hp]

/-- Without the lock of its master the call is a fault (rule R28). -/
theorem Carries.fault (hc : Carries s.cfg k put) (hh : ¬ Holds s k) : ∃ e, resumeCall (put f) s = .fault e := by
  obtain ⟨e, hf⟩ := Option.ne_none_iff_exists'.1 (fun h => hh (holderFault_none_iff.1 h))
  refine ⟨e, ?_⟩
  cases hc with
  | execute => simp only [resumeCall, resumeExecCall, hf]
  | muxWrite w hv => simp only [resumeCall, muxCall, hv, hf]
  | attempt a hm ha =>
    have hx : accessFault k { a with inner := some f } s = some e := by
      simp only [accessFault, ha, APos.lockFree, reduceCtorEq, Bool.false_eq_true, if_false, hf]
    simp only [resumeCall, resumeAccessCall, hm, hx]
  | resolve a w sw hm ha hs =>
    have hx : accessFault k { a with write := some { w with inner := some f } } s = some e := by
      simp only [accessFault, ha, APos.lockFree, reduceCtorEq, Bool.false_eq_true, if_false, hf]
    simp only [resumeCall, resumeAccessCall, hm, hx]
  | deselect d w rest sw more ht hl hs =>
    have hp : deselectPos { d with write := some { w with inner := some f } } s = .fault e := by
      simp only [deselectPos, ht, hl, if_true, hf]
    have : ∀ n, runPos deselectPos n { d with write := some { w with inner := some f } } s = .fault e := by
      intro n; cases n <;> simp only [runPos, hp]
    simp only [resumeCall, resumeDeselect, this, deselectOut]

/-! What such a part leaves. -/

theorem statusAfter_eq {ws : List Access} (h : q.unit = { s.unit k with history := (s.unit k).history ++ ws }) :
    statusAfter s k ws = (readReg k .cmdstat q).1 := by rw [readReg_value, h]; rfl

theorem dataAfter_nil : dataAfter s k [] = (readReg k .data (readReg k .cmdstat (s.port k)).2).1 := by
  simp [dataAfter, statusAfter, readReg]

theorem deadlineAfter_nil : deadlineAfter s k [] = (drawDeadline k (readReg k .cmdstat (s.port k)).2).1 := by
  simp [deadlineAfter, statusAfter, drawDeadline, readReg]

/-- The accesses of a port put back (rule R66). -/
theorem touches_withPort {new : List Access} {r : Option MasterState}
    (h1 : q.unit.history = (s.unit k).history ++ new) (h2 : q.window = storeAll s.cfg k s.window new)
    (h3 : q.unit.record = r) (h4 : q.unit.chips = (s.unit k).chips) : Touches s (s.withPort k q) k new r :=
  ⟨rfl, rfl, rfl, rfl, rfl, rfl, rfl, rfl, fun _ hj => State.withPort_unit_other s q hj, by simpa using h1, h2,
    by simpa using h3, by simpa using h4⟩

end Sys2Proof.Machine
end

