-- ==== Sys2Proof/Laws/Failures.lean ====
section
/-! SUPPORT. Transactions that fail at one of their primitives, every answer before it good (rules R172, R173, R175):
the primitives a sequencer state has still to run (`ExecFrame.left`), and the run from it to `E_STOP`. -/

namespace Sys2Proof.Machine

variable {c : Config.Params} {m k : MasterIx} {p q z : Port} {f g : ExecFrame} {pr : Prim} {e : Err} {s : State}

/-- What the data phases of a read of `n` bytes run (rule R178). -/
def readPrims (n : Nat) : List Prim := List.replicate (n - 1) .rdbAck ++ (if n = 0 then [] else [.rdbNack])

theorem readPrims_succ (n : Nat) : readPrims (n + 1) = (if n = 0 then .rdbNack else .rdbAck) :: readPrims n := by
  cases n <;> simp [readPrims, List.replicate_succ]

/-- The primitives a transaction has still to run, if none of them fails; `n` data bytes are received (rule R172). -/
def ExecFrame.left (n : Nat) (f : ExecFrame) : List Prim :=
  match f.epc with
  | .waitIdle => txnPrims f.txn n
  | .addr => (txnPrims f.txn n).tail
  | .cmd => (txnPrims f.txn n).tail.tail
  | .lenW =>
    (if f.txn.sizeClass = 5#4 then [.wrb (BitVec.ofNat 8 (txBytes f.txn).length)] else []) ++ (txBytes f.txn).map .wrb
  | .dataW => ((txBytes f.txn).drop f.i).map .wrb
  | .rstart =>
    (if hasCommand f.txn.sizeClass then [.start (addrR f.txn.addr)] else []) ++
      ((if f.txn.sizeClass = 5#4 then [.rdbAck] else []) ++ readPrims n)
  | .lenR => (if f.txn.sizeClass = 5#4 then [.rdbAck] else []) ++ readPrims n
  | .dataR => readPrims (f.len - f.i)
  | .validate => []
  | .reinit => []
  | .stop => []
  | .ret => []

theorem txnPrims_eq (t : Txn) (n : Nat) : txnPrims t n = .waitIdle :: .start (firstAddr t) ::
    ((if hasCommand t.sizeClass then [.wrb t.command] else []) ++ match t.dir with
      | .write => (if t.sizeClass = 5#4 then [.wrb (BitVec.ofNat 8 (txBytes t).length)] else []) ++ (txBytes t).map .wrb
      | .read => (if hasCommand t.sizeClass then [.start (addrR t.addr)] else []) ++
          ((if t.sizeClass = 5#4 then [.rdbAck] else []) ++ readPrims n)) := by
  rw [txnPrims]
  cases t.dir <;> simp [readPrims]

/-- Positions without a primitive that may come before the next one. -/
def ExecFrame.slack (f : ExecFrame) : Nat :=
  match f.epc with
  | .waitIdle => 3
  | .addr => 3
  | .cmd => 3
  | .rstart => 2
  | .lenW => 1
  | .lenR => 1
  | _ => 0

/-- How many primitives come before the length byte of a block read, where it is still to come. -/
def ExecFrame.lengthAt (f : ExecFrame) : Option Nat :=
  match f.epc with
  | .waitIdle => some 4
  | .addr => some 3
  | .cmd => some 2
  | .rstart => some 1
  | .lenR => some 0
  | _ => none

/-- What the count of the data bytes received says of a sequencer state, its next `j` primitives being good. -/
structure Counts (c : Config.Params) (q : Inputs) (n j : Nat) (f : ExecFrame) : Prop where
  begun : f.polling = false
  reads : ∀ l, f.lengthAt = some l → l ≤ 1 → f.txn.dir = .read
  plain : f.txn.dir = .read → f.txn.sizeClass ≠ 5#4 → n = nRead f.txn
  block : f.txn.dir = .read → f.txn.sizeClass = 5#4 → 1 ≤ n ∧ n ≤ c.blockMax.val
  byte : f.txn.dir = .read → f.txn.sizeClass = 5#4 → ∀ l, f.lengthAt = some l → l < j →
    DataNext q [BitVec.ofNat 8 n]

theorem toDataW_left (f : ExecFrame) (n i : Nat) : (f.toDataW i).left n = ((txBytes f.txn).drop i).map .wrb := by
  rw [ExecFrame.toDataW]
  split
  · rfl
  · next h => rw [List.drop_eq_nil_of_le (by omega)]; rfl

theorem toDataR_left (f : ExecFrame) (n i len : Nat) (rx : List Byte) :
    (f.toDataR i len rx).left n = readPrims (len - i) := by
  rw [ExecFrame.toDataR]
  split
  · rfl
  · next h => rw [show len - i = 0 by omega]; rfl

@[simp] theorem goesTo_txn (v : Byte) : (f.goesTo c v).txn = f.txn := by
  rw [ExecFrame.goesTo]
  split <;> (try split) <;> (try split) <;> (try simp only [ExecFrame.toBody]) <;> (try split) <;>
    first | rfl | exact ExecFrame.toDataW_txn _ _ | (rw [ExecFrame.toDataR]; split <;> rfl)


theorem toDataW_after (f : ExecFrame) (i : Nat) : (f.toDataW i).slack = 0 ∧ (f.toDataW i).polling = false ∧
    (f.toDataW i).epc ≠ .waitIdle ∧ (f.toDataW i).lengthAt = none := by
  rw [ExecFrame.toDataW]; split <;> exact ⟨rfl, rfl, by simp [ExecFrame.stopWith], rfl⟩

theorem toDataR_after (f : ExecFrame) (i len : Nat) (rx : List Byte) : (f.toDataR i len rx).slack = 0 ∧
    (f.toDataR i len rx).polling = false ∧ (f.toDataR i len rx).epc ≠ .waitIdle ∧
    (f.toDataR i len rx).lengthAt = none := by
  rw [ExecFrame.toDataR]; split <;> exact ⟨rfl, rfl, by simp [ExecFrame.stopWith], rfl⟩

/-- `g` follows `f`: no more positions without a primitive than before, its accesses not yet made. -/
def Follows (f g : ExecFrame) : Prop := g.slack ≤ f.slack ∧ g.polling = false ∧ g.epc ≠ .waitIdle

/-- A position with a primitive runs the first of those left; the rest is left after it. -/
theorem left_prim {n : Nat} {v : Byte} (h : f.prim = some pr) (hl : f.left n ≠ [])
    (hb : f.epc = .lenR → f.txn.sizeClass = 5#4 → v.toNat = n ∧ 1 ≤ n ∧ n ≤ c.blockMax.val) :
    f.left n = pr :: (f.goesTo c v).left n ∧ Follows f (f.goesTo c v) := by
  rw [ExecFrame.prim] at h
  rw [ExecFrame.left] at hl
  have hL := ExecFrame.left.eq_def n f
  have hS := ExecFrame.slack.eq_def f
  have hG := ExecFrame.goesTo.eq_def c f v
  rw [Follows, hL, hS, hG]
  cases he : f.epc <;> simp only [he, reduceCtorEq] at h hl ⊢
  case waitIdle =>
    obtain rfl := Option.some.inj h
    exact ⟨by simp [ExecFrame.left, ExecFrame.atPos, txnPrims_eq], Nat.le_refl _, rfl, by simp [ExecFrame.atPos]⟩
  case addr =>
    obtain rfl := Option.some.inj h
    exact ⟨by simp [ExecFrame.left, ExecFrame.atPos, txnPrims_eq], Nat.le_refl _, rfl, by simp [ExecFrame.atPos]⟩
  case cmd =>
    split at h
    · next hc =>
      obtain rfl := Option.some.inj h
      rw [ExecFrame.toBody]
      cases hd : f.txn.dir <;> simp [ExecFrame.left, ExecFrame.slack, ExecFrame.atPos, txnPrims_eq, hd, hc] <;> rfl
    · cases h
  case lenW =>
    split at h
    · next hc =>
      obtain rfl := Option.some.inj h
      have := toDataW_after f 0
      exact ⟨by rw [toDataW_left, if_pos hc]; rfl, by omega, this.2.1, this.2.2.1⟩
    · cases h
  case dataW =>
    obtain rfl := Option.some.inj h
    have := toDataW_after f (f.i + 1)
    have hi : f.i < (txBytes f.txn).length := by
      by_contra hx; exact hl (by rw [List.drop_eq_nil_of_le (by omega)]; rfl)
    refine ⟨?_, by omega, this.2.1, this.2.2.1⟩
    rw [toDataW_left, List.drop_eq_getElem_cons hi, List.getD_eq_getElem _ _ hi]; rfl
  case rstart =>
    split at h
    · next hc => obtain rfl := Option.some.inj h; simp [ExecFrame.left, ExecFrame.slack, ExecFrame.atPos, hc]; rfl
    · cases h
  case lenR =>
    split at h
    · next hc =>
      obtain rfl := Option.some.inj h
      obtain ⟨h1, h3, h4⟩ := hb he hc
      have := toDataR_after f 0 n []
      rw [if_pos hc, if_pos hc, if_pos (by omega), h1, toDataR_left]
      exact ⟨rfl, by omega, this.2.1, this.2.2.1⟩
    · cases h
  case dataR =>
    obtain rfl := Option.some.inj h
    have := toDataR_after f (f.i + 1) f.len (f.rx ++ [v])
    have hi : f.i < f.len := by
      by_contra hx; exact hl (by rw [show f.len - f.i = 0 by omega]; rfl)
    have hd : f.len - f.i = (f.len - (f.i + 1)) + 1 := by omega
    have hz : (f.len - (f.i + 1) = 0) = (f.i + 1 = f.len) := by apply propext; omega
    refine ⟨?_, by omega, this.2.1, this.2.2.1⟩
    rw [toDataR_left, hd, readPrims_succ]
    simp only [hz]

/-- A position without one leaves as much, and fewer of its like. -/
theorem left_silent {n : Nat} {v : Byte} (h : f.prim = none) (hl : f.left n ≠ [])
    (hn : f.epc = .lenR → f.txn.sizeClass ≠ 5#4 → n = nRead f.txn) :
    (f.goesTo c v).left n = f.left n ∧ Follows f (f.goesTo c v) ∧ (f.goesTo c v).slack < f.slack ∧
      f.ownWrites c = [] ∧ f.epc ≠ .validate ∧ f.epc ≠ .ret := by
  rw [ExecFrame.prim] at h
  rw [ExecFrame.left] at hl
  have hL := ExecFrame.left.eq_def n f
  have hS := ExecFrame.slack.eq_def f
  have hG := ExecFrame.goesTo.eq_def c f v
  rw [Follows, hL, hS, hG, ExecFrame.ownWrites]
  cases he : f.epc <;> simp only [he, reduceCtorEq, ne_eq, not_true_eq_false] at h hl ⊢
  case cmd =>
    split at h
    · cases h
    · next hc =>
      rw [ExecFrame.toBody]
      cases hd : f.txn.dir <;> simp [ExecFrame.left, ExecFrame.slack, ExecFrame.atPos, txnPrims_eq, hd, hc] <;> rfl
  case lenW =>
    split at h
    · cases h
    · next hc =>
      have := toDataW_after f 0
      exact ⟨by rw [toDataW_left, if_neg hc]; rfl, ⟨by omega, this.2.1, this.2.2.1⟩, by omega, by simp⟩
  case rstart =>
    split at h
    · cases h
    · next hc => simp [ExecFrame.left, ExecFrame.slack, ExecFrame.atPos, hc]; rfl
  case lenR =>
    split at h
    · cases h
    · next hc =>
      have := toDataR_after f 0 (nRead f.txn) []
      rw [if_neg hc, if_neg hc, toDataR_left, hn he hc]
      exact ⟨rfl, ⟨by omega, this.2.1, this.2.2.1⟩, by omega, by simp⟩

/-- The primitive of a position before the length byte receives nothing; the length byte comes one primitive later than
from the position it leads to. -/
theorem lengthAt_goesTo {v : Byte} {l n : Nat} (h : (f.goesTo c v).lengthAt = some l)
    (hr : ∀ l, f.lengthAt = some l → l ≤ 1 → f.txn.dir = .read) :
    (l ≤ 1 → f.txn.dir = .read) ∧
      (∀ pr, f.prim = some pr → f.lengthAt = some (l + 1) ∧ pr.receives = false) ∧
      (f.prim = none → f.left n ≠ [] → hasCommand f.txn.sizeClass = false) := by
  have hG := ExecFrame.goesTo.eq_def c f v
  have hP := ExecFrame.prim.eq_def f
  have hA := ExecFrame.lengthAt.eq_def f
  have hL := ExecFrame.left.eq_def n f
  have key : ∀ {g : ExecFrame}, g.lengthAt = none → ¬ g.lengthAt = some l := by
    intro g hg hx; rw [hg] at hx; cases hx
  rw [hG] at h
  rw [hP, hA, hL]
  cases he : f.epc <;> simp only [he] at h hA ⊢
  case validate => cases h
  case reinit =>
    obtain rfl := Option.some.inj h
    exact ⟨fun hl => by omega, (fun _ hp => by cases hp), fun _ hx => absurd rfl hx⟩
  case waitIdle =>
    obtain rfl := Option.some.inj h
    exact ⟨fun hl => by omega, fun _ hp => by cases hp; exact ⟨rfl, rfl⟩, fun hp => by cases hp⟩
  case addr =>
    obtain rfl := Option.some.inj h
    exact ⟨fun hl => by omega, fun _ hp => by cases hp; exact ⟨rfl, rfl⟩, fun hp => by cases hp⟩
  case cmd =>
    rw [ExecFrame.toBody] at h
    cases hd : f.txn.dir <;> simp only [hd] at h
    · cases h
    · obtain rfl := Option.some.inj h
      refine ⟨fun _ => rfl, fun pr hp => ?_, fun hp _ => ?_⟩
      · split at hp <;> cases hp; exact ⟨rfl, rfl⟩
      · split at hp <;> [cases hp; simp_all]
  case rstart =>
    obtain rfl := Option.some.inj h
    refine ⟨fun _ => hr 1 hA (Nat.le_refl _), fun pr hp => ?_, fun hp _ => ?_⟩
    · split at hp <;> cases hp; exact ⟨rfl, rfl⟩
    · split at hp <;> [cases hp; simp_all]
  case lenW => exact absurd h (key (toDataW_after _ _).2.2.2)
  case dataW => exact absurd h (key (toDataW_after _ _).2.2.2)
  case lenR =>
    split at h
    · split at h
      · exact absurd h (key (toDataR_after _ _ _ _).2.2.2)
      · cases h
    · exact absurd h (key (toDataR_after _ _ _ _).2.2.2)
  case dataR => exact absurd h (key (toDataR_after _ _ _ _).2.2.2)
  case stop => cases h
  case ret => rw [hA] at h; cases h

/-- A good primitive tells no more and no less of the count. -/
theorem Counts.prim {n j : Nat} {v : Byte} (h : Counts c p.unit.inputs n (j + 1) f) (hp : f.prim = some pr)
    (hd : q.unit.inputs.data = if pr.receives then p.unit.inputs.data.tail else p.unit.inputs.data)
    (hg : (f.goesTo c v).polling = false) : Counts c q.unit.inputs n j (f.goesTo c v) where
  begun := hg
  reads l hl := by rw [goesTo_txn]; exact (lengthAt_goesTo (n := n) hl h.reads).1
  plain := by rw [goesTo_txn]; exact h.plain
  block := by rw [goesTo_txn]; exact h.block
  byte hr hb l hl hlt := by
    rw [goesTo_txn] at hr hb
    obtain ⟨h1, h2⟩ := (lengthAt_goesTo (n := n) hl h.reads).2.1 pr hp
    rw [DataNext, hd, h2]
    exact h.byte hr hb (l + 1) h1 (by omega)

/-- So does a position without one. -/
theorem Counts.silent {n j : Nat} {v : Byte} (h : Counts c p.unit.inputs n j f) (hp : f.prim = none)
    (hl : f.left n ≠ []) (hg : (f.goesTo c v).polling = false) : Counts c q.unit.inputs n j (f.goesTo c v) where
  begun := hg
  reads l hl := by rw [goesTo_txn]; exact (lengthAt_goesTo (n := n) hl h.reads).1
  plain := by rw [goesTo_txn]; exact h.plain
  block := by rw [goesTo_txn]; exact h.block
  byte hr hb l hx hlt := by
    rw [goesTo_txn] at hb
    have := (lengthAt_goesTo hx h.reads).2.2 hp hl
    rw [hb, hasCommand_block] at this; cases this

/-! One primitive. -/

/-- Its accesses when it is good. -/
def Prim.cost : Prim → Nat
  | .waitIdle => 1
  | .waitPhase _ => 1
  | _ => 3

/-- A primitive whose answer is good (rules R137, R138). -/
theorem prim_smooth (h : f.prim = some pr) (hp : f.polling = false)
    (hs : Smooth c p.unit.inputs [decide (pr = .waitIdle)]) :
    ∃ q v, execPos c m f p = .go (f.goesTo c v) q ∧
      Glide c m p q 1 (if pr.receives then [v] else []) (primWrites c pr) pr.cost := by
  have key : ∀ {q v}, runPrim c m pr false p = (.ok v, q) → execPos c m f p = .go (f.goesTo c v) q :=
    fun h' => by rw [execPos_prim h]; exact primPos_ok _ (hp ▸ h')
  cases pr with
  | start ab => obtain ⟨q, hq, g⟩ := runPrim_start_smooth (m := m) ab hs; exact ⟨q, _, key hq, g⟩
  | wrb b => obtain ⟨q, hq, g⟩ := runPrim_wrb_smooth (m := m) b hs; exact ⟨q, _, key hq, g⟩
  | rdbAck => obtain ⟨q, v, hq, g⟩ := runPrim_rdb_smooth (m := m) false hs; exact ⟨q, v, key hq, g⟩
  | rdbNack => obtain ⟨q, v, hq, g⟩ := runPrim_rdb_smooth (m := m) true hs; exact ⟨q, v, key hq, g⟩
  | waitIdle => obtain ⟨q, hq, g⟩ := runPrim_waitIdle_smooth (m := m) hs; exact ⟨q, _, key hq, g⟩
  | waitPhase w => exact ⟨_, _, key (waitPhaseOnce_smooth w hs), glide_readStatus⟩

/-- From `p` to `q`, where a primitive failed at the status byte `v`, the last access, and left the record `x`; `d`
deadlines were used. -/
structure FailedAt (c : Config.Params) (m : MasterIx) (p q : Port) (j d : Nat) (ws : List Access) (n : Nat) (v : Byte)
    (x : MasterState) : Prop where
  trail : Trail c m p q j ws n
  record : q.unit.record = some x
  chips : q.unit.chips = p.unit.chips
  last : ∃ new, q.unit.history = p.unit.history ++ new ++ [.rd .cmdstat v]
  deadline : q.unit.inputs.deadline = p.unit.inputs.deadline.drop d

theorem Glide.fails {j i n a d : Nat} {xs : List Byte} {ws ws' : List Access} {v : Byte} {x : MasterState}
    (g : Glide c m p q j xs ws n) (h : FailedAt c m q z i d ws' a v x) :
    FailedAt c m p z (j + i) d (ws ++ ws') (n + a) v x := by
  obtain ⟨new, hn⟩ := h.last
  obtain ⟨old, ho, _⟩ := g.accesses
  exact ⟨g.trail.trans h.trail, h.record, h.chips.trans g.chips,
    ⟨old ++ new, by rw [hn, ho, List.append_assoc, List.append_assoc, List.append_assoc, List.append_assoc]⟩,
    by rw [h.deadline, g.deadline]⟩

/-- How many deadlines the failing poll uses (rule R135). -/
def Prim.draws (b : Config.Bits) (pr : Prim) (v : Byte) : Nat := if bitSet v (pr.bit b) then 1 else 0

theorem trail_deadline : Trail c m p (drawDeadline m p).2 0 [] 0 :=
  ⟨(PortStep.draw p).evolves, ⟨[], by simp [writesOf]⟩, rfl, rfl⟩

theorem glide_primBegin (pr : Prim) :
    Glide c m p (primBegin c m pr p) 0 [] (primWrites c pr) (primWrites c pr).length := by
  cases pr with
  | start ab => exact (glide_write .data ab rfl).trans (glide_write .cmdstat _ (by simp [accessIssued]))
  | wrb b => exact (glide_write .data b rfl).trans (glide_write .cmdstat _ (by simp [accessIssued]))
  | rdbAck => exact glide_write .cmdstat _ (by simp [accessIssued])
  | rdbNack => exact glide_write .cmdstat _ (by simp [accessIssued])
  | waitIdle => exact Glide.refl p
  | waitPhase w => exact Glide.refl p

/-- A primitive that fails at its first status read (rules R135, R141, R172). -/
theorem prim_fails {v : Byte} {r x : MasterState} (h : f.prim = some pr) (hp : f.polling = false)
    (hv : p.unit.inputs.status[0]? = some v) (hr : p.unit.record = some r)
    (hf : pr.Fails c.bits v p.unit.inputs.deadline.head? r e x) :
    ∃ q, execPos c m f p = .go (f.stopWith (.err e)) q ∧
      FailedAt c m p q 1 (pr.draws c.bits v) (primWrites c pr) ((primWrites c pr).length + 1) v x ∧
        q.unit.inputs.data = p.unit.inputs.data := by
  have gb := glide_primBegin (c := c) (m := m) (p := p) pr
  have hb : execPos c m f p = execPos c m { f with polling := true } (primBegin c m pr p) := by
    rw [← execPos_begin h, ← hp]
  generalize primBegin c m pr p = b at gb hb
  have hst : (readReg m .cmdstat b).1 = v := by
    obtain ⟨rest, hs⟩ : ∃ rest, p.unit.inputs.status = v :: rest := by
      cases hs : p.unit.inputs.status with
      | nil => rw [hs] at hv; cases hv
      | cons y rest => rw [hs] at hv; exact ⟨rest, by rw [Option.some.inj hv]⟩
    exact readStatus_value (rest := rest) (by rw [gb.status, hs]; rfl)
  have gr : Glide c m b (readReg m .cmdstat b).2 1 [] [] 1 := glide_readStatus
  have hh : (readReg m .cmdstat b).2.unit.history = b.unit.history ++ [.rd .cmdstat v] := by rw [readReg_history, hst]
  have g := gb.trans gr
  obtain ⟨old, ho, _⟩ := gb.accesses
  have hl : ∃ new, (readReg m .cmdstat b).2.unit.history = p.unit.history ++ new ++ [.rd .cmdstat v] :=
    ⟨old, by rw [hh, ho]⟩
  have h' : ({ f with polling := true } : ExecFrame).prim = some pr := h
  rcases hf with ⟨h1, h2, rfl⟩ | ⟨h1, h2, rfl, rfl⟩
  · refine ⟨_, hb.trans (execPos_fails h' rfl (by rw [hst]; exact h1) (by rw [hst]; exact h2)), ?_⟩
    refine ⟨⟨(g.trail.trans (trail_record _)).cast rfl (by simp) rfl, ?_, g.chips, hl, ?_⟩, g.data⟩
    · rw [mapRecord_record, g.record, hr, hst]; rfl
    · rw [Prim.draws, h1]; exact g.deadline
  · have hd : (drawDeadline m (readReg m .cmdstat b).2).1 = true := by
      show (drawFrom _ b.unit.inputs.deadline).1 = true
      rw [gb.deadline]
      cases hx : p.unit.inputs.deadline with
      | nil => rw [hx] at h2; cases h2
      | cons y rest => rw [hx] at h2; exact Option.some.inj h2
    refine ⟨_, hb.trans (execPos_times_out h' rfl (by rw [hst]; exact h1) hd), ?_⟩
    refine ⟨⟨(g.trail.trans trail_deadline).cast rfl (by simp) rfl, g.record.trans hr, g.chips, hl, ?_⟩, g.data⟩
    rw [Prim.draws, h1, if_pos rfl, ← g.deadline]
    show (drawFrom _ (readReg m .cmdstat b).2.unit.inputs.deadline).2 = _
    cases (readReg m .cmdstat b).2.unit.inputs.deadline <;> rfl

/-! All of them. -/

theorem prim_phase (h : f.prim = some pr) (he : f.epc ≠ .waitIdle) :
    pr ≠ .waitIdle ∧ pr.cost = 3 ∧ (primWrites c pr).length + 1 = if pr.receives then 2 else 3 := by
  rw [ExecFrame.prim] at h
  split at h <;> (try split at h) <;> first
    | contradiction
    | (cases h; exact ⟨Prim.noConfusion, rfl, rfl⟩)

/-- From a position after `wait_idle`: the next `j` primitives are good, the one after them fails (rules R172, R173). -/
theorem left_fails {n : Nat} {v : Byte} {x y : MasterState} : ∀ (b j : Nat) (f : ExecFrame) (p : Port),
    f.slack + j ≤ b → f.epc ≠ .waitIdle → Counts c p.unit.inputs n j f → (f.left n)[j]? = some pr →
    Smooth c p.unit.inputs (phases j) → p.unit.inputs.status[j]? = some v → p.unit.record = some x →
    pr.Fails c.bits v p.unit.inputs.deadline.head? x e y →
    ∃ a q, a ≤ b + 1 ∧ Stops c m a f p (.err e) q ∧
      FailedAt c m p q (j + 1) (pr.draws c.bits v) (((f.left n).take (j + 1)).flatMap (primWrites c))
        (3 * j + if pr.receives then 2 else 3) v y := by
  intro b
  induction b with
  | zero => ?_
  | succ b ih => ?_
  all_goals
    intro j f p hb he hc hj hs hv hr hf
    have hl : f.left n ≠ [] := by intro h; rw [h] at hj; cases hj
    have hn : f.epc = .lenR → f.txn.dir = .read := fun h =>
      hc.reads 0 (by rw [ExecFrame.lengthAt, h]) (Nat.zero_le _)
    have hbyte : f.epc = .lenR → f.txn.sizeClass = 5#4 →
        (BitVec.ofNat 8 n).toNat = n ∧ 1 ≤ n ∧ n ≤ c.blockMax.val := fun h1 h2 => by
      have := hc.block (hn h1) h2
      exact ⟨by rw [BitVec.toNat_ofNat]; omega, this⟩
    cases hp : f.prim with
    | none =>
      obtain ⟨h1, h2, h3, h4, h5, h6⟩ := left_silent (c := c) (v := 0#8) hp hl (fun h hb => hc.plain (hn h) hb)
      first
        | omega
        | obtain ⟨q, hq, g⟩ := execPos_silent (c := c) (m := m) (p := p) hp h5 h6
          rw [h4] at g
          obtain ⟨a, z, ha, hz, ht⟩ := ih j _ q (by omega) h2.2.2
            (hc.silent hp hl h2.2.1) (by rw [h1]; exact hj) (by rw [Smooth, g.status]; exact hs)
            (by rw [g.status]; exact hv) (g.record.trans hr) (by rw [g.deadline]; exact hf)
          rw [h1] at ht
          exact ⟨a + 1, z, by omega, Stops.first hq hz, by simpa using g.fails ht⟩
    | some pr0 =>
      obtain ⟨hw, hcost, hlen⟩ := prim_phase (c := c) hp he
      match j with
      | 0 =>
        obtain ⟨h1, -⟩ := left_prim (c := c) hp hl hbyte
        rw [h1] at hj ⊢
        obtain rfl := Option.some.inj hj
        obtain ⟨q, hq, ht, -⟩ := prim_fails (m := m) hp hc.begun hv hr hf
        exact ⟨1, q, by omega, Stops.first hq (Stops.here _), by rw [hlen] at ht; simpa using ht⟩
      | j + 1 =>
        first
        | omega
        | obtain ⟨q, v0, hq, g⟩ := prim_smooth (c := c) (m := m) (p := p) hp hc.begun
            (by rw [decide_eq_false hw]; exact hs.mono (k := 1) (by omega))
          have hv0 : f.epc = .lenR → f.txn.sizeClass = 5#4 →
              v0.toNat = n ∧ 1 ≤ n ∧ n ≤ c.blockMax.val := fun h1 h2 => by
            have hrcv : pr0.receives = true := by
              rw [ExecFrame.prim, h1] at hp; simp only [h2, if_true] at hp; cases hp; rfl
            rw [hrcv] at g
            have := g.listed _ (hc.byte (hn h1) h2 0 (by rw [ExecFrame.lengthAt, h1]) (by omega)) rfl
            rw [List.cons.inj this |>.1]
            exact hbyte h1 h2
          obtain ⟨h1, h2⟩ := left_prim (c := c) hp hl hv0
          rw [h1] at hj ⊢
          obtain ⟨a, z, ha, hz, ht⟩ := ih j _ q (by have := h2.1; omega) h2.2.2
            (hc.prim hp (by rw [g.data]; split <;> simp) h2.2.1) hj
            (Smooth.next 1 (hs.mono (by omega)) g.status) (by rw [g.status, List.getElem?_drop, Nat.add_comm]; exact hv)
            (g.record.trans hr) (by rw [g.deadline]; exact hf)
          refine ⟨a + 1, z, by omega, Stops.first hq hz, ?_⟩
          have := g.fails ht
          rw [hcost] at this
          rw [List.take_succ_cons, List.flatMap_cons]
          rw [show 1 + (j + 1) = j + 1 + 1 by omega] at this
          rw [show 3 * (j + 1) + (if pr.receives then 2 else 3) = 3 + (3 * j + if pr.receives then 2 else 3) by omega]
          exact this

/-- No transaction has more than `1 + maxPhases` primitives (rule R193). -/
theorem txnPrims_length {t : Txn} {n : Nat} (hv : validateTxn c m t = none) (hn : ReceivesCount c p.unit.inputs t 0 n) :
    (txnPrims t n).length ≤ 1 + maxPhases c := by
  have hle := validLengths hv
  have hm := blockMax_le_maxData c
  rw [txnPrims_eq, maxPhases]
  cases hd : t.dir with
  | write =>
    have := hle.1 hd
    simp only [List.length_cons, List.length_append, List.length_map]
    split <;> split <;> simp <;> omega
  | read =>
    have hr : n ≤ maxData c := by
      by_cases hb : t.sizeClass = 5#4
      · have := ((hn hd).2 hb).2.1; omega
      · rw [(hn hd).1 hb]; exact hle.2
    have hp : (readPrims n).length ≤ n := by
      cases n <;> simp [readPrims]
    simp only [List.length_cons, List.length_append]
    split <;> split <;> simp <;> omega

/-- A valid transaction one of whose primitives fails, from its start to its STOP (rules R172, R173, R175). -/
theorem execute_fails {t : Txn} {n j : Nat} {v : Byte} {x y : MasterState} (hv : validateTxn c m t = none)
    (hn : ReceivesCount c p.unit.inputs t j n) (hj : (txnPrims t n)[j]? = some pr)
    (hs : Smooth c p.unit.inputs ((txnPolls j).take j)) (hst : p.unit.inputs.status[j]? = some v)
    (hr : p.unit.record = some x) (hf : pr.Fails c.bits v p.unit.inputs.deadline.head? x e y) :
    ∃ a q, a ≤ 68 + maxData c - 1 ∧ Stops c m a (execStart t) p (.err e) q ∧
      FailedAt c m p q (j + 1) (pr.draws c.bits v)
        (reinitWrites c ++ ((txnPrims t n).take (j + 1)).flatMap (primWrites c))
        (2 + 3 * j + if pr.receives then 2 else 3) v y := by
  have g0 : Glide c m p _ 0 [] _ 4 := glide_programDivider
  have h0 : execPos c m (execStart t) p = .go ((execStart t).atPos .reinit) p := by
    show posValidate c m (execStart t) p = _
    rw [posValidate, show validateTxn c m (execStart t).txn = none from hv]
  have h1 : execPos c m ((execStart t).atPos .reinit) p =
      .go ((execStart t).atPos .waitIdle) (programDivider c m c.div100k p) := rfl
  have hp : ((execStart t).atPos .waitIdle).prim = some .waitIdle := rfl
  match j with
  | 0 =>
    rw [txnPrims_eq] at hj ⊢
    obtain rfl := Option.some.inj hj
    obtain ⟨q, hq, ht, -⟩ := prim_fails (c := c) (m := m) hp rfl (by rw [g0.status]; exact hst) (g0.record.trans hr)
      (by rw [g0.deadline]; exact hf)
    exact ⟨3, q, by omega, Stops.first h0 (Stops.first h1 (Stops.first hq (Stops.here _))), by
      simpa [Prim.receives, primWrites] using g0.fails ht⟩
  | j + 1 =>
    have hlen := txnPrims_length (c := c) (m := m) (p := p) hv
      (fun hd => ⟨(hn hd).1, fun hb => ⟨((hn hd).2 hb).1, ((hn hd).2 hb).2.1, fun h => by omega⟩⟩)
    rw [maxPhases] at hlen
    have hjl := (List.getElem?_eq_some_iff.1 hj).1
    have hs' : Smooth c p.unit.inputs ([true] ++ phases j) := by
      have : (txnPolls (j + 1)).take (j + 1) = [true] ++ phases j := by
        simp [txnPolls, phases, List.take_replicate]
      rw [← this]; exact hs
    obtain ⟨q, v0, hq, g⟩ := prim_smooth (c := c) (m := m) (p := programDivider c m c.div100k p) hp rfl
      (by rw [Smooth, g0.status]; exact hs'.head)
    have gg := (g0.trans g).cast (k' := 1) (x' := []) rfl rfl rfl rfl
    have hleft : ((execStart t).atPos .addr).left n = (txnPrims t n).tail := rfl
    obtain ⟨a, z, ha, hz, ht⟩ := left_fails (c := c) (m := m) (n := n) (pr := pr) (e := e) (v := v) (x := x) (y := y)
      (3 + j) j ((execStart t).atPos .addr) q (Nat.le_refl _) EPos.noConfusion
      ⟨rfl, fun l hl h => by cases hl; omega, fun hd => (hn hd).1, fun hd hb => ⟨((hn hd).2 hb).1, ((hn hd).2 hb).2.1⟩,
        fun hd hb l hl hlj => by
          cases hl
          have := ((hn hd).2 hb).2.2 (by omega)
          rw [DataNext, gg.data]; exact this⟩
      (by rw [hleft, txnPrims_eq] at *; exact hj) (hs'.drop gg.status)
      (by rw [gg.status, List.getElem?_drop, Nat.add_comm]; exact hst) (gg.record.trans hr)
      (by rw [gg.deadline]; exact hf)
    refine ⟨a + 1 + 1 + 1, z, by omega, Stops.first h0 (Stops.first h1 (Stops.first hq hz)), ?_⟩
    have hw : (txnPrims t n).take (j + 1 + 1) = .waitIdle :: (txnPrims t n).tail.take (j + 1) := by
      rw [txnPrims_eq]; rfl
    have := gg.fails ht
    rw [hleft] at this
    rw [hw, List.flatMap_cons, ← List.append_assoc]
    rw [show 1 + (j + 1) = j + 1 + 1 by omega,
      show 4 + Prim.waitIdle.cost + (3 * j + if pr.receives then 2 else 3) =
        2 + 3 * (j + 1) + if pr.receives then 2 else 3 by simp only [Prim.cost]; omega] at this
    exact this

end Sys2Proof.Machine
end

