-- ==== Sys2Proof/Laws/PerInstr.lean ====
section
/-! SUPPORT. Statements about every instruction as syntax, one lemma per constructor. -/

namespace Sys2Proof.Laws.EncodedLength

/-- The encoding of a well-formed instruction has its opcode and format bytes and is no longer than the longest
instruction, so the padding of a table word never cuts one short. -/
def Statement (i : Instr) : Prop :=
  wellFormed i = true → 2 ≤ (encode i).length ∧ (encode i).length ≤ maxInstrBytes

/-- The tag and contents of a payload take at most 257 bytes. -/
theorem payload_length (p : Payload) (h : payloadOk p = true) : (encodePayload p).length ≤ 257 := by
  cases p with
  | quick => decide
  | byte v => exact Nat.le_of_ble_eq_true rfl
  | word w => exact Nat.le_of_ble_eq_true rfl
  | block d =>
    have : d.length ≤ 255 := by simpa [payloadOk, bytesOk] using h
    simp only [encodePayload, encodeBytes, List.length_cons]
    omega

theorem cmdStart (m ab : Byte) : Statement (.cmdStart m ab) := fun _ => by
  simp [encode, encodeOperands, maxInstrBytes]
theorem cmdWrite (m b : Byte) : Statement (.cmdWrite m b) := fun _ => by
  simp [encode, encodeOperands, maxInstrBytes]
theorem cmdReadAck (m : Byte) : Statement (.cmdReadAck m) := fun _ => by
  simp [encode, encodeOperands, maxInstrBytes]
theorem cmdReadNack (m : Byte) : Statement (.cmdReadNack m) := fun _ => by
  simp [encode, encodeOperands, maxInstrBytes]
theorem cmdStop (m : Byte) : Statement (.cmdStop m) := fun _ => by
  simp [encode, encodeOperands, maxInstrBytes]
theorem cmdIack (m : Byte) : Statement (.cmdIack m) := fun _ => by
  simp [encode, encodeOperands, maxInstrBytes]
theorem quickW (m a : Byte) : Statement (.quickW m a) := fun _ => by
  simp [encode, encodeOperands, maxInstrBytes]
theorem quickR (m a : Byte) : Statement (.quickR m a) := fun _ => by
  simp [encode, encodeOperands, maxInstrBytes]
theorem byteW (m a v : Byte) : Statement (.byteW m a v) := fun _ => by
  simp [encode, encodeOperands, maxInstrBytes]
theorem byteR (m a : Byte) : Statement (.byteR m a) := fun _ => by
  simp [encode, encodeOperands, maxInstrBytes]
theorem byteDataW (m a c v : Byte) : Statement (.byteDataW m a c v) := fun _ => by
  simp [encode, encodeOperands, maxInstrBytes]
theorem byteDataR (m a c : Byte) : Statement (.byteDataR m a c) := fun _ => by
  simp [encode, encodeOperands, maxInstrBytes]
theorem wordDataW (m a c : Byte) (w : Half) : Statement (.wordDataW m a c w) := fun _ => by
  simp [encode, encodeOperands, maxInstrBytes]
theorem wordDataR (m a c : Byte) : Statement (.wordDataR m a c) := fun _ => by
  simp [encode, encodeOperands, maxInstrBytes]
theorem blockW (m a c : Byte) (d : List Byte) : Statement (.blockW m a c d) := fun h => by
  have : d.length ≤ 255 := by simpa [wellFormed, bytesOk] using h
  simp only [encode, encodeOperands, encodeBytes, List.length_cons, maxInstrBytes]
  omega
theorem blockR (m a c : Byte) : Statement (.blockR m a c) := fun _ => by
  simp [encode, encodeOperands, maxInstrBytes]
theorem i2cBlockW (m a c : Byte) (d : List Byte) : Statement (.i2cBlockW m a c d) := fun h => by
  have : d.length ≤ 255 := by simpa [wellFormed, bytesOk] using h
  simp only [encode, encodeOperands, encodeBytes, List.length_cons, maxInstrBytes]
  omega
theorem i2cBlockR (m a c n : Byte) : Statement (.i2cBlockR m a c n) := fun _ => by
  simp [encode, encodeOperands, maxInstrBytes]
theorem procCall (dir : Dir) (m a c : Byte) : Statement (.procCall dir m a c) := fun _ => by
  simp [encode, encodeOperands, maxInstrBytes]
theorem i2cBlockBroken (dir : Dir) (m a c : Byte) : Statement (.i2cBlockBroken dir m a c) := fun _ => by
  simp [encode, encodeOperands, maxInstrBytes]
theorem blockProcCall (dir : Dir) (m a c : Byte) : Statement (.blockProcCall dir m a c) := fun _ => by
  simp [encode, encodeOperands, maxInstrBytes]
theorem unknownSc9 (dir : Dir) (m a c : Byte) : Statement (.unknownSc9 dir m a c) := fun _ => by
  simp [encode, encodeOperands, maxInstrBytes]
theorem unknownSc1011 (low : BitVec 1) (dir : Dir) (m a c : Byte) : Statement (.unknownSc1011 low dir m a c) := fun _ => by
  simp [encode, encodeOperands, maxInstrBytes]
theorem unknownSc1215 (low : BitVec 2) (dir : Dir) (m a c : Byte) : Statement (.unknownSc1215 low dir m a c) := fun _ => by
  simp [encode, encodeOperands, maxInstrBytes]
theorem read8 (m : Byte) (r : Reg) : Statement (.read8 m r) := fun _ => by
  simp [encode, encodeOperands, maxInstrBytes]
theorem write8 (m : Byte) (r : Reg) (v : Byte) : Statement (.write8 m r v) := fun _ => by
  simp [encode, encodeOperands, maxInstrBytes]
theorem init (m : Byte) (div : Half) : Statement (.init m div) := fun _ => by
  simp [encode, encodeOperands, maxInstrBytes]
theorem deinit (m : Byte) : Statement (.deinit m) := fun _ => by
  simp [encode, encodeOperands, maxInstrBytes]
theorem waitIdle (m : Byte) (timeout : Half) : Statement (.waitIdle m timeout) := fun _ => by
  simp [encode, encodeOperands, maxInstrBytes]
theorem waitPhaseDone (m : Byte) (timeout : Half) (isWrite : Bool) : Statement (.waitPhaseDone m timeout isWrite) := fun _ => by
  simp [encode, encodeOperands, maxInstrBytes]
theorem execute (m : Byte) (t : Txn) : Statement (.execute m t) := fun h => by
  have := payload_length t.payload h
  simp only [encode, encodeOperands, encodeTxn, List.length_cons, maxInstrBytes]
  omega
theorem access (ep : EndpointRef) (t : Txn) : Statement (.access ep t) := fun h => by
  have hp : payloadOk t.payload = true := by
    simp only [wellFormed, Bool.and_eq_true] at h
    exact h.2
  have := payload_length t.payload hp
  simp only [encode, encodeOperands, encodeTxn, List.length_cons, maxInstrBytes]
  omega
theorem muxSelect (m sw : Byte) (ch : BitVec 3) : Statement (.muxSelect m sw ch) := fun _ => by
  simp [encode, encodeOperands, maxInstrBytes]
theorem muxDeselect (m sw : Byte) : Statement (.muxDeselect m sw) := fun _ => by
  simp [encode, encodeOperands, maxInstrBytes]
theorem deselectAll : Statement (.deselectAll) := fun _ => by
  simp [encode, encodeOperands, maxInstrBytes]
theorem engineInit : Statement (.engineInit) := fun _ => by
  simp [encode, encodeOperands, maxInstrBytes]
theorem engineShutdown : Statement (.engineShutdown) := fun _ => by
  simp [encode, encodeOperands, maxInstrBytes]

end Sys2Proof.Laws.EncodedLength
end

