-- ==== Sys2Proof/Laws/Retries.lean ====
section
/-! SUPPORT. Runs of an access through attempts that fail at their START, whatever their errors (rules R231 to R237): one
attempt and the decision after it, the attempts that are followed by another, and the two ends. -/

namespace Sys2Proof.Machine

variable {c : Config.Params} {m k : MasterIx} {p q z : Port} {e : Err} {self : AgentId} {t : Txn}

/-- The record after an attempt whose START met the status byte `v` (rules R139 to R141, R232). -/
def triedRecord (b : Config.Bits) (v : Byte) (x : MasterState) : MasterState :=
  { x with retryNeeded := !bitSet v b.tip, persistentNack := x.persistentNack || signature b v }

/-- From `p` to `q` the attempts `vs` at `t` were made, each to its STOP, and left the record `y`. -/
structure Tried (c : Config.Params) (m : MasterIx) (t : Txn) (p q : Port) (vs : List Byte) (y : MasterState) : Prop where
  trail : Trail c m p q (2 * vs.length) (refusedWrites c t vs.length) (9 * vs.length)
  record : q.unit.record = some y
  chips : q.unit.chips = p.unit.chips
  deadline : q.unit.inputs.deadline = p.unit.inputs.deadline.drop (triesLate c.bits vs).length
  data : q.unit.inputs.data = p.unit.inputs.data

theorem Tried.refl {y : MasterState} (h : p.unit.record = some y) : Tried c m t p p [] y :=
  ⟨Trail.refl p, h, rfl, rfl, rfl⟩

theorem Tried.trans {vs ws : List Byte} {x y : MasterState} (h : Tried c m t p q vs x) (k : Tried c m t q z ws y) :
    Tried c m t p z (vs ++ ws) y where
  trail := (h.trail.trans k.trail).cast (by simp; omega)
    (by simp [refusedWrites, ← List.flatten_append, List.replicate_append_replicate]) (by simp; omega)
  record := k.record
  chips := k.chips.trans h.chips
  deadline := by rw [k.deadline, h.deadline, List.drop_drop]; simp [triesLate]
  data := k.data.trans h.data

theorem triesFit_append {b : Config.Bits} : ∀ {vs ws l : List Byte}, triesFit b (vs ++ ws) l = true →
    triesFit b vs l = true ∧ triesFit b ws (l.drop (2 * vs.length)) = true
  | [], _, _, h => ⟨rfl, h⟩
  | v :: vs, ws, v0 :: w :: rest, h => by
    simp only [List.cons_append, triesFit, Bool.and_eq_true] at h ⊢
    obtain ⟨h1, h2⟩ := triesFit_append h.2
    refine ⟨⟨h.1, h1⟩, ?_⟩
    rw [show 2 * (v :: vs).length = 2 * vs.length + 2 by simp; omega]
    exact h2

theorem triesLate_append {b : Config.Bits} (vs ws : List Byte) :
    triesLate b (vs ++ ws) = triesLate b vs ++ triesLate b ws := by simp [triesLate]

/-- One attempt, from its start to its STOP. -/
theorem start_fails {v : Byte} {x : MasterState} (hv : validateTxn c m t = none)
    (hs : triesFit c.bits [v] p.unit.inputs.status = true) (he : startError c.bits v = some e)
    (hd : triesLate c.bits [v] <+: p.unit.inputs.deadline) (hr : p.unit.record = some x) :
    ∃ q, Stops c m 4 (execStart t) (mapRecord clearRetryFlag p) (.err e) q ∧
      Tried c m t p (stopBus c m q) [v] (triedRecord c.bits v x) := by
  obtain ⟨v0, rest, hst, h0⟩ : ∃ v0 rest, p.unit.inputs.status = v0 :: v :: rest ∧ answerFits c.bits true v0 = true := by
    match hst : p.unit.inputs.status, hs with
    | v0 :: w :: rest, hs =>
      simp only [triesFit, Bool.and_eq_true, decide_eq_true_eq, and_true] at hs
      obtain ⟨h0, rfl⟩ := hs
      exact ⟨v0, rest, rfl, h0⟩
  have gd : Glide c m (mapRecord clearRetryFlag p) _ 0 [] _ 4 := glide_programDivider
  obtain ⟨q1, v1, hq1, g1⟩ := prim_smooth (c := c) (m := m) (f := (execStart t).atPos .waitIdle) (pr := .waitIdle)
    (p := programDivider c m c.div100k (mapRecord clearRetryFlag p)) rfl rfl
    (by rw [Smooth, gd.status]; show answersFit c.bits [true] p.unit.inputs.status = true
        rw [hst]; simp [answersFit, h0])
  have g := (gd.trans g1).cast (k' := 1) (x' := []) rfl rfl rfl rfl
  have hf : (Prim.start (firstAddr t)).Fails c.bits v q1.unit.inputs.deadline.head? (clearRetryFlag x) e
      (triedRecord c.bits v x) := by
    rw [startError] at he
    rw [g.deadline]
    by_cases h1 : bitSet v c.bits.tip = true
    · rw [if_pos h1] at he
      refine .inr ⟨h1, ?_, (Option.some.inj he).symm, by simp [triedRecord, h1, clearRetryFlag, signature]⟩
      obtain ⟨l, hl⟩ := hd
      show p.unit.inputs.deadline.head? = some true
      rw [← hl]; simp [triesLate, h1]
    · rw [if_neg h1] at he
      rw [Bool.not_eq_true] at h1
      refine .inl ⟨h1, ?_, ?_⟩
      · refine ⟨Prim.noConfusion, ?_⟩
        by_cases h2 : bitSet v c.bits.al = true
        · rw [if_pos h2] at he; exact .inl ⟨h2, (Option.some.inj he).symm⟩
        · rw [if_neg h2] at he
          split at he
          · next h3 => exact .inr ⟨by simpa using h2, h3, rfl, (Option.some.inj he).symm⟩
          · cases he
      · simp [triedRecord, failedRecord, h1, clearRetryFlag, signature, Prim.sends]
  obtain ⟨q, hq, ht, hdata⟩ := prim_fails (c := c) (m := m) (f := (execStart t).atPos .addr) (p := q1)
    (x := triedRecord c.bits v x) rfl rfl
    (by rw [g.status]; show (p.unit.inputs.status.drop 1)[0]? = _; rw [hst]; rfl)
    (g.record.trans (by rw [mapRecord_record, hr]; rfl)) hf
  have h0' : execPos c m (execStart t) (mapRecord clearRetryFlag p) =
      .go ((execStart t).atPos .reinit) (mapRecord clearRetryFlag p) := by
    show posValidate c m (execStart t) _ = _
    rw [posValidate, show validateTxn c m (execStart t).txn = none from hv]
  have ff := g.fails ht
  refine ⟨q, Stops.first h0' (Stops.first rfl (Stops.first hq1 (Stops.first hq (Stops.here _)))),
    ⟨?_, ff.record, ff.chips, ?_, hdata.trans g.data⟩⟩
  · exact (((trail_record clearRetryFlag).trans ff.trail).trans glide_stopBus.trail).cast rfl
      (by simp [refusedWrites, txnWrites, primWrites]; rfl) rfl
  · show q.unit.inputs.deadline = _
    rw [ff.deadline]
    show p.unit.inputs.deadline.drop _ = _
    congr 1
    simp only [triesLate, Prim.draws, Prim.bit, List.length_map]
    by_cases h : bitSet v c.bits.tip = true
    · simp [h]
    · rw [Bool.not_eq_true] at h; simp [h]

/-- The decision after it (rules R233, R234). -/
theorem retryAgain_tried {seen : List Byte} {v : Byte} {x : MasterState} (he : startError c.bits v = some e)
    (hx : x.persistentNack = seen.any (signature c.bits)) :
    retryAgain c seen.length (.err e) (triedRecord c.bits v x) = retried c seen v := by
  have hb : retryBudget c (triedRecord c.bits v x) =
      if !bitSet v c.bits.tip && (seen ++ [v]).any (signature c.bits) then c.retryHigh else c.retryLow := by
    simp [retryBudget, triedRecord, hx]
  have hr : retryable c e = (!bitSet v c.bits.tip || c.retryOnTimeout) := by
    rw [startError] at he
    split at he
    · next h => obtain rfl := Option.some.inj he; simp [retryable, h]
    · next h =>
      rw [Bool.not_eq_true] at h
      split at he
      · obtain rfl := Option.some.inj he; simp [retryable, h]
      · split at he
        · obtain rfl := Option.some.inj he; simp [retryable, h]
        · cases he
  rw [retryAgain, hr, hb, retried]

/-- One attempt and the decision after it (rules R232 to R234). -/
theorem access_tries_one {f : AccessFrame} {seen : List Byte} {v : Byte} {x : MasterState}
    (hv : validateTxn c m f.txn = none) (ha : f.apc = .attempt) (hi : f.inner = none) (hn : f.retries = seen.length)
    (hs : triesFit c.bits [v] p.unit.inputs.status = true) (he : startError c.bits v = some e)
    (hd : triesLate c.bits [v] <+: p.unit.inputs.deadline) (hr : p.unit.record = some x)
    (hx : x.persistentNack = seen.any (signature c.bits)) :
    ∃ q, Steps (accessPos c self m) 8 f p
        (if retried c seen v then { f with apc := .attempt, retries := f.retries + 1, inner := none, res := .err e }
          else { f with apc := .unlock, inner := none, res := .err e }) q ∧
      Tried c m f.txn p q [v] (triedRecord c.bits v x) := by
  obtain ⟨q, hst, ht⟩ := start_fails hv hs he hd hr
  refine ⟨_, ((access_attempt ha hi hst).snoc ?_).cast rfl, ht⟩
  show posRetryDecide c _ _ = _
  rw [posRetryDecide, recordOf, ht.record]
  show (if retryAgain c f.retries (.err e) (triedRecord c.bits v x) = true then _ else _) = _
  rw [hn, retryAgain_tried he hx]
  split <;> rfl

/-- Attempts each of which is followed by another. -/
theorem access_tries : ∀ (vs seen : List Byte) (f : AccessFrame) (p : Port) (x : MasterState),
    validateTxn c m f.txn = none → f.apc = .attempt → f.inner = none → f.retries = seen.length →
    triesGoOn c seen vs = true → triesFit c.bits vs p.unit.inputs.status = true →
    triesLate c.bits vs <+: p.unit.inputs.deadline → p.unit.record = some x →
    x.persistentNack = seen.any (signature c.bits) →
    ∃ (y : Res) (q : Port) (z : MasterState), Steps (accessPos c self m) (8 * vs.length) f p
        { f with retries := f.retries + vs.length, res := y } q ∧
      Tried c m f.txn p q vs z ∧ z.persistentNack = (seen ++ vs).any (signature c.bits) ∧ z.lock = x.lock ∧
      z.lastSwitch = x.lastSwitch ∧ z.lastChannel = x.lastChannel
  | [], seen, f, p, x, _, _, _, _, _, _, _, hr, hx =>
    ⟨f.res, p, x, .refl f p, Tried.refl hr, by rw [List.append_nil]; exact hx, rfl, rfl, rfl⟩
  | v :: vs, seen, f, p, x, hv, ha, hi, hn, hg, hs, hd, hr, hx => by
    simp only [triesGoOn, Bool.and_eq_true, Option.isSome_iff_exists] at hg
    obtain ⟨⟨⟨e, he⟩, hg1⟩, hg2⟩ := hg
    have hs' := triesFit_append (vs := [v]) hs
    have hd' : triesLate c.bits [v] ++ triesLate c.bits vs <+: p.unit.inputs.deadline := by
      rw [← triesLate_append]; exact hd
    obtain ⟨q, s1, t1⟩ := access_tries_one (self := self) hv ha hi hn hs'.1 he
      ((List.prefix_append _ _).trans hd') hr hx
    rw [if_pos hg1] at s1
    obtain ⟨y, z, w, s2, t2, h1, h2, h3, h4⟩ := access_tries vs (seen ++ [v])
      { f with apc := .attempt, retries := f.retries + 1, inner := none, res := .err e } q
      (triedRecord c.bits v x) hv rfl rfl (by simp [hn]) hg2 (by rw [t1.trail.status]; exact hs'.2)
      (by rw [t1.deadline]
          obtain ⟨l, hl⟩ := hd'
          exact ⟨l, by rw [← hl, List.append_assoc, List.drop_left]⟩) t1.record
      (by simp [triedRecord, hx])
    refine ⟨y, z, w, ?_, t1.trans t2, by rw [h1, List.append_assoc]; rfl, h2, h3, h4⟩
    have := (s1.trans s2).cast (n' := 8 * (v :: vs).length) (by simp; omega)
    have hfr : ({ f with apc := .attempt, retries := f.retries + 1 + vs.length, inner := none, res := y } : AccessFrame) =
        { f with retries := f.retries + (v :: vs).length, res := y } := by
      rw [← ha, ← hi, List.length_cons]; congr 1; omega
    rw [← hfr]; exact this

/-- The record after the attempts `vs`, with the lock free (rules R231, R235). -/
def retriedRecord (c : Config.Params) (vs : List Byte) (needed : Bool) (r : MasterState) : MasterState :=
  { r with retryNeeded := needed, persistentNack := vs.any (signature c.bits) }

/-- The port at the first attempt (rules R223, R231). -/
def atAttempt (self : AgentId) (p : Port) : Port := mapRecord clearBothFlags (lockTaken self p)

/-- An access to a direct endpoint comes to its first attempt (rules R223, R224, R231). -/
theorem access_opening {x : MasterState} {ep : EndpointRef} (hd : ep.sel = .direct) (hr : p.unit.record = some x)
    (hl : x.lock = .free) : Steps (accessPos c self m) 4 (accessFrame ep t .validate) p (accessFrame ep t .attempt)
      (atAttempt self p) := by
  have h1 := access_locked (c := c) (m := m) (self := self) ep t hr hl
  refine (h1.snoc (e := accessFrame ep t .clear) (z := lockTaken self p) ?_).snoc ?_
  · rw [accessPos_mux rfl, posMux, show (accessFrame ep t .mux).ep.sel = .direct from hd]; rfl
  · rfl

/-- From an attempt that is the last to the return (rules R223, R235). -/
theorem access_closing {f : AccessFrame} {x : MasterState} (hf : f.apc = .unlock) (hr : p.unit.record = some x)
    (hl : x.lock = .held self) : Steps (accessPos c self m) 1 f p { f with apc := .ret } (lockFreed p) := by
  refine .one ?_
  rw [accessPos, hf]
  show posUnlock self f p = _
  rw [posUnlock, releaseLock_held ⟨x, hr, hl⟩]

theorem Tried.opened {vs : List Byte} {y : MasterState} (h : Tried c m t (atAttempt self p) q vs y) :
    Tried c m t p (lockFreed q) vs { y with lock := .free } where
  trail := ((((trail_record (c := c) (m := m) (p := p) _).trans (trail_record _)).trans h.trail).trans
    (trail_record _)).cast (by omega) (by simp) (by omega)
  record := by show Option.map _ q.unit.record = _; rw [h.record]; rfl
  chips := h.chips
  deadline := h.deadline
  data := h.data

/-- Attempts the last of which is not followed by another, from the start of the access to its return (rules R233 to
R237). -/
theorem access_refused {ep : EndpointRef} {vs : List Byte} {v : Byte} {r : MasterState} (hd : ep.sel = .direct)
    (hv : validateTxn c m t = none) (hr : p.unit.record = some r) (hl : r.lock = .free) (hg : triesGoOn c [] vs = true)
    (he : startError c.bits v = some e) (hx : retried c vs v = false)
    (hs : triesFit c.bits (vs ++ [v]) p.unit.inputs.status = true)
    (hdl : triesLate c.bits (vs ++ [v]) <+: p.unit.inputs.deadline) :
    ∃ g q, Steps (accessPos c self m) (13 + 8 * vs.length) (accessFrame ep t .validate) p g q ∧ g.apc = .ret ∧
      g.res = .err e ∧ Tried c m t p q (vs ++ [v]) (retriedRecord c (vs ++ [v]) (!bitSet v c.bits.tip) r) := by
  have h0 := access_opening (c := c) (m := m) (t := t) (self := self) hd hr hl
  have hs' := triesFit_append hs
  rw [triesLate_append] at hdl
  obtain ⟨y, q1, z, s1, t1, h1, h2, h3, h4⟩ := access_tries (c := c) (m := m) (self := self) vs []
    (accessFrame ep t .attempt) (atAttempt self p)
    { r with lock := .held self, retryNeeded := false, persistentNack := false }
    hv rfl rfl rfl hg hs'.1 ((List.prefix_append _ _).trans hdl)
    (by show Option.map _ (Option.map _ p.unit.record) = _; rw [hr]; rfl) rfl
  obtain ⟨q2, s2, t2⟩ := access_tries_one (c := c) (m := m) (self := self) (seen := vs) (v := v)
    (f := { accessFrame ep t .attempt with retries := 0 + vs.length, res := y }) (p := q1) hv rfl rfl (by simp)
    (by rw [t1.trail.status]; exact hs'.2) he
    (by rw [t1.deadline]
        obtain ⟨l, hl⟩ := hdl
        exact ⟨l, by show _ = p.unit.inputs.deadline.drop _; rw [← hl, List.append_assoc, List.drop_left]⟩) t1.record h1
  rw [hx] at s2
  have s3 := access_closing (c := c) (m := m) (self := self)
    (f := { accessFrame ep t .unlock with retries := 0 + vs.length, res := .err e }) rfl t2.record
    (by show z.lock = _; rw [h2])
  refine ⟨_, _, (((h0.trans s1).trans s2).trans s3).cast (by omega), rfl, rfl, ?_⟩
  have := (t1.trans t2).opened
  have hz : ({ triedRecord c.bits v z with lock := .free } : MasterState) =
      retriedRecord c (vs ++ [v]) (!bitSet v c.bits.tip) r := by
    simp only [triedRecord, retriedRecord, h1, h3, h4, hl, List.nil_append, List.any_append, List.any_cons, List.any_nil,
      Bool.or_false]
  rw [← hz]; exact this

/-- Attempts each of which is followed by another, then one on smooth answers, from the start of the access to its return
(rules R232, R235, R236). -/
theorem access_tried_good {ep : EndpointRef} {vs : List Byte} {r : MasterState} (hd : ep.sel = .direct)
    (hv : validateTxn c m t = none) (hr : p.unit.record = some r) (hl : r.lock = .free) (hg : triesGoOn c [] vs = true)
    (hs : triesFit c.bits vs p.unit.inputs.status = true) (hdl : triesLate c.bits vs <+: p.unit.inputs.deadline)
    (hsm : answersFit c.bits (txnPolls (maxPhases c)) (p.unit.inputs.status.drop (2 * vs.length)) = true)
    (hlen : LengthByteOk c p.unit.inputs t) :
    ∃ n g q d j, n ≤ 16 + maxData c + 8 * vs.length ∧ Steps (accessPos c self m) n (accessFrame ep t .validate) p g q ∧
      g.apc = .ret ∧ g.res = .ok (payloadOf t d) ∧ Receives c p.unit.inputs t d ∧
      Trail c m p q j (refusedWrites c t vs.length ++ txnWrites c (wireWrites c t d.length))
        (9 * vs.length + (6 + 3 * phaseCount t d.length)) ∧
      q.unit.record = some (retriedRecord c vs false r) ∧ q.unit.chips = p.unit.chips := by
  have h0 := access_opening (c := c) (m := m) (t := t) (self := self) hd hr hl
  obtain ⟨y, q1, z, s1, t1, h1, h2, h3, h4⟩ := access_tries (c := c) (m := m) (self := self) vs []
    (accessFrame ep t .attempt) (atAttempt self p)
    { r with lock := .held self, retryNeeded := false, persistentNack := false }
    hv rfl rfl rfl hg hs hdl (by show Option.map _ (Option.map _ p.unit.record) = _; rw [hr]; rfl) rfl
  have hdata : q1.unit.inputs.data = p.unit.inputs.data := t1.data
  obtain ⟨q2, d, n, j, hn, hst, hrec, g⟩ := execute_smooth (c := c) (m := m) (p := mapRecord clearRetryFlag q1) t hv
    (by show answersFit _ _ q1.unit.inputs.status = true; rw [t1.trail.status]; exact hsm)
    (fun hk hx => by show ∃ v rest, q1.unit.inputs.data = _ ∧ _; rw [hdata]; exact hlen hk hx)
  have s2 := access_attempt (c := c) (m := m) (self := self)
    (f := { accessFrame ep t .attempt with retries := 0 + vs.length, res := y }) rfl rfl hst
  have s3 := s2.snoc (e := { accessFrame ep t .unlock with retries := 0 + vs.length, res := .ok (payloadOf t d) })
    (z := stopBus c m q2) rfl
  have hrec2 : (stopBus c m q2).unit.record = some (clearRetryFlag z) := by
    show q2.unit.record = _
    rw [g.record, mapRecord_record, t1.record]; rfl
  have s4 := access_closing (c := c) (m := m) (self := self)
    (f := { accessFrame ep t .unlock with retries := 0 + vs.length, res := .ok (payloadOf t d) }) rfl hrec2
    (by show z.lock = _; rw [h2])
  refine ⟨_, _, _, d, _, ?_, ((h0.trans s1).trans s3).trans s4, rfl, rfl,
    ⟨hrec.1, hrec.2.1, hrec.2.2.1, by rw [← hdata]; exact hrec.2.2.2⟩,
    ((((((trail_record _).trans (trail_record _)).trans t1.trail).trans (trail_record _)).trans
      (g.trail.trans glide_stopBus.trail)).trans (trail_record _)).cast rfl ?_ ?_, ?_, g.chips.trans t1.chips⟩
  · omega
  · simp [txnWrites, accessFrame]
  · omega
  · show Option.map _ (stopBus c m q2).unit.record = _
    rw [hrec2]
    simp only [Option.map_some, clearRetryFlag, retriedRecord, h1, h3, h4, hl, List.nil_append]

/-! Attempts that are not acknowledged. -/

/-- The answers of `nackedTries` as attempts. -/
theorem nacked_tries {b : Config.Bits} : ∀ {n : Nat} {l : List Byte}, nackedTries b n l = true →
    ∃ vs, vs.length = n ∧ triesFit b vs l = true ∧
      ∀ v ∈ vs, bitSet v b.tip = false ∧ bitSet v b.al = false ∧ bitSet v b.rxack = true
  | 0, _, _ => ⟨[], rfl, rfl, by simp⟩
  | n + 1, v0 :: v1 :: rest, h => by
    simp only [nackedTries, Bool.and_eq_true, Bool.not_eq_true'] at h
    obtain ⟨⟨⟨⟨h0, h1⟩, h2⟩, h3⟩, hn⟩ := h
    obtain ⟨vs, hl, hf, ha⟩ := nacked_tries hn
    refine ⟨v1 :: vs, by simp [hl], by simp [triesFit, h0, hf], fun v hv => ?_⟩
    rcases List.mem_cons.1 hv with rfl | hv
    · exact ⟨h1, h2, h3⟩
    · exact ha v hv

/-- They are followed by another as long as the budget lasts. -/
theorem nacked_goOn : ∀ (vs seen : List Byte),
    (∀ v ∈ vs, bitSet v c.bits.tip = false ∧ bitSet v c.bits.al = false ∧ bitSet v c.bits.rxack = true) →
    seen.length + vs.length ≤ (if seen.any (signature c.bits) then c.retryHigh else c.retryLow) →
    triesGoOn c seen vs = true
  | [], _, _, _ => rfl
  | v :: vs, seen, h, hl => by
    have hv := h v (by simp)
    have hsig : (seen ++ [v]).any (signature c.bits) = seen.any (signature c.bits) := by simp [signature, hv.2.1]
    simp only [List.length_cons] at hl
    simp only [triesGoOn, Bool.and_eq_true]
    refine ⟨⟨by simp [startError, hv.1, hv.2.1, hv.2.2], ?_⟩, nacked_goOn vs _ (fun w hw => h w (by simp [hw])) ?_⟩
    · simp only [retried, hsig, hv.1, Bool.not_false, Bool.true_or, Bool.true_and, decide_eq_true_eq]
      omega
    · rw [hsig, List.length_append, List.length_cons, List.length_nil]; omega

end Sys2Proof.Machine
end

