-- ==== Sys2Proof/Laws/Stops.lean ====
section
/-! SUPPORT. How many STOPs the positions of a transaction, a mux write and an access spend of what their frames still
allow (rules R173, R226, R233, R236). -/

namespace Sys2Proof.Machine

variable {c : Config.Params} {m : MasterIx} {p q r : Port} {self : AgentId} {a b d : Nat}

/-- Of the `a` STOPs allowed before, at least `b` are left after the accesses from `p` to `q`. -/
def Spends (c : Config.Params) (p q : Port) (a b : Nat) : Prop :=
  ∃ new, q.unit.history = p.unit.history ++ new ∧ stopCount c new + b ≤ a

theorem Spends.none (h : q.unit.history = p.unit.history) (hb : b ≤ a) : Spends c p q a b :=
  ⟨[], by rw [h, List.append_nil], by simpa [stopCount] using hb⟩

theorem Spends.trans (h : Spends c p q a b) (k : Spends c q r b d) : Spends c p r a d := by
  obtain ⟨x, hx, h1⟩ := h
  obtain ⟨y, hy, h2⟩ := k
  refine ⟨x ++ y, by rw [hy, hx, List.append_assoc], ?_⟩
  rw [stopCount] at h1 h2 ⊢
  rw [List.countP_append]; omega

theorem Spends.mono {a' b' : Nat} (h : Spends c p q a b) (ha : a + b' ≤ a' + b) : Spends c p q a' b' := by
  obtain ⟨x, hx, h1⟩ := h
  exact ⟨x, hx, by omega⟩

theorem Calm.spends (h : Calm c p q) (hd : StopDistinct c.bits) (hb : b ≤ a) : Spends c p q a b := by
  obtain ⟨new, hn, hs⟩ := h.history
  exact ⟨new, hn, by rw [hs hd]; omega⟩

theorem spends_stopBus : Spends c p (stopBus c m p) 1 0 :=
  ⟨[.wr .cmdstat (cmdStop c.bits)], rfl, by simp [stopCount, isStop]⟩

/-- One position of a transaction. -/
theorem execPos_spends (hd : StopDistinct c.bits) (f : ExecFrame) :
    (execPos c m f p).Meets (fun g q => Spends c p q f.stopsLeft g.stopsLeft)
      (fun _ q => Spends c p q f.stopsLeft 0) := by
  by_cases hs : f.epc = .stop
  · rw [execPos, hs]
    have : f.stopsLeft = 1 := by rw [ExecFrame.stopsLeft, hs]; rfl
    rw [this]; exact spends_stopBus
  · by_cases hr : f.epc = .ret
    · rw [execPos, hr]; exact Spends.none rfl (Nat.zero_le _)
    · have h1 : f.stopsLeft = 1 := if_neg hr
      refine (execPos_onWay (t := f.txn) ⟨rfl, hr, fun h => absurd h hs⟩ hs).imp (fun g q h => ?_) (fun _ q h => ?_)
      · exact h.2.spends hd (by rw [h1, ExecFrame.stopsLeft]; split <;> omega)
      · rw [h.2.1]; exact Spends.none rfl (Nat.zero_le _)

/-- One position of a mux write. -/
theorem muxPos_spends (hd : StopDistinct c.bits) (w : MuxFrame) :
    (muxPos c m w p).Meets (fun g q => Spends c p q (w.stopsLeft c) (g.stopsLeft c))
      (fun _ q => Spends c p q (w.stopsLeft c) 0) := by
  rw [muxPos]
  split
  · next hi =>
    have hw : w.stopsLeft c = c.muxAttempts - w.tried := by rw [MuxFrame.stopsLeft, hi]
    split
    · exact Spends.none rfl (by rw [hw]; simp [MuxFrame.stopsLeft, ExecFrame.stopsLeft, execStart]; omega)
    · exact Spends.none rfl (Nat.zero_le _)
  · next e hi =>
    have hw : w.stopsLeft c = e.stopsLeft + (c.muxAttempts - (w.tried + 1)) := by rw [MuxFrame.stopsLeft, hi]
    have h := execPos_spends (m := m) (p := p) hd e
    rw [hw]
    split <;> (rename_i he; rw [he] at h)
    · exact Spends.mono h (by simp only [MuxFrame.stopsLeft]; omega)
    · exact Spends.mono h (by simp only [MuxFrame.stopsLeft]; omega)
    · rw [muxAttemptOver.eq_def]
      split
      · exact Spends.mono (b := 0) h (by omega)
      · exact Spends.mono (b := 0) h (by simp only [MuxFrame.stopsLeft]; omega)
    · trivial

/-- The retries are within the larger budget. -/
def AccessFrame.WithinBudget (c : Config.Params) (f : AccessFrame) : Prop := f.retries ≤ max c.retryHigh c.retryLow

/-- What one position of an access spends, and that its retries stay within the budget. -/
def AccessSpends (c : Config.Params) (p : Port) (f g : AccessFrame) (q : Port) : Prop :=
  Spends c p q (f.stopsLeft c) (g.stopsLeft c) ∧ (f.WithinBudget c → g.WithinBudget c)

theorem acquireLock_history (h : acquireLock self p = some q) : q.unit.history = p.unit.history := by
  rw [acquireLock] at h
  split at h
  · obtain rfl := Option.some.inj h; rfl
  · cases h

theorem releaseLock_history (h : releaseLock self p = some q) : q.unit.history = p.unit.history := by
  rw [releaseLock] at h
  split at h
  · obtain rfl := Option.some.inj h; rfl
  · cases h

theorem retryBudget_le (x : MasterState) : retryBudget c x ≤ max c.retryHigh c.retryLow := by
  rw [retryBudget]; split <;> omega

theorem stopsLeft_mux {f : AccessFrame} (h : f.apc = .mux) :
    f.stopsLeft c = f.muxStopsLeft c + attemptsLeft c 1 0 := by rw [AccessFrame.stopsLeft, h]

theorem stopsLeft_attempt {f : AccessFrame} (h : f.apc = .attempt) :
    f.stopsLeft c = attemptsLeft c ((f.inner.map ExecFrame.stopsLeft).getD 1) f.retries := by
  rw [AccessFrame.stopsLeft, h]

/-- `A_MUX`. -/
theorem posMux_spends {E : Res → Port → Prop} (hd : StopDistinct c.bits) {f : AccessFrame} (hf : f.apc = .mux) :
    (posMux c m f p).Meets (AccessSpends c p f) E := by
  have hl := stopsLeft_mux (c := c) hf
  rw [posMux]
  split
  · exact ⟨Spends.none rfl (by rw [hl]; simp only [AccessFrame.stopsLeft]; omega), id⟩
  · next sw hs =>
    split
    · next hw =>
      have hm : f.muxStopsLeft c = 2 * c.muxAttempts := by rw [AccessFrame.muxStopsLeft, hs, hw]
      rw [muxChoice]
      refine ⟨Spends.none rfl ?_, by split <;> [skip; split] <;> exact id⟩
      rw [hl, hm]
      split <;> [skip; split] <;>
        simp [AccessFrame.stopsLeft, AccessFrame.muxStopsLeft, MuxFrame.stopsLeft, muxStart, hf, hs] <;> omega
    · next w hw =>
      have hm : f.muxStopsLeft c = w.stopsLeft c + if f.deselecting then c.muxAttempts else 0 := by
        rw [AccessFrame.muxStopsLeft, hs, hw]
      have h := muxPos_spends (m := m) (p := p) hd w
      split <;> (rename_i he; rw [he] at h)
      · exact ⟨Spends.mono h (by
          rw [hl, hm]; simp only [AccessFrame.stopsLeft, AccessFrame.muxStopsLeft, hf, hs]; omega), id⟩
      · exact ⟨Spends.mono h (by
          rw [hl, hm]; simp only [AccessFrame.stopsLeft, AccessFrame.muxStopsLeft, hf, hs]; omega), id⟩
      · rw [muxStepOver]
        split
        · exact ⟨Spends.mono (b := 0) h (by rw [hl, hm]; simp only [AccessFrame.stopsLeft]; omega), id⟩
        · split
          · next hx =>
            exact ⟨Spends.mono (b := 0) h (by
              rw [hl, hm, if_pos hx]
              simp [AccessFrame.stopsLeft, AccessFrame.muxStopsLeft, MuxFrame.stopsLeft, muxStart, hf, hs]; omega), id⟩
          · refine ⟨Spends.trans (b := f.stopsLeft c - w.stopsLeft c) (Spends.mono (b := 0) h ?_) (Spends.none rfl ?_), id⟩
            · rw [hl, hm]; omega
            · rw [hl, hm]; simp only [AccessFrame.stopsLeft]; omega
      · trivial

/-- `A_ATTEMPT`. -/
theorem posAttempt_spends {E : Res → Port → Prop} (hd : StopDistinct c.bits) {f : AccessFrame} (hf : f.apc = .attempt) :
    (posAttempt c m f p).Meets (AccessSpends c p f) E := by
  have hl := stopsLeft_attempt (c := c) hf
  rw [posAttempt]
  split
  · next hi =>
    exact ⟨Spends.none rfl (by rw [hl, hi, stopsLeft_attempt (by exact hf)]; exact Nat.le_refl _), id⟩
  · next e hi =>
    have h := execPos_spends (m := m) (p := p) hd e
    rw [hi] at hl
    split <;> (rename_i he; rw [he] at h)
    · exact ⟨Spends.mono h (by rw [hl, stopsLeft_attempt (by exact hf)]; simp [attemptsLeft]; omega), id⟩
    · exact ⟨Spends.mono h (by rw [hl, stopsLeft_attempt (by exact hf)]; simp [attemptsLeft]; omega), id⟩
    · exact ⟨Spends.mono (b := 0) h (by rw [hl]; simp [AccessFrame.stopsLeft, attemptsLeft]), id⟩
    · trivial

/-- `A_RETRY_DECIDE`: a retry is one of the attempts left. -/
theorem posRetryDecide_spends {E : Res → Port → Prop} {f : AccessFrame} (hf : f.apc = .retryDecide) :
    (posRetryDecide c f p).Meets (AccessSpends c p f) E := by
  have hl : f.stopsLeft c = attemptsLeft c 0 f.retries := by rw [AccessFrame.stopsLeft, hf]
  rw [posRetryDecide]
  split
  · next hr =>
    have : f.retries < max c.retryHigh c.retryLow := by
      rw [retryAgain.eq_def] at hr
      split at hr
      · cases hr
      · rw [Bool.and_eq_true, decide_eq_true_eq] at hr
        exact Nat.lt_of_lt_of_le hr.2 (retryBudget_le _)
    refine ⟨Spends.none rfl ?_, fun _ => this⟩
    rw [hl]; simp only [AccessFrame.stopsLeft, attemptsLeft, Option.map_none, Option.getD_none]; omega
  · exact ⟨Spends.none rfl (Nat.zero_le _), id⟩

/-- One position of an access. -/
theorem accessPos_spends (hd : StopDistinct c.bits) (f : AccessFrame) :
    (accessPos c self m f p).Meets (AccessSpends c p f) (fun _ q => Spends c p q (f.stopsLeft c) 0) := by
  rw [accessPos]
  split <;> rename_i hf
  · exact ⟨Spends.none rfl (by simp [AccessFrame.stopsLeft, AccessFrame.muxStopsLeft, hf]), id⟩
  · rw [posLock]
    split
    · exact ⟨Spends.none rfl (Nat.le_refl _), id⟩
    · next hp =>
      exact ⟨Spends.none (acquireLock_history hp) (by simp [AccessFrame.stopsLeft, AccessFrame.muxStopsLeft, hf]), id⟩
  · exact posMux_spends hd hf
  · exact ⟨Spends.none rfl (by simp [AccessFrame.stopsLeft, hf]), fun _ => Nat.zero_le _⟩
  · exact posAttempt_spends hd hf
  · exact posRetryDecide_spends hf
  · rw [posUnlock]
    split
    · trivial
    · next hp => exact ⟨Spends.none (releaseLock_history hp) (Nat.zero_le _), id⟩
  · exact Spends.none rfl (Nat.zero_le _)

end Sys2Proof.Machine
end

