-- ==== Sys2Proof/Laws/Topology.lean ====
section
/-! SUPPORT. The shape of a board's topology table (rule R220): how many entries of each kind `PortTable.endpoints` lists. -/

namespace Sys2Proof.Config

@[simp] theorem MuxedPort.endpoint_kind (kind : PortKind) (p : MuxedPort) : (p.endpoint kind).kind = kind := rfl
@[simp] theorem MuxedPort.endpoint_sel (kind : PortKind) (p : MuxedPort) :
    (p.endpoint kind).sel = .switch p.switchAddr := rfl
@[simp] theorem DirectPort.endpoint_kind (p : DirectPort) : p.endpoint.kind = .plain := rfl
@[simp] theorem DirectPort.endpoint_sel (p : DirectPort) : p.endpoint.sel = .direct := rfl

@[simp] theorem PortTable.endpoints_length (t : PortTable) : t.endpoints.length = nSfp + nQsfp + nDirect := by
  simp [PortTable.endpoints, Nat.add_assoc]

/-- A test that holds of every SFP, or every QSFP, or every direct entry counts them; one that holds of none counts 0. -/
theorem PortTable.countP_endpoints (t : PortTable) (f : Endpoint → Bool) {a b d : Bool}
    (ha : ∀ p : MuxedPort, f (p.endpoint .sfp) = a) (hb : ∀ p : MuxedPort, f (p.endpoint .qsfp) = b)
    (hd : ∀ p : DirectPort, f p.endpoint = d) :
    t.endpoints.countP f = (if a then nSfp else 0) + (if b then nQsfp else 0) + if d then nDirect else 0 := by
  have h : ∀ {α : Type} (l : List α) (g : α → Endpoint) (x : Bool), (∀ y, f (g y) = x) →
      (l.map g).countP f = if x then l.length else 0 := by
    intro α l g x hg
    rw [List.countP_map, show f ∘ g = fun _ => x from funext hg]
    cases x <;> simp
  rw [PortTable.endpoints, List.countP_append, List.countP_append, h _ _ a ha, h _ _ b hb, h _ _ d hd]
  simp

/-- Every board's table has the shape of rule R220. -/
theorem PortTable.endpoints_shape (t : PortTable) : topologyShape t.endpoints = true := by
  rw [topologyShape, t.endpoints_length,
    t.countP_endpoints (a := true) (b := false) (d := false) _ (fun _ => rfl) (fun _ => rfl) (fun _ => rfl),
    t.countP_endpoints (a := false) (b := true) (d := false) _ (fun _ => rfl) (fun _ => rfl) (fun _ => rfl),
    t.countP_endpoints (a := false) (b := false) (d := true) _ (fun _ => rfl) (fun _ => rfl) (fun _ => rfl)]
  rfl

end Sys2Proof.Config
end

