-- ==== Sys2Proof/Tests/Slice0.lean ====
section
/-! SUPPORT. Tests: words written out from the spec's encodings, the vectors of spec file 95 (each test names its
vector), ill-formed terms that the checks refuse, and a witness for the hypotheses of each obligation. -/

namespace Sys2Proof.Tests

open Sys2Proof.Machine

set_option maxRecDepth 20000

/-! Well-formedness (rule R94 and the one-byte lengths of log entry 4). -/

theorem test_wf_blockW_too_long : wellFormed (.blockW 2#8 0x50#8 0x20#8 (List.replicate 256 0#8)) = false := by decide
theorem test_wf_i2cBlockW_too_long : wellFormed (.i2cBlockW 2#8 0x50#8 0#8 (List.replicate 256 0#8)) = false := by
  decide
theorem test_wf_execute_too_long :
    wellFormed (.execute 2#8 ⟨.write, 0x50#8, 0#8, 5#4, .block (List.replicate 256 0#8)⟩) = false := by decide
theorem test_wf_access_bad_switch :
    wellFormed (.access ⟨11#8, .switch 0x80#8, 0#3⟩ ⟨.write, 0x50#8, 0#8, 0#4, .quick⟩) = false := by decide
theorem test_wf_access_too_long :
    wellFormed (.access ⟨11#8, .direct, 0#3⟩ ⟨.write, 0x50#8, 0#8, 5#4, .block (List.replicate 256 0#8)⟩) = false := by
  decide
theorem test_wf_muxSelect_zero : wellFormed (.muxSelect 11#8 0x00#8 0#3) = false := by decide
theorem test_wf_muxDeselect_high : wellFormed (.muxDeselect 11#8 0x80#8) = false := by decide

/-! Decoding: opcode bytes from rules R84 and R89, call numbers from log entry 4. -/

theorem test_decode_cmdStart : decode [0x90#8, 0#8, 11#8, 0xA0#8] = .ok (.cmdStart 11#8 0xA0#8, []) := by decide
theorem test_decode_cmdWrite : decode [0x10#8, 1#8, 11#8, 0x7F#8] = .ok (.cmdWrite 11#8 0x7F#8, []) := by decide
theorem test_decode_cmdReadAck : decode [0x20#8, 0#8, 11#8] = .ok (.cmdReadAck 11#8, []) := by decide
theorem test_decode_cmdReadNack : decode [0x28#8, 0#8, 11#8] = .ok (.cmdReadNack 11#8, []) := by decide
theorem test_decode_cmdStop : decode [0x40#8, 0#8, 11#8] = .ok (.cmdStop 11#8, []) := by decide
theorem test_decode_cmdIack : decode [0x01#8, 1#8, 11#8] = .ok (.cmdIack 11#8, []) := by decide
theorem test_decode_quickW : decode [0x00#8, 0#8, 2#8, 0x50#8] = .ok (.quickW 2#8 0x50#8, []) := by decide
theorem test_decode_quickR : decode [0x01#8, 0#8, 2#8, 0x50#8] = .ok (.quickR 2#8 0x50#8, []) := by decide
theorem test_decode_byteW : decode [0x02#8, 0#8, 2#8, 0x50#8, 9#8] = .ok (.byteW 2#8 0x50#8 9#8, []) := by decide
theorem test_decode_byteR : decode [0x03#8, 0#8, 2#8, 0x50#8] = .ok (.byteR 2#8 0x50#8, []) := by decide
theorem test_decode_byteDataW : decode [0x04#8, 0#8, 2#8, 0x50#8, 0x7F#8, 1#8] =
    .ok (.byteDataW 2#8 0x50#8 0x7F#8 1#8, []) := by decide
theorem test_decode_byteDataR : decode [0x05#8, 0#8, 2#8, 0x50#8, 3#8] = .ok (.byteDataR 2#8 0x50#8 3#8, []) := by
  decide
theorem test_decode_wordDataW : decode [0x06#8, 0#8, 2#8, 0x50#8, 0x10#8, 0xEF#8, 0xBE#8] =
    .ok (.wordDataW 2#8 0x50#8 0x10#8 0xBEEF#16, []) := by decide
theorem test_decode_wordDataR : decode [0x07#8, 0#8, 11#8, 0x50#8, 0#8] = .ok (.wordDataR 11#8 0x50#8 0#8, []) := by
  decide
theorem test_decode_blockW : decode [0x0A#8, 0#8, 2#8, 0x50#8, 0x20#8, 2#8, 0xAA#8, 0xBB#8] =
    .ok (.blockW 2#8 0x50#8 0x20#8 [0xAA#8, 0xBB#8], []) := by decide
theorem test_decode_blockR : decode [0x0B#8, 0#8, 2#8, 0x50#8, 0x20#8] = .ok (.blockR 2#8 0x50#8 0x20#8, []) := by
  decide
theorem test_decode_i2cBlockW : decode [0x10#8, 0#8, 2#8, 0x50#8, 0#8, 1#8, 5#8] =
    .ok (.i2cBlockW 2#8 0x50#8 0#8 [5#8], []) := by decide
theorem test_decode_i2cBlockR : decode [0x11#8, 0#8, 2#8, 0x50#8, 0#8, 2#8] =
    .ok (.i2cBlockR 2#8 0x50#8 0#8 2#8, []) := by decide
theorem test_decode_procCall : decode [0x09#8, 0#8, 2#8, 0x50#8, 0#8] = .ok (.procCall .read 2#8 0x50#8 0#8, []) := by
  decide
theorem test_decode_i2cBlockBroken : decode [0x0C#8, 0#8, 2#8, 0x50#8, 0#8] =
    .ok (.i2cBlockBroken .write 2#8 0x50#8 0#8, []) := by decide
theorem test_decode_blockProcCall : decode [0x0F#8, 0#8, 2#8, 0x50#8, 0#8] =
    .ok (.blockProcCall .read 2#8 0x50#8 0#8, []) := by decide
theorem test_decode_unknownSc9 : decode [0x13#8, 0#8, 2#8, 0x50#8, 0#8] =
    .ok (.unknownSc9 .read 2#8 0x50#8 0#8, []) := by decide
theorem test_decode_unknownSc11 : decode [0x17#8, 0#8, 2#8, 0x50#8, 0#8] =
    .ok (.unknownSc1011 1#1 .read 2#8 0x50#8 0#8, []) := by decide
theorem test_decode_unknownSc12 : decode [0x18#8, 0#8, 2#8, 0x50#8, 0#8] =
    .ok (.unknownSc1215 0#2 .write 2#8 0x50#8 0#8, []) := by decide
theorem test_decode_read8 : decode [0#8, 2#8, 1#8, 3#8] = .ok (.read8 1#8 .cmdstat, []) := by decide
theorem test_decode_write8 : decode [1#8, 2#8, 1#8, 2#8, 0x80#8] = .ok (.write8 1#8 .ctrl 0x80#8, []) := by decide
theorem test_decode_init : decode [2#8, 2#8, 3#8, 0xC7#8, 0#8] = .ok (.init 3#8 0x00C7#16, []) := by decide
theorem test_decode_deinit : decode [3#8, 2#8, 3#8] = .ok (.deinit 3#8, []) := by decide
theorem test_decode_waitIdle : decode [4#8, 2#8, 2#8, 30#8, 0#8] = .ok (.waitIdle 2#8 30#16, []) := by decide
theorem test_decode_waitPhaseDone : decode [5#8, 2#8, 2#8, 30#8, 0#8, 1#8] =
    .ok (.waitPhaseDone 2#8 30#16 true, []) := by decide
theorem test_decode_execute : decode [6#8, 2#8, 2#8, 0x50#8, 0#8, 0#8, 3#8, 2#8, 0x34#8, 0x12#8] =
    .ok (.execute 2#8 ⟨.write, 0x50#8, 0#8, 3#4, .word 0x1234#16⟩, []) := by decide
theorem test_decode_access : decode [7#8, 2#8, 11#8, 0x70#8, 0#8, 0x50#8, 1#8, 0#8, 3#8, 0#8] =
    .ok (.access ⟨11#8, .switch 0x70#8, 0#3⟩ ⟨.read, 0x50#8, 0#8, 3#4, .quick⟩, []) := by decide
theorem test_decode_muxSelect : decode [8#8, 2#8, 11#8, 0x70#8, 7#8] = .ok (.muxSelect 11#8 0x70#8 7#3, []) := by
  decide
theorem test_decode_muxDeselect : decode [9#8, 2#8, 11#8, 0x70#8] = .ok (.muxDeselect 11#8 0x70#8, []) := by decide
theorem test_decode_deselectAll : decode [10#8, 2#8] = .ok (.deselectAll, []) := by decide
theorem test_decode_engineInit : decode [11#8, 2#8] = .ok (.engineInit, []) := by decide
theorem test_decode_engineShutdown : decode [12#8, 2#8] = .ok (.engineShutdown, []) := by decide
/-- Rule R85: a command byte the engine does not issue is refused by name; so are both START and STOP. -/
theorem test_decode_refused : decode [0xD0#8, 0#8, 2#8] = .error .commandNotIssued := by decide
theorem test_table_word_verb : decodeTableWord 8 0x01 = some (.quickR 0#8 0#8) := by decide
theorem test_table_word_command : decodeTableWord 8 0x90 = some (.cmdStart 0#8 0#8) := by decide
theorem test_table_word_cmdWrite : decodeTableWord 16 0x0110 = some (.cmdWrite 0#8 0#8) := by decide

/-! States for single steps: the conventions of spec file 95 (layout, divider, `S_DONE` = 0x41). Agent 1 calls, agent 0
is the initialiser; masters 1, 2, 3 and 11 are enabled. -/

def topology : List Config.Endpoint :=
  [ ⟨0, .sfp, 11#8, .switch 0x71#8, 0#3⟩, ⟨1, .sfp, 11#8, .switch 0x70#8, 0#3⟩, ⟨2, .sfp, 11#8, .switch 0x70#8, 1#3⟩,
    ⟨3, .plain, 11#8, .direct, 0#3⟩, ⟨4, .plain, 3#8, .direct, 0#3⟩ ]

def cfg : Config.Params := Config.reference [0, 1, 2, 10] topology

/-- The same with master 14 enabled alone. -/
def cfg14 : Config.Params := Config.reference [13] []

/-- A record with this lock, cache and flags. -/
def record (lock : Lock) (sw : Byte) (ch : BitVec 3) : MasterState :=
  { MasterState.fresh with lock := lock, lastSwitch := sw, lastChannel := ch }

/-- The record of a master whose lock agent 1 holds. -/
def held : MasterState := record (.held 1) 0#8 0#3

/-- A master with a record and these answers to come. -/
def unitOf (r : MasterState) (status data : List Byte) (deadline : List Bool) : MasterUnit :=
  { MasterUnit.powerOn with
    record := some r
    inputs := { status := status, data := data, other := [], deadline := deadline, drawn := 0 } }

/-- Agent 1 moves; master `k` is `u`, every other master is as after power-on. -/
def on (k : MasterIx) (u : MasterUnit) : State :=
  { cfg := cfg, units := (Vector.replicate Config.maxMasters MasterUnit.powerOn).set k u, window := [],
    agents := [Agent.idle, Agent.idle], arrivals := [], phase := .running, self := 1, quantum := 1000, schedule := [],
    turns := 0 }

/-- What agent 1 was given back, and the accesses of master `k`. -/
def seen (k : MasterIx) (o : Host.Outcome State Fault Refusal) : Option (List Ret × List Access) :=
  match o with
  | .next t => some ((t.agents.getD 1 Agent.idle).returned, (t.unit k).history)
  | _ => none

/-- The record of master `k` after. -/
def recordAfter (k : MasterIx) (o : Host.Outcome State Fault Refusal) : Option MasterState :=
  match o with
  | .next t => (t.unit k).record
  | _ => none

/-- What agent 1 was given back and the number of accesses of master `k`. -/
def counted (k : MasterIx) (o : Host.Outcome State Fault Refusal) : Option (List Ret × Nat) :=
  (seen k o).map (fun x => (x.1, x.2.length))

/-- `REINIT; IDLE`. -/
def opening : List Access :=
  [.wr .ctrl 0x00#8, .wr .prerLo 0xC7#8, .wr .prerHi 0x00#8, .wr .ctrl 0x80#8, .rd .cmdstat 0x00#8]

/-- `D=` and `C=` of file 95, and the closing STOP. -/
def D (b : Byte) : List Access := [.wr .data b]
def C (b : Byte) : List Access := [.wr .cmdstat b, .rd .cmdstat 0x41#8]
def R (b : Byte) : List Access := [.rd .data b]
def closing : List Access := [.wr .cmdstat 0x40#8]

/-- An idle bus, then `n` phases that read `S_DONE`. -/
def done (n : Nat) : List Byte := 0x00#8 :: List.replicate n 0x41#8

/-- Master 2 with its lock held by agent 1. -/
def at2 (status data : List Byte) : State := on 1 (unitOf held status data [])

/-! File 95, L2.1 and L2.3. -/

theorem test_read8_status : seen 10 (exec (.read8 11#8 .cmdstat) (on 10 (unitOf held [0x5A#8] [] []))) =
    some ([.byte 0x5A#8], [.rd .cmdstat 0x5A#8]) := by decide
/-- R281, U21: a master outside `ENABLED` is turned away with no access, by its lock holder too; so is `acquire`. -/
theorem test_reserved : seen 5 (exec (.init 6#8 0x00C7#16) (on 5 (unitOf held [] [] []))) =
      some ([.err .invalidArgument], []) ∧
    seen 5 (exec (.read8 6#8 .cmdstat) (on 5 (unitOf held [0x5A#8] [] []))) = some ([.err .invalidArgument], []) ∧
    recordAfter 5 (acquireItem 5 (on 5 (unitOf MasterState.fresh [] [] []))) = some MasterState.fresh := by decide
theorem test_read8_badMaster : seen 0 (exec (.read8 0#8 .cmdstat) (at2 [] [])) = none := by decide
theorem test_write8_address :
    (match exec (.write8 14#8 .data 0xA0#8) { on 13 (unitOf held [] [] []) with cfg := cfg14 } with
      | .next t => t.window | _ => []) = [(0x1B0, 0xA0#8)] := by decide
/-- R5, R61: the blocks stand `MASTER_STRIDE` apart, here 0x40: `0 + (2 - 1) * 0x40 + 0x10`. -/
theorem test_stride : (match exec (.write8 2#8 .data 0xA0#8) { at2 [] [] with cfg := { cfg with masterStride := 0x40 } } with
    | .next t => t.window | _ => []) = [(0x50, 0xA0#8)] := by decide
/-- R5, R120, R171: of two masters the third is out of range. -/
theorem test_nMasters : (match exec (.read8 3#8 .data) { at2 [] [] with cfg := { cfg with nMasters := 2 } } with
      | .fault e => some e | _ => none) = some .badMasterIndex ∧
    seen 1 (exec (.quickW 3#8 0x50#8) { at2 [] [] with cfg := { cfg with nMasters := 2 } }) =
      some ([.err .invalidArgument], []) := by decide
/-- R5, R90, R188: with a `BLOCK_MAX` of 2 a block of 3 bytes is refused, and a device's length byte of 3 is. -/
theorem test_blockMax : seen 1 (exec (.blockW 2#8 0x50#8 0#8 [1#8, 2#8, 3#8])
      { at2 (done 7) [] with cfg := { cfg with blockMax := 2 } }) = some ([.err .invalidArgument], []) ∧
    counted 1 (exec (.blockR 2#8 0x50#8 0#8) { at2 (done 4) [3#8] with cfg := { cfg with blockMax := 2 } }) =
      some ([.err .invalidArgument], 18) := by decide
theorem test_write8_refused : (match exec (.write8 2#8 .cmdstat 0x01#8) (at2 [] []) with
    | .refused r => some r | _ => none) = some .commandNotIssued := by decide
/-- V-INIT-1. -/
theorem test_init : seen 2 (exec (.init 3#8 0x00C7#16) (on 2 (unitOf held [] [] []))) =
    some ([.okay], [.wr .ctrl 0x00#8, .wr .prerLo 0xC7#8, .wr .prerHi 0x00#8, .wr .ctrl 0x80#8]) := by decide
/-- V-INIT-2. -/
theorem test_init_unsupported : seen 0 (exec (.init 1#8 0x0040#16) (on 0 (unitOf held [] [] []))) =
    some ([.err .invalidArgument], []) := by decide
/-- V-DEINIT-1. -/
theorem test_deinit : seen 2 (exec (.deinit 3#8) (on 2 (unitOf held [] [] []))) =
    some ([.okay], [.wr .ctrl 0x00#8]) := by decide
/-- V-IDLE-3: only BUSY is looked at. -/
theorem test_waitIdle_onlyBusy : seen 1 (exec (.waitIdle 2#8 30#16) (at2 [0xBF#8] [])) =
    some ([.okay], [.rd .cmdstat 0xBF#8]) := by decide
/-- V-IDLE-2. -/
theorem test_waitIdle_timeout : seen 1 (exec (.waitIdle 2#8 30#16) (on 1 (unitOf held [0x40#8] [] [true]))) =
    some ([.err .timeout], [.rd .cmdstat 0x40#8]) := by decide
/-- V-PHASE, 0xA0 on a write phase: the persistent-NACK signature. -/
theorem test_phase_signature : recordAfter 1 (exec (.waitPhaseDone 2#8 30#16 true) (at2 [0xA0#8] [])) =
    some { held with persistentNack := true, retryNeeded := true } := by decide
/-- V-PHASE, 0xE1 on a read phase: no signature. -/
theorem test_phase_readLost : recordAfter 1 (exec (.waitPhaseDone 2#8 30#16 false) (at2 [0xE1#8] [])) =
    some { held with retryNeeded := true } := by decide
/-- V-START-2: a read address is still a write phase. -/
theorem test_start_nack : seen 1 (exec (.cmdStart 2#8 0xA1#8) (at2 [0xC1#8] [])) =
    some ([.err .noAck], [.wr .data 0xA1#8, .wr .cmdstat 0x90#8, .rd .cmdstat 0xC1#8]) := by decide
/-- V-WRB-1. -/
theorem test_wrb : seen 1 (exec (.cmdWrite 2#8 0xFF#8) (at2 [0x41#8] [])) =
    some ([.okay], [.wr .data 0xFF#8, .wr .cmdstat 0x10#8, .rd .cmdstat 0x41#8]) := by decide
/-- V-RDB-3: `DATA` is not read after an error. -/
theorem test_rdbAck_lost : seen 1 (exec (.cmdReadAck 2#8) (at2 [0x61#8] [0x00#8])) =
    some ([.err .arbitrationLost], [.wr .cmdstat 0x20#8, .rd .cmdstat 0x61#8]) := by decide
/-- V-RDB-2: RXACK is ignored on a read. -/
theorem test_rdbNack : seen 1 (exec (.cmdReadNack 2#8) (at2 [0xC1#8] [0x99#8])) =
    some ([.byte 0x99#8], [.wr .cmdstat 0x28#8, .rd .cmdstat 0xC1#8, .rd .data 0x99#8]) := by decide
/-- V-STOP-1. -/
theorem test_stop : seen 1 (exec (.cmdStop 2#8) (at2 [] [])) = some ([.unit], [.wr .cmdstat 0x40#8]) := by decide

/-! File 95, L2.4. -/

theorem test_quickW : seen 1 (exec (.quickW 2#8 0x50#8) (at2 (done 1) [])) =
    some ([.payload .quick], opening ++ D 0xA0#8 ++ C 0x90#8 ++ closing) := by decide
theorem test_quickR : seen 1 (exec (.quickR 2#8 0x50#8) (at2 (done 1) [])) =
    some ([.payload .quick], opening ++ D 0xA1#8 ++ C 0x90#8 ++ closing) := by decide
theorem test_byteW : seen 1 (exec (.byteW 2#8 0x50#8 0#8) (at2 (done 2) [])) =
    some ([.payload .quick], opening ++ D 0xA0#8 ++ C 0x90#8 ++ D 0#8 ++ C 0x10#8 ++ closing) := by decide
theorem test_byteR : seen 1 (exec (.byteR 2#8 0x50#8) (at2 (done 2) [0x5A#8])) =
    some ([.payload (.byte 0x5A#8)], opening ++ D 0xA1#8 ++ C 0x90#8 ++ C 0x28#8 ++ R 0x5A#8 ++ closing) := by decide
/-- V-SM-2. -/
theorem test_byteR_nack : seen 1 (exec (.byteR 2#8 0x50#8) (at2 [0x00#8, 0xC1#8] [])) =
    some ([.err .noAck], opening ++ D 0xA1#8 ++ [.wr .cmdstat 0x90#8, .rd .cmdstat 0xC1#8] ++ closing) := by decide
theorem test_byteDataW : seen 1 (exec (.byteDataW 2#8 0x50#8 0x7F#8 1#8) (at2 (done 3) [])) =
    some ([.payload .quick], opening ++ D 0xA0#8 ++ C 0x90#8 ++ D 0x7F#8 ++ C 0x10#8 ++ D 1#8 ++ C 0x10#8 ++ closing) := by
  decide
/-- V-SM-1. -/
theorem test_byteDataW_nack : seen 1 (exec (.byteDataW 2#8 0x50#8 0x7F#8 1#8) (at2 [0x00#8, 0x41#8, 0xC1#8] [])) =
    some ([.err .noAck], opening ++ D 0xA0#8 ++ C 0x90#8 ++ D 0x7F#8 ++ [.wr .cmdstat 0x10#8, .rd .cmdstat 0xC1#8] ++
      closing) := by decide
theorem test_byteDataR : seen 1 (exec (.byteDataR 2#8 0x50#8 3#8) (at2 (done 4) [0x11#8])) =
    some ([.payload (.byte 0x11#8)], opening ++ D 0xA0#8 ++ C 0x90#8 ++ D 3#8 ++ C 0x10#8 ++ D 0xA1#8 ++ C 0x90#8 ++
      C 0x28#8 ++ R 0x11#8 ++ closing) := by decide
/-- V-SM-23. -/
theorem test_byteDataR_signature :
    recordAfter 1 (exec (.byteDataR 2#8 0x50#8 3#8) (at2 [0x00#8, 0x41#8, 0x41#8, 0xE1#8] [])) =
    some { held with persistentNack := true, retryNeeded := true } := by decide
theorem test_wordDataW : seen 1 (exec (.wordDataW 2#8 0x50#8 0x10#8 0xBEEF#16) (at2 (done 4) [])) =
    some ([.payload .quick], opening ++ D 0xA0#8 ++ C 0x90#8 ++ D 0x10#8 ++ C 0x10#8 ++ D 0xEF#8 ++ C 0x10#8 ++
      D 0xBE#8 ++ C 0x10#8 ++ closing) := by decide
theorem test_wordDataR : seen 1 (exec (.wordDataR 2#8 0x50#8 0#8) (at2 (done 5) [0x34#8, 0x12#8])) =
    some ([.payload (.word 0x1234#16)], opening ++ D 0xA0#8 ++ C 0x90#8 ++ D 0#8 ++ C 0x10#8 ++ D 0xA1#8 ++ C 0x90#8 ++
      C 0x20#8 ++ R 0x34#8 ++ C 0x28#8 ++ R 0x12#8 ++ closing) := by decide
/-- V-SM-3. -/
theorem test_wordDataR_lost : counted 1 (exec (.wordDataR 2#8 0x50#8 0#8)
    (at2 [0x00#8, 0x41#8, 0x41#8, 0x41#8, 0x41#8, 0x61#8] [0x34#8])) = some ([.err .arbitrationLost], 20) := by decide
theorem test_blockW : seen 1 (exec (.blockW 2#8 0x50#8 0x20#8 [0xAA#8, 0xBB#8]) (at2 (done 5) [])) =
    some ([.payload .quick], opening ++ D 0xA0#8 ++ C 0x90#8 ++ D 0x20#8 ++ C 0x10#8 ++ D 2#8 ++ C 0x10#8 ++
      D 0xAA#8 ++ C 0x10#8 ++ D 0xBB#8 ++ C 0x10#8 ++ closing) := by decide
/-- V-SM-12. -/
theorem test_blockW_full : counted 1 (exec (.blockW 2#8 0x50#8 0x20#8 (List.replicate 32 7#8)) (at2 (done 35) [])) =
    some ([.payload .quick], 111) := by decide
theorem test_blockR : seen 1 (exec (.blockR 2#8 0x50#8 0x20#8) (at2 (done 6) [2#8, 0x10#8, 0x20#8])) =
    some ([.payload (.block [0x10#8, 0x20#8])], opening ++ D 0xA0#8 ++ C 0x90#8 ++ D 0x20#8 ++ C 0x10#8 ++ D 0xA1#8 ++
      C 0x90#8 ++ C 0x20#8 ++ R 2#8 ++ C 0x20#8 ++ R 0x10#8 ++ C 0x28#8 ++ R 0x20#8 ++ closing) := by decide
/-- V-SM-6. -/
theorem test_blockR_tooLong : counted 1 (exec (.blockR 2#8 0x50#8 0x20#8) (at2 (done 4) [0x21#8])) =
    some ([.err .invalidArgument], 18) := by decide
theorem test_i2cBlockW : seen 1 (exec (.i2cBlockW 2#8 0x50#8 0#8 [1#8, 2#8, 3#8]) (at2 (done 5) [])) =
    some ([.payload .quick], opening ++ D 0xA0#8 ++ C 0x90#8 ++ D 0#8 ++ C 0x10#8 ++ D 1#8 ++ C 0x10#8 ++
      D 2#8 ++ C 0x10#8 ++ D 3#8 ++ C 0x10#8 ++ closing) := by decide
theorem test_i2cBlockR : seen 1 (exec (.i2cBlockR 2#8 0x50#8 0#8 2#8) (at2 (done 5) [0x61#8, 0x62#8])) =
    some ([.payload (.block [0x61#8, 0x62#8])], opening ++ D 0xA0#8 ++ C 0x90#8 ++ D 0#8 ++ C 0x10#8 ++ D 0xA1#8 ++
      C 0x90#8 ++ C 0x20#8 ++ R 0x61#8 ++ C 0x28#8 ++ R 0x62#8 ++ closing) := by decide
/-- V-SM-9. -/
theorem test_i2cBlockR_one : counted 1 (exec (.i2cBlockR 2#8 0x50#8 0#8 1#8) (at2 (done 4) [0x42#8])) =
    some ([.payload (.block [0x42#8])], 18) := by decide
/-- V-SM-13, V-SM-14, V-SM-15. -/
theorem test_procCall : seen 1 (exec (.procCall .write 2#8 0x50#8 0#8) (at2 [] [])) = some ([.err .notSupported], []) := by
  decide
theorem test_i2cBlockBroken : seen 1 (exec (.i2cBlockBroken .read 2#8 0x50#8 0#8) (at2 [] [])) =
    some ([.err .notSupported], []) := by decide
theorem test_blockProcCall : seen 1 (exec (.blockProcCall .read 2#8 0x50#8 0#8) (at2 [] [])) =
    some ([.err .notSupported], []) := by decide
theorem test_unknownSc9 : seen 1 (exec (.unknownSc9 .write 2#8 0x50#8 0#8) (at2 [] [])) =
    some ([.err .invalidArgument], []) := by decide
theorem test_unknownSc1011 : seen 1 (exec (.unknownSc1011 1#1 .write 2#8 0x50#8 0#8) (at2 [] [])) =
    some ([.err .invalidArgument], []) := by decide
theorem test_unknownSc1215 : seen 1 (exec (.unknownSc1215 3#2 .write 2#8 0x50#8 0#8) (at2 [] [])) =
    some ([.err .invalidArgument], []) := by decide
/-- V-SM-17: the size class is checked before the address. -/
theorem test_execute_order : seen 1 (exec (.execute 2#8 ⟨.write, 0x80#8, 0#8, 4#4, .quick⟩) (at2 [] [])) =
    some ([.err .notSupported], []) := by decide
/-- V-SM-22. -/
theorem test_execute_timeout : seen 1 (exec (.execute 2#8 ⟨.write, 0x50#8, 0#8, 0#4, .quick⟩)
    (on 1 (unitOf held [0x00#8, 0x43#8] [] [true]))) =
    some ([.err .timeout], opening ++ D 0xA0#8 ++ [.wr .cmdstat 0x90#8, .rd .cmdstat 0x43#8] ++ closing) := by decide

/-! File 95, L1 and L2.5. -/

/-- Endpoints of L2.5 and its transaction `T`. -/
def a0 : EndpointRef := ⟨11#8, .switch 0x70#8, 0#3⟩
def a1 : EndpointRef := ⟨11#8, .switch 0x70#8, 1#3⟩
def b2 : EndpointRef := ⟨11#8, .switch 0x71#8, 2#3⟩
def d11 : EndpointRef := ⟨11#8, .direct, 0#3⟩
def T : Txn := ⟨.write, 0x50#8, 0#8, 0#4, .quick⟩

/-- Master 11 free, with this cache and these answers. -/
def at11 (sw : Byte) (ch : BitVec 3) (status data : List Byte) : State :=
  on 10 (unitOf (record .free sw ch) status data [])

/-- L1-1; V-MX-4 (the cache after a change of switch); V-MX-6 (three failing selects of 9 accesses, the cache as
before, `retry_needed` left set). -/
theorem test_access_mux :
    seen 10 (exec (.access a0 ⟨.read, 0x50#8, 0#8, 3#4, .quick⟩)
      (at11 0#8 0#3 (done 2 ++ done 5) [0x34#8, 0x12#8])) =
    some ([.payload (.word 0x1234#16)],
      opening ++ D 0xE0#8 ++ C 0x90#8 ++ D 1#8 ++ C 0x10#8 ++ closing ++
      (opening ++ D 0xA0#8 ++ C 0x90#8 ++ D 0#8 ++ C 0x10#8 ++ D 0xA1#8 ++ C 0x90#8 ++ C 0x20#8 ++ R 0x34#8 ++
        C 0x28#8 ++ R 0x12#8 ++ closing)) ∧
    recordAfter 10 (exec (.access b2 T) (at11 0x70#8 1#3 (done 2 ++ done 2 ++ done 1) [])) =
      some (record .free 0x71#8 2#3) ∧
    counted 10 (exec (.access a0 T) (at11 0#8 0#3 [0#8, 0xC1#8, 0#8, 0xC1#8, 0#8, 0xC1#8] [])) =
      some ([.err .muxSelectFailed], 27) ∧
    recordAfter 10 (exec (.access a0 T) (at11 0#8 0#3 [0#8, 0xC1#8, 0#8, 0xC1#8, 0#8, 0xC1#8] [])) =
      some { record .free 0#8 0#3 with retryNeeded := true } := by decide
/-- V-RT-2 (six attempts); V-RT-7 (the signature lifts the budget; a success at attempt 8 ends the call). -/
theorem test_access_retry :
    counted 10 (exec (.access d11 T) (at11 0#8 0#3 (List.replicate 6 [0#8, 0xC1#8]).flatten [])) =
      some ([.err .noAck], 54) ∧
    counted 10 (exec (.access d11 T) (at11 0#8 0#3
      ([0#8, 0xE1#8] ++ (List.replicate 6 [0#8, 0xC1#8]).flatten ++ done 1) [])) = some ([.payload .quick], 72) := by
  decide
theorem test_muxSelect : seen 1 (exec (.muxSelect 2#8 0x70#8 7#3) (at2 (done 2) [])) =
    some ([.okay], opening ++ D 0xE0#8 ++ C 0x90#8 ++ D 0x80#8 ++ C 0x10#8 ++ closing) := by decide
theorem test_muxDeselect : seen 1 (exec (.muxDeselect 2#8 0x71#8) (at2 (done 2) [])) =
    some ([.okay], opening ++ D 0xE2#8 ++ C 0x90#8 ++ D 0#8 ++ C 0x10#8 ++ closing) := by decide

/-- Every enabled master with a free record; master 11 with these answers. -/
def allFree (status : List Byte) : State :=
  { on 10 (unitOf (record .free 0x70#8 1#3) status [] []) with
    units := ((Vector.replicate Config.maxMasters (unitOf (record .free 0x70#8 1#3) [] [] [])).set 10
      (unitOf (record .free 0x70#8 1#3) status [] [])) }

/-- V-DA-1. -/
theorem test_deselectAll : seen 10 (exec .deselectAll (allFree (done 2 ++ done 2))) =
    some ([.okay], opening ++ D 0xE0#8 ++ C 0x90#8 ++ D 0#8 ++ C 0x10#8 ++ closing ++
      (opening ++ D 0xE2#8 ++ C 0x90#8 ++ D 0#8 ++ C 0x10#8 ++ closing)) := by decide
/-- V-DA-2: the failed switch does not stop the next; the cache of the master is kept. -/
theorem test_deselectAll_fail : (fun o => (counted 10 o, recordAfter 10 o)) (exec .deselectAll
    (allFree ([0#8, 0xC1#8, 0#8, 0xC1#8, 0#8, 0xC1#8] ++ done 2))) =
    (some ([.err .muxSelectFailed], 39), some { record .free 0x70#8 1#3 with retryNeeded := true }) := by decide

/-- The initialiser moves, alone: after power-on, and while the engine runs. -/
def alone : State := { on 10 MasterUnit.powerOn with self := 0, phase := .powerOn }
def aloneRunning : State := { on 10 (unitOf MasterState.fresh [] [] []) with self := 0 }

/-- V-RS-1. -/
theorem test_engineInit : (match exec .engineInit alone with
    | .next t => some ((t.unit 10).history, (t.unit 13).record, t.window)
    | _ => none) =
    some ([.wr .ctrl 0x00#8, .wr .prerLo 0xC7#8, .wr .prerHi 0x00#8, .wr .ctrl 0x80#8], some MasterState.fresh,
      [(0x00, 0xC7#8), (0x08, 0x80#8), (0x20, 0xC7#8), (0x28, 0x80#8), (0x40, 0xC7#8), (0x48, 0x80#8),
       (0x140, 0xC7#8), (0x148, 0x80#8)]) := by decide
/-- V-RS-2. -/
theorem test_engineShutdown : (match exec .engineShutdown aloneRunning with
    | .next t => some ((t.unit 10).history, (t.unit 10).record)
    | _ => none) = some ([.wr .ctrl 0x00#8], none) := by decide
theorem test_cmdIack : (match exec (.cmdIack 2#8) (at2 [] []) with | .refused r => some r | _ => none) =
    some .commandNotIssued := by decide

/-! From reset: what `withFetchWord` places is the next thing that runs. -/

theorem test_fetch_verb : (match step (State.reset.withFetchWord 8 0x00) with
    | .next t => t.agents | _ => []) =
    [Agent.idle, { Agent.idle with returned := [.err .invalidArgument] }] := by decide
theorem test_fetch_command : (match step (State.reset.withFetchWord 8 0x90) with
    | .fault e => some e | _ => none) = some .badMasterIndex := by decide

/-- An agent whose next item is a call. -/
def calling (bytes : List Byte) : State :=
  { at2 [] [] with agents := [Agent.idle, { Agent.idle with program := [.call bytes] }], schedule := [⟨1, 1000⟩] }

/-- L1-11: a table one direct entry short has not the shape; nor has the table of these tests. -/
theorem test_topologyShape : Config.topologyShape (List.replicate 48 ⟨0, .sfp, 1#8, .switch 0x70#8, 0#3⟩ ++
      List.replicate 8 ⟨0, .qsfp, 1#8, .switch 0x71#8, 0#3⟩ ++ List.replicate 9 ⟨0, .plain, 1#8, .direct, 0#3⟩) = true ∧
    Config.topologyShape (List.replicate 48 ⟨0, .sfp, 1#8, .switch 0x70#8, 0#3⟩ ++
      List.replicate 8 ⟨0, .qsfp, 1#8, .switch 0x71#8, 0#3⟩ ++ List.replicate 8 ⟨0, .plain, 1#8, .direct, 0#3⟩ ++
      [⟨0, .plain, 1#8, .switch 0x72#8, 0#3⟩]) = false ∧ Config.topologyShape topology = false := by decide

/-! Positions (rule R31), the callers (rule R7) and the life of the engine (rules R300, R304). -/

/-- With no position beyond the first, one step of QUICK goes from `E_VALIDATE` to `E_REINIT` and makes no access. -/
theorem test_position : (match exec (.quickW 2#8 0x50#8) { at2 (done 1) [] with quantum := 0 } with
    | .next t => some ((t.agents.getD 1 Agent.idle).call, (t.unit 1).history)
    | _ => none) = some (some (.exec 1 ((execStart T).atPos .reinit)), []) := by decide
/-- A choice of an agent that does not exist brings the next caller of the list. -/
theorem test_arrival : (match step { at2 [] [] with schedule := [⟨7, 0⟩], arrivals := [[.acquire 0]] } with
    | .next t => some (t.agents, t.arrivals)
    | _ => none) = some ([Agent.idle, Agent.idle, { Agent.idle with program := [.acquire 0] }], []) := by decide
/-- The idle initialiser initialises the engine after power-on. -/
theorem test_boot : (match step { alone with schedule := [⟨0, 0⟩] } with
    | .next t => some (t.phase, (t.unit 13).record)
    | _ => none) = some (.running, some MasterState.fresh) := by decide
/-- No second initialisation (rule R300), and no call after shutdown (rule R304). -/
theorem test_lifecycle_stops : (match exec .engineInit aloneRunning with | .fault e => some e | _ => none) =
      some .unlockedAccess ∧
    (match step { calling [0x40#8, 0#8, 2#8] with phase := .shutDown } with | .fault e => some e | _ => none) =
      some .noRecord := by decide

/-! Witnesses: for each obligation with hypotheses, data that meet them together, clause by clause and at the ends of
its ranges. -/

theorem holds_at2 (status data : List Byte) : Holds (at2 status data) 1 := ⟨held, rfl, rfl⟩
theorem mayUse_at2 (status data : List Byte) : MayUse (at2 status data) 1 :=
  ⟨by show masterEnabled cfg 1 = true; decide, holds_at2 status data⟩

theorem witness_DecodeOfEncode : wellFormed (.access a0 T) = true ∧ wellFormed (.muxSelect 11#8 0x01#8 0#3) = true ∧
    wellFormed (.muxDeselect 11#8 0x7F#8) = true ∧
    wellFormed (.blockW 2#8 0x50#8 0#8 (List.replicate 255 1#8)) = true := by decide
theorem witness_EncodeOfDecode : decode [0x40#8, 0#8, 11#8, 0x99#8] = .ok (.cmdStop 11#8, [0x99#8]) := by decide
theorem witness_AddressByteForm : (0x00#8).toNat ≤ 0x7F ∧ (0x7F#8).toNat ≤ 0x7F := by decide
theorem witness_FirstAddressDirection : (verbTxn 1#4 .read 0x50#8 0#8 .quick).dir = .read ∧
    (verbTxn 1#4 .read 0x50#8 0#8 .quick).sizeClass = 1#4 ∧ ¬(T.dir = .read ∧ (T.sizeClass = 0#4 ∨ T.sizeClass = 1#4)) := by
  decide
theorem witness_StepRunsDecodedCall : ∃ ag bytes items i rest, (calling [0x40#8, 0#8, 2#8]).phase ≠ .shutDown ∧
    (calling [0x40#8, 0#8, 2#8]).takeTurn.agents[(calling [0x40#8, 0#8, 2#8]).takeTurn.self]? = some ag ∧
    ag.call = none ∧ ag.program = .call bytes :: items ∧ decode bytes = .ok (i, rest) :=
  ⟨_, [0x40#8, 0#8, 2#8], [], .cmdStop 2#8, [], by decide, rfl, rfl, rfl, by decide⟩
theorem witness_StepOtherwise_resumed : ∃ (s : State) (ag : Agent) (k : Call),
    s.takeTurn.agents[s.takeTurn.self]? = some ag ∧ ag.call = some k :=
  ⟨{ calling [] with agents := [Agent.idle, { Agent.idle with call := some (.prim 1 .waitIdle) }] }, _, _, rfl, rfl⟩
theorem witness_StepOtherwise_undecodable : ∃ ag bytes items e,
    (calling [0xC0#8, 0#8]).takeTurn.agents[(calling [0xC0#8, 0#8]).takeTurn.self]? = some ag ∧ ag.call = none ∧
    ag.program = .call bytes :: items ∧ (calling [0xC0#8, 0#8]).phase ≠ .shutDown ∧ decode bytes = .error e ∧
    ({ calling [0xC0#8, 0#8] with phase := .shutDown } : State).phase = .shutDown :=
  ⟨_, [0xC0#8, 0#8], [], .commandNotIssued, rfl, rfl, rfl, by decide, by decide, rfl⟩
theorem witness_StepOtherwise_lockActions : ∃ (s u : State) (ag bg : Agent),
    s.takeTurn.agents[s.takeTurn.self]? = some ag ∧ ag.call = none ∧ ag.program = [.acquire 0] ∧
    u.takeTurn.agents[u.takeTurn.self]? = some bg ∧ bg.call = none ∧ bg.program = [.release 1] :=
  ⟨{ calling [] with agents := [Agent.idle, { Agent.idle with program := [.acquire 0] }] },
    { calling [] with agents := [Agent.idle, { Agent.idle with program := [.release 1] }] }, _, _, rfl, rfl, rfl, rfl, rfl,
    rfl⟩
theorem witness_StepOtherwise_nothing : ∃ (s u : State) (ag : Agent),
    s.takeTurn.agents[s.takeTurn.self]? = some ag ∧ ag.call = none ∧ ag.program = [] ∧ s.takeTurn.self ≠ 0 ∧
    u.takeTurn.agents[u.takeTurn.self]? = some ag ∧ u.takeTurn.self = 0 ∧ u.phase = .powerOn ∧
    ({ u with phase := .running } : State).phase = .running ∧
    ({ u with phase := .shutDown } : State).phase = .shutDown :=
  ⟨{ at2 [] [] with schedule := [⟨1, 0⟩] }, { alone with schedule := [⟨0, 0⟩] }, Agent.idle, rfl, rfl, rfl, by decide, rfl,
    rfl, rfl, rfl, rfl⟩
theorem witness_StepOtherwise_noAgent : ∃ s : State, s.takeTurn.agents[s.takeTurn.self]? = none ∧
    s.arrivals = [.acquire 0] :: [] ∧ s.schedule = ⟨2, 5⟩ :: [] :=
  ⟨{ at2 [] [] with schedule := [⟨2, 5⟩], arrivals := [[.acquire 0]] }, rfl, rfl, rfl⟩
theorem witness_AcquireTakesFreeLock : ((at11 0#8 0#3 [] []).unit 10).record = some (record .free 0#8 0#3) ∧
    ((at2 [] []).unit 1).record = some held ∧ held.lock ≠ .free ∧ ((at2 [] []).unit 0).record = none ∧
    masterEnabled cfg 10 = true ∧ masterEnabled cfg 1 = true ∧ masterEnabled cfg 0 = true ∧
    masterEnabled cfg 5 = false :=
  ⟨rfl, rfl, by decide, rfl, by decide, by decide, by decide, by decide⟩
theorem witness_ReleaseFreesOrFaults : ((at2 [] []).unit 1).record = some held ∧ held.lock = .held (at2 [] []).self ∧
    ¬ Holds (at2 [] []) 0 :=
  ⟨rfl, rfl, fun ⟨_, h, _⟩ => by cases h⟩
theorem witness_EngineInitCompletes : alone.phase = .powerOn ∧ alone.initialiserAlone = true ∧
    alone.noneStarted = true ∧ configOk alone.cfg = true := by decide
/-- R27, R300: a record for each of the 14 masters, none beyond. -/
theorem test_records : (recordAfter 13 (exec .engineInit alone)).isSome = true ∧
    recordAfter 14 (exec .engineInit alone) = none ∧
    (match exec .engineInit alone with | .next t => decide (t.phase = .running) | _ => false) = true := by decide +kernel
theorem witness_EngineInitSetsRegisters : ∃ t, alone.window.wf = true ∧ configOk alone.cfg = true ∧
    exec .engineInit alone = .next t := ⟨_, rfl, by decide, rfl⟩
theorem witness_LifecycleStops : ({ alone with self := 1 } : State).phase = .powerOn ∧
    ({ alone with self := 1 } : State).initialiserAlone = false ∧
    ({ alone with agents := [{ Agent.idle with returned := [.okay] }] } : State).noneStarted = false ∧
    ({ alone with cfg := { cfg with div100k := 0x0040#16 } } : State).initialiserAlone = true ∧
    ({ alone with cfg := { cfg with div100k := 0x0040#16 } } : State).noneStarted = true ∧
    configOk { cfg with div100k := 0x0040#16 } = false ∧ configOk { cfg with windowBits := 8 } = false ∧
    configOk { cfg with masterStride := 0x10 } = false ∧ configOk { cfg with nChannels := 1 } = false ∧
    configOk { cfg with nMasters := 10, topology := [] } = false ∧ configOk { cfg with enabled := [], nMasters := 10 } = false ∧
    (at2 [] []).phase = .running ∧ (at2 [] []).initialiserAlone = false ∧
    ({ alone with phase := .shutDown } : State).phase = .shutDown := by decide
theorem witness_EngineShutdownCompletes : aloneRunning.phase = .running ∧ aloneRunning.initialiserAlone = true ∧
    aloneRunning.window.wf = true := by decide
theorem witness_Read8Completes : masterIx cfg 1#8 = some 0 ∧ masterIx cfg 14#8 = some 13 ∧
    MayUse { on 13 (unitOf held [] [] []) with cfg := cfg14 } 13 ∧ masterIx cfg 2#8 = some 1 ∧ MayUse (at2 [] []) 1 :=
  ⟨by decide, by decide, ⟨by show masterEnabled cfg14 13 = true; decide, held, rfl, rfl⟩, by decide, mayUse_at2 [] []⟩
theorem witness_Write8Completes : masterIx cfg 2#8 = some 1 ∧ MayUse (at2 [] []) 1 ∧ (at2 [] []).window.wf = true ∧
    cmdStop cfg.bits ∈ [cmdStart cfg.bits, cmdWrite cfg.bits, cmdReadAck cfg.bits, cmdReadNack cfg.bits,
      cmdStop cfg.bits] ∧
    0xC0#8 &&& ~~~(bitMask cfg.bits.en ||| bitMask cfg.bits.ien) = 0#8 :=
  ⟨by decide, mayUse_at2 [] [], by decide, by decide, by decide⟩
theorem witness_WriteRefusedByName : masterIx cfg 2#8 = some 1 ∧ MayUse (at2 [] []) 1 ∧
    0x01#8 ∉ [cmdStart cfg.bits, cmdWrite cfg.bits, cmdReadAck cfg.bits, cmdReadNack cfg.bits, cmdStop cfg.bits] ∧
    0x01#8 &&& ~~~(bitMask cfg.bits.en ||| bitMask cfg.bits.ien) ≠ 0#8 :=
  ⟨by decide, mayUse_at2 [] [], by decide, by decide⟩
theorem witness_BadMasterIndexFaults : (0#8).toNat = 0 ∧ cfg.nMasters.val < (15#8).toNat ∧ cfg.nMasters.val < (0xFF#8).toNat := by decide
theorem witness_UnlockedAccessFaults : masterIx cfg 11#8 = some 10 ∧ CannotUse (at11 0#8 0#3 [] []) 10 .unlockedAccess ∧
    CannotUse (at2 [] []) 10 .unlockedAccess ∧ CannotUse { at2 [] [] with phase := .shutDown } 10 .noRecord ∧
    instrTxn (.quickW 11#8 0x50#8) = some (11#8, T) ∧ Valid (at11 0#8 0#3 [] []) 10 T ∧
    masterEnabled cfg 10 = true ∧ (0x7F#8).toNat ≤ 0x7F ∧ ((at2 [] []).unit 10).record = none ∧
    0 ∈ cfg.enabled ∧ (∀ j ∈ cfg.enabled, 0 ≤ j) ∧ ((at2 [] []).unit 0).record = none :=
  ⟨by decide, .inl ⟨rfl, record .free 0#8 0#3, rfl, by decide⟩, .inr (.inl ⟨rfl, rfl, by decide⟩), .inr (.inr ⟨rfl, rfl, rfl⟩),
    rfl, by show validateTxn cfg 10 T = none; decide, by decide, by decide, rfl, by decide, by decide, rfl⟩
theorem witness_InitProgramsDivider : masterIx cfg 2#8 = some 1 ∧ MayUse (at2 [] []) 1 ∧ (at2 [] []).window.wf = true ∧
    0x00C7#16 = cfg.div100k ∧ 0x0040#16 ≠ cfg.div100k :=
  ⟨by decide, mayUse_at2 [] [], by decide, by decide, by decide⟩
theorem witness_DeinitDisables : masterIx cfg 2#8 = some 1 ∧ MayUse (at2 [] []) 1 ∧ (at2 [] []).window.wf = true :=
  ⟨by decide, mayUse_at2 [] [], by decide⟩
/-- Master 2, one status answer and one deadline draw. -/
def polled (v : Byte) (d : Bool) : State := on 1 (unitOf held [v] [] [d])
theorem witness_WaitIdlePollsBusy : masterIx cfg 2#8 = some 1 ∧ MayUse (polled 0x40#8 true) 1 ∧
    (polled 0x40#8 true).window.wf = true ∧
    bitSet (statusAfter (polled 0xBF#8 true) 1 []) cfg.bits.busy = false ∧
    bitSet (statusAfter (polled 0x40#8 true) 1 []) cfg.bits.busy = true ∧
    deadlineAfter (polled 0x40#8 true) 1 [] = true ∧ deadlineAfter (polled 0x40#8 false) 1 [] = false :=
  ⟨by decide, ⟨by show masterEnabled cfg 1 = true; decide, held, rfl, rfl⟩, by decide, by decide, by decide, rfl, rfl⟩
theorem witness_PhaseOutcomeTable : masterIx cfg 2#8 = some 1 ∧ MayUse (at2 [0xA0#8] []) 1 ∧
    (at2 [0xA0#8] []).window.wf = true ∧ ((at2 [0xA0#8] []).unit 1).record = some held ∧
    (∀ v : Byte, v ∈ [0x41#8, 0x80#8, 0x20#8, 0xA0#8] → v = statusAfter (at2 [v] []) 1 [] ∧
      bitSet v cfg.bits.tip = false) ∧
    (bitSet 0x41#8 cfg.bits.al = false ∧ bitSet 0x41#8 cfg.bits.rxack = false) ∧
    (bitSet 0x80#8 cfg.bits.al = false ∧ bitSet 0x80#8 cfg.bits.rxack = true) ∧
    (bitSet 0x20#8 cfg.bits.al = true ∧ bitSet 0x20#8 cfg.bits.rxack = false) ∧
    (bitSet 0xA0#8 cfg.bits.al = true ∧ bitSet 0xA0#8 cfg.bits.rxack = true) :=
  ⟨by decide, mayUse_at2 _ _, by decide, rfl, by decide, by decide, by decide, by decide, by decide⟩
theorem witness_PhasePollTimesOut : WritePhase cfg 2#8 (.cmdStart 2#8 0xA0#8) (startWrites cfg 0xA0#8) (.start 0xA0#8) ∧
    ReadPhase cfg 2#8 (.cmdReadNack 2#8) [.wr .cmdstat 0x28#8] .rdbNack ∧
    WaitPhase 2#8 (.waitPhaseDone 2#8 30#16 true) [] (.waitPhase true) ∧ masterIx cfg 2#8 = some 1 ∧
    MayUse (polled 0xE3#8 true) 1 ∧ (polled 0xE3#8 true).window.wf = true ∧
    bitSet (statusAfter (polled 0xE3#8 true) 1 (startWrites cfg 0xA0#8)) cfg.bits.tip = true ∧
    bitSet (statusAfter (polled 0xE3#8 true) 1 []) cfg.bits.tip = true ∧
    deadlineAfter (polled 0xE3#8 true) 1 (startWrites cfg 0xA0#8) = true ∧
    deadlineAfter (polled 0xE3#8 false) 1 [] = false :=
  ⟨.inl ⟨_, rfl, rfl, rfl⟩, .inr ⟨rfl, rfl, rfl⟩, ⟨_, _, rfl, rfl, rfl⟩, by decide, ⟨by show masterEnabled cfg 1 = true; decide, held, rfl, rfl⟩, by decide, by decide,
    by decide, rfl, rfl⟩

/-- A transaction's frame that has yielded at its poll. -/
def yielded (t : Txn) (pos : EPos) : ExecFrame := { (execStart t).atPos pos with polling := true }
/-- Master 11, its lock held by agent 1, one position at a time. -/
def held11 (status data : List Byte) (deadline : List Bool) : State :=
  { on 10 (unitOf (record (.held 1) 0#8 0#3) status data deadline) with quantum := 0 }
/-- The five calls that carry a transaction on master 11. -/
theorem carries11 : Carries cfg 10 (fun f => .exec 10 f) ∧
    Carries cfg 10 (fun f => .mux 10 { muxStart 0x70#8 1#8 with inner := some f }) ∧
    Carries cfg 10 (fun f => .access { accessFrame d11 T .attempt with inner := some f }) ∧
    Carries cfg 10 (fun f => .access { accessFrame a0 T .mux with write := some { muxStart 0x70#8 1#8 with inner := some f } }) ∧
    Carries cfg 10 (fun f => .deselectAll { deselectFrame [10] false with
      locked := true, switches := [0x70#8, 0x71#8], write := some { muxStart 0x70#8 0#8 with inner := some f } }) :=
  ⟨.execute, .muxWrite _ (by decide), .attempt _ (by decide) rfl, .resolve _ _ 0x70#8 (by decide) rfl rfl,
    .deselect { deselectFrame [10] false with locked := true, switches := [0x70#8, 0x71#8] } _ [] 0x70#8 [0x71#8] rfl rfl
      rfl⟩
/-- At START and at `wait_idle`, the bit set, the deadline passed and not. -/
theorem witness_PhasePollTimesOut_txn : (∀ d, Holds (held11 [0x43#8] [] [d]) 10 ∧
      Carries (held11 [0x43#8] [] [d]).cfg 10 (fun f => .exec 10 f)) ∧
    (yielded T .addr).prim = some (.start 0xA0#8) ∧ (yielded T .addr).polling = true ∧
    (yielded T .waitIdle).prim = some .waitIdle ∧
    (∀ d, bitSet (statusAfter (held11 [0x43#8] [] [d]) 10 []) ((Prim.start 0xA0#8).bit cfg.bits) = true ∧
      bitSet (statusAfter (held11 [0x43#8] [] [d]) 10 []) (Prim.waitIdle.bit cfg.bits) = true) ∧
    deadlineAfter (held11 [0x43#8] [] [true]) 10 [] = true ∧ deadlineAfter (held11 [0x43#8] [] [false]) 10 [] = false ∧
    (held11 [0x43#8] [] [true]).quantum = 0 :=
  ⟨fun _ => ⟨⟨_, rfl, rfl⟩, .execute⟩, rfl, rfl, rfl, by decide, rfl, rfl, rfl⟩

/-- A run: agent 1, suspended in a call `C` at a poll of master 2, takes one step; then agent 0 releases a lock it does not
hold, and the machine stops. -/
def fairStart (C : Call) (status : List Byte) : State :=
  { on 1 (unitOf held status [] [false]) with
    agents := [{ Agent.idle with program := [.release 0] }, { Agent.idle with call := some C }]
    schedule := [⟨1, 0⟩, ⟨0, 0⟩] }
def fairNext (C : Call) (status : List Byte) : State :=
  match step (fairStart C status) with
  | .next t => t
  | _ => fairStart C status
def fairRun (C : Call) (status : List Byte) : Nat → State
  | 0 => fairStart C status
  | _ + 1 => fairNext C status
theorem weaklyFair_fairRun {C : Call} {status : List Byte} (h : step (fairStart C status) = .next (fairNext C status))
    (hn : step (fairNext C status) = .fault .badRelease) : WeaklyFair (fairRun C status) := by
  have halted : ∀ n, Halted (fairRun C status (n + 1)) := fun n t ht => by
    rw [show fairRun C status (n + 1) = fairNext C status from rfl, hn] at ht; cases ht
  refine ⟨fun n => ?_, fun n a k _ => ⟨n + 1, by omega, .inl (halted n)⟩, fun n a k _ _ _ hi _ => ?_⟩
  · cases n with
    | zero => exact .inl h
    | succ n => exact .inr ⟨halted n, rfl⟩
  · obtain ⟨j, hj, hit⟩ := hi 1
    obtain ⟨j, rfl⟩ : ∃ i, j = i + 1 := ⟨j - 1, by omega⟩
    exact absurd (halted j) hit.1
/-- A primitive that returns at its step, and a transaction that stays at its poll; both runs then stop. -/
theorem witness_PhasePollTimesOut_fair : WeaklyFair (fairRun (.prim 1 .waitIdle) [0x00#8]) ∧
    (fairRun (.prim 1 .waitIdle) [0x00#8] 0).agents[1]? = some { Agent.idle with call := some (.prim 1 .waitIdle) } ∧
    WeaklyFair (fairRun (.exec 1 (yielded T .waitIdle)) [0x40#8]) ∧
    Carries (fairRun (.exec 1 (yielded T .waitIdle)) [0x40#8] 0).cfg 1 (fun f => .exec 1 f) ∧
    InCall (fairRun (.exec 1 (yielded T .waitIdle)) [0x40#8] 0) 1 (.exec 1 (yielded T .waitIdle)) ∧
    Iterates (fairRun (.exec 1 (yielded T .waitIdle)) [0x40#8] 0) 1 (.exec 1 (yielded T .waitIdle)) ∧
    Unmet (fairRun (.exec 1 (yielded T .waitIdle)) [0x40#8] 0) 1 cfg.bits.busy :=
  ⟨weaklyFair_fairRun rfl rfl, rfl, weaklyFair_fairRun rfl rfl, .execute, ⟨_, rfl, rfl⟩,
    ⟨fun h => h _ rfl, ⟨_, rfl, rfl⟩, rfl⟩, rfl⟩
theorem witness_StartAndWriteComplete : masterIx cfg 2#8 = some 1 ∧ MayUse (at2 [0x41#8] []) 1 ∧
    (at2 [0x41#8] []).window.wf = true ∧ Smooth cfg ((at2 [0x41#8] []).unit 1).inputs (phases 1) :=
  ⟨by decide, mayUse_at2 _ _, by decide, by show answersFit _ _ _ = true; decide⟩
theorem witness_WritePhaseFailures : WritePhase cfg 2#8 (.cmdWrite 2#8 7#8) (sendWrites cfg 7#8) (.wrb 7#8) ∧
    masterIx cfg 2#8 = some 1 ∧ (∀ v, MayUse (at2 [v] []) 1) ∧ ((at2 [0xC1#8] []).unit 1).record = some held ∧
    (at2 [0xC1#8] []).window.wf = true ∧
    (∀ v : Byte, v ∈ [0x41#8, 0x80#8, 0x20#8, 0xA0#8] →
      bitSet (statusAfter (at2 [v] []) 1 (sendWrites cfg 7#8)) cfg.bits.tip = false ∧
      bitSet (statusAfter (at2 [v] []) 1 []) cfg.bits.tip = false) :=
  ⟨.inr ⟨_, rfl, rfl, rfl⟩, by decide, fun _ => mayUse_at2 _ _, rfl, by decide, by decide⟩
theorem witness_ReadByteCompletes : ReadPhase cfg 2#8 (.cmdReadAck 2#8) [.wr .cmdstat 0x20#8] .rdbAck ∧
    masterIx cfg 2#8 = some 1 ∧ MayUse (at2 [0xC1#8] [0x99#8]) 1 ∧ ((at2 [0xC1#8] [0x99#8]).unit 1).record = some held ∧
    (at2 [0xC1#8] [0x99#8]).window.wf = true ∧
    bitSet (statusAfter (at2 [0xC1#8] [0x99#8]) 1 [.wr .cmdstat 0x20#8]) cfg.bits.tip = false ∧
    bitSet (statusAfter (at2 [0xC1#8] [0x99#8]) 1 []) cfg.bits.tip = false ∧
    bitSet (statusAfter (at2 [0xC1#8] [0x99#8]) 1 []) cfg.bits.al = false ∧
    bitSet (statusAfter (at2 [0x61#8] []) 1 []) cfg.bits.al = true ∧
    dataAfter (at2 [0xC1#8] [0x99#8]) 1 [.wr .cmdstat 0x20#8] = 0x99#8 :=
  ⟨.inl ⟨rfl, rfl, rfl⟩, by decide, mayUse_at2 _ _, rfl, by decide, by decide, by decide, by decide, by decide, rfl⟩
theorem witness_StopCompletes : masterIx cfg 2#8 = some 1 ∧ MayUse (at2 [] []) 1 ∧ (at2 [] []).window.wf = true :=
  ⟨by decide, mayUse_at2 [] [], by decide⟩
theorem witness_UnmappedVerbsNotSupported : masterIx cfg 2#8 = some 1 ∧ masterEnabled cfg 1 = true := by decide
theorem witness_UnknownVerbsInvalid : (0x12 ≤ (0x12#8).toNat ∧ (0x12#8).toNat ≤ 0x1F) ∧
    (0x12 ≤ (0x1F#8).toNat ∧ (0x1F#8).toNat ≤ 0x1F) := by decide
theorem witness_ExecuteValidationOrder : cfg.nMasters.val < (15#8).toNat ∧ masterIx cfg 6#8 = some 5 ∧ masterEnabled cfg 5 = false ∧
    masterIx cfg 2#8 = some 1 ∧ masterEnabled cfg 1 = true ∧ 9 ≤ (9#4).toNat ∧ 9 ≤ (15#4).toNat ∧
    7#4 ∈ [4#4, 6#4, 7#4] ∧ 8#4 ∈ [0#4, 1#4, 2#4, 3#4, 5#4, 8#4] ∧ 0x7F < (0x80#8).toNat ∧
    (0x7F#8).toNat ≤ 0x7F ∧ ([] : List Byte).length = 0 ∧ cfg.blockMax.val < (List.replicate 33 0#8).length ∧
    instrTxn (.byteR 2#8 0x50#8) = some (2#8, ⟨.read, 0x50#8, 0#8, 1#4, .quick⟩) := by decide
theorem witness_ExecuteValidationOrder_payload : ¬ PayloadGood cfg ⟨.write, 0x50#8, 0#8, 8#4, .block []⟩ ∧
    ¬ PayloadGood cfg ⟨.read, 0x50#8, 0#8, 1#4, .byte 0#8⟩ ∧
    PayloadGood cfg ⟨.write, 0x50#8, 0#8, 5#4, .block (List.replicate 32 0#8)⟩ := by
  refine ⟨fun h => ?_, fun h => ?_, ?_⟩
  · obtain ⟨d, hd, h1, _⟩ := h.2.2.2.2 rfl
    cases hd; simp at h1
  · have := (h.2.1 (.inl rfl)).2 rfl
    cases this
  · refine ⟨fun h => ?_, fun h => ?_, fun h => ?_, fun _ => ⟨fun _ => ⟨_, rfl, by decide, by decide⟩, fun h => ?_⟩,
      fun h => ?_⟩
    · cases h
    · rcases h with h | h <;> cases h
    · cases h
    · cases h
    · cases h

/-- Master 2 meets an idle bus and `n` good phases. -/
theorem ready_at2 (n : Nat) (a : Byte) (data : List Byte) (ha : a.toNat ≤ 0x7F)
    (h : answersFit cfg.bits (txnPolls n) (done n) = true) : Ready (at2 (done n) data) 1 a n :=
  ⟨by show masterEnabled cfg 1 = true; decide, holds_at2 _ _, ha, h, rfl, by show 100 ≤ 1000; decide⟩

theorem witness_QuickCompletes : masterIx cfg 2#8 = some 1 ∧ Ready (at2 (done 1) []) 1 0x7F#8 1 :=
  ⟨by decide, ready_at2 1 _ _ (by decide) (by decide)⟩
theorem witness_ByteCompletes : masterIx cfg 2#8 = some 1 ∧ Ready (at2 (done 2) [0x5A#8]) 1 0x50#8 2 ∧
    DataNext ((at2 (done 2) [0x5A#8]).unit 1).inputs [0x5A#8] :=
  ⟨by decide, ready_at2 2 _ _ (by decide) (by decide), ⟨[], rfl⟩⟩
theorem witness_ByteDataCompletes : masterIx cfg 2#8 = some 1 ∧ Ready (at2 (done 4) [0x11#8]) 1 0x50#8 4 ∧
    DataNext ((at2 (done 4) [0x11#8]).unit 1).inputs [0x11#8] :=
  ⟨by decide, ready_at2 4 _ _ (by decide) (by decide), ⟨[], rfl⟩⟩
theorem witness_WordDataCompletes : masterIx cfg 2#8 = some 1 ∧ Ready (at2 (done 5) [0x34#8, 0x12#8]) 1 0x50#8 5 ∧
    DataNext ((at2 (done 5) [0x34#8, 0x12#8]).unit 1).inputs [wordLow 0x1234#16, wordHigh 0x1234#16] :=
  ⟨by decide, ready_at2 5 _ _ (by decide) (by decide), ⟨[], by decide⟩⟩
theorem witness_BlockCompletes : masterIx cfg 2#8 = some 1 ∧
    Ready (at2 (done 36) (0x20#8 :: List.replicate 32 7#8)) 1 0x50#8 (4 + (List.replicate 32 7#8).length) ∧
    1 ≤ (List.replicate 32 7#8).length ∧ (List.replicate 32 7#8).length ≤ cfg.blockMax.val ∧
    DataNext ((at2 (done 36) (0x20#8 :: List.replicate 32 7#8)).unit 1).inputs
      (BitVec.ofNat 8 (List.replicate 32 7#8).length :: List.replicate 32 7#8) ∧
    cfg.blockMax.val < (0x21#8).toNat ∧ DataNext ((at2 (done 4) [0x21#8]).unit 1).inputs [0x21#8] ∧
    Ready (at2 (done 4) [0x00#8]) 1 0x50#8 (4 + ([] : List Byte).length) ∧ (0x00#8).toNat = 0 ∧
    DataNext ((at2 (done 4) [0x00#8]).unit 1).inputs [0x00#8] :=
  ⟨by decide, ready_at2 36 _ _ (by decide) (by decide), by decide, by decide, ⟨[], by decide⟩, by decide, ⟨[], rfl⟩,
    ready_at2 4 _ _ (by decide) (by decide), by decide, ⟨[], rfl⟩⟩
theorem witness_I2cBlockCompletes : masterIx cfg 2#8 = some 1 ∧
    Ready (at2 (done 4) [0x42#8]) 1 0x50#8 (3 + [0x42#8].length) ∧ 1 ≤ [0x42#8].length ∧ [0x42#8].length ≤ cfg.blockMax.val ∧
    (1#8).toNat = [0x42#8].length ∧ DataNext ((at2 (done 4) [0x42#8]).unit 1).inputs [0x42#8] :=
  ⟨by decide, ready_at2 4 _ _ (by decide) (by decide), by decide, by decide, by decide, ⟨[], rfl⟩⟩

/-- A block read, with `len` as the device's length byte. -/
def blockRead : Txn := ⟨.read, 0x50#8, 0x20#8, 5#4, .quick⟩

theorem witness_ExecuteCompletes : masterIx cfg 2#8 = some 1 ∧ Valid (at2 (done 36) [0x20#8]) 1 blockRead ∧
    Holds (at2 (done 36) [0x20#8]) 1 ∧ (at2 (done 36) [0x20#8]).window.wf = true ∧
    Smooth cfg ((at2 (done 36) [0x20#8]).unit 1).inputs (txnPolls (maxPhases cfg)) ∧
    LengthByteOk cfg ((at2 (done 36) [0x20#8]).unit 1).inputs blockRead ∧ Unhurried (at2 (done 36) [0x20#8]) ∧
    StopDistinct cfg.bits :=
  ⟨by decide, by show validateTxn cfg 1 blockRead = none; decide, holds_at2 _ _, by decide,
    by show answersFit _ _ _ = true; decide, fun _ _ => ⟨0x20#8, [], rfl, by decide⟩,
    by show 100 ≤ 1000; decide, ⟨by decide, by decide, by decide, by decide⟩⟩
/-- Master 2 with these answers, for runs that fail. -/
def at2late (status data : List Byte) (deadline : List Bool) : State := on 1 (unitOf held status data deadline)
/-- What the failing clause of `ExecuteCompletes` asks, on master 2 with its lock held. -/
def FailsThere (s : State) (i : Instr) (t : Txn) (n j : Nat) (pr : Prim) (v : Byte) (e : Err) (x : MasterState) : Prop :=
  instrTxn i = some (2#8, t) ∧ masterIx s.cfg 2#8 = some 1 ∧ Valid s 1 t ∧ Holds s 1 ∧ (s.unit 1).record = some held ∧
  s.window.wf = true ∧ Unhurried s ∧ ReceivesCount s.cfg (s.unit 1).inputs t j n ∧ (txnPrims t n)[j]? = some pr ∧
  Smooth s.cfg (s.unit 1).inputs ((txnPolls j).take j) ∧ (s.unit 1).inputs.status[j]? = some v ∧
  pr.Fails s.cfg.bits v (s.unit 1).inputs.deadline.head? held e x
/-- `wait_idle` at its deadline (L1-10); the corner cases of R183 (the command byte not acknowledged) and R186 (arbitration
lost in the phase of the second byte); the last byte of a write at its deadline; the last phase of a block read of two bytes, AL
and RXACK set: a read phase sets no `persistent_nack`. -/
theorem witness_ExecuteCompletes_fails :
    FailsThere (at2late [0x40#8] [] [true]) (.quickW 2#8 0x50#8) T 0 0 .waitIdle 0x40#8 .timeout held ∧
    FailsThere (at2 (done 1 ++ [0x81#8]) []) (.byteDataW 2#8 0x50#8 7#8 9#8) ⟨.write, 0x50#8, 7#8, 2#4, .byte 9#8⟩ 0 2
      (.wrb 7#8) 0x81#8 .noAck { held with retryNeeded := true } ∧
    FailsThere (at2 (done 4 ++ [0x21#8]) [1#8]) (.wordDataR 2#8 0x50#8 7#8) ⟨.read, 0x50#8, 7#8, 3#4, .quick⟩ 2 5 .rdbNack
      0x21#8 .arbitrationLost { held with retryNeeded := true } ∧
    FailsThere (at2late (done 3 ++ [0x43#8]) [] [true, false]) (.wordDataW 2#8 0x50#8 7#8 0x1234#16)
      ⟨.write, 0x50#8, 7#8, 3#4, .word 0x1234#16⟩ 0 4 (.wrb 0x12#8) 0x43#8 .timeout held ∧
    FailsThere (at2 (done 5 ++ [0xA1#8]) [2#8, 9#8]) (.execute 2#8 blockRead) blockRead 2 6 .rdbNack 0xA1#8
      .arbitrationLost { held with retryNeeded := true } := by
  have hold : ∀ st d l, Holds (at2late st d l) 1 := fun _ _ _ => ⟨held, rfl, rfl⟩
  refine ⟨⟨rfl, by decide, by show validateTxn _ _ _ = none; decide, hold _ _ _, rfl, by decide, by show 100 ≤ 1000; decide,
      fun h => by (cases h), rfl, by show answersFit _ _ _ = true; decide, rfl, .inr ⟨by decide, rfl, rfl, rfl⟩⟩,
    ⟨rfl, by decide, by show validateTxn _ _ _ = none; decide, hold _ _ _, rfl, by decide, by show 100 ≤ 1000; decide,
      fun h => by (cases h), rfl, by show answersFit _ _ _ = true; decide, rfl,
      .inl ⟨by decide, ⟨by decide, .inr ⟨by decide, by decide, rfl, rfl⟩⟩, by decide⟩⟩,
    ⟨rfl, by decide, by show validateTxn _ _ _ = none; decide, hold _ _ _, rfl, by decide, by show 100 ≤ 1000; decide,
      fun _ => ⟨fun _ => by decide, fun h => absurd h (by decide)⟩, rfl, by show answersFit _ _ _ = true; decide, rfl,
      .inl ⟨by decide, ⟨by decide, .inl ⟨by decide, rfl⟩⟩, by decide⟩⟩,
    ⟨rfl, by decide, by show validateTxn _ _ _ = none; decide, hold _ _ _, rfl, by decide, by show 100 ≤ 1000; decide,
      fun h => by (cases h), rfl, by show answersFit _ _ _ = true; decide, rfl, .inr ⟨by decide, rfl, rfl, rfl⟩⟩,
    ⟨rfl, by decide, by show validateTxn _ _ _ = none; decide, hold _ _ _, rfl, by decide, by show 100 ≤ 1000; decide,
      fun _ => ⟨fun h => absurd rfl h, fun _ => ⟨by decide, by decide, fun _ => ⟨[9#8], rfl⟩⟩⟩, rfl,
      by show answersFit _ _ _ = true; decide, rfl,
      .inl ⟨by decide, ⟨by decide, .inl ⟨by decide, rfl⟩⟩, by decide⟩⟩⟩
/-- L1-10: `wait_idle` at its deadline, the STOP all the same. R183: the command byte not acknowledged, the data byte never
sent, STOP the next and last command. -/
theorem test_execute_fails :
    seen 1 (exec (.execute 2#8 T) (at2late [0x40#8] [] [true])) =
      some ([.err .timeout], opening.dropLast ++ [.rd .cmdstat 0x40#8] ++ closing) ∧
    seen 1 (exec (.byteDataW 2#8 0x50#8 7#8 9#8) (at2 (done 1 ++ [0x81#8]) [])) =
      some ([.err .noAck], opening ++ D 0xA0#8 ++ C 0x90#8 ++ D 7#8 ++ [.wr .cmdstat 0x10#8, .rd .cmdstat 0x81#8] ++
        closing) := by decide
theorem witness_ExactlyOneStop : StopDistinct cfg.bits ∧ Valid (at2 (done 1) []) 1 T ∧
    (∃ u, beginExecute 1 T (at2 (done 1) []) = .done (.payload .quick) u) ∧
    (∃ f u, f.epc = .addr ∧ beginExecute 1 T (on 1 (unitOf held [0#8, 0x43#8, 0x41#8] [] [false])) =
      .paused (.exec 1 f) u) ∧
    (∃ f u, f.epc = .ret ∧ resumeExecCall 1 ((execStart T).stopWith (.err .noAck)) { at2 [] [] with quantum := 0 } =
      .paused (.exec 1 f) u) ∧
    (∃ f u, f.epc ≠ .validate ∧ f.epc ≠ .ret ∧ resumeExecCall 1 f (at2 [0x41#8] []) = .done (.payload .quick) u) ∧
    ((execStart T).atPos .ret).epc = .ret ∧ Holds (at2 [] []) 1 ∧
    (∃ g q, execPos cfg 1 (execStart T) ((at2 [] []).port 1) = .go g q) ∧
    (∃ g q, execPos cfg 1 ((execStart T).atPos .addr) ((on 1 (unitOf held [0x43#8] [] [false])).port 1) = .wait g q) :=
  ⟨⟨by decide, by decide, by decide, by decide⟩, by show validateTxn cfg 1 T = none; decide, ⟨_, rfl⟩,
    ⟨{ execStart T with epc := .addr, polling := true }, _, rfl, rfl⟩, ⟨_, _, rfl, rfl⟩,
    ⟨{ execStart T with epc := .addr, polling := true }, _, by decide, by decide, rfl⟩, rfl, holds_at2 _ _, ⟨_, _, rfl⟩,
    ⟨_, _, rfl⟩⟩
/-- The steps of rule R172's table, on master 11: a phase that fails (START not acknowledged, a data byte with the
signature, the length byte with AL), one that is good (the command byte), one that receives (the last byte of two), and the
positions without a primitive. -/
theorem witness_ExactlyOneStop_positions :
    (∀ v, Carries (held11 [v] [5#8] []).cfg 10 (fun f => .exec 10 f) ∧ Holds (held11 [v] [5#8] []) 10 ∧
      ((held11 [v] [5#8] []).unit 10).record = some (record (.held 1) 0#8 0#3) ∧ v = statusAfter (held11 [v] [5#8] []) 10 [] ∧
      5#8 = dataAfter (held11 [v] [5#8] []) 10 []) ∧ (held11 [0x41#8] [] []).quantum = 0 ∧
    (yielded T .addr).prim = some (.start 0xA0#8) ∧ (Prim.start 0xA0#8).FailsAt cfg.bits 0x81#8 .noAck ∧
    (yielded { T with sizeClass := 1#4, payload := .byte 9#8 } .dataW).prim = some (.wrb 9#8) ∧
    (Prim.wrb 9#8).FailsAt cfg.bits 0xA1#8 .arbitrationLost ∧
    (yielded blockRead .lenR).prim = some .rdbAck ∧ Prim.rdbAck.FailsAt cfg.bits 0x21#8 .arbitrationLost ∧
    (∀ v : Byte, v ∈ [0x81#8, 0xA1#8, 0x21#8, 0x41#8] → bitSet v cfg.bits.tip = false) ∧
    (yielded blockRead .cmd).prim = some (.wrb 0x20#8) ∧ (Prim.wrb 0x20#8).receives = false ∧
    (∀ e, ¬ (Prim.wrb 0x20#8).FailsAt cfg.bits 0x41#8 e) ∧
    { yielded blockRead .dataR with i := 1, len := 2 }.prim = some .rdbNack ∧ Prim.rdbNack.receives = true ∧
    (∀ e, ¬ Prim.rdbNack.FailsAt cfg.bits 0x81#8 e) ∧
    (yielded T .cmd).prim = none ∧ ((execStart T).atPos .reinit).prim = none ∧
    ((execStart T).stopWith (.err .noAck)).prim = none ∧ ((execStart T).stopWith (.err .noAck)).epc ≠ .validate ∧
    ((execStart T).stopWith (.err .noAck)).epc ≠ .ret := by
  have good : ∀ (pr : Prim) (v : Byte), bitSet v cfg.bits.al = false → (bitSet v cfg.bits.rxack && pr.sends) = false →
      ∀ e, ¬ pr.FailsAt cfg.bits v e := by
    rintro pr v h1 h2 e ⟨-, ⟨h, -⟩ | ⟨-, h, h', -⟩⟩
    · rw [h1] at h; cases h
    · rw [h, h'] at h2; cases h2
  exact ⟨fun v => ⟨.execute, ⟨_, rfl, rfl⟩, rfl, rfl, rfl⟩, rfl, rfl, ⟨by decide, .inr ⟨by decide, by decide, rfl, rfl⟩⟩, rfl,
    ⟨by decide, .inl ⟨by decide, rfl⟩⟩, rfl, ⟨by decide, .inl ⟨by decide, rfl⟩⟩, by decide, rfl, rfl,
    good _ _ (by decide) (by decide), rfl, rfl, good _ _ (by decide) (by decide), rfl, rfl, rfl, by decide, by decide⟩
theorem witness_ExactlyOneStop_refused : ¬ Valid (at2 [] []) 1 { T with sizeClass := 9#4 } := by
  show ¬ validateTxn cfg 1 { T with sizeClass := 9#4 } = none; decide
theorem witness_RecordFrame : (∃ t, exec (.quickW 2#8 0x50#8) (at2 (done 1) []) = .next t) ∧
    leavesLockAndCache (.quickW 2#8 0x50#8) = true ∧ (∃ t, exec (.cmdStop 2#8) (at2 [] []) = .next t) ∧
    leavesRecords (.cmdStop 2#8) = true ∧ ((at2 [] []).unit 1).record = some held ∧
    ((at2 [] []).unit 0).record = none ∧ (Call.prim 1 .waitIdle).leavesRecords = true ∧
    (Call.mux 1 (muxStart 0x70#8 1#8)).leavesLockAndCache = true ∧
    (∃ r u, resumeCall (.prim 1 .waitIdle) (at2 [0#8] []) = .done r u) ∧
    (∃ c u, resumeCall (.mux 1 (muxStart 0x70#8 1#8)) { at2 [] [] with quantum := 0 } = .paused c u) :=
  ⟨⟨_, rfl⟩, rfl, ⟨_, rfl⟩, rfl, rfl, rfl, rfl, rfl, ⟨_, _, rfl⟩, ⟨_, _, rfl⟩⟩
theorem witness_AccessOutOfRange : (0#8).toNat = 0 ∧ cfg.nMasters.val < (99#8).toNat ∧ masterIx cfg 6#8 = some 5 ∧
    masterEnabled cfg 5 = false ∧ instrTxn (.quickW 6#8 0x50#8) = some (6#8, T) := by decide
theorem witness_AccessBlockedAtLock : masterIx cfg a0.master = some 10 ∧ masterEnabled cfg 10 = true ∧
    ((on 10 (unitOf (record (.held 0) 0#8 0#3) [] [] [])).unit 10).record = some (record (.held 0) 0#8 0#3) ∧
    (record (.held 0) 0#8 0#3).lock ≠ .free ∧ held.lock ≠ .free := ⟨by decide, by decide, rfl, by decide, by decide⟩
theorem witness_AccessReturnsUnlocked : accessMaster cfg d11 = some 10 ∧
    (∃ u, beginAccess d11 T (at11 0#8 0#3 (done 1) []) = .done (.payload .quick) u) ∧
    (∃ f u, beginAccess d11 T (on 10 (unitOf (record .free 0#8 0#3) [0x40#8] [] [false])) = .paused (.access f) u ∧
      f.apc = .attempt) ∧
    (∃ f u, resumeAccessCall (accessFrame d11 T .unlock)
      { on 10 (unitOf (record (.held 1) 0#8 0#3) [] [] []) with quantum := 0 } = .paused (.access f) u ∧ f.apc = .ret) ∧
    (∃ u, resumeAccessCall { accessFrame d11 T .attempt with inner := some ((execStart T).atPos .waitIdle) }
      (on 10 (unitOf (record (.held 1) 0#8 0#3) (done 1) [] [])) = .done (.payload .quick) u) :=
  ⟨by decide, ⟨_, rfl⟩, ⟨_, _, rfl, rfl⟩, ⟨_, _, rfl, rfl⟩, ⟨_, rfl⟩⟩
theorem valid_T (sw : Byte) (ch : BitVec 3) (status : List Byte) : Valid (at11 sw ch status []) 10 T := by
  show validateTxn cfg 10 T = none; decide
theorem lengthOk_T (q : Inputs) : LengthByteOk cfg q T := fun h _ => absurd h (by decide)
theorem witness_AccessWithoutMuxCompletes : masterIx cfg d11.master = some 10 ∧
    ((at11 0x70#8 0#3 (done 36) []).unit 10).record = some (record .free 0x70#8 0#3) ∧
    (record .free 0x70#8 0#3).lock = .free ∧ Valid (at11 0x70#8 0#3 (done 36) []) 10 T ∧
    (at11 0x70#8 0#3 (done 36) []).window.wf = true ∧
    Smooth cfg ((at11 0x70#8 0#3 (done 36) []).unit 10).inputs (txnPolls (maxPhases cfg)) ∧
    LengthByteOk cfg ((at11 0x70#8 0#3 (done 36) []).unit 10).inputs T ∧ Unhurried (at11 0x70#8 0#3 (done 36) []) ∧
    d11.sel = .direct ∧
    (record .free 0x70#8 0#3).lastSwitch ≠ 0#8 ∧ a0.sel = .switch (record .free 0x70#8 0#3).lastSwitch ∧
    a0.channel = (record .free 0x70#8 0#3).lastChannel :=
  ⟨by decide, rfl, rfl, valid_T _ _ _, by decide, by show answersFit _ _ _ = true; decide, lengthOk_T _,
    by show 100 ≤ 1000; decide, rfl, by decide, rfl, rfl⟩
theorem witness_AccessWithMuxCompletes : masterIx cfg a0.master = some 10 ∧ a0.sel = .switch 0x70#8 ∧
    (0x70#8).toNat ≤ 0x7F ∧ 1 ≤ cfg.muxAttempts ∧
    ((at11 0#8 0#3 (done 2 ++ done 36) []).unit 10).record = some (record .free 0#8 0#3) ∧
    Valid (at11 0#8 0#3 (done 2 ++ done 36) []) 10 T ∧ (at11 0#8 0#3 (done 2 ++ done 36) []).window.wf = true ∧
    LengthByteOk cfg ((at11 0#8 0#3 (done 2 ++ done 36) []).unit 10).inputs T ∧
    Unhurried (at11 0#8 0#3 (done 2 ++ done 36) []) ∧
    Smooth cfg ((at11 0#8 0#3 (done 2 ++ done 36) []).unit 10).inputs (txnPolls 2 ++ txnPolls (maxPhases cfg)) ∧
    ((record .free 0x70#8 1#3).lastSwitch = 0x70#8 ∧ (record .free 0x70#8 1#3).lastChannel ≠ a0.channel) ∧
    ((record .free 0x71#8 0#3).lastSwitch ≠ 0#8 ∧ (record .free 0x71#8 0#3).lastSwitch ≠ 0x70#8 ∧
      (record .free 0x71#8 0#3).lastSwitch.toNat ≤ 0x7F) ∧
    Smooth cfg ((at11 0x71#8 0#3 (done 2 ++ (done 2 ++ done 36)) []).unit 10).inputs
      (txnPolls 2 ++ (txnPolls 2 ++ txnPolls (maxPhases cfg))) :=
  ⟨by decide, rfl, by decide, by decide, rfl, valid_T _ _ _, by decide, lengthOk_T _, by show 100 ≤ 1000; decide,
    by show answersFit _ _ _ = true; decide, ⟨rfl, by decide⟩, ⟨by decide, by decide, by decide⟩,
    by show answersFit _ _ _ = true; decide⟩
theorem witness_DirectAccessLeavesMux : accessMaster cfg d11 = some 10 ∧ d11.sel = .direct ∧
    ((at11 0x70#8 0#3 (done 1) []).unit 10).record = some (record .free 0x70#8 0#3) ∧
    (∃ x u, beginAccess d11 T (at11 0x70#8 0#3 (done 1) []) = .done x u) ∧
    (∃ c u, beginAccess d11 T (on 10 (unitOf (record .free 0#8 0#3) [0x40#8] [] [false])) = .paused c u) :=
  ⟨by decide, rfl, rfl, ⟨_, _, rfl⟩, ⟨_, _, rfl⟩⟩
theorem witness_MuxSelectFailedKeepsCache : accessMaster cfg a0 = some 10 ∧
    ((at11 0#8 0#3 [0#8, 0xC1#8, 0#8, 0xC1#8, 0#8, 0xC1#8] []).unit 10).record = some (record .free 0#8 0#3) ∧
    (∃ u, beginAccess a0 T (at11 0#8 0#3 [0#8, 0xC1#8, 0#8, 0xC1#8, 0#8, 0xC1#8] []) =
      .done (.err .muxSelectFailed) u) ∧
    (∃ u, resumeAccessCall { accessFrame a0 T .mux with
        write := some { muxStart 0x70#8 1#8 with tried := 2, inner := some ((execStart (muxTxn 0x70#8 1#8)).atPos .waitIdle) } }
      (on 10 (unitOf (record (.held 1) 0#8 0#3) [0#8, 0xC1#8] [] [])) = .done (.err .muxSelectFailed) u) ∧
    (∃ u, resumeAccessCall { accessFrame a0 T .unlock with res := .err .muxSelectFailed }
      (on 10 (unitOf (record (.held 1) 0#8 0#3) [] [] [])) = .done (.err .muxSelectFailed) u) :=
  ⟨by decide, rfl, ⟨_, rfl⟩, ⟨_, rfl⟩, ⟨_, rfl⟩⟩
/-- Resumed at its lock; cut off in its mux step, at its unlock, and at its return. -/
theorem witness_MuxSelectFailedKeepsCache_parts :
    (∃ u, resumeAccessCall (accessFrame a0 T .lock) (at11 0#8 0#3 [0#8, 0xC1#8, 0#8, 0xC1#8, 0#8, 0xC1#8] []) =
      .done (.err .muxSelectFailed) u) ∧
    (∃ g u, resumeAccessCall (accessFrame a0 T .lock) { at11 0#8 0#3 [] [] with quantum := 1 } =
      .paused (.access g) u ∧ g.apc = .mux) ∧
    (∃ g u, resumeAccessCall { accessFrame a0 T .mux with write := some { muxStart 0x70#8 1#8 with tried := 3 } }
      { on 10 (unitOf (record (.held 1) 0#8 0#3) [] [] []) with quantum := 0 } = .paused (.access g) u ∧
      g.apc = .unlock ∧ g.res = .err .muxSelectFailed) ∧
    (∃ g u, resumeAccessCall { accessFrame a0 T .unlock with res := .err .muxSelectFailed }
      { on 10 (unitOf (record (.held 1) 0#8 0#3) [] [] []) with quantum := 0 } = .paused (.access g) u ∧
      g.apc = .ret ∧ g.res = .err .muxSelectFailed) :=
  ⟨⟨_, rfl⟩, ⟨_, _, rfl, rfl⟩, ⟨_, _, rfl, rfl, rfl⟩, ⟨_, _, rfl, rfl, rfl⟩⟩
theorem witness_MuxWriteGivesUp (status : List Byte) (h : status = [0#8, 0xC1#8, 0xBF#8, 0x80#8, 0#8, 0xDD#8, 9#8]) :
    masterIx cfg 2#8 = some 1 ∧ masterEnabled cfg 1 = true ∧ (0x70#8).toNat ≤ 0x7F ∧ (at2 status []).window.wf = true ∧
    Holds (at2 status []) 1 ∧ ((at2 status []).unit 1).record = some held ∧ 1 ≤ cfg.muxAttempts ∧
    7 * cfg.muxAttempts ≤ (at2 status []).quantum ∧
    nackedTries cfg.bits cfg.muxAttempts ((at2 status []).unit 1).inputs.status = true := by
  subst h
  exact ⟨by decide, by decide, by decide, by decide, holds_at2 _ _, rfl, by decide, by show 7 * 3 ≤ 1000; decide,
    by decide⟩
theorem witness_RetryBudgetBounds : StopDistinct cfg.bits ∧ accessMaster cfg d11 = some 10 ∧ d11.sel = .direct ∧
    (∃ r u, beginAccess d11 T (at11 0#8 0#3 ([0#8, 0xC1#8] ++ done 1) []) = .done r u) ∧
    (∃ f u, beginAccess d11 T { at11 0#8 0#3 (done 1) [] with quantum := 8 } = .paused (.access f) u) ∧
    (∃ u, resumeAccessCall { accessFrame d11 T .attempt with
        retries := 1, inner := some ((execStart T).atPos .waitIdle) }
      (on 10 (unitOf (record (.held 1) 0#8 0#3) (done 1) [] [])) = .done (.payload .quick) u) ∧
    1 ≤ max cfg.retryHigh cfg.retryLow :=
  ⟨⟨by decide, by decide, by decide, by decide⟩, by decide, rfl, ⟨_, _, rfl⟩, ⟨_, _, rfl⟩, ⟨_, rfl⟩, by decide⟩
/-- What a frame still allows, as rule R236's bounds and vectors V-MX-6 and V-RT-2 count it: two mux writes of 3 attempts and
2001 transactions before the mux step, none at the unlock; one transaction less at each retry. -/
theorem test_stopsLeft : (accessFrame a0 T .validate).stopsLeft cfg = 2 * 3 + 2001 ∧
    (accessFrame d11 T .lock).stopsLeft cfg = 2001 ∧ (accessFrame d11 T .attempt).stopsLeft cfg = 2001 ∧
    { accessFrame d11 T .retryDecide with retries := 1999 }.stopsLeft cfg = 1 ∧
    (accessFrame d11 T .unlock).stopsLeft cfg = 0 := by decide
theorem witness_RetryBudgetBounds_parts : StopDistinct cfg.bits ∧ accessMaster cfg d11 = some 10 ∧
    (∃ g u, resumeAccessCall { accessFrame d11 T .retryDecide with retries := 1999, res := .err .noAck }
      { on 10 (unitOf { record (.held 1) 0#8 0#3 with retryNeeded := true, persistentNack := true } [] [] []) with
        quantum := 1 } = .paused (.access g) u ∧ g.retries = 2000) ∧
    1999 ≤ max cfg.retryHigh cfg.retryLow :=
  ⟨⟨by decide, by decide, by decide, by decide⟩, by decide, ⟨_, _, rfl, rfl⟩, by decide⟩
/-- The two budgets at their ends, and the results that are not retried. -/
theorem witness_RetryBudgetBounds_decide : masterIx cfg d11.master = some 10 ∧ accessMaster cfg d11 = some 10 ∧
    Holds { on 10 (unitOf (record (.held 1) 0#8 0#3) [] [] []) with quantum := 0 } 10 ∧
    ((on 10 (unitOf (record (.held 1) 0#8 0#3) [] [] [])).unit 10).record = some (record (.held 1) 0#8 0#3) ∧
    (accessFrame d11 T .retryDecide).apc = .retryDecide ∧ 4 < cfg.retryLow ∧ cfg.retryLow ≤ 5 ∧
    1999 < cfg.retryHigh ∧ cfg.retryHigh ≤ 2000 ∧ cfg.retryOnTimeout = false ∧
    ¬((record (.held 1) 0#8 0#3).retryNeeded = true ∧ (record (.held 1) 0#8 0#3).persistentNack = true) ∧
    (({ record (.held 1) 0#8 0#3 with retryNeeded := true, persistentNack := true } : MasterState).retryNeeded = true) :=
  ⟨by decide, by decide, ⟨_, rfl, rfl⟩, rfl, rfl, by decide, by decide, by decide, by decide, rfl, by decide, rfl⟩
theorem witness_RetryBudgetBounds_ends : masterIx cfg d11.master = some 10 ∧ d11.sel = .direct ∧
    ((at11 0#8 0#3 (List.replicate 6 [0#8, 0xC1#8]).flatten []).unit 10).record = some (record .free 0#8 0#3) ∧
    Valid (at11 0#8 0#3 (List.replicate 6 [0#8, 0xC1#8]).flatten []) 10 T ∧
    (at11 0#8 0#3 (List.replicate 6 [0#8, 0xC1#8]).flatten []).window.wf = true ∧
    13 + 8 * cfg.retryLow ≤ (at11 0#8 0#3 (List.replicate 6 [0#8, 0xC1#8]).flatten []).quantum ∧
    nackedTries cfg.bits (1 + cfg.retryLow) ((at11 0#8 0#3 (List.replicate 6 [0#8, 0xC1#8]).flatten []).unit 10).inputs.status = true ∧
    ¬ Valid (at11 0#8 0#3 [] []) 10 { T with sizeClass := 9#4 } ∧ Unhurried (at11 0#8 0#3 [] []) :=
  ⟨by decide, rfl, rfl, valid_T _ _ _, by decide, by show 53 ≤ 1000; decide, by decide,
    by show ¬ validateTxn cfg 10 { T with sizeClass := 9#4 } = none; decide, by show 100 ≤ 1000; decide⟩
/-- Master 11 free under the retry policy of `c`, its quick write `T` valid, its `quantum` enough for `n` positions. -/
def TriesOn (s : State) (n : Nat) : Prop :=
  masterIx s.cfg d11.master = some 10 ∧ d11.sel = .direct ∧ (s.unit 10).record = some (record .free 0#8 0#3) ∧
  (record .free 0#8 0#3).lock = .free ∧ Valid s 10 T ∧ s.window.wf = true ∧ n ≤ s.quantum
/-- The clear at an attempt; the signature and then `RETRY_HIGH` attempts without an ACK, with a `RETRY_HIGH` of 2 (R237). -/
theorem witness_RetryBudgetBounds_signature (s : State)
    (h : s = { at11 0#8 0#3 [0#8, 0xE1#8, 0#8, 0xC1#8, 0#8, 0x81#8] [] with cfg := { cfg with retryHigh := 2 } }) :
    (accessMaster cfg d11 = some 10 ∧ Holds (held11 [] [] []) 10 ∧
      ((held11 [] [] []).unit 10).record = some (record (.held 1) 0#8 0#3) ∧ (accessFrame d11 T .attempt).apc = .attempt ∧
      (accessFrame d11 T .attempt).inner = none ∧ (held11 [] [] []).quantum = 0) ∧
    TriesOn s (13 + 8 * s.cfg.retryHigh) ∧ 1 ≤ s.cfg.retryHigh ∧ signature s.cfg.bits 0xE1#8 = true ∧
    triesFit s.cfg.bits [0xE1#8] (s.unit 10).inputs.status = true ∧
    nackedTries s.cfg.bits s.cfg.retryHigh ((s.unit 10).inputs.status.drop 2) = true := by
  subst h
  exact ⟨⟨by decide, ⟨_, rfl, rfl⟩, rfl, rfl, rfl, rfl⟩, ⟨by decide, rfl, rfl, rfl,
    by show validateTxn { cfg with retryHigh := 2 } 10 T = none; decide, by decide, by show 29 ≤ 1000; decide⟩, by decide,
    by decide, by decide, by decide⟩
/-- V-RT-10, and V-RT-11 with its 6 attempts. -/
theorem witness_RetryBudgetBounds_tries (s : State) (vs : List Byte)
    (h : (s = on 10 (unitOf (record .free 0#8 0#3) [0#8, 0xE1#8, 0#8, 0x43#8] [] [true]) ∧ vs = [0xE1#8]) ∨
      (s = { on 10 (unitOf (record .free 0#8 0#3) ([0#8, 0xE1#8] ++ (List.replicate 5 [0#8, 0x43#8]).flatten) []
          (List.replicate 5 true)) with cfg := { cfg with retryOnTimeout := true } } ∧
        vs = 0xE1#8 :: List.replicate 4 0x43#8)) :
    TriesOn s (13 + 8 * vs.length) ∧ triesGoOn s.cfg [] vs = true ∧ startError s.cfg.bits 0x43#8 = some .timeout ∧
    retried s.cfg vs 0x43#8 = false ∧ triesFit s.cfg.bits (vs ++ [0x43#8]) (s.unit 10).inputs.status = true ∧
    triesLate s.cfg.bits (vs ++ [0x43#8]) <+: (s.unit 10).inputs.deadline := by
  rcases h with ⟨rfl, rfl⟩ | ⟨rfl, rfl⟩
  · exact ⟨⟨by decide, rfl, rfl, rfl, by show validateTxn cfg 10 T = none; decide, by decide, by show 21 ≤ 1000; decide⟩, by decide, by decide, by decide,
      by decide, by decide⟩
  · exact ⟨⟨by decide, rfl, rfl, rfl, by show validateTxn { cfg with retryOnTimeout := true } 10 T = none; decide,
      by decide, by show 53 ≤ 1000; decide⟩, by decide, by decide, by decide, by decide, by decide⟩
/-- V-RT-8 (the signature at the last attempt of the low budget lifts it), with a `RETRY_HIGH` of 6. -/
theorem test_triesGoOn_late_signature :
    triesGoOn { cfg with retryHigh := 6 } [] (List.replicate 5 0xC1#8 ++ [0xE1#8]) = true ∧
    retried { cfg with retryHigh := 6 } (List.replicate 5 0xC1#8 ++ [0xE1#8]) 0xC1#8 = false ∧
    triesGoOn cfg [] (List.replicate 6 0xC1#8) = false := by decide
/-- V-RT-7: the signature, 6 attempts without an ACK, then a good one. -/
theorem witness_RetryBudgetBounds_then_good (s : State)
    (h : s = at11 0#8 0#3 ([0#8, 0xE1#8] ++ (List.replicate 6 [0#8, 0xC1#8]).flatten ++ done 36) []) :
    TriesOn s (68 + maxData s.cfg + 8 * 7) ∧ triesGoOn s.cfg [] (0xE1#8 :: List.replicate 6 0xC1#8) = true ∧
    triesFit s.cfg.bits (0xE1#8 :: List.replicate 6 0xC1#8) (s.unit 10).inputs.status = true ∧
    triesLate s.cfg.bits (0xE1#8 :: List.replicate 6 0xC1#8) <+: (s.unit 10).inputs.deadline ∧
    answersFit s.cfg.bits (txnPolls (maxPhases s.cfg)) ((s.unit 10).inputs.status.drop (2 * 7)) = true ∧
    LengthByteOk s.cfg (s.unit 10).inputs T := by
  subst h
  exact ⟨⟨by decide, rfl, rfl, rfl, valid_T _ _ _, by decide, by show 156 ≤ 1000; decide⟩, by decide, by decide, by decide,
    by decide, fun _ h => by cases h⟩
/-- V-RT-10 and V-RT-11: after a timeout `retry_needed` is clear, so the budget is `RETRY_LOW` again; V-RT-7's flags. -/
theorem test_access_retry_flags :
    (counted 10 (exec (.access d11 T) (on 10 (unitOf (record .free 0#8 0#3) [0#8, 0xE1#8, 0#8, 0x43#8] [] [true]))) =
      some ([.err .timeout], 18) ∧
    recordAfter 10 (exec (.access d11 T) (on 10 (unitOf (record .free 0#8 0#3) [0#8, 0xE1#8, 0#8, 0x43#8] [] [true]))) =
      some { record .free 0#8 0#3 with persistentNack := true }) ∧
    counted 10 (exec (.access d11 T) { on 10 (unitOf (record .free 0#8 0#3)
        ([0#8, 0xE1#8] ++ (List.replicate 5 [0#8, 0x43#8]).flatten) [] (List.replicate 5 true)) with
      cfg := { cfg with retryOnTimeout := true } }) = some ([.err .timeout], 54) ∧
    recordAfter 10 (exec (.access d11 T) (at11 0#8 0#3
      ([0#8, 0xE1#8] ++ (List.replicate 6 [0#8, 0xC1#8]).flatten ++ done 1) [])) =
      some { record .free 0#8 0#3 with persistentNack := true } := by decide
theorem witness_MuxSelectAndDeselectComplete : masterIx cfg 2#8 = some 1 ∧ Ready (at2 (done 2) []) 1 0x70#8 2 ∧
    1 ≤ cfg.muxAttempts := ⟨by decide, ready_at2 2 _ _ (by decide) (by decide), by decide⟩
/-- The first deselect of master 11 is never acknowledged, the second is at once. -/
def mixed : List Byte := [0#8, 0xC1#8, 0#8, 0xC1#8, 0#8, 0xC1#8] ++ done 2
theorem witness_DeselectAllCompletes (status : List Byte) (oks : MasterIx → List Bool)
    (h : (status = done 2 ++ done 2 ∧ oks = fun m => if m = 10 then [true, true] else []) ∨
      (status = mixed ∧ oks = fun m => if m = 10 then [false, true] else [])) :
    (allFree status).window.wf = true ∧ 1 ≤ cfg.muxAttempts ∧ deselectPositions cfg ≤ (allFree status).quantum ∧
    (∀ m ∈ cfg.enabled, (∃ r, ((allFree status).unit m).record = some r ∧ r.lock = .free) ∧
      (oks m).length = (switchesOf cfg m).length ∧
      deselectAnswers cfg (oks m) ((allFree status).unit m).inputs.status = true ∧
      ∀ sw ∈ switchesOf cfg m, sw.toNat ≤ 0x7F) := by
  refine ⟨rfl, by decide, by show deselectPositions cfg ≤ 1000; decide, fun m hm => ?_⟩
  have : m = 0 ∨ m = 1 ∨ m = 2 ∨ m = 10 := by simpa [cfg, Config.reference] using hm
  rcases h with ⟨rfl, rfl⟩ | ⟨rfl, rfl⟩ <;> rcases this with rfl | rfl | rfl | rfl <;>
    exact ⟨⟨_, rfl, rfl⟩, by decide, by decide, by decide⟩
theorem witness_DeselectAllCompletes_blocked : 0 ∈ cfg.enabled ∧ (∀ j ∈ cfg.enabled, 0 ≤ j) ∧
    ((on 0 (unitOf (record (.held 0) 0#8 0#3) [] [] [])).unit 0).record = some (record (.held 0) 0#8 0#3) ∧
    (record (.held 0) 0#8 0#3).lock ≠ .free ∧ (deselectFrame [0, 10] true).todo = 0 :: [10] ∧
    (deselectFrame [0, 10] true).locked = false := ⟨by decide, by decide, rfl, by decide, rfl, rfl⟩
theorem witness_StepKeeps : WindowCanonical (calling [0x40#8, 0#8, 2#8]) ∧
    OnlyIssuedCommands (calling [0x40#8, 0#8, 2#8]) ∧ ∃ t, step (calling [0x40#8, 0#8, 2#8]) = .next t := by
  refine ⟨rfl, fun m a ha => ?_, ⟨_, rfl⟩⟩
  have : ∀ m : MasterIx, ((calling [0x40#8, 0#8, 2#8]).unit m).history = [] := by decide
  rw [this m] at ha
  cases ha
/-- Master 6 is not enabled; the engine runs and agent 1 calls `STOP` on master 2. -/
theorem witness_StepKeeps_reserved : ReservedUnused (calling [0x40#8, 0#8, 2#8]) ∧ masterEnabled cfg 5 = false := by
  refine ⟨⟨fun m hm r hr => ?_, fun ag hag d hd => ?_⟩, by decide⟩
  · have : ∀ m : MasterIx, masterEnabled cfg m = false → ((calling [0x40#8, 0#8, 2#8]).unit m).record = none := by decide
    rw [this m hm] at hr; cases hr
  · have : ∀ ag ∈ (calling [0x40#8, 0#8, 2#8]).agents, ag.call = none := by decide
    rw [this ag hag] at hd; cases hd
/-- R61, D6: 14 blocks of 0x20 bytes from 0 end at 0x1BF, which a window of 9 bits has; from 0x41 they do not. -/
theorem test_windowOk : windowOk { cfg with windowBits := 9, regBase := 0x40 } = true ∧
    windowOk { cfg with windowBits := 9, regBase := 0x41 } = false := by decide
theorem witness_AddressesDistinct : layoutOk cfg = true ∧ configOk cfg = true ∧ cfg.nMasters.val = 14 ∧
    cfg.masterStride = 0x20 ∧ (13 : MasterIx).val < cfg.nMasters.val ∧ masterIx cfg 1#8 = some 0 ∧
    masterIx cfg 14#8 = some 13 := by decide
theorem witness_LockIsolates : ∃ s t : State, (s.unit 1).record = some held ∧ held.lock = .held 1 ∧
    s.takeTurn.self ≠ 1 ∧ step s = .next t :=
  ⟨{ at2 [] [] with schedule := [⟨0, 0⟩], phase := .shutDown }, _, rfl, rfl, by decide, rfl⟩
theorem witness_OtherMastersUntouched : instrMaster (.cmdStop 2#8) = some 2#8 ∧ (at2 [] []).window.wf = true ∧
    (∃ t, exec (.cmdStop 2#8) (at2 [] []) = .next t) ∧ masterIx cfg 2#8 = some 1 ∧
    instrMaster (.quickW 15#8 0x50#8) = some 15#8 ∧ masterIx cfg 15#8 = none ∧
    (∃ t, exec (.quickW 15#8 0x50#8) (at2 [] []) = .next t) ∧ (Call.access (accessFrame a0 T .lock)).master cfg = some 10 ∧
    (∃ r u, resumeCall (.access (accessFrame d11 T .lock)) (at11 0#8 0#3 (done 1) []) = .done r u) ∧
    (∃ c u, resumeCall (.access (accessFrame a0 T .lock)) { at11 0#8 0#3 [] [] with quantum := 1 } = .paused c u) :=
  ⟨rfl, by decide, ⟨_, rfl⟩, by decide, rfl, by decide, ⟨_, rfl⟩, by decide, ⟨_, _, rfl⟩, ⟨_, _, rfl⟩⟩

end Sys2Proof.Tests
end

section
/-! SUPPORT. The facts of the operand forms: the range of a master index, the conditions of a configuration, and where the
registers of a master stand (rules R5, R61, R80, R221). -/

namespace Sys2Proof.Machine

variable {c : Config.Params} {m j : MasterIx} {r q : Reg}

theorem masterIx_eq_some_iff {b : Byte} : masterIx c b = some m ↔ b.toNat = m.val + 1 ∧ m.val < c.nMasters.val := by
  unfold masterIx
  split
  · next h =>
    rw [Option.some.injEq, Fin.ext_iff]
    show b.toNat - 1 = m.val ↔ _
    omega
  · next h =>
    simp only [reduceCtorEq, false_iff]
    omega

theorem masterIx_isSome_iff {b : Byte} : (masterIx c b).isSome = true ↔ 1 ≤ b.toNat ∧ b.toNat ≤ c.nMasters.val := by
  unfold masterIx
  split <;> (next h => simpa using h)

/-- A legal layout (rule R80), the offsets by the registers they belong to. -/
theorem layoutOk_iff : layoutOk c = true ↔
    [c.offs.prerLo, c.offs.prerHi, c.offs.ctrl, c.offs.cmdstat, c.offs.data].Nodup ∧
      ∀ r, regOffset c.offs r < c.masterStride := by
  have hall : (∀ r, regOffset c.offs r < c.masterStride) ↔
      ∀ x ∈ [c.offs.prerLo, c.offs.prerHi, c.offs.ctrl, c.offs.cmdstat, c.offs.data], x < c.masterStride := by
    simp only [List.forall_mem_cons, List.not_mem_nil, false_imp_iff, implies_true, and_true]
    exact ⟨fun h => ⟨h .prerLo, h .prerHi, h .ctrl, h .cmdstat, h .data⟩,
      fun ⟨h0, h1, h2, h3, h4⟩ r => by cases r <;> assumption⟩
  rw [hall]
  simp only [layoutOk, Bool.and_eq_true, decide_eq_true_eq, List.all_eq_true]

theorem windowOk_iff : windowOk c = true ↔ c.regBase + c.nMasters.val * c.masterStride ≤ 2 ^ c.windowBits :=
  decide_eq_true_iff

theorem enabledOk_iff : enabledOk c = true ↔ ∀ m ∈ c.enabled, m.val < c.nMasters.val := by
  simp only [enabledOk, List.all_eq_true, decide_eq_true_eq]

theorem switchSelOk_iff {sel : SwitchSel} :
    switchSelOk sel = true ↔ ∀ sw, sel = .switch sw → 1 ≤ sw.toNat ∧ sw.toNat ≤ 0x7F := by
  cases sel with
  | direct => simp [switchSelOk]
  | switch a => simp [switchSelOk, switchAddrOk]

/-- One entry of the topology table (rule R221). -/
theorem endpointOk_iff {e : Config.Endpoint} : endpointOk c e = true ↔
    1 ≤ e.master.toNat ∧ e.master.toNat ≤ c.nMasters.val ∧ e.channel.toNat < c.nChannels.val ∧
      (e.sel = .direct → e.kind = .plain) ∧ ∀ sw, e.sel = .switch sw → 1 ≤ sw.toNat ∧ sw.toNat ≤ 0x7F := by
  rw [← switchSelOk_iff]
  simp only [endpointOk, Bool.and_eq_true, Bool.or_eq_true, decide_eq_true_eq, masterIx_isSome_iff, ne_eq,
    ← imp_iff_not_or]
  tauto

theorem topologyOk_iff : topologyOk c = true ↔
    (c.topology.map (fun e => e.name)).Nodup ∧ ∀ e ∈ c.topology, endpointOk c e = true := by
  simp only [topologyOk, Bool.and_eq_true, List.all_eq_true, decide_eq_true_eq]
  exact and_comm

theorem configOk_iff : configOk c = true ↔ layoutOk c = true ∧ windowOk c = true ∧ c.div100k ≠ 0x0040#16 ∧
    enabledOk c = true ∧ topologyOk c = true := by
  simp only [configOk, Bool.and_eq_true, decide_eq_true_eq, and_assoc]

/-! Addresses. -/

theorem regOffset_lt (h : layoutOk c = true) (r : Reg) : regOffset c.offs r < c.masterStride := (layoutOk_iff.1 h).2 r

/-- Registers with the same offset are the same register. -/
theorem regOffset_injective (h : layoutOk c = true) : Function.Injective (regOffset c.offs) := by
  have hn : ([Reg.prerLo, .prerHi, .ctrl, .cmdstat, .data].map (regOffset c.offs)).Nodup := (layoutOk_iff.1 h).1
  have hall : ∀ r : Reg, r ∈ [Reg.prerLo, .prerHi, .ctrl, .cmdstat, .data] := fun r => by cases r <;> decide
  exact fun r q hrq => List.inj_on_of_nodup_map hn (hall r) (hall q) hrq

theorem regBase_le_regAddr : c.regBase ≤ regAddr c m r := by
  unfold regAddr
  omega

/-- The address of a register, by the index its caller writes (rule R61). -/
theorem regAddr_of_masterIx {b : Byte} (h : masterIx c b = some m) :
    regAddr c m r = c.regBase + (b.toNat - 1) * c.masterStride + regOffset c.offs r := by
  rw [(masterIx_eq_some_iff.1 h).1, Nat.add_sub_cancel, regAddr]

/-- The block of a master is a digit of the address to the base of the stride, the offset the last one. -/
theorem regAddr_injective (h : layoutOk c = true) (he : regAddr c m r = regAddr c j q) : m = j ∧ r = q := by
  have hr := regOffset_lt h r
  have hq := regOffset_lt h q
  have hpos : 0 < c.masterStride := by omega
  have hdigits : regOffset c.offs r + c.masterStride * m.val = regOffset c.offs q + c.masterStride * j.val := by
    simp only [regAddr, Nat.mul_comm _ c.masterStride] at he
    omega
  have hm := (Nat.div_mod_unique hpos).2 ⟨hdigits, hr⟩
  have hj := (Nat.div_mod_unique (a := regOffset c.offs q + c.masterStride * j.val) hpos).2 ⟨rfl, hq⟩
  exact ⟨Fin.ext (hm.1.symm.trans hj.1), regOffset_injective h (hm.2.symm.trans hj.2)⟩

/-- The blocks of the first `n` masters end below `REG_BASE + n * MASTER_STRIDE`. -/
theorem regAddr_lt (h : layoutOk c = true) {n : Nat} (hm : m.val < n) :
    regAddr c m r < c.regBase + n * c.masterStride := by
  have hblock : (m.val + 1) * c.masterStride ≤ n * c.masterStride := Nat.mul_le_mul_right _ hm
  rw [Nat.succ_mul] at hblock
  have := regOffset_lt h r
  unfold regAddr
  omega

/-- The registers of a configuration the model accepts are in the window (rule R61). -/
theorem regAddr_lt_window (h : configOk c = true) (hm : m.val < c.nMasters.val) : regAddr c m r < 2 ^ c.windowBits :=
  have ⟨hl, hw, _⟩ := configOk_iff.1 h
  (regAddr_lt hl hm).trans_le (windowOk_iff.1 hw)

/-- Settles O58: an address names its block and its register, and the blocks end where the window check looks. -/
theorem addressesDistinct : Obligations.AddressesDistinct := by
  unfold Obligations.AddressesDistinct
  refine ⟨fun c m k r h => regAddr_of_masterIx h,
    fun c m j r q h => ⟨regAddr_injective h, regBase_le_regAddr, fun hm hn hs => ?_⟩,
    fun c m r h hm => regAddr_lt_window h hm⟩
  have := regAddr_lt (r := r) h hm
  rw [hn, hs] at this
  omega

end Sys2Proof.Machine
end

section
/-! SUPPORT. The branches of a step, one equation each (rules R7, R31, R68, R300, R304). -/

namespace Sys2Proof.Machine

variable {s : State} {ag : Agent}

theorem State.takeTurn_of_schedule {t : Turn} {rest : List Turn} (h : s.schedule = t :: rest) :
    s.takeTurn = { s with self := t.agent, quantum := t.quantum, schedule := rest, turns := s.turns + 1 } := by
  simp only [State.takeTurn, h]

theorem stepSelf_of_absent (h : s.agents[s.self]? = none) : stepSelf s = .next s.arrive := by
  simp only [stepSelf, h]

theorem stepSelf_of_suspended (h : s.agents[s.self]? = some ag) {k : Call} (hc : ag.call = some k) :
    stepSelf s = finishCall (resumeCall k s) := by
  simp only [stepSelf, h, hc]

theorem stepSelf_of_item (h : s.agents[s.self]? = some ag) (hc : ag.call = none) {item : Item} {items : List Item}
    (hp : ag.program = item :: items) : stepSelf s = stepItem item s := by
  simp only [stepSelf, h, hc, hp]

theorem stepSelf_of_nothing (h : s.agents[s.self]? = some ag) (hc : ag.call = none) (hp : ag.program = []) :
    stepSelf s = if s.self = initialiser then lifecycleStep s else .next s := by
  simp only [stepSelf, h, hc, hp]

theorem stepItem_call_of_decode {bytes rest : List Byte} {i : Instr} (hs : s.phase ≠ .shutDown)
    (hd : decode bytes = .ok (i, rest)) : stepItem (.call bytes) s = exec i s.dropItem := by
  simp only [stepItem, if_neg hs, hd]

theorem stepItem_call_of_undecodable {bytes : List Byte} {e : DecodeError} (hs : s.phase ≠ .shutDown)
    (hd : decode bytes = .error e) : stepItem (.call bytes) s = .refused (.undecodable e) := by
  simp only [stepItem, if_neg hs, hd]

theorem stepItem_call_of_shutDown {bytes : List Byte} (hs : s.phase = .shutDown) :
    stepItem (.call bytes) s = .fault .noRecord := if_pos hs

theorem lifecycleStep_of_powerOn (hp : s.phase = .powerOn) : lifecycleStep s = exec .engineInit s := by
  simp only [lifecycleStep, hp]

/-- While the engine runs, the initialiser with nothing to do may shut it down when it is alone (rule R304). -/
theorem lifecycleStep_of_running (hp : s.phase = .running) :
    lifecycleStep s = .next s ∨ (s.initialiserAlone = true ∧ lifecycleStep s = exec .engineShutdown s) := by
  simp only [lifecycleStep, hp]
  split
  · next h => exact .inr ⟨(Bool.and_eq_true_iff.1 h).1, rfl⟩
  · exact .inl rfl

theorem lifecycleStep_of_shutDown (hp : s.phase = .shutDown) : lifecycleStep s = .next s := by
  simp only [lifecycleStep, hp]

/-- A caller that arrives has made no call, and its program is the first listed one, if any (rule R7). -/
theorem State.arrive_program (s : State) :
    ∃ items, s.arrive.agents = s.agents ++ [{ program := items, call := none, returned := [] }] ∧
      ∀ x rest, s.arrivals = x :: rest → items = x ∧ s.arrive.arrivals = rest := by
  unfold State.arrive
  split
  · next items more h =>
    refine ⟨items, rfl, fun x rest hx => ?_⟩
    rw [h] at hx
    exact List.cons.inj hx
  · next h => exact ⟨_, rfl, fun x rest hx => by rw [h] at hx; cases hx⟩

/-- Settles O8: the agent's next item is a call whose bytes decode. -/
theorem stepRunsDecodedCall : Obligations.StepRunsDecodedCall := by
  unfold Obligations.StepRunsDecodedCall
  intro s ag bytes rest items i hs h hc hp hd
  calc step s = stepItem (.call bytes) s.takeTurn := stepSelf_of_item h hc hp
    _ = exec i s.takeTurn.dropItem := stepItem_call_of_decode (by simpa using hs) hd

/-- Settles O9, one branch of the step after the other. -/
theorem stepOtherwise : Obligations.StepOtherwise := by
  unfold Obligations.StepOtherwise
  refine ⟨fun s t rest h => State.takeTurn_of_schedule h, fun s ag k h hc => stepSelf_of_suspended h hc,
    fun s ag m items h hc => ⟨fun hp => stepSelf_of_item h hc hp, fun hp => stepSelf_of_item h hc hp⟩, ?call,
    ?nothing, ?absent⟩
  case call =>
    intro s ag bytes items h hc hp
    have hstep : step s = stepItem (.call bytes) s.takeTurn := stepSelf_of_item h hc hp
    rw [hstep, ← State.takeTurn_phase]
    exact ⟨fun e hs hd => stepItem_call_of_undecodable hs hd, fun hs => stepItem_call_of_shutDown hs⟩
  case nothing =>
    intro s ag h hc hp
    have hstep : step s = if s.takeTurn.self = 0 then lifecycleStep s.takeTurn else .next s.takeTurn :=
      stepSelf_of_nothing h hc hp
    refine ⟨fun h0 => by rw [hstep, if_neg h0], fun h0 => ?_⟩
    rw [hstep, if_pos h0, ← State.takeTurn_phase]
    exact ⟨lifecycleStep_of_powerOn, lifecycleStep_of_running, lifecycleStep_of_shutDown⟩
  case absent =>
    intro s h
    refine ⟨stepSelf_of_absent h, ?_⟩
    simpa using s.takeTurn.arrive_program

end Sys2Proof.Machine
end

section
/-! SUPPORT. Power-on, and where the lifecycle calls stop (rules R300 to R304). -/

namespace Sys2Proof.Machine

variable {s : State}

@[simp] theorem State.reset_unit (m : MasterIx) : State.reset.unit m = MasterUnit.powerOn := Vector.getElem_replicate _

theorem acceptedDivider_ne (d : Half) : Config.acceptedDivider d ≠ 0x0040#16 := by
  unfold Config.acceptedDivider
  split
  · decide
  · assumption

/-- The enabled masters of the board lie in `1..N_MASTERS` (rule R5). -/
theorem lt_of_mem_boot_enabled {m : MasterIx} (h : m ∈ Config.boot.enabled) : m.val < 14 :=
  of_decide_eq_true (List.mem_filter.1 h).2

/-- Settles O12: the reset state is written out, and the board's table has the shape of its type. -/
theorem resetIsPowerOn : Obligations.ResetIsPowerOn := by
  unfold Obligations.ResetIsPowerOn
  refine ⟨fun m => ?units, ?agents, rfl, ⟨rfl, rfl, rfl, rfl, fun m h => lt_of_mem_boot_enabled h⟩,
    ⟨rfl, rfl, rfl, rfl, rfl, acceptedDivider_ne _⟩, ?table⟩
  case units =>
    rw [State.reset_unit]
    exact ⟨rfl, rfl, fun _ => rfl⟩
  case agents =>
    intro a h
    obtain rfl := List.mem_singleton.1 h
    exact ⟨rfl, rfl⟩
  case table =>
    rw [show State.reset.cfg.topology = Config.boardPorts.endpoints from rfl]
    refine ⟨Config.boardPorts.endpoints_length, ?_, ?_, ?_, Config.boardPorts.endpoints_shape⟩
    · exact Config.boardPorts.countP_endpoints (a := true) (b := false) (d := false) _ (fun _ => rfl) (fun _ => rfl)
        (fun _ => rfl)
    · exact Config.boardPorts.countP_endpoints (a := false) (b := true) (d := false) _ (fun _ => rfl) (fun _ => rfl)
        (fun _ => rfl)
    · exact Config.boardPorts.countP_endpoints (a := false) (b := false) (d := true) _ (fun _ => rfl) (fun _ => rfl)
        (fun _ => rfl)

theorem execEngineInit_of_powerOn (hp : s.phase = .powerOn) : execEngineInit s =
    if s.initialiserAlone && s.noneStarted then
      if configOk s.cfg then finishCall (.done .unit (startEngine s)) else .refused .illFormedConfiguration
    else .fault .unlockedAccess := by
  simp only [execEngineInit, hp]

theorem execEngineInit_of_running (hp : s.phase = .running) : execEngineInit s = .fault .unlockedAccess := by
  simp only [execEngineInit, hp]

theorem execEngineInit_of_shutDown (hp : s.phase = .shutDown) : execEngineInit s = .fault .noRecord := by
  simp only [execEngineInit, hp]

theorem execEngineShutdown_of_powerOn (hp : s.phase = .powerOn) : execEngineShutdown s = .fault .noRecord := by
  simp only [execEngineShutdown, hp]

theorem execEngineShutdown_of_running (hp : s.phase = .running) : execEngineShutdown s =
    if s.initialiserAlone then finishCall (.done .unit (stopEngine s)) else .fault .unlockedAccess := by
  simp only [execEngineShutdown, hp]

theorem execEngineShutdown_of_shutDown (hp : s.phase = .shutDown) : execEngineShutdown s = .fault .noRecord := by
  simp only [execEngineShutdown, hp]

/-- Settles O15: the two calls phase by phase, then the conditions of a configuration. -/
theorem lifecycleStops : Obligations.LifecycleStops := by
  unfold Obligations.LifecycleStops
  refine ⟨fun s hp => ⟨fun h => ?_, fun ha hn hc => ?_, execEngineShutdown_of_powerOn hp⟩,
    fun s hp => ⟨execEngineInit_of_running hp, fun ha => ?_⟩,
    fun s hp => ⟨execEngineInit_of_shutDown hp, execEngineShutdown_of_shutDown hp⟩, fun c => ?_⟩
  · refine (execEngineInit_of_powerOn hp).trans (if_neg ?_)
    rcases h with h | h <;> simp [h]
  · refine (execEngineInit_of_powerOn hp).trans ?_
    rw [ha, hn, hc]
    rfl
  · refine (execEngineShutdown_of_running hp).trans ?_
    rw [ha]
    rfl
  · rw [configOk_iff, layoutOk_iff, windowOk_iff, enabledOk_iff, topologyOk_iff]
    simp only [endpointOk_iff, and_assoc]

end Sys2Proof.Machine
end

section
/-! SUPPORT. A call on one master that its lock holder may make, and `read8` (rules R11, R120). -/

namespace Sys2Proof.Machine

variable {s : State} {k : MasterIx}

/-- A call that names a master its caller may use runs its body (rules R28, R281). -/
theorem onMaster_of_mayUse {b : Byte} (hb : masterIx s.cfg b = some k) (hk : MayUse s k)
    (run : MasterIx → Host.Outcome State Fault Refusal) : onMaster b s run = run k := by
  obtain ⟨he, hh⟩ := hk
  simp only [onMaster, hb, if_pos he, holderFault_none_iff.2 hh]

/-- The frame of a call on one master that stores nothing in the window, whatever form the window has. -/
theorem onlyMaster_returned_of_window {q : Port} {r : Ret} (h : q.window = s.window) :
    OnlyMaster s ((s.withPort k q).returned r) k := by
  refine ⟨rfl, rfl, rfl, rfl, rfl, rfl, rfl, fun j hj => State.withPort_unit_other s q hj, fun n hn => ?_,
    fun a _ => congrArg (Memory.read · a) h⟩
  exact List.getElem?_modify_ne _ _ (Ne.symm hn)

/-- One read of a register, after which the call returns: one access, no write, the window and the record as before. -/
theorem ranOn_readReg (r : Reg) (x : Ret) :
    RanOn s ((s.withPort k (readReg k r (s.port k)).2).returned x) k x [] 1 := by
  refine ⟨onlyMaster_returned_of_window rfl, rfl, ⟨⟨[.rd r (readReg k r (s.port k)).1], ?_, rfl, rfl⟩, rfl⟩, ?_, ?_⟩ <;>
    simp

/-- Settles O17: `read8` is one read of the port and its answer handed back. -/
theorem read8Completes : Obligations.Read8Completes := by
  unfold Obligations.Read8Completes
  intro s m k r hm hk
  exact ⟨_, _, onMaster_of_mayUse hm hk _, readReg_value k r (s.port k), by simp, rfl, ranOn_readReg r _⟩

end Sys2Proof.Machine
end

section
/-! SUPPORT. A master whose lock another agent holds (rules R28, R67, R238). -/

namespace Sys2Proof.Machine

/-- Settles O59: every move of a step is on a master that no other agent holds, and an arrival touches none. -/
theorem lockIsolates : Obligations.LockIsolates := by
  unfold Obligations.LockIsolates
  intro s t m r a hr hl ha ht
  rcases step_reaches ht with h | rfl
  · rw [h.unit_held ((congrArg _ (s.takeTurn_unit m)).trans hr) hl ha, State.takeTurn_unit]
  · rw [State.arrive_unit, State.takeTurn_unit]

end Sys2Proof.Machine
end

section
/-! SUPPORT. What the mux chips select after a write of one of them, and a mux write that succeeds at its first attempt
(rules R33, R91, R226). -/

namespace Sys2Proof.Machine

variable {s : State} {k : MasterIx} {m sw : Byte}

theorem channelMask_toNat : ∀ ch : BitVec 3, (channelMask ch).toNat = 2 ^ ch.toNat := by decide

theorem chipSelection_cons_of_ne {x y : Byte} (h : y ≠ x) (v : Byte) (chips : List (Byte × Byte)) :
    chipSelection ((x, v) :: chips) y = chipSelection chips y := if_neg h

@[simp] theorem chipSelection_chipSet_same (x v : Byte) :
    ∀ chips : List (Byte × Byte), chipSelection (chipSet x v chips) x = .mask v
  | [] => if_pos rfl
  | (y, w) :: rest => by
    rw [chipSet]
    split
    · exact if_pos rfl
    · split
      · exact if_pos rfl
      · next hne => rw [chipSelection_cons_of_ne hne, chipSelection_chipSet_same x v rest]

theorem chipSelection_chipSet_other {x y : Byte} (h : y ≠ x) (v : Byte) :
    ∀ chips : List (Byte × Byte), chipSelection (chipSet x v chips) y = chipSelection chips y
  | [] => if_neg h
  | (z, w) :: rest => by
    rw [chipSet]
    split
    · exact chipSelection_cons_of_ne h v _
    · split
      · next heq => subst heq; rw [chipSelection_cons_of_ne h, chipSelection_cons_of_ne h]
      · rw [chipSelection, chipSelection, chipSelection_chipSet_other h v rest]

/-- A mux write whose positions are known up to its success returns `Ok` (rule R226). -/
theorem muxCall_succeeds {w g : MuxFrame} {n : Nat} {q r : Port} (hv : validateTxn s.cfg k (muxTxn w.sw w.value) = none)
    (hh : Holds s k) (h : Steps (muxPos s.cfg k) n w (s.port k) g q) (ho : muxPos s.cfg k g q = .ended true r)
    (hn : n ≤ s.quantum) : muxCall k w s = .done .okay (s.withPort k r) := by
  simp only [muxCall, hv, holderFault_none_iff.2 hh, h.ends ho hn, portOut, retOfMux, if_true]

/-- A mux write of `v` whose attempt meets an idle bus and two good phases is one BYTE write, after which the chip selects
`v` and every other chip what it did. -/
theorem startMux_completes (hm : masterIx s.cfg m = some k) (h : Ready s k sw 2) (ha : 1 ≤ s.cfg.muxAttempts) (v : Byte) :
    ∃ t, startMux m sw v s = .next t ∧ OnlyMaster s t k ∧ GaveBack s t .okay ∧
      Accessed s t k (muxWrites s.cfg sw v) 12 ∧ (t.unit k).record = (s.unit k).record ∧
      chipSelection (t.unit k).chips sw = .mask v ∧
      ∀ x, x ≠ sw → chipSelection (t.unit k).chips x = chipSelection (s.unit k).chips x := by
  obtain ⟨he, hh, hsw, hsmooth, hwf, hq⟩ := h
  obtain ⟨g, q, hsteps, hends, hglide⟩ := mux_smooth (m := k) (p := s.port k) (v := v) he hsw ha hsmooth
  have hcall := muxCall_succeeds (validate_muxTxn he hsw) hh hsteps hends (by unfold Unhurried at hq; omega)
  obtain ⟨new, hhistory, hwrites, hlength, _⟩ := hglide.accesses
  have hchips : (chipWritten sw v q).unit.chips = chipSet sw v (s.unit k).chips := congrArg (chipSet sw v) hglide.chips
  refine ⟨(s.withPort k (chipWritten sw v q)).returned .okay, by simp only [startMux, hm, hcall, finishCall],
    onlyMaster_returned (hglide.evolves.trans (evolves_chipWritten sw v)) hwf, rfl,
    ⟨⟨new, by simpa using hhistory, hwrites, hlength⟩, hglide.window⟩, by simpa using hglide.record, ?_, fun x hx => ?_⟩
  · simp [hchips]
  · simp [hchips, chipSelection_chipSet_other hx]

/-- Settles O52: a select and a deselect are mux writes of the channel's mask and of 0x00. -/
theorem muxSelectAndDeselectComplete : Obligations.MuxSelectAndDeselectComplete := by
  unfold Obligations.MuxSelectAndDeselectComplete
  intro s m sw ch k hm h ha
  exact ⟨channelMask_toNat ch, startMux_completes hm h ha (channelMask ch), startMux_completes hm h ha 0x00#8⟩

end Sys2Proof.Machine
end

section
/-! SUPPORT. The masters of `ENABLED` in the order `deselect_all` takes them (rule R240). -/

namespace Sys2Proof.Machine

variable {c : Config.Params} {k : MasterIx}

theorem masterEnabled_iff : masterEnabled c k = true ↔ k ∈ c.enabled := decide_eq_true_iff

theorem mem_enabledAscending : k ∈ enabledAscending c ↔ masterEnabled c k = true := by
  simp [enabledAscending, allMasters]

theorem enabledAscending_sorted (c : Config.Params) : (enabledAscending c).Pairwise (· < ·) :=
  (List.pairwise_lt_finRange _).filter _

/-- The least enabled master comes first. -/
theorem enabledAscending_eq_cons (hk : k ∈ c.enabled) (hleast : ∀ j ∈ c.enabled, k ≤ j) :
    ∃ rest, enabledAscending c = k :: rest := by
  have hmem : k ∈ enabledAscending c := mem_enabledAscending.2 (masterEnabled_iff.2 hk)
  have hsorted := enabledAscending_sorted c
  cases hl : enabledAscending c with
  | nil => rw [hl] at hmem; cases hmem
  | cons j rest =>
    rw [hl] at hmem hsorted
    have hj : j ∈ c.enabled := masterEnabled_iff.1 (mem_enabledAscending.1 (hl ▸ List.mem_cons_self))
    rcases List.mem_cons.1 hmem with rfl | hrest
    · exact ⟨rest, rfl⟩
    · exact absurd (List.rel_of_pairwise_cons hsorted hrest) (not_lt.2 (hleast j hj))

end Sys2Proof.Machine
end

section
/-! SUPPORT. The faults of a master's use by an agent that may not use it (rules R28, R130, R179, R276, R304). -/

namespace Sys2Proof.Machine

variable {s : State} {k : MasterIx} {m : Byte} {e : Fault}

theorem holderFault_eq_some_iff : s.holderFault k = some e ↔ CannotUse s k e := by
  simp only [State.holderFault, CannotUse, State.port_unit]
  cases (s.unit k).record with
  | none => by_cases hp : s.phase = .shutDown <;> simp [hp, eq_comm]
  | some r => by_cases hl : r.lock = .held s.self <;> simp [hl, eq_comm]

theorem onMaster_of_cannotUse (hm : masterIx s.cfg m = some k) (he : masterEnabled s.cfg k = true) (h : CannotUse s k e)
    (run : MasterIx → Host.Outcome State Fault Refusal) : onMaster m s run = .fault e := by
  simp only [onMaster, hm, if_pos he, holderFault_eq_some_iff.2 h]

theorem execInit_of_cannotUse (hm : masterIx s.cfg m = some k) (he : masterEnabled s.cfg k = true) (h : CannotUse s k e)
    (div : Half) : execInit m div s = .fault e := by
  rw [execInit, if_neg (fun hx => by rw [hm] at hx; cases hx.1), onMaster_of_cannotUse hm he h]

/-- The verbs of a transaction are `execute` of it (rules R180 to R192). -/
theorem exec_of_instrTxn {i : Instr} {t : Txn} (h : instrTxn i = some (m, t)) : exec i s = startExecute m t s := by
  cases i <;> cases h <;> rfl

theorem startExecute_of_cannotUse {t : Txn} (hm : masterIx s.cfg m = some k) (h : CannotUse s k e) (hv : Valid s k t) :
    startExecute m t s = .fault e := by
  simp only [startExecute, hm, beginExecute, show validateTxn s.cfg k t = none from hv, resumeExecCall,
    holderFault_eq_some_iff.2 h, finishCall]

theorem startMux_of_cannotUse {sw : Byte} (hm : masterIx s.cfg m = some k) (he : masterEnabled s.cfg k = true)
    (h : CannotUse s k e) (hsw : sw.toNat ≤ 0x7F) (v : Byte) : startMux m sw v s = .fault e := by
  simp only [startMux, hm, muxCall, muxStart, validate_muxTxn he hsw, holderFault_eq_some_iff.2 h, finishCall]

/-- An access to a master without a record stops before it takes a lock (rule R304). -/
theorem beginAccess_of_noRecord {ep : EndpointRef} (t : Txn) (hm : accessMaster s.cfg ep = some k)
    (hr : (s.unit k).record = none) : beginAccess ep t s = .fault .noRecord := by
  have hf : accessFault k (accessFrame ep t .validate) s = some .noRecord := by
    simp [accessFault, accessFrame, APos.lockFree, hr]
  have hm' : accessMaster s.cfg (accessFrame ep t .validate).ep = some k := hm
  simp only [beginAccess, resumeAccessCall, hm', hf]

theorem runPos_fault {F R S : Type} {pos : F → S → PosOut F R S} {f : F} {x : S} (h : pos f x = .fault e) :
    ∀ n, runPos pos n f x = .fault e
  | 0 => h
  | n + 1 => by rw [runPos, h]

/-- So does `deselect_all` where the next master has none. -/
theorem resumeDeselect_of_noRecord {rest : List MasterIx} (hr : (s.unit k).record = none) (failed : Bool) :
    resumeDeselect (deselectFrame (k :: rest) failed) s = .fault .noRecord := by
  have hpos : deselectPos (deselectFrame (k :: rest) failed) s = .fault .noRecord := by
    simp [deselectPos, deselectFrame, deselectAcquire, hr]
  rw [resumeDeselect, runPos_fault hpos, deselectOut]

/-- Settles O21: each call asks who may use the master before it touches it. -/
theorem unlockedAccessFaults : Obligations.UnlockedAccessFaults := by
  unfold Obligations.UnlockedAccessFaults
  refine ⟨fun s m k e hm he h => ?calls, fun s ep t k hm he hr => ?access, fun s k hk hleast hr => ?deselectAll⟩
  case calls =>
    have hcall := onMaster_of_cannotUse hm he h
    exact ⟨fun _ => hcall _, fun _ _ => hcall _, fun _ => hcall _, fun _ => hcall _, hcall _, hcall _, hcall _, hcall _,
      execInit_of_cannotUse hm he h, fun _ => hcall _, fun _ _ => hcall _,
      fun i t hi hv => (exec_of_instrTxn hi).trans (startExecute_of_cannotUse hm h hv),
      fun sw ch hsw => ⟨startMux_of_cannotUse hm he h hsw _, startMux_of_cannotUse hm he h hsw _⟩⟩
  case access => exact congrArg finishCall (beginAccess_of_noRecord t (accessMaster_eq.2 ⟨hm, he⟩) hr)
  case deselectAll =>
    obtain ⟨rest, hrest⟩ := enabledAscending_eq_cons hk hleast
    show finishCall (resumeDeselect (deselectFrame (enabledAscending s.cfg) false) s) = _
    rw [hrest, resumeDeselect_of_noRecord hr]
    rfl

end Sys2Proof.Machine
end

section
/-! SUPPORT. Records exist exactly while the engine runs (rules R27, R300, R304): each move keeps it. -/

namespace Sys2Proof.Machine

variable {s t : State} {K : MasterIx → Prop}

/-- Whether it holds can be read off the configuration, the phase and which masters have a record. -/
theorem LifecycleSound.congr (h : LifecycleSound s) (hc : t.cfg = s.cfg) (hp : t.phase = s.phase)
    (hr : ∀ m, (t.unit m).record.isSome = (s.unit m).record.isSome) : LifecycleSound t := by
  have hnone : ∀ m, (t.unit m).record = none ↔ (s.unit m).record = none := fun m => by
    rw [← Option.not_isSome_iff_eq_none, hr, Option.not_isSome_iff_eq_none]
  simpa only [LifecycleSound, hc, hp, ne_eq, hnone] using h

theorem recordFor_ne_none_iff {c : Config.Params} {x : Option MasterState} {m : MasterIx} (hx : x ≠ none) :
    recordFor c x m ≠ none ↔ m.val < c.nMasters.val := by
  simp [recordFor, hx]

theorem StateMove.lifecycleSound (h : StateMove K s t) (hs : LifecycleSound s) : LifecycleSound t := by
  cases h with
  | port m q _ _ he =>
    refine hs.congr rfl rfl fun j => ?_
    by_cases hj : j = m
    · subst hj; rw [State.withPort_unit_same, he.record_isSome]; rfl
    · rw [State.withPort_unit_other s q hj]
  | agent f => exact hs.congr rfl rfl fun _ => rfl
  | records x ph _ _ hx =>
    have hrec : ∀ m, (State.unit { setRecords x s with phase := ph } m).record = recordFor s.cfg x m :=
      fun m => congrArg MasterUnit.record (setRecords_unit x s m)
    refine ⟨fun hp => ?running, fun hp m => ?stopped⟩
    case running =>
      obtain ⟨_, hne⟩ | ⟨hsome, _, hok⟩ := hx
      · exact absurd hp hne
      · exact ⟨hok, fun m => by rw [hrec]; exact recordFor_ne_none_iff hsome⟩
    case stopped =>
      obtain ⟨rfl, _⟩ | ⟨_, hrunning, _⟩ := hx
      · rw [hrec, recordFor_none]
      · exact absurd hrunning hp

theorem Reaches.lifecycleSound (h : Reaches K s t) (hs : LifecycleSound s) : LifecycleSound t := by
  induction h with
  | refl => exact hs
  | tail _ hm ih => exact hm.lifecycleSound ih

theorem State.takeTurn_lifecycleSound (h : LifecycleSound s) : LifecycleSound s.takeTurn :=
  h.congr s.takeTurn_cfg s.takeTurn_phase fun m => by rw [State.takeTurn_unit]

theorem State.arrive_lifecycleSound (h : LifecycleSound s) : LifecycleSound s.arrive :=
  h.congr s.arrive_cfg s.arrive_phase fun m => by rw [State.arrive_unit]

/-- Every step keeps it. -/
theorem step_lifecycleSound (ht : step s = .next t) (h : LifecycleSound s) : LifecycleSound t := by
  rcases step_reaches ht with hr | rfl
  · exact hr.lifecycleSound (State.takeTurn_lifecycleSound h)
  · exact State.arrive_lifecycleSound (State.takeTurn_lifecycleSound h)

/-! What a step never changes (rules R20, R66). -/

theorem step_cfg (ht : step s = .next t) : t.cfg = s.cfg := by
  rcases step_reaches ht with h | rfl
  · rw [h.cfg, State.takeTurn_cfg]
  · rw [State.arrive_cfg, State.takeTurn_cfg]

theorem step_agents_length (ht : step s = .next t) : s.agents.length ≤ t.agents.length := by
  rcases step_reaches ht with h | rfl
  · rw [h.agents.1, State.takeTurn_agents]
  · obtain ⟨ag, hag⟩ := s.takeTurn.arrive_agents
    simp [hag]

theorem step_historiesGrow (ht : step s = .next t) : HistoriesGrow s t := by
  intro m
  rcases step_reaches ht with h | rfl
  · obtain ⟨new, hnew, _⟩ := h.history m
    exact ⟨new, by rw [hnew, State.takeTurn_unit]⟩
  · rw [State.arrive_unit, State.takeTurn_unit]

end Sys2Proof.Machine
end

section
/-! SUPPORT. A master outside `ENABLED` is never used (rules R240, R281, R300): whoever holds a lock holds one of an enabled
master, every call that takes a lock asks first whether the master is one, and `deselect_all` has only those before it. -/

namespace Sys2Proof.Machine

variable {s t u : State} {m : MasterIx} {q : Port} {r : Ret}

/-- No `deselect_all` of this call has a master outside `ENABLED` before it. -/
def Call.WithinEnabled (c : Config.Params) (k : Call) : Prop :=
  ∀ d, k = .deselectAll d → ∀ m ∈ d.todo, masterEnabled c m = true

theorem withinEnabled_deselectAll {c : Config.Params} {d : DeselectFrame} :
    Call.WithinEnabled c (.deselectAll d) ↔ ∀ m ∈ d.todo, masterEnabled c m = true :=
  ⟨fun h => h d rfl, fun h e he => by cases he; exact h⟩

/-- From `s` to `t` nothing was done with a master outside `ENABLED`. -/
structure SparesReserved (s t : State) : Prop where
  cfg : t.cfg = s.cfg
  untouched : ∀ m, masterEnabled s.cfg m = false → (t.unit m).history = (s.unit m).history ∧
    (t.unit m).chips = (s.unit m).chips ∧ (t.unit m).inputs = (s.unit m).inputs
  kept : ReservedUnused s → ReservedUnused t

theorem SparesReserved.refl (s : State) : SparesReserved s s := ⟨rfl, fun _ _ => ⟨rfl, rfl, rfl⟩, id⟩

theorem SparesReserved.trans (h : SparesReserved s t) (k : SparesReserved t u) : SparesReserved s u := by
  refine ⟨k.cfg.trans h.cfg, fun m hm => ?_, fun hs => k.kept (h.kept hs)⟩
  obtain ⟨hh, hc, hi⟩ := h.untouched m hm
  obtain ⟨kh, kc, ki⟩ := k.untouched m (by rw [h.cfg]; exact hm)
  exact ⟨kh.trans hh, kc.trans hc, ki.trans hi⟩

/-- Where the units of those masters are as before, only the calls of the agents are left to look at. -/
theorem sparesReserved_of_units (hc : t.cfg = s.cfg) (hu : ∀ m, masterEnabled s.cfg m = false → t.unit m = s.unit m)
    (ha : ∀ ag ∈ t.agents, ∀ k, ag.call = some k → (∃ bg ∈ s.agents, bg.call = some k) ∨ k.WithinEnabled s.cfg) :
    SparesReserved s t := by
  refine ⟨hc, fun m hm => by rw [hu m hm]; exact ⟨rfl, rfl, rfl⟩, fun ⟨hrecord, hcalls⟩ => ⟨fun m hm r hr => ?_,
    fun ag hag d hd m hm => ?_⟩⟩
  · rw [hc] at hm
    exact hrecord m hm r (hu m hm ▸ hr)
  · rw [hc]
    rcases ha ag hag _ hd with ⟨bg, hbg, hcall⟩ | hk
    · exact hcalls bg hbg d hcall m hm
    · exact hk d rfl m hm

/-! The moves of a step. -/

theorem sparesReserved_takeTurn (s : State) : SparesReserved s s.takeTurn :=
  sparesReserved_of_units s.takeTurn_cfg (fun m _ => s.takeTurn_unit m)
    (fun ag hag _ hk => .inl ⟨ag, s.takeTurn_agents ▸ hag, hk⟩)

theorem sparesReserved_withPort (hm : masterEnabled s.cfg m = true) (q : Port) : SparesReserved s (s.withPort m q) :=
  sparesReserved_of_units rfl
    (fun j hj => State.withPort_unit_other s q (fun h => by rw [h, hm] at hj; cases hj))
    (fun ag hag _ hk => .inl ⟨ag, hag, hk⟩)

/-- The moving agent changes, and the call it is then in, if any, is the one it was in or has enabled masters before it. -/
theorem sparesReserved_mapSelf {f : Agent → Agent}
    (hf : ∀ ag k, (f ag).call = some k → ag.call = some k ∨ k.WithinEnabled s.cfg) : SparesReserved s (s.mapSelf f) := by
  refine sparesReserved_of_units rfl (fun _ _ => rfl) fun ag hag k hk => ?_
  obtain ⟨n, hn⟩ := List.mem_iff_getElem?.1 hag
  rw [State.mapSelf_agents, List.getElem?_modify] at hn
  obtain ⟨bg, hbg, hmap⟩ := Option.map_eq_some_iff.1 hn
  have hmem : bg ∈ s.agents := List.mem_of_getElem? hbg
  split at hmap <;> subst hmap
  · exact (hf bg k hk).imp_left fun h => ⟨bg, hmem, h⟩
  · exact .inl ⟨bg, hmem, hk⟩

theorem sparesReserved_returned (s : State) (r : Ret) : SparesReserved s (s.returned r) :=
  sparesReserved_mapSelf fun _ _ h => by cases h

theorem sparesReserved_suspended {k : Call} (hk : k.WithinEnabled s.cfg) : SparesReserved s (s.suspended k) :=
  sparesReserved_mapSelf fun _ _ h => .inr (Option.some.inj h ▸ hk)

theorem sparesReserved_dropItem (s : State) : SparesReserved s s.dropItem := sparesReserved_mapSelf fun _ _ h => .inl h

/-- The records created are fresh. -/
theorem sparesReserved_records {x : Option MasterState} (hx : ∀ r, x = some r → r = MasterState.fresh) (ph : Phase) :
    SparesReserved s { setRecords x s with phase := ph } := by
  have hunit : ∀ m, State.unit { setRecords x s with phase := ph } m = { s.unit m with record := recordFor s.cfg x m } :=
    setRecords_unit x s
  refine ⟨rfl, fun m _ => by rw [hunit]; exact ⟨rfl, rfl, rfl⟩, fun ⟨_, hcalls⟩ => ⟨fun m _ r hr => ?_, hcalls⟩⟩
  rw [hunit] at hr
  exact hx r (recordFor_eq_some.1 hr).2

theorem sparesReserved_arrive (s : State) : SparesReserved s s.arrive := by
  obtain ⟨items, hagents, _⟩ := s.arrive_program
  refine sparesReserved_of_units s.arrive_cfg (fun m _ => s.arrive_unit m) fun ag hag k hk => ?_
  rw [hagents] at hag
  rcases List.mem_append.1 hag with hold | hnew
  · exact .inl ⟨ag, hold, hk⟩
  · rw [List.mem_singleton.1 hnew] at hk; cases hk

/-! Calls. -/

/-- A held lock is one of an enabled master: outside `ENABLED` a record is as it was created. -/
theorem ReservedUnused.enabled_of_holds (hR : ReservedUnused s) (h : Holds s m) : masterEnabled s.cfg m = true := by
  obtain ⟨x, hr, hl⟩ := h
  by_contra hm
  rw [hR.1 m (Bool.eq_false_of_not_eq_true hm) x hr] at hl
  cases hl

theorem ReservedUnused.enabled_of_holderFault (hR : ReservedUnused s) (h : s.holderFault m = none) :
    masterEnabled s.cfg m = true := hR.enabled_of_holds (holderFault_none_iff.1 h)

theorem holds_of_release (h : releaseLock s.self (s.port m) = some q) : Holds s m := by
  rw [releaseLock] at h
  split at h
  · next hl =>
    obtain ⟨x, hx⟩ := Option.isSome_iff_exists.1 hl.1
    exact ⟨x, hx, by simpa only [recordOf, hx, Option.getD_some] using hl.2⟩
  · cases h

/-- What a call comes to spares those masters, and one that is suspended has none of them before it. -/
def CallOut.Spares (s : State) : CallOut → Prop :=
  CallOut.Meets (fun _ u => SparesReserved s u) (fun k u => SparesReserved s u ∧ k.WithinEnabled s.cfg)

theorem finishCall_spares {o : CallOut} (h : o.Spares s) (ht : finishCall o = .next t) : SparesReserved s t := by
  cases o with
  | done r u => cases ht; exact SparesReserved.trans h (sparesReserved_returned u r)
  | paused k u => cases ht; exact h.1.trans (sparesReserved_suspended (h.1.cfg ▸ h.2))
  | fault e => cases ht

theorem answer_spares (ht : answer r s = .next t) : SparesReserved s t :=
  finishCall_spares (o := .done r s) (SparesReserved.refl s) ht

theorem portOut_spares {F R : Type} {call : F → Call} {ret : R → Ret} (hm : masterEnabled s.cfg m = true)
    (hc : ∀ f, (call f).WithinEnabled s.cfg) (o : PosOut F R Port) : (portOut m s call ret o).Spares s := by
  cases o with
  | go f p => exact ⟨sparesReserved_withPort hm p, hc f⟩
  | wait f p => exact ⟨sparesReserved_withPort hm p, hc f⟩
  | ended r p => exact sparesReserved_withPort hm p
  | fault e => trivial

theorem runAccess_spares (hm : masterEnabled s.cfg m = true) (f : AccessFrame) : (runAccess m f s).Spares s :=
  portOut_spares hm (fun _ _ h => by cases h) _

theorem resumeAccessCall_spares (f : AccessFrame) : (resumeAccessCall f s).Spares s := by
  rw [resumeAccessCall]
  split
  · exact SparesReserved.refl s
  · next m hm =>
    split
    · trivial
    · exact runAccess_spares (accessMaster_eq.1 hm).2 f

/-- One position of `deselect_all` works on the first master it has before it, and takes none on. -/
theorem deselectPos_spares {d : DeselectFrame} (hd : ∀ m ∈ d.todo, masterEnabled s.cfg m = true) :
    (deselectPos d s).Meets (fun e u => SparesReserved s u ∧ ∀ m ∈ e.todo, masterEnabled s.cfg m = true)
      (fun _ u => SparesReserved s u) := by
  rw [deselectPos]
  split
  · exact SparesReserved.refl s
  · next m rest htodo =>
    have hm : masterEnabled s.cfg m = true := hd m (htodo ▸ List.mem_cons_self)
    have hrest : ∀ j ∈ rest, masterEnabled s.cfg j = true := fun j hj => hd j (htodo ▸ List.mem_cons_of_mem m hj)
    split
    · split
      · trivial
      · split
        · rw [deselectRelease]
          split
          · trivial
          · exact ⟨sparesReserved_withPort hm _, hrest⟩
        · rw [deselectWrite]
          split
          · exact ⟨sparesReserved_withPort hm _, hd⟩
          · exact ⟨sparesReserved_withPort hm _, hd⟩
          · exact ⟨sparesReserved_withPort hm _, hd⟩
          · trivial
    · rw [deselectAcquire]
      split
      · trivial
      · split
        · exact ⟨SparesReserved.refl s, hd⟩
        · exact ⟨sparesReserved_withPort hm _, hd⟩

theorem resumeDeselect_spares {d : DeselectFrame} (hd : ∀ m ∈ d.todo, masterEnabled s.cfg m = true) :
    (resumeDeselect d s).Spares s := by
  have h := runPos_meets (pos := deselectPos)
    (P := fun e u => SparesReserved s u ∧ ∀ m ∈ e.todo, masterEnabled s.cfg m = true)
    (E := fun _ u => SparesReserved s u)
    (fun e u ⟨hu, he⟩ => (deselectPos_spares (hu.cfg.symm ▸ he)).imp
      (fun _ _ ⟨hv, hf⟩ => ⟨hu.trans hv, hu.cfg ▸ hf⟩) (fun _ _ hv => hu.trans hv))
    s.quantum d s ⟨SparesReserved.refl s, hd⟩
  rw [resumeDeselect]
  cases ho : runPos deselectPos s.quantum d s <;> rw [ho] at h
  case go e u => exact ⟨h.1, withinEnabled_deselectAll.2 h.2⟩
  case wait e u => exact ⟨h.1, withinEnabled_deselectAll.2 h.2⟩
  case ended r u => exact h
  case fault e => trivial

theorem beginDeselect_spares (s : State) : (beginDeselect s).Spares s :=
  resumeDeselect_spares fun _ hm => mem_enabledAscending.1 hm

section
variable (hR : ReservedUnused s)
include hR

theorem primCall_spares (pr : Prim) (polling : Bool) : (primCall m pr polling s).Spares s := by
  rw [primCall]
  split
  · trivial
  · next hf =>
    have hm := hR.enabled_of_holderFault hf
    split
    · exact ⟨sparesReserved_withPort hm _, fun _ h => by cases h⟩
    · exact sparesReserved_withPort hm _
    · exact sparesReserved_withPort hm _

theorem resumeExecCall_spares (f : ExecFrame) : (resumeExecCall m f s).Spares s := by
  rw [resumeExecCall]
  split
  · trivial
  · next hf => exact portOut_spares (hR.enabled_of_holderFault hf) (fun _ _ h => by cases h) _

theorem beginExecute_spares (x : Txn) : (beginExecute m x s).Spares s := by
  rw [beginExecute]
  split
  · exact SparesReserved.refl s
  · exact resumeExecCall_spares hR _

theorem muxCall_spares (w : MuxFrame) : (muxCall m w s).Spares s := by
  rw [muxCall]
  split
  · exact SparesReserved.refl s
  · split
    · trivial
    · next hf => exact portOut_spares (hR.enabled_of_holderFault hf) (fun _ _ h => by cases h) _

theorem resumeCall_spares {k : Call} (hk : k.WithinEnabled s.cfg) : (resumeCall k s).Spares s := by
  cases k with
  | prim m pr => exact primCall_spares hR pr true
  | exec m f => exact resumeExecCall_spares hR f
  | mux m w => exact muxCall_spares hR w
  | access f => exact resumeAccessCall_spares f
  | deselectAll d => exact resumeDeselect_spares (withinEnabled_deselectAll.1 hk)

end

/-! Instructions. -/

theorem onMaster_spares {b : Byte} {run : MasterIx → Host.Outcome State Fault Refusal} (ht : onMaster b s run = .next t)
    (h : ∀ m, masterEnabled s.cfg m = true → run m = .next t → SparesReserved s t) : SparesReserved s t := by
  rw [onMaster] at ht
  split at ht
  · cases ht
  · next m _ =>
    split at ht
    · next hm =>
      split at ht
      · cases ht
      · exact h m hm ht
    · exact answer_spares ht

/-- A call on an enabled master that returns. -/
theorem finishCall_withPort_spares (hm : masterEnabled s.cfg m = true)
    (ht : finishCall (.done r (s.withPort m q)) = .next t) : SparesReserved s t :=
  finishCall_spares (o := .done r _) (sparesReserved_withPort hm q) ht

theorem execWrite8_spares {b v : Byte} {reg : Reg} (ht : execWrite8 b reg v s = .next t) : SparesReserved s t :=
  onMaster_spares ht fun m hm h => by
    split at h
    · cases h
    · exact finishCall_withPort_spares hm h

theorem execInit_spares {b : Byte} {div : Half} (ht : execInit b div s = .next t) : SparesReserved s t := by
  rw [execInit] at ht
  split at ht
  · exact answer_spares ht
  · refine onMaster_spares ht fun m hm h => ?_
    split at h
    · exact finishCall_withPort_spares hm h
    · exact answer_spares h

/-- The lifecycle's work on one enabled master after the other. -/
theorem foldl_spares {f : State → MasterIx → State} (hf : ∀ s m, ∃ q, f s m = s.withPort m q) :
    ∀ (l : List MasterIx) (s : State), (∀ m ∈ l, masterEnabled s.cfg m = true) → SparesReserved s (l.foldl f s)
  | [], s, _ => SparesReserved.refl s
  | m :: rest, s, hl => by
    obtain ⟨hm, hrest⟩ := List.forall_mem_cons.1 hl
    obtain ⟨q, hq⟩ := hf s m
    rw [List.foldl_cons, hq]
    exact (sparesReserved_withPort hm q).trans (foldl_spares hf rest _ hrest)

theorem startEngine_spares (s : State) : SparesReserved s (startEngine s) :=
  (sparesReserved_records (x := some MasterState.fresh) (fun _ h => (Option.some.inj h).symm) .running).trans
    (foldl_spares (f := initMaster) (fun _ _ => ⟨_, rfl⟩) _ _ fun _ hm => mem_enabledAscending.1 hm)

theorem stopEngine_spares (s : State) : SparesReserved s (stopEngine s) :=
  (foldl_spares (f := deinitMaster) (fun _ _ => ⟨_, rfl⟩) _ s fun _ hm => mem_enabledAscending.1 hm).trans
    (sparesReserved_records (x := none) (fun _ h => by cases h) .shutDown)

theorem execEngineInit_spares (ht : execEngineInit s = .next t) : SparesReserved s t := by
  rw [execEngineInit] at ht
  split at ht
  · cases ht
  · cases ht
  · split at ht
    · split at ht
      · exact finishCall_spares (o := .done .unit _) (startEngine_spares s) ht
      · cases ht
    · cases ht

theorem execEngineShutdown_spares (ht : execEngineShutdown s = .next t) : SparesReserved s t := by
  rw [execEngineShutdown] at ht
  split at ht
  · cases ht
  · cases ht
  · split at ht
    · exact finishCall_spares (o := .done .unit _) (stopEngine_spares s) ht
    · cases ht

theorem acquireItem_spares (ht : acquireItem m s = .next t) : SparesReserved s t := by
  rw [acquireItem] at ht
  split at ht
  · exact (sparesReserved_dropItem s).trans (answer_spares ht)
  · next hm =>
    split at ht
    · cases ht
    · split at ht
      · cases ht; exact SparesReserved.refl s
      · cases ht
        exact (sparesReserved_withPort (Bool.eq_true_of_not_eq_false hm) _).trans (sparesReserved_dropItem _)

section
variable (hR : ReservedUnused s)
include hR

theorem startPrim_spares {b : Byte} {pr : Prim} (ht : startPrim b pr s = .next t) : SparesReserved s t :=
  onMaster_spares ht fun _ _ h => finishCall_spares (primCall_spares hR pr false) h

theorem startExecute_spares {b : Byte} {x : Txn} (ht : startExecute b x s = .next t) : SparesReserved s t := by
  rw [startExecute] at ht
  split at ht
  · exact answer_spares ht
  · exact finishCall_spares (beginExecute_spares hR x) ht

theorem startMux_spares {b sw v : Byte} (ht : startMux b sw v s = .next t) : SparesReserved s t := by
  rw [startMux] at ht
  split at ht
  · exact answer_spares ht
  · exact finishCall_spares (muxCall_spares hR _) ht

/-- The instructions that run a transaction are `execute`; the others one by one. -/
theorem exec_spares (i : Instr) (ht : exec i s = .next t) : SparesReserved s t := by
  cases hi : instrTxn i with
  | some bx => exact startExecute_spares hR (exec_of_instrTxn hi ▸ ht)
  | none =>
    cases i
    case cmdStart | cmdWrite | cmdReadAck | cmdReadNack | waitIdle | waitPhaseDone => exact startPrim_spares hR ht
    case cmdStop | read8 | deinit => exact onMaster_spares ht fun _ => finishCall_withPort_spares
    case write8 => exact execWrite8_spares ht
    case init => exact execInit_spares ht
    case access => exact finishCall_spares (resumeAccessCall_spares _) ht
    case muxSelect | muxDeselect => exact startMux_spares hR ht
    case deselectAll => exact finishCall_spares (beginDeselect_spares s) ht
    case engineInit => exact execEngineInit_spares ht
    case engineShutdown => exact execEngineShutdown_spares ht
    case cmdIack => cases ht
    all_goals cases hi

/-! The step. -/

theorem releaseItem_spares (ht : releaseItem m s = .next t) : SparesReserved s t := by
  rw [releaseItem] at ht
  split at ht
  · cases ht
  · next hp =>
    cases ht
    exact (sparesReserved_withPort (hR.enabled_of_holds (holds_of_release hp)) _).trans (sparesReserved_dropItem _)

theorem stepItem_spares (item : Item) (ht : stepItem item s = .next t) : SparesReserved s t := by
  cases item with
  | acquire m => exact acquireItem_spares ht
  | release m => exact releaseItem_spares hR ht
  | call bytes =>
    rw [stepItem] at ht
    split at ht
    · cases ht
    · split at ht
      · exact (sparesReserved_dropItem s).trans (exec_spares ((sparesReserved_dropItem s).kept hR) _ ht)
      · cases ht

theorem lifecycleStep_spares (ht : lifecycleStep s = .next t) : SparesReserved s t := by
  rw [lifecycleStep] at ht
  split at ht
  · exact exec_spares hR _ ht
  · split at ht
    · exact exec_spares hR _ ht
    · cases ht; exact SparesReserved.refl s
  · cases ht; exact SparesReserved.refl s

theorem stepSelf_spares (ht : stepSelf s = .next t) : SparesReserved s t := by
  rw [stepSelf] at ht
  split at ht
  · cases ht; exact sparesReserved_arrive s
  · next ag hag =>
    split at ht
    · next k hk =>
      have hwithin : k.WithinEnabled s.cfg := fun d hd => hR.2 ag (List.mem_of_getElem? hag) d (hd ▸ hk)
      exact finishCall_spares (resumeCall_spares hR hwithin) ht
    · split at ht
      · split at ht
        · exact lifecycleStep_spares hR ht
        · cases ht; exact SparesReserved.refl s
      · exact stepItem_spares hR _ ht

theorem step_spares (ht : step s = .next t) : SparesReserved s t :=
  (sparesReserved_takeTurn s).trans (stepSelf_spares ((sparesReserved_takeTurn s).kept hR) ht)

end

/-- Settles O57: what a step never changes, then the two invariants. -/
theorem stepKeepsConfigAndHistory : Obligations.StepKeepsConfigAndHistory := by
  unfold Obligations.StepKeepsConfigAndHistory
  intro s t ht
  refine ⟨step_cfg ht, step_agents_length ht, step_historiesGrow ht, step_lifecycleSound ht, fun hR => ?_⟩
  have h := step_spares hR ht
  exact ⟨h.kept hR, h.untouched⟩

end Sys2Proof.Machine
end

section
/-! SUPPORT. Every step keeps the window canonical (rules R60, R63; log entry 3). -/

namespace Sys2Proof.Machine

/-- Settles O54: a step's moves on the masters keep the form, and the turn and an arrival do not touch the window. -/
theorem stepKeepsWindowCanonical : Obligations.StepKeepsWindowCanonical := by
  unfold Obligations.StepKeepsWindowCanonical WindowCanonical
  intro s t hwf ht
  rw [← s.takeTurn_window] at hwf
  rcases step_reaches ht with h | rfl
  · exact h.window_wf hwf
  · rwa [State.arrive_window]

end Sys2Proof.Machine
end

section
/-! SUPPORT. The lock of a master by what its record says, and the calls and items that take or free it (rules R68, R69). -/

namespace Sys2Proof.Machine

variable {s : State} {k : MasterIx} {a : AgentId} {p q : Port} {x : MasterState}

theorem acquireLock_of_free (hr : p.unit.record = some x) (hl : x.lock = .free) :
    acquireLock a p = some (lockTaken a p) := by
  simp only [acquireLock, recordOf, hr, Option.getD_some, if_pos hl, lockTaken]

theorem acquireLock_of_taken (hr : p.unit.record = some x) (hl : x.lock ≠ .free) : acquireLock a p = none := by
  simp only [acquireLock, recordOf, hr, Option.getD_some, if_neg hl]

theorem releaseLock_of_not_holds (h : ¬ Holds s k) : releaseLock s.self (s.port k) = none :=
  Option.eq_none_iff_forall_ne_some.2 fun _ hq => h (holds_of_release hq)

/-- A move of the agent on one master whose window reads as before outside the master's registers. -/
theorem onlyMaster_mapSelf (f : Agent → Agent)
    (h : ∀ n, (∀ r, n ≠ regAddr s.cfg k r) → q.window.read n = s.window.read n) :
    OnlyMaster s ((s.withPort k q).mapSelf f) k :=
  ⟨rfl, rfl, rfl, rfl, rfl, rfl, rfl, fun _ hj => State.withPort_unit_other s q hj,
    fun _ hn => List.getElem?_modify_ne _ _ (Ne.symm hn), h⟩

/-- Settles O10: `acquire` by what the record says of the lock. -/
theorem acquireTakesFreeLock : Obligations.AcquireTakesFreeLock := by
  unfold Obligations.AcquireTakesFreeLock
  refine ⟨fun s m r he hr hl => ?free, fun s m r he hr hl => ?taken, fun s m he hr => ?noRecord, fun s m he => ?reserved⟩
  case free =>
    refine ⟨(s.withPort m (lockTaken s.self (s.port m))).dropItem, ?_, ?_, ?_, ?_, ?_, rfl,
      onlyMaster_mapSelf _ fun _ _ => rfl, rfl⟩
    · simp [acquireItem, he, hr, acquireLock_of_free (p := s.port m) hr hl]
    all_goals simp [lockTaken, hr]
  case taken => simp [acquireItem, he, hr, acquireLock_of_taken (p := s.port m) hr hl]
  case noRecord => simp [acquireItem, he, hr]
  case reserved => simp [acquireItem, he, answer, finishCall]

/-- Settles O11: `release` by whether its agent holds the lock. -/
theorem releaseFreesOrFaults : Obligations.ReleaseFreesOrFaults := by
  unfold Obligations.ReleaseFreesOrFaults
  refine ⟨fun s m r hr hl => ?holder, fun s m h => ?other⟩
  case holder =>
    have hheld : (s.port m).HeldBy s.self := ⟨r, hr, hl⟩
    refine ⟨(s.withPort m (lockFreed (s.port m))).dropItem, ?_, ?_, ?_, ?_, ?_, rfl,
      onlyMaster_mapSelf _ fun _ _ => rfl, rfl⟩
    · simp only [releaseItem, releaseLock_held hheld]
    all_goals simp [lockFreed, hr]
  case other => simp only [releaseItem, releaseLock_of_not_holds h]

/-- A sequence whose first position leads to one that waits there comes to that, however far the scheduler lets it go. -/
theorem portOut_runPos_waits {F R : Type} {pos : F → Port → PosOut F R Port} {f g : F} {call : F → Call} {ret : R → Ret}
    (h : pos f p = .go g q) (hw : pos g q = .wait g q) :
    ∀ n, portOut k s call ret (runPos pos n f p) = .paused (call g) (s.withPort k q)
  | 0 => by rw [runPos, h]; rfl
  | n + 1 => by rw [(Steps.one h).waits hw (Nat.le_add_left 1 n)]; rfl

/-- An access resumed at a position where nothing stops it runs its positions. -/
theorem resumeAccessCall_of_ready {f : AccessFrame} (hm : accessMaster s.cfg f.ep = some k)
    (hf : accessFault k f s = none) : resumeAccessCall f s = runAccess k f s := by
  simp only [resumeAccessCall, hm, hf]

/-- Settles O44: the lock position of an access waits while the lock is held. -/
theorem accessBlockedAtLock : Obligations.AccessBlockedAtLock := by
  unfold Obligations.AccessBlockedAtLock
  intro s ep t k r hm he hr hl
  have hmaster : accessMaster s.cfg ep = some k := accessMaster_eq.2 ⟨hm, he⟩
  have hwait : accessPos s.cfg s.self k (accessFrame ep t .lock) (s.port k) =
      .wait (accessFrame ep t .lock) (s.port k) := by
    show posLock s.self _ (s.port k) = _
    rw [posLock, acquireLock_of_taken (p := s.port k) hr hl]
  have hready : ∀ apc, apc = .validate ∨ apc = .lock → accessFault k (accessFrame ep t apc) s = none := by
    rintro apc (rfl | rfl) <;> simp [accessFault, accessFrame, APos.lockFree, hr]
  have hgo : accessPos s.cfg s.self k (accessFrame ep t .validate) (s.port k) =
      .go (accessFrame ep t .lock) (s.port k) := rfl
  constructor
  · have hrun : runAccess k (accessFrame ep t .validate) s = .paused (.access (accessFrame ep t .lock)) s := by
      rw [runAccess, portOut_runPos_waits hgo hwait, withPort_self]
    exact congrArg finishCall ((resumeAccessCall_of_ready hmaster (hready _ (.inl rfl))).trans hrun)
  · have hrun : runAccess k (accessFrame ep t .lock) s = .paused (.access (accessFrame ep t .lock)) s := by
      rw [runAccess, runPos_wait hwait, portOut, withPort_self]
    exact (resumeAccessCall_of_ready hmaster (hready _ (.inr rfl))).trans hrun

end Sys2Proof.Machine
end

section
/-! SUPPORT. `write8` (rules R61, R121), and what an instruction or a part of a call leaves of the masters it does not name
(rules R122, R238). -/

namespace Sys2Proof.Machine

variable {s t : State} {k : MasterIx} {c : Call}

/-- The bytes the model writes: the five commands to `CMDSTAT`, no reserved bit to `CTRL` (rules R81, R85). -/
theorem writeRefusal_eq_none {b : Config.Bits} {r : Reg} {v : Byte}
    (hc : r = .cmdstat → v ∈ [cmdStart b, cmdWrite b, cmdReadAck b, cmdReadNack b, cmdStop b])
    (hl : r = .ctrl → v &&& ~~~(bitMask b.en ||| bitMask b.ien) = 0#8) : writeRefusal b r v = none := by
  cases r with
  | cmdstat => exact if_pos (by simpa [commandIssued, or_assoc] using hc rfl)
  | ctrl => exact if_pos (decide_eq_true (hl rfl))
  | prerLo | prerHi | data => rfl

/-- Settles O18: `write8` is one write of the port. -/
theorem write8Completes : Obligations.Write8Completes := by
  unfold Obligations.Write8Completes
  intro s m k r v hm hk hwf hcommand hcontrol
  have hallowed : writeRefusal s.cfg.bits r v = none := writeRefusal_eq_none hcommand hcontrol
  have hglide : Glide s.cfg k (s.port k) (writeReg s.cfg k r v (s.port k)) 0 [] [.wr r v] 1 :=
    glide_write r v (issued_of_writeRefusal hallowed)
  refine ⟨(s.withPort k (writeReg s.cfg k r v (s.port k))).returned .unit, ?_, Memory.read_write_same hwf _ v,
    fun a ha => Memory.read_write_other hwf v ha, by simp, ranOn_of_glide hglide hwf⟩
  refine (onMaster_of_mayUse hm hk _).trans ?_
  simp only [hallowed, finishCall]

/-! The masters an instruction or a call does not name. -/

/-- Moves on one master leave all else. -/
theorem Reaches.onlyMaster (h : Reaches (· = k) s t) (hwf : s.window.wf = true) : OnlyMaster s t k := by
  obtain ⟨hschedule, hturns, hquantum, harrivals⟩ := h.schedule
  obtain ⟨other, hother⟩ : ∃ j : MasterIx, j ≠ k := exists_ne k
  exact ⟨h.cfg, h.self, hquantum, hschedule, hturns, h.phase hother, harrivals, fun j hj => h.unit_other hj, h.agents.2,
    fun a ha => h.window_other hwf a fun m hm r => hm ▸ ha r⟩

/-- An access goes on as an access to its endpoint. -/
theorem accessPos_ep {cfg : Config.Params} {self : AgentId} (f : AccessFrame) (p : Port) :
    (accessPos cfg self k f p).Meets (fun g _ => g.ep = f.ep) (fun _ _ => True) := by
  rw [accessPos]
  split
  · rfl
  · rw [posLock]; split <;> rfl
  · rw [posMux]; split
    · rfl
    · split
      · show (muxChoice _ _ _).ep = _
        rw [muxChoice]; split <;> [rfl; split <;> rfl]
      · split
        · rfl
        · rfl
        · rw [muxStepOver]; split <;> [rfl; split <;> rfl]
        · trivial
  · rfl
  · rw [posAttempt]; split
    · rfl
    · split <;> [rfl; rfl; rfl; trivial]
  · rw [posRetryDecide]; split <;> rfl
  · rw [posUnlock]; split <;> [trivial; rfl]
  · trivial

theorem PosOut.meets_of_forall {F R S : Type} {P : F → S → Prop} {E : R → S → Prop} (hp : ∀ f x, P f x)
    (he : ∀ r x, E r x) (o : PosOut F R S) : o.Meets P E := by
  cases o with
  | go f x => exact hp f x
  | wait f x => exact hp f x
  | ended r x => exact he r x
  | fault e => trivial

theorem portOut_meets {F R : Type} {call : F → Call} {ret : R → Ret} {P : Call → Prop} {o : PosOut F R Port}
    (h : o.Meets (fun f _ => P (call f)) (fun _ _ => True)) :
    (portOut k s call ret o).Meets (fun _ _ => True) (fun d _ => P d) := by
  cases o with
  | go f p => exact h
  | wait f p => exact h
  | ended r p => trivial
  | fault e => trivial

/-- A part of a call that is suspended again is of a call on the same master. -/
theorem resumeCall_master (hc : c.master s.cfg = some k) :
    (resumeCall c s).Meets (fun _ _ => True) (fun d _ => d.master s.cfg = some k) := by
  cases c with
  | prim m pr =>
    rw [resumeCall, primCall]
    split
    · trivial
    · split <;> [exact hc; trivial; trivial]
  | exec m f =>
    rw [resumeCall, resumeExecCall]
    split
    · trivial
    · exact portOut_meets (PosOut.meets_of_forall (fun _ _ => hc) (fun _ _ => trivial) _)
  | mux m w =>
    rw [resumeCall, muxCall]
    split
    · trivial
    · split
      · trivial
      · exact portOut_meets (PosOut.meets_of_forall (fun _ _ => hc) (fun _ _ => trivial) _)
  | access f =>
    rw [resumeCall, resumeAccessCall]
    split
    · trivial
    · next m _ =>
      split
      · trivial
      · have hep := runPos_meets (pos := accessPos s.cfg s.self m) (P := fun g _ => g.ep = f.ep)
          (fun g p hg => (accessPos_ep g p).imp (fun _ _ h => h.trans hg) (fun _ _ => id)) s.quantum f (s.port m) rfl
        exact portOut_meets (hep.imp (fun g _ hg => by rw [Call.master, hg]; exact hc) (fun _ _ => id))
  | deselectAll d => cases hc

/-- A part of a call that names a master moves on that master only. -/
theorem resumeCall_good_of_master (hc : c.master s.cfg = some k) : (resumeCall c s).Good (· = k) s := by
  cases c with
  | prim m pr => exact primCall_good (K := (· = k)) (Option.some.inj hc) pr true
  | exec m f => exact resumeExecCall_good (K := (· = k)) (Option.some.inj hc) f
  | mux m w => exact muxCall_good (K := (· = k)) (Option.some.inj hc) w
  | access f => exact resumeAccessCall_good f fun m hm => Option.some.inj (hm.symm.trans hc)
  | deselectAll d => cases hc

/-! An index out of range. -/

theorem onMaster_of_outOfRange {m : Byte} (hm : masterIx s.cfg m = none)
    (run : MasterIx → Host.Outcome State Fault Refusal) : onMaster m s run = .fault .badMasterIndex := by
  simp only [onMaster, hm]

theorem startExecute_of_outOfRange {m : Byte} (hm : masterIx s.cfg m = none) (x : Txn) :
    startExecute m x s = answer (.err .invalidArgument) s := by
  simp only [startExecute, hm]

theorem startMux_of_outOfRange {m : Byte} (hm : masterIx s.cfg m = none) (sw v : Byte) :
    startMux m sw v s = answer .fail s := by
  simp only [startMux, hm]

theorem execInit_of_outOfRange {m : Byte} (hm : masterIx s.cfg m = none) (div : Half) : execInit m div s =
    if div = s.cfg.div100k then .fault .badMasterIndex else answer (.err .invalidArgument) s := by
  by_cases hd : div = s.cfg.div100k <;> simp [execInit, hm, hd, onMaster_of_outOfRange]

theorem execAccess_of_outOfRange {ep : EndpointRef} (hm : masterIx s.cfg ep.master = none) (x : Txn) :
    execAccess ep x s = answer (.err .invalidArgument) s := by
  have hmaster : accessMaster s.cfg (accessFrame ep x .validate).ep = none := by simp [accessMaster, accessFrame, hm]
  simp only [execAccess, beginAccess, resumeAccessCall, hmaster, answer]

theorem eq_returned_of_answer {r : Ret} (h : answer r s = .next t) : ∃ r, t = s.returned r := by
  cases h; exact ⟨r, rfl⟩

/-- Such a call stops, or hands back a result. -/
theorem exec_of_outOfRange {i : Instr} {m : Byte} (hi : instrMaster i = some m) (hm : masterIx s.cfg m = none)
    (ht : exec i s = .next t) : ∃ r, t = s.returned r := by
  cases hx : instrTxn i with
  | some bx =>
    have hb : bx.1 = m := by cases i <;> cases hx <;> exact Option.some.inj hi
    rw [exec_of_instrTxn hx, startExecute_of_outOfRange (hb ▸ hm)] at ht
    exact eq_returned_of_answer ht
  | none =>
    cases i
    case cmdStart | cmdWrite | cmdReadAck | cmdReadNack | waitIdle | waitPhaseDone | cmdStop | read8 | write8 | deinit =>
      cases hi
      cases (onMaster_of_outOfRange hm _).symm.trans ht
    case init =>
      cases hi
      replace ht := (execInit_of_outOfRange hm _).symm.trans ht
      split at ht
      · cases ht
      · exact eq_returned_of_answer ht
    case access =>
      cases hi
      exact eq_returned_of_answer ((execAccess_of_outOfRange hm _).symm.trans ht)
    case muxSelect | muxDeselect =>
      cases hi
      exact eq_returned_of_answer ((startMux_of_outOfRange hm _ _).symm.trans ht)
    case cmdIack => cases ht
    case deselectAll | engineInit | engineShutdown => cases hi
    all_goals cases hx

/-- Settles O60: the moves of an instruction and of a resumed part are on the master they name. -/
theorem otherMastersUntouched : Obligations.OtherMastersUntouched := by
  unfold Obligations.OtherMastersUntouched
  refine ⟨fun i s t m hi hwf ht => ⟨fun k hk => ?inRange, fun hm => exec_of_outOfRange hi hm ht⟩,
    fun c s k hc hwf => ?resumed⟩
  case inRange =>
    have hmove : Reaches (· = k) s t :=
      (exec_reaches i ht).mono fun j hj => Option.some.inj ((hj m hi).symm.trans hk)
    exact hmove.onlyMaster hwf
  case resumed =>
    have hgood := resumeCall_good_of_master hc
    have hmaster := resumeCall_master hc
    cases ho : resumeCall c s <;> rw [ho] at hgood hmaster
    case done r t => exact Reaches.onlyMaster hgood hwf
    case paused d t => exact ⟨Reaches.onlyMaster hgood hwf, hmaster⟩
    case fault e => trivial

end Sys2Proof.Machine
end

section
/-! SUPPORT. What engine initialisation leaves in the window (rules R61, R131, R301). -/

namespace Sys2Proof.Machine

variable {c : Config.Params} {m j : MasterIx} {p : Port} {s t : State} {a : Nat}

/-- The divider and control registers of master `m` hold `DIV_100K` and `CTRL_ON`. -/
def Programmed (c : Config.Params) (w : Memory) (m : MasterIx) : Prop :=
  w.read (regAddr c m .prerLo) = wordLow c.div100k ∧ w.read (regAddr c m .prerHi) = wordHigh c.div100k ∧
    w.read (regAddr c m .ctrl) = ctrlOn c.bits

/-- `a` is none of the three addresses that `init` writes on master `m`. -/
def OffInit (c : Config.Params) (a : Nat) (m : MasterIx) : Prop :=
  a ≠ regAddr c m .prerLo ∧ a ≠ regAddr c m .prerHi ∧ a ≠ regAddr c m .ctrl

/-- The four writes of `init`, the last one to each register counting. -/
theorem read_programDivider (h : p.window.wf = true) (div : Half) (a : Nat) :
    (programDivider c m div p).window.read a =
      if a = regAddr c m .ctrl then ctrlOn c.bits
      else if a = regAddr c m .prerHi then wordHigh div
      else if a = regAddr c m .prerLo then wordLow div
      else p.window.read a := by
  have hwf : ∀ {w : Memory} (x : Nat) (v : Byte), w.wf = true → (w.write x v).wf = true :=
    fun x v => Memory.wf_write x v
  simp only [programDivider, writeReg_window]
  rw [Memory.read_write _ _ _ (hwf _ _ (hwf _ _ (hwf _ _ h))), Memory.read_write _ _ _ (hwf _ _ (hwf _ _ h)),
    Memory.read_write _ _ _ (hwf _ _ h), Memory.read_write _ _ _ h]
  by_cases ha : a = regAddr c m .ctrl <;> simp [ha]

theorem programmed_programDivider (hl : layoutOk c = true) (h : p.window.wf = true) :
    Programmed c (programDivider c m c.div100k p).window m := by
  have hne : ∀ {r q : Reg}, r ≠ q → regAddr c m r ≠ regAddr c m q := fun hrq he => hrq (regAddr_injective hl he).2
  refine ⟨?_, ?_, ?_⟩ <;> simp [read_programDivider h, hne]

theorem read_programDivider_of_off (h : p.window.wf = true) (div : Half) (ha : OffInit c a m) :
    (programDivider c m div p).window.read a = p.window.read a := by
  obtain ⟨hlo, hhi, hctrl⟩ := ha
  rw [read_programDivider h, if_neg hctrl, if_neg hhi, if_neg hlo]

theorem offInit_of_ne (hl : layoutOk c = true) (hmj : m ≠ j) (r : Reg) : OffInit c (regAddr c m r) j :=
  have hne : ∀ q, regAddr c m r ≠ regAddr c j q := fun _ he => hmj (regAddr_injective hl he).1
  ⟨hne _, hne _, hne _⟩

/-- Programming another master does not disturb one that is programmed. -/
theorem programmed_initMaster (hl : layoutOk s.cfg = true) (h : s.window.wf = true) (j : MasterIx)
    (hm : Programmed s.cfg s.window m) : Programmed s.cfg (initMaster s j).window m := by
  by_cases hmj : m = j
  · subst hmj; exact programmed_programDivider (p := s.port m) hl h
  · obtain ⟨hlo, hhi, hctrl⟩ := hm
    have hkept : ∀ r, (initMaster s j).window.read (regAddr s.cfg m r) = s.window.read (regAddr s.cfg m r) :=
      fun r => read_programDivider_of_off (p := s.port j) h _ (offInit_of_ne hl hmj r)
    exact ⟨(hkept _).trans hlo, (hkept _).trans hhi, (hkept _).trans hctrl⟩

/-- The masters of a list programmed one after the other, and the addresses that are none of theirs. -/
theorem foldl_initMaster : ∀ (l : List MasterIx) (s : State), layoutOk s.cfg = true → s.window.wf = true →
    (∀ m, m ∈ l ∨ Programmed s.cfg s.window m → Programmed s.cfg (l.foldl initMaster s).window m) ∧
    (∀ a, (∀ m ∈ l, OffInit s.cfg a m) → (l.foldl initMaster s).window.read a = s.window.read a)
  | [], s, _, _ => ⟨fun m h => h.resolve_left List.not_mem_nil, fun _ _ => rfl⟩
  | j :: l, s, hl, hwf => by
    obtain ⟨hprogrammed, hother⟩ := foldl_initMaster l (initMaster s j) hl ((evolves_programDivider _).window_wf hwf)
    refine ⟨fun m hm => hprogrammed m ?_, fun a ha => ?_⟩
    · rcases hm with hm | hm
      · rcases List.mem_cons.1 hm with rfl | hm
        · exact .inr (programmed_programDivider (p := s.port m) hl hwf)
        · exact .inl hm
      · exact .inr (programmed_initMaster hl hwf j hm)
    · obtain ⟨hj, hrest⟩ := List.forall_mem_cons.1 ha
      exact (hother a hrest).trans (read_programDivider_of_off (p := s.port j) hwf _ hj)

theorem eq_startEngine_of_execEngineInit (ht : execEngineInit s = .next t) : t = (startEngine s).returned .unit := by
  rw [execEngineInit] at ht
  split at ht
  · cases ht
  · cases ht
  · split at ht
    · split at ht <;> cases ht
      rfl
    · cases ht

/-- Settles O14: the writes of initialisation are those of `init` on one enabled master after the other. -/
theorem engineInitSetsRegisters : Obligations.EngineInitSetsRegisters := by
  unfold Obligations.EngineInitSetsRegisters
  intro s t hwf hok ht
  obtain rfl := eq_startEngine_of_execEngineInit ht
  obtain ⟨hprogrammed, hother⟩ := foldl_initMaster (enabledAscending s.cfg) (createRecords s) (configOk_iff.1 hok).1 hwf
  exact ⟨fun m hm => hprogrammed m (.inl (mem_enabledAscending.2 (masterEnabled_iff.2 hm))),
    fun a ha => hother a fun m hm => ha m (masterEnabled_iff.1 (mem_enabledAscending.1 hm))⟩

end Sys2Proof.Machine
end

section
/-! SUPPORT. A poll that is not met: of a primitive, of a transaction inside any call, and in a fair run (rules R135 to R138,
R172, R173). -/

namespace Sys2Proof.Machine

variable {s t : State} {k : MasterIx} {pr : Prim} {p q : Port} {f : ExecFrame} {put : ExecFrame → Call}

/-! One iteration of a primitive that the lock holder starts or resumes. -/

/-- What a primitive writes before its poll: nothing more where it is resumed there. -/
def writesBefore (c : Config.Params) (pr : Prim) (polling : Bool) : List Access := if polling then [] else primWrites c pr

/-- The port at its poll. -/
def portAtPoll (s : State) (k : MasterIx) (pr : Prim) (polling : Bool) : Port :=
  if polling then s.port k else primBegin s.cfg k pr (s.port k)

/-- A port after a poll that is not met: a status read and a draw of `DeadlinePassed` (rule R135). -/
def unmetPort (k : MasterIx) (p : Port) : Port := (drawDeadline k (readReg k .cmdstat p).2).2

@[simp] theorem unmetPort_window (k : MasterIx) (p : Port) : (unmetPort k p).window = p.window := rfl
@[simp] theorem unmetPort_record (k : MasterIx) (p : Port) : (unmetPort k p).unit.record = p.unit.record := rfl
@[simp] theorem unmetPort_chips (k : MasterIx) (p : Port) : (unmetPort k p).unit.chips = p.unit.chips := rfl
@[simp] theorem unmetPort_history (k : MasterIx) (p : Port) :
    (unmetPort k p).unit.history = p.unit.history ++ [.rd .cmdstat (readReg k .cmdstat p).1] := rfl

theorem glide_portAtPoll (s : State) (k : MasterIx) (pr : Prim) (polling : Bool) :
    Glide s.cfg k (s.port k) (portAtPoll s k pr polling) 0 [] (writesBefore s.cfg pr polling)
      (writesBefore s.cfg pr polling).length := by
  cases polling
  · exact glide_primBegin pr
  · exact Glide.refl _

theorem portAtPoll_unit (s : State) (k : MasterIx) (pr : Prim) (polling : Bool) : (portAtPoll s k pr polling).unit =
    { s.unit k with history := (s.unit k).history ++ writesBefore s.cfg pr polling } := by
  cases polling <;> simp [portAtPoll, writesBefore, primBegin_port]

theorem deadlineAfter_eq {ws : List Access} (h : q.unit = { s.unit k with history := (s.unit k).history ++ ws }) :
    deadlineAfter s k ws = (drawDeadline k (readReg k .cmdstat q).2).1 := by
  simp only [deadlineAfter, statusAfter, drawDeadline, readReg, h]

theorem statusAfter_nil : statusAfter s k [] = (readReg k .cmdstat (s.port k)).1 := statusAfter_eq (by simp)

theorem runPrim_eq (polling : Bool) :
    runPrim s.cfg k pr polling (s.port k) = primPoll s.cfg k pr (portAtPoll s k pr polling) := rfl

theorem primCall_of_unmet (hh : Holds s k) {polling : Bool}
    (hb : bitSet (statusAfter s k (writesBefore s.cfg pr polling)) (pr.bit s.cfg.bits) = true) :
    primCall k pr polling s =
      if deadlineAfter s k (writesBefore s.cfg pr polling) then
        .done (.err .timeout) (s.withPort k (unmetPort k (portAtPoll s k pr polling)))
      else .paused (.prim k pr) (s.withPort k (unmetPort k (portAtPoll s k pr polling))) := by
  have hunit := portAtPoll_unit s k pr polling
  rw [statusAfter_eq hunit] at hb
  rw [deadlineAfter_eq hunit, primCall, holderFault_none_iff.2 hh]
  simp only [runPrim_eq, primPoll_unmet hb]
  cases (drawDeadline k (readReg k .cmdstat (portAtPoll s k pr polling)).2).1 <;> rfl

/-- A primitive whose poll is met returns. -/
theorem primCall_of_met (hh : Holds s k) {polling : Bool}
    (hb : bitSet (statusAfter s k (writesBefore s.cfg pr polling)) (pr.bit s.cfg.bits) = false) :
    ∃ r q, primCall k pr polling s = .done r (s.withPort k q) := by
  rw [statusAfter_eq (portAtPoll_unit s k pr polling)] at hb
  rw [primCall, holderFault_none_iff.2 hh]
  simp only [runPrim_eq]
  by_cases hfail : ∃ e, pr.FailsAt s.cfg.bits (readReg k .cmdstat (portAtPoll s k pr polling)).1 e
  · obtain ⟨e, he⟩ := hfail
    rw [primPoll_fails hb he]
    exact ⟨_, _, rfl⟩
  · rw [primPoll_met hb fun e he => hfail ⟨e, he⟩]
    cases pr.receives <;> exact ⟨_, _, rfl⟩

/-- What the iteration of a poll that is not met leaves, whatever becomes of the agent. -/
theorem pollUnmet_of_agents {polling : Bool} {g : Agent → Agent} (hwf : s.window.wf = true)
    (ht : t = (s.withPort k (unmetPort k (portAtPoll s k pr polling))).mapSelf g)
    (hlate : deadlineAfter s k (writesBefore s.cfg pr polling) = true → GaveBack s t (.err .timeout))
    (hyield : deadlineAfter s k (writesBefore s.cfg pr polling) = false →
      t.agents = s.agents.modify s.self (fun a => { a with call := some (.prim k pr) })) :
    PollUnmet s t k pr (writesBefore s.cfg pr polling) := by
  have hglide := (glide_portAtPoll s k pr polling).trans glide_readStatus
  have hunit := portAtPoll_unit s k pr polling
  have hevolves : Evolves s.cfg k (s.port k) (unmetPort k (portAtPoll s k pr polling)) :=
    hglide.evolves.trans (PortStep.draw _).evolves
  obtain ⟨new, hhistory, hwrites, hlength, _⟩ := hglide.accesses
  subst ht
  refine ⟨onlyMaster_mapSelf g (hevolves.window_other hwf), ⟨⟨new, by simpa using hhistory, by simpa using hwrites,
    hlength⟩, by simpa using hglide.window⟩, ?_, ?_, ?_, hlate, hyield⟩
  · rw [statusAfter_eq hunit]; simp [hunit]
  · simpa using hglide.record
  · simpa using hglide.chips

/-- A primitive whose poll finds its bit set: a `Timeout`, or a suspension at the poll. -/
theorem finishCall_primCall_of_unmet (hh : Holds s k) (hwf : s.window.wf = true) (polling : Bool)
    (hb : bitSet (statusAfter s k (writesBefore s.cfg pr polling)) (pr.bit s.cfg.bits) = true) :
    ∃ t, finishCall (primCall k pr polling s) = .next t ∧ PollUnmet s t k pr (writesBefore s.cfg pr polling) := by
  rw [primCall_of_unmet hh hb]
  cases hd : deadlineAfter s k (writesBefore s.cfg pr polling)
  · exact ⟨_, rfl, pollUnmet_of_agents hwf rfl (fun h => by rw [hd] at h; cases h) fun _ => rfl⟩
  · exact ⟨_, rfl, pollUnmet_of_agents hwf rfl (fun _ => rfl) fun h => by rw [hd] at h; cases h⟩

/-- The phases are primitives of the master core that poll TIP (rules R138, R142 to R146). -/
theorem exec_of_phase {c : Config.Params} {m : Byte} {i : Instr} {ws : List Access}
    (h : WritePhase c m i ws pr ∨ ReadPhase c m i ws pr ∨ WaitPhase m i ws pr) :
    exec i s = startPrim m pr s ∧ ws = primWrites c pr ∧ pr.bit c.bits = c.bits.tip := by
  rcases h with (⟨b, rfl, rfl, rfl⟩ | ⟨b, rfl, rfl, rfl⟩) | (⟨rfl, rfl, rfl⟩ | ⟨rfl, rfl, rfl⟩) | ⟨_, w, rfl, rfl, rfl⟩ <;>
    exact ⟨rfl, rfl, rfl⟩

/-! A position of a transaction, inside the call that carries it. -/

theorem touches_unmetPort (s : State) (k : MasterIx) :
    Touches s (s.withPort k (unmetPort k (s.port k))) k [.rd .cmdstat (statusAfter s k [])] (s.unit k).record :=
  touches_withPort (by simp [statusAfter_nil]) rfl rfl rfl

/-- Begun, the position writes its command and then does what it does resumed at its poll. -/
theorem Carries.begins (hc : Carries s.cfg k put) (h : f.prim = some pr) :
    resumeCall (put { f with polling := false }) s =
      resumeCall (put { f with polling := true }) (s.afterWrites k (primWrites s.cfg pr)) := by
  have hport : s.afterWrites k (primWrites s.cfg pr) = s.withPort k (primBegin s.cfg k pr (s.port k)) := by
    rw [primBegin_port]; rfl
  rw [hport]
  exact hc.same (by rw [primBegin_port]; rfl) (execPos_begin h)

section
variable (hc : Carries s.cfg k put) (hh : Holds s k) (h : f.prim = some pr) (hp : f.polling = true)
  (hb : bitSet (statusAfter s k []) (pr.bit s.cfg.bits) = true)
include hc hh h hp hb

/-- Resumed at a poll that is not met, no deadline drawn, the call stays as it is. -/
theorem Carries.stays (hd : deadlineAfter s k [] = false) :
    resumeCall (put f) s = .paused (put f) (s.withPort k (unmetPort k (s.port k))) := by
  rw [deadlineAfter_nil] at hd
  rw [statusAfter_nil] at hb
  exact hc.wait hh (execPos_waits h hp hb hd)

/-- With the deadline drawn it goes to `E_STOP` with `Timeout`. -/
theorem Carries.timesOut (hd : deadlineAfter s k [] = true) (hq : s.quantum = 0) :
    resumeCall (put f) s =
      .paused (put (f.stopWith (.err .timeout))) (s.withPort k (unmetPort k (s.port k))) := by
  rw [deadlineAfter_nil] at hd
  rw [statusAfter_nil] at hb
  exact hc.go hh hq (execPos_times_out h hp hb hd)

end

/-! Fair runs. -/

section
variable {r : Nat → State} {n : Nat} {a : AgentId} {ag : Agent} {C : Call} {b : Fin 8}

/-- Resumed at a poll of bit `b` that is not met, no deadline drawn, the call stays as it is, if it does not fault. -/
def StaysAtPoll (c : Config.Params) (k : MasterIx) (b : Fin 8) (C : Call) : Prop :=
  ∀ s : State, s.cfg = c → Unmet s k b → ¬ DeadlineDrawn s k →
    (∃ e, resumeCall C s = .fault e) ∨ ∃ q, resumeCall C s = .paused C (s.withPort k q)

theorem primCall_of_not_holds (hh : ¬ Holds s k) (polling : Bool) : ∃ e, primCall k pr polling s = .fault e := by
  obtain ⟨e, he⟩ := Option.ne_none_iff_exists'.1 (fun hx => hh (holderFault_none_iff.1 hx))
  exact ⟨e, by simp only [primCall, he]⟩

theorem staysAtPoll_prim (c : Config.Params) (k : MasterIx) (pr : Prim) :
    StaysAtPoll c k (pr.bit c.bits) (.prim k pr) := by
  intro s hcfg hunmet hlate
  subst hcfg
  by_cases hh : Holds s k
  · exact .inr ⟨_, (primCall_of_unmet (polling := true) hh hunmet).trans (if_neg hlate)⟩
  · exact .inl (primCall_of_not_holds hh true)

theorem Carries.staysAtPoll {c : Config.Params} (hc : Carries c k put) (h : f.prim = some pr) (hp : f.polling = true) :
    StaysAtPoll c k (pr.bit c.bits) (put f) := by
  intro s hcfg hunmet hlate
  subst hcfg
  by_cases hh : Holds s k
  · exact .inr ⟨_, hc.stays hh h hp hunmet (Bool.eq_false_of_not_eq_true hlate)⟩
  · exact .inl (hc.fault hh)

theorem IsRun.step_of_running (h : IsRun r) {j : Nat} (hj : ¬ Halted (r j)) : step (r j) = .next (r (j + 1)) :=
  (h j).resolve_right fun hx => hj hx.1

@[simp] theorem unmet_takeTurn : Unmet s.takeTurn k b ↔ Unmet s k b := by simp [Unmet, statusAfter]

@[simp] theorem deadlineDrawn_takeTurn : DeadlineDrawn s.takeTurn k ↔ DeadlineDrawn s k := by
  simp [DeadlineDrawn, deadlineAfter, statusAfter]

/-- An agent at a poll that is not met at its turn is the same agent after the step. -/
theorem step_agent_at_poll (ht : step s = .next t) (ha : s.agents[a]? = some ag) (hC : ag.call = some C)
    (hstay : StaysAtPoll s.cfg k b C) (hturn : s.takeTurn.self = a → Unmet s k b ∧ ¬ DeadlineDrawn s k) :
    t.agents[a]? = some ag := by
  by_cases hself : s.takeTurn.self = a
  · obtain ⟨hunmet, hlate⟩ := hturn hself
    rw [step_call hself ha hC] at ht
    rcases hstay s.takeTurn s.takeTurn_cfg (unmet_takeTurn.2 hunmet) (fun h => hlate (deadlineDrawn_takeTurn.1 h)) with
      ⟨e, he⟩ | ⟨q, hq⟩
    · rw [he] at ht; cases ht
    · rw [hq] at ht
      cases ht
      simp [hself, ha, ← hC]
  · exact step_other_agent ht hself ha

/-- An agent at a poll comes to an iteration at which the bit is clear or the deadline drawn, unless the machine stops: else
it would be the same agent for ever, its poll iterated for ever, and no deadline drawn (rule R136). -/
theorem WeaklyFair.poll_ends (hr : WeaklyFair r) (ha : (r n).agents[a]? = some ag) (hC : ag.call = some C)
    (hpoll : PollsAt (r n).cfg k b C) (hstay : StaysAtPoll (r n).cfg k b C) :
    ∃ j, n ≤ j ∧ (Halted (r j) ∨ ((r j).cfg = (r n).cfg ∧ (r j).agents[a]? = some ag ∧ Iterates (r j) a C ∧
      (¬ Unmet (r j) k b ∨ DeadlineDrawn (r j) k))) := by
  by_contra hnever
  simp only [not_exists, not_and, not_or, not_not] at hnever
  have hsame : ∀ j, n ≤ j → (r j).cfg = (r n).cfg ∧ (r j).agents[a]? = some ag := by
    intro j hj
    induction j, hj using Nat.le_induction with
    | base => exact ⟨rfl, ha⟩
    | succ j hj ih =>
      obtain ⟨hcfg, hag⟩ := ih
      obtain ⟨hrunning, hiterates⟩ := hnever j hj
      have hstep : step (r j) = .next (r (j + 1)) := hr.run.step_of_running hrunning
      exact ⟨(step_cfg hstep).trans hcfg, step_agent_at_poll hstep hag hC (hcfg ▸ hstay)
        fun hself => hiterates hcfg hag ⟨hrunning, ⟨ag, hag, hC⟩, hself⟩⟩
  have hagain : ∀ i, ∃ j, i ≤ j ∧ Iterates (r j) a C := by
    intro i
    have hcall : ∀ j, n ≤ j → InCall (r j) a C := fun j hj => ⟨ag, (hsame j hj).2, hC⟩
    obtain ⟨j, hj, hmoves⟩ := hr.moves (max i n) a C (hcall _ (Nat.le_max_right i n))
    have hnj : n ≤ j := (Nat.le_max_right i n).trans hj
    have hrunning := (hnever j hnj).1
    exact ⟨j, (Nat.le_max_left i n).trans hj, hrunning, hcall j hnj, hmoves.resolve_left hrunning⟩
  have hunmet : ∀ j, n ≤ j → Iterates (r j) a C → Unmet (r j) k b ∧ ¬ DeadlineDrawn (r j) k :=
    fun j hj hi => (hnever j hj).2 (hsame j hj).1 (hsame j hj).2 hi
  obtain ⟨j, hj, hi, hlate⟩ := hr.draws n a C k b hpoll hagain fun j hj hi => (hunmet j hj hi).1
  exact (hunmet j hj hi).2 hlate

/-- At such an iteration a primitive returns, if it does not fault. -/
theorem step_returns_of_prim (ht : step s = .next t) (ha : s.agents[a]? = some ag) (hC : ag.call = some (.prim k pr))
    (hself : s.takeTurn.self = a) (hend : ¬ Unmet s k (pr.bit s.cfg.bits) ∨ DeadlineDrawn s k) :
    ∃ x, t.agents[a]? = some { ag with call := none, returned := ag.returned ++ [x] } := by
  rw [step_call hself ha hC] at ht
  by_cases hh : Holds s.takeTurn k
  · have hreturns : ∃ x q, resumeCall (.prim k pr) s.takeTurn = .done x (s.takeTurn.withPort k q) := by
      by_cases hunmet : Unmet s.takeTurn k (pr.bit s.takeTurn.cfg.bits)
      · have hlate : DeadlineDrawn s.takeTurn k := by
          rw [State.takeTurn_cfg, unmet_takeTurn] at hunmet
          exact deadlineDrawn_takeTurn.2 (hend.resolve_left (not_not_intro hunmet))
        exact ⟨_, _, (primCall_of_unmet (polling := true) hh hunmet).trans (if_pos hlate)⟩
      · exact primCall_of_met (polling := true) hh (Bool.eq_false_of_not_eq_true hunmet)
    obtain ⟨x, q, hx⟩ := hreturns
    rw [hx] at ht
    cases ht
    exact ⟨x, by simp [hself, ha]⟩
  · obtain ⟨e, he⟩ := primCall_of_not_holds (pr := pr) hh true
    rw [show resumeCall (.prim k pr) s.takeTurn = .fault e from he] at ht
    cases ht

end

/-- Settles O26: one iteration of a primitive, of a transaction's position inside its call, and the fair runs. -/
theorem phasePollTimesOut : Obligations.PhasePollTimesOut := by
  unfold Obligations.PhasePollTimesOut
  refine ⟨fun s m k i ws pr hphase hm hk hwf => ?phases, fun s k put f pr hc h => ⟨hc.begins h, fun hh hp hb => ?position⟩,
    fun r n a ag k pr hr ha hC => ?primitive, fun r n a k put f pr hr hc h hp hcall => ?transaction⟩
  case phases =>
    obtain ⟨hexec, rfl, hbit⟩ := exec_of_phase (s := s) hphase
    rw [hexec, startPrim, onMaster_of_mayUse hm hk, ← hbit]
    exact ⟨finishCall_primCall_of_unmet hk.2 hwf false, finishCall_primCall_of_unmet hk.2 hwf true⟩
  case position =>
    exact ⟨_, touches_unmetPort s k, hc.stays hh h hp hb, hc.timesOut hh h hp hb⟩
  case primitive =>
    obtain ⟨j, hj, hhalted | ⟨hcfg, hag, ⟨hrunning, _, hself⟩, hend⟩⟩ :=
      hr.poll_ends ha hC (.inl ⟨pr, rfl, rfl⟩) (staysAtPoll_prim _ k pr)
    · exact ⟨j, hj, .inl hhalted⟩
    · have hstep : step (r j) = .next (r (j + 1)) := hr.run.step_of_running hrunning
      exact ⟨j + 1, by omega, .inr (step_returns_of_prim hstep hag hC hself (hcfg ▸ hend))⟩
  case transaction =>
    obtain ⟨ag, ha, hC⟩ := hcall
    obtain ⟨j, hj, hend⟩ := hr.poll_ends ha hC (.inr ⟨put, f, pr, hc, rfl, hp, h, rfl⟩) (hc.staysAtPoll h hp)
    exact ⟨j, hj, hend.imp_right fun ⟨_, _, hiterates, hmet⟩ => ⟨hiterates, hmet⟩⟩

end Sys2Proof.Machine
end

section
/-! SUPPORT. `deselect_all` over all enabled masters (rule R240): the lists it goes through, one master's turn after the
other, and what the chips select then. -/

namespace Sys2Proof.Machine

variable {s t : State} {c : Config.Params} {m k : MasterIx}

/-! The lists. -/

theorem entrySwitch_eq_some_iff {e : Config.Endpoint} {sw : Byte} :
    entrySwitch c m e = some sw ↔ masterIx c e.master = some m ∧ e.sel = .switch sw := by
  unfold entrySwitch
  split
  · next h => simp [h]
  · next x h => simp [h]

theorem mem_switchesOf {sw : Byte} :
    sw ∈ switchesOf c m ↔ ∃ e ∈ c.topology, masterIx c e.master = some m ∧ e.sel = .switch sw := by
  have hfold : ∀ l : List Byte, sw ∈ l.foldr insertAscending [] ↔ sw ∈ l := by
    intro l
    induction l with
    | nil => rfl
    | cons x l ih => rw [List.foldr_cons, mem_insertAscending, ih, List.mem_cons]
  simp only [switchesOf, hfold, List.mem_filterMap, entrySwitch_eq_some_iff]

theorem switchesOf_nodup (c : Config.Params) (m : MasterIx) : (switchesOf c m).Nodup :=
  (switchesOf_sorted c m).imp fun h he => by subst he; exact absurd h (lt_irrefl _)

theorem enabledAscending_nodup (c : Config.Params) : (enabledAscending c).Nodup :=
  (List.nodup_finRange _).filter _

/-! The chips. -/

theorem chipSelection_chipForget (x y : Byte) : ∀ chips : List (Byte × Byte),
    chipSelection (chipForget x chips) y = if y = x then .unspecified else chipSelection chips y
  | [] => by simp [chipForget, chipSelection]
  | (z, w) :: rest => by
    have ih := chipSelection_chipForget x y rest
    by_cases hz : z = x
    · subst hz
      have hforget : chipForget z ((z, w) :: rest) = chipForget z rest := by simp [chipForget]
      rw [hforget, ih]
      by_cases hy : y = z <;> simp [hy, chipSelection]
    · have hforget : chipForget x ((z, w) :: rest) = (z, w) :: chipForget x rest := by simp [chipForget, hz]
      rw [hforget, chipSelection, ih, chipSelection]
      by_cases hy : y = z
      · subst hy; simp [hz]
      · simp [hy]

/-- The chips after one deselect. -/
def deselectedChip (sw : Byte) (ok : Bool) (chips : List (Byte × Byte)) : List (Byte × Byte) :=
  if ok then chipSet sw 0x00#8 chips else chipForget sw chips

theorem deselectedChips_cons (sw : Byte) (sws : List Byte) (ok : Bool) (oks : List Bool) (chips : List (Byte × Byte)) :
    deselectedChips (sw :: sws) (ok :: oks) chips = deselectedChips sws oks (deselectedChip sw ok chips) := by
  cases ok <;> rfl

theorem chipSelection_deselectedChip_same (sw : Byte) (ok : Bool) (chips : List (Byte × Byte)) :
    chipSelection (deselectedChip sw ok chips) sw = if ok then .mask 0x00#8 else .unspecified := by
  cases ok <;> simp [deselectedChip, chipSelection_chipForget]

theorem chipSelection_deselectedChip_other {sw x : Byte} (h : x ≠ sw) (ok : Bool) (chips : List (Byte × Byte)) :
    chipSelection (deselectedChip sw ok chips) x = chipSelection chips x := by
  cases ok <;> simp [deselectedChip, chipSelection_chipForget, chipSelection_chipSet_other h, h]

/-- A chip that is none of those deselected. -/
theorem chipSelection_deselectedChips_other {x : Byte} : ∀ (sws : List Byte) (oks : List Bool) (chips : List (Byte × Byte)),
    x ∉ sws → chipSelection (deselectedChips sws oks chips) x = chipSelection chips x
  | [], _, _, _ => rfl
  | _ :: _, [], _, _ => rfl
  | sw :: sws, ok :: oks, chips, h => by
    rw [deselectedChips_cons, chipSelection_deselectedChips_other sws oks _ (List.not_mem_of_not_mem_cons h),
      chipSelection_deselectedChip_other (List.ne_of_not_mem_cons h)]

/-- One of those deselected selects nothing where that succeeded, and is unspecified where it failed (93 U13). -/
theorem chipSelection_deselectedChips {sw : Byte} {ok : Bool} : ∀ (sws : List Byte) (oks : List Bool)
    (chips : List (Byte × Byte)) (n : Nat), sws.Nodup → sws[n]? = some sw → oks[n]? = some ok →
    chipSelection (deselectedChips sws oks chips) sw = if ok then .mask 0x00#8 else .unspecified
  | [], _, _, _, _, h, _ => by cases h
  | _ :: _, [], _, _, _, _, h => by cases h
  | _ :: sws, _ :: oks, chips, 0, hnodup, hsw, hok => by
    cases hsw
    cases hok
    rw [deselectedChips_cons, chipSelection_deselectedChips_other sws oks _ (List.nodup_cons.1 hnodup).1,
      chipSelection_deselectedChip_same]
  | _ :: sws, _ :: oks, chips, n + 1, hnodup, hsw, hok => by
    rw [deselectedChips_cons]
    exact chipSelection_deselectedChips sws oks _ n (List.nodup_cons.1 hnodup).2 hsw hok

/-! The masters one after the other. -/

/-- A master whose lock is free, and whose answers are those of deselects with the outcomes `oks`. -/
structure Deselectable (s : State) (m : MasterIx) (oks : List Bool) : Prop where
  free : ∃ r, (s.unit m).record = some r ∧ r.lock = .free
  outcomes : oks.length = (switchesOf s.cfg m).length
  answers : deselectAnswers s.cfg oks (s.unit m).inputs.status = true
  addresses : ∀ sw ∈ switchesOf s.cfg m, sw.toNat ≤ 0x7F

/-- From `s` to `t` master `m` had its turn, its deselects with the outcomes `oks`. -/
structure Deselected (s t : State) (m : MasterIx) (oks : List Bool) : Prop where
  record : ∀ r, (s.unit m).record = some r → (t.unit m).record = some (afterDeselect oks r)
  accesses : HistoryGrew s t m (deselectWrites s.cfg (switchesOf s.cfg m) oks) (deselectAccesses s.cfg oks)
  chips : (t.unit m).chips = deselectedChips (switchesOf s.cfg m) oks (s.unit m).chips

/-- From `s` to `t` the masters of a list had their turns, and nothing else changed. -/
structure AllDeselected (oks : MasterIx → List Bool) (l : List MasterIx) (s t : State) : Prop where
  rest : t = { s with units := t.units, window := t.window }
  turns : ∀ m ∈ l, Deselected s t m (oks m)
  others : ∀ m, m ∉ l → t.unit m = s.unit m
  window : ∀ a, (∀ m ∈ l, ∀ r, a ≠ regAddr s.cfg m r) → t.window.read a = s.window.read a

theorem Deselectable.congr {oks : List Bool} (h : Deselectable s m oks) (hc : t.cfg = s.cfg) (hu : t.unit m = s.unit m) :
    Deselectable t m oks :=
  ⟨hu ▸ h.free, hc ▸ h.outcomes, hc ▸ hu ▸ h.answers, hc ▸ h.addresses⟩

/-- Whether a master had its turn can be read off the configuration and its unit before and after. -/
theorem Deselected.congr {s' t' : State} {oks : List Bool} (h : Deselected s t m oks) (hc : s'.cfg = s.cfg)
    (hs : s'.unit m = s.unit m) (ht : t'.unit m = t.unit m) : Deselected s' t' m oks := by
  obtain ⟨hrecord, haccesses, hchips⟩ := h
  refine ⟨by rwa [hs, ht], ?_, by rwa [hc, hs, ht]⟩
  simpa only [HistoryGrew, hc, hs, ht] using haccesses

/-- The positions of a master's turn, at most (rule R240). -/
def turnPositions (c : Config.Params) (m : MasterIx) : Nat := 2 + (11 + 7 * c.muxAttempts) * (switchesOf c m).length

/-- Some deselect of a master of the list failed. -/
def anyFailed (oks : MasterIx → List Bool) (l : List MasterIx) : Bool := l.any fun m => !(oks m).all id

theorem deselect_masters (oks : MasterIx → List Bool) : ∀ (l : List MasterIx) (s : State) (failed : Bool), l.Nodup →
    (∀ m ∈ l, masterEnabled s.cfg m = true) → 1 ≤ s.cfg.muxAttempts → s.window.wf = true →
    (∀ m ∈ l, Deselectable s m (oks m)) →
    ∃ n t, n ≤ (l.map (turnPositions s.cfg)).sum ∧
      Steps deselectPos n (deselectFrame l failed) s (deselectFrame [] (failed || anyFailed oks l)) t ∧
      AllDeselected oks l s t
  | [], s, failed, _, _, _, _, _ => by
    refine ⟨0, s, Nat.le_refl _, ?_, rfl, fun m h => absurd h List.not_mem_nil, fun _ _ => rfl, fun _ _ => rfl⟩
    simpa [anyFailed] using Steps.refl (pos := deselectPos) (deselectFrame [] failed) s
  | m :: l, s, failed, hnodup, he, hattempts, hwf, hready => by
    obtain ⟨hm, hnodup⟩ := List.nodup_cons.1 hnodup
    obtain ⟨hem, he⟩ := List.forall_mem_cons.1 he
    obtain ⟨hreadym, hready⟩ := List.forall_mem_cons.1 hready
    obtain ⟨x, hx, hfree⟩ := hreadym.free
    obtain ⟨q, k, n, hn, hsteps, htrail, hrecord, hchips⟩ := deselect_master hem hattempts hx hfree
      hreadym.outcomes.symm hreadym.addresses hreadym.answers l failed
    have hother : ∀ j, j ≠ m → (s.withPort m q).unit j = s.unit j := fun j hj => State.withPort_unit_other s q hj
    have hne : ∀ j ∈ l, j ≠ m := fun j hj h => hm (h ▸ hj)
    obtain ⟨n', t, hn', hsteps', hall⟩ := deselect_masters oks l (s.withPort m q) (failed || !(oks m).all id) hnodup he
      hattempts (htrail.evolves.window_wf hwf) fun j hj => (hready j hj).congr rfl (hother j (hne j hj))
    have hturn : Deselected s (s.withPort m q) m (oks m) := by
      obtain ⟨new, hhistory, hwrites, hlength⟩ := htrail.accesses
      refine ⟨fun r hr => ?_, ⟨new, by simpa using hhistory, hwrites, hlength⟩, by simpa using hchips⟩
      rw [hx] at hr
      cases hr
      simpa using hrecord
    refine ⟨n + n', t, ?_, ?_, hall.rest, fun j hj => ?_, fun j hj => ?_, fun a ha => ?_⟩
    · rw [List.map_cons, List.sum_cons]
      exact Nat.add_le_add hn hn'
    · simpa [anyFailed, Bool.or_assoc] using hsteps.trans hsteps'
    · rcases List.mem_cons.1 hj with rfl | hj
      · exact hturn.congr rfl rfl (hall.others j hm)
      · exact (hall.turns j hj).congr rfl (hother j (hne j hj)).symm rfl
    · exact (hall.others j (List.not_mem_of_not_mem_cons hj)).trans (hother j (List.ne_of_not_mem_cons hj))
    · obtain ⟨ham, hal⟩ := List.forall_mem_cons.1 ha
      exact (hall.window a hal).trans (htrail.evolves.window_other hwf a ham)

theorem anyFailed_iff {oks : MasterIx → List Bool} {l : List MasterIx} :
    anyFailed oks l = true ↔ ∃ m ∈ l, false ∈ oks m := by
  simp [anyFailed]

/-- `deselect_all` to its end, where the scheduler lets it run so far. -/
theorem exec_deselectAll {oks : MasterIx → List Bool} (hwf : s.window.wf = true) (hattempts : 1 ≤ s.cfg.muxAttempts)
    (hquantum : deselectPositions s.cfg ≤ s.quantum) (hready : ∀ m ∈ s.cfg.enabled, Deselectable s m (oks m)) :
    ∃ u, exec .deselectAll s = .next (u.returned
        (if anyFailed oks (enabledAscending s.cfg) then .err .muxSelectFailed else .okay)) ∧
      AllDeselected oks (enabledAscending s.cfg) s u := by
  obtain ⟨n, u, hn, hsteps, hall⟩ := deselect_masters oks (enabledAscending s.cfg) s false (enabledAscending_nodup _)
    (fun m hm => mem_enabledAscending.1 hm) hattempts hwf
    fun m hm => hready m (masterEnabled_iff.1 (mem_enabledAscending.1 hm))
  rw [Bool.false_or] at hsteps
  refine ⟨u, ?_, hall⟩
  show finishCall (deselectOut (runPos deselectPos s.quantum (deselectFrame (enabledAscending s.cfg) false) s)) = _
  rw [hsteps.ends (r := if anyFailed oks (enabledAscending s.cfg) then .err .muxSelectFailed else .okay) rfl
    (hn.trans hquantum)]
  rfl

/-- At a lock that is held `deselect_all` waits (rule R68). -/
theorem resumeDeselect_of_taken {d : DeselectFrame} {todo : List MasterIx} {r : MasterState} (ht : d.todo = k :: todo)
    (hl : d.locked = false) (hr : (s.unit k).record = some r) (hlock : r.lock ≠ .free) :
    resumeDeselect d s = .paused (.deselectAll d) s := by
  have hpos : deselectPos d s = .wait d s := by
    simp [deselectPos, ht, hl, deselectAcquire, hr, acquireLock_of_taken (p := s.port k) hr hlock]
  rw [resumeDeselect, runPos_wait hpos, deselectOut]

/-- A call that is over after the masters had their turns has handed its result back. -/
theorem AllDeselected.gaveBack {oks : MasterIx → List Bool} {l : List MasterIx} (h : AllDeselected oks l s t) (r : Ret) :
    GaveBack s (t.returned r) r := by
  rw [GaveBack, State.returned_agents, congrArg State.agents h.rest, congrArg State.self h.rest]

/-- Settles O53: the lists, the masters' turns, and the wait at a held lock. -/
theorem deselectAllCompletes : Obligations.DeselectAllCompletes := by
  unfold Obligations.DeselectAllCompletes
  refine ⟨fun c m => ⟨switchesOf_sorted c m, fun sw => mem_switchesOf, enabledAscending_sorted c,
      mem_enabledAscending.trans masterEnabled_iff⟩,
    fun s oks hwf hattempts hquantum hready => ?completes, fun s k r hk hleast hr hl => ?begun,
    fun s d k todo r ht hl hr hlock => resumeDeselect_of_taken ht hl hr hlock⟩
  case completes =>
    have hmem : ∀ {m}, m ∈ enabledAscending s.cfg ↔ m ∈ s.cfg.enabled := mem_enabledAscending.trans masterEnabled_iff
    obtain ⟨u, hexec, hall⟩ := exec_deselectAll (oks := oks) hwf hattempts hquantum fun m hm =>
      have ⟨hfree, houtcomes, hanswers, haddresses⟩ := hready m hm
      ⟨hfree, houtcomes, hanswers, haddresses⟩
    have hfailed : anyFailed oks (enabledAscending s.cfg) = true ↔ ∃ m ∈ s.cfg.enabled, false ∈ oks m := by
      simp only [anyFailed_iff, hmem]
    have hrest := hall.rest
    refine ⟨_, hexec, fun hgood => ?okay, fun hbad => ?failed, (congrArg State.cfg hrest :),
      (congrArg State.phase hrest :), (congrArg State.self hrest :), (congrArg State.quantum hrest :),
      (congrArg State.schedule hrest :), (congrArg State.turns hrest :), (congrArg State.arrivals hrest :),
      fun m hm => ?turn, fun m hm => hall.others m (hm ∘ hmem.1), fun a ha => hall.window a fun m hm => ha m (hmem.1 hm)⟩
    case okay =>
      rw [if_neg fun h => (hfailed.1 h).elim fun m hm => hgood m hm.1 hm.2]
      exact hall.gaveBack .okay
    case failed =>
      rw [if_pos (hfailed.2 hbad)]
      exact hall.gaveBack (.err .muxSelectFailed)
    case turn =>
      obtain ⟨hrecord, haccesses, hchips⟩ := hall.turns m (hmem.2 hm)
      refine ⟨fun r hr => ⟨fun hgood => ?_, fun hbad => ?_⟩, haccesses, fun n sw ok hsw hok => ?_, fun x hx => ?_⟩
      · exact (hrecord r hr).trans (congrArg some (if_neg hgood))
      · exact (hrecord r hr).trans (congrArg some (if_pos hbad))
      · rw [State.returned_unit, hchips, chipSelection_deselectedChips _ _ _ n (switchesOf_nodup _ m) hsw hok]
      · rw [State.returned_unit, hchips, chipSelection_deselectedChips_other _ _ _ hx]
  case begun =>
    obtain ⟨rest, hrest⟩ := enabledAscending_eq_cons hk hleast
    have hwait : resumeDeselect (deselectFrame (enabledAscending s.cfg) false) s =
        .paused (.deselectAll (deselectFrame (enabledAscending s.cfg) false)) s :=
      resumeDeselect_of_taken (todo := rest) hrest rfl hr hl
    exact congrArg finishCall hwait

end Sys2Proof.Machine
end

section
/-! SUPPORT. The bytes of the registers and of the wire, bit by bit (rules R81, R84, R86), and words as two bytes (rule
R92). -/

namespace Sys2Proof.Machine

/-- The byte with bit `b` set has no other. -/
@[simp] theorem bitMask_getElem (b n : Fin 8) : (bitMask b)[n.val] = decide (n = b) := by
  revert b n; decide

theorem toNat_addrW {a : Byte} (ha : a.toNat ≤ 0x7F) : (addrW a).toNat = 2 * a.toNat := by
  rw [addrW, BitVec.toNat_shiftLeft, Nat.shiftLeft_eq]
  omega

/-- The direction bit is the one that the shift left free. -/
theorem toNat_addrR {a : Byte} (ha : a.toNat ≤ 0x7F) : (addrR a).toNat = 2 * a.toNat + 1 := by
  have hor : (addrR a).toNat = a.toNat <<< 1 ||| 1 := by
    rw [addrR, BitVec.toNat_or, ← addrW, toNat_addrW ha, Nat.shiftLeft_eq, Nat.mul_comm]; rfl
  rw [hor, ← Nat.shiftLeft_add_eq_or_of_lt (by decide), Nat.shiftLeft_eq, Nat.mul_comm]

/-- Settles O5: each command byte is a union of bits, and the address byte is a shift. -/
theorem addressByteForm : Obligations.AddressByteForm := by
  unfold Obligations.AddressByteForm
  refine ⟨fun a ha => ⟨toNat_addrW ha, toNat_addrR ha⟩, fun b n => ?bits, by decide⟩
  case bits => simp [cmdStart, cmdWrite, cmdReadAck, cmdReadNack, cmdStop, ctrlOn, ctrlOff]

theorem toNat_wordLow (w : Half) : (wordLow w).toNat = w.toNat % 256 := by
  simp [wordLow, BitVec.extractLsb'_toNat]

theorem toNat_wordHigh (w : Half) : (wordHigh w).toNat = w.toNat / 256 := by
  rw [wordHigh, BitVec.extractLsb'_toNat, Nat.shiftRight_eq_div_pow]
  omega

theorem toNat_assembleWord (b0 b1 : Byte) : (assembleWord b0 b1).toNat = b0.toNat + 256 * b1.toNat := by
  rw [assembleWord, BitVec.toNat_append, ← Nat.shiftLeft_add_eq_or_of_lt b0.isLt, Nat.shiftLeft_eq]
  omega

/-- What was sent is what is received. -/
theorem assembleWord_wordLow_wordHigh (w : Half) : assembleWord (wordLow w) (wordHigh w) = w := by
  apply BitVec.eq_of_toNat_eq
  rw [toNat_assembleWord, toNat_wordLow, toNat_wordHigh]
  omega

/-- Settles O6: the two bytes of a word as remainder and quotient. -/
theorem wordLowByteFirst : Obligations.WordLowByteFirst := by
  unfold Obligations.WordLowByteFirst
  exact ⟨fun w => ⟨toNat_wordLow w, toNat_wordHigh w, rfl⟩, fun b0 b1 => ⟨toNat_assembleWord b0 b1, rfl⟩⟩

end Sys2Proof.Machine
end

section
/-! SUPPORT. The operand bytes of an instruction: each reader of the decoder accepts exactly the bytes the encoder
writes (rules R64, R80, R87, R92, R94; log entry 4). -/

namespace Sys2Proof

variable {b : Byte} {bs rest : List Byte} {i : Instr}

@[simp] theorem regOf_regCode (r : Reg) : regOf (regCode r) = .ok r := by cases r <;> rfl

theorem regOf_eq_ok_iff {r : Reg} : regOf b = .ok r ↔ b = regCode r := by
  refine ⟨fun h => ?_, fun h => h ▸ regOf_regCode r⟩
  rw [regOf] at h
  split_ifs at h <;> cases h <;> assumption

@[simp] theorem dirOf_dirCode (d : Dir) : dirOf (dirCode d) = .ok d := by cases d <;> rfl

theorem dirOf_eq_ok_iff {d : Dir} : dirOf b = .ok d ↔ b = dirCode d := by
  refine ⟨fun h => ?_, fun h => h ▸ dirOf_dirCode d⟩
  rw [dirOf] at h
  split_ifs at h <;> cases h <;> assumption

@[simp] theorem flagOf_flagCode (f : Bool) : flagOf (flagCode f) = .ok f := by cases f <;> rfl

theorem flagOf_eq_ok_iff {f : Bool} : flagOf b = .ok f ↔ b = flagCode f := by
  refine ⟨fun h => ?_, fun h => h ▸ flagOf_flagCode f⟩
  rw [flagOf] at h
  split_ifs at h <;> cases h <;> assumption

theorem switchOf_eq_ok_iff {sw : Byte} : switchOf b = .ok sw ↔ switchAddrOk sw = true ∧ b = sw := by
  rw [switchOf]
  constructor
  · intro h
    split_ifs at h with hb
    cases h
    exact ⟨hb, rfl⟩
  · rintro ⟨hsw, rfl⟩
    exact if_pos hsw

/-- `DIRECT` is spelled by a byte that is no switch address, so the two spellings do not meet (rule R94). -/
theorem selOf_eq_ok_iff {sel : SwitchSel} : selOf b = .ok sel ↔ switchSelOk sel = true ∧ b = selCode sel := by
  rw [selOf]
  constructor
  · intro h
    split_ifs at h with hdirect hswitch
    · cases h; exact ⟨rfl, hdirect⟩
    · cases h; exact ⟨hswitch, rfl⟩
  · rintro ⟨hsel, rfl⟩
    cases sel with
    | direct => rfl
    | switch sw =>
      have hne : sw ≠ 0xFF#8 := by rintro rfl; exact absurd hsel (by decide)
      exact (if_neg hne).trans (if_pos hsel)

/-- An operand of fewer than eight bits is the byte with the same value, and no other byte. -/
theorem setWidth_eq_iff_of_lt {n : Nat} (hn : n ≤ 8) {x : BitVec n} :
    (b.toNat < 2 ^ n ∧ b.setWidth n = x) ↔ b = x.setWidth 8 := by
  constructor
  · rintro ⟨hb, rfl⟩
    apply BitVec.eq_of_toNat_eq
    rw [BitVec.toNat_setWidth_of_le hn, BitVec.toNat_setWidth, Nat.mod_eq_of_lt hb]
  · rintro rfl
    refine ⟨?_, ?_⟩
    · rw [BitVec.toNat_setWidth_of_le hn]; exact x.isLt
    · rw [BitVec.setWidth_setWidth_of_le x hn, BitVec.setWidth_eq]

theorem channelOf_eq_ok_iff {ch : BitVec 3} : channelOf b = .ok ch ↔ b = ch.setWidth 8 := by
  rw [← setWidth_eq_iff_of_lt (by decide), channelOf]
  split_ifs with hb <;> simp [hb]

theorem sizeClassOf_eq_ok_iff {sc : BitVec 4} : sizeClassOf b = .ok sc ↔ b = sc.setWidth 8 := by
  rw [← setWidth_eq_iff_of_lt (by decide), sizeClassOf]
  split_ifs with hb <;> simp [hb]

/-- The decoder's word is the one the engine assembles (rules R64, R92). -/
@[simp] theorem halfOf_loByte_hiByte (w : Half) : halfOf (loByte w) (hiByte w) = w :=
  Machine.assembleWord_wordLow_wordHigh w

@[simp] theorem loByte_halfOf (lo hi : Byte) : loByte (halfOf lo hi) = lo := BitVec.extractLsb'_append_eq_right

@[simp] theorem hiByte_halfOf (lo hi : Byte) : hiByte (halfOf lo hi) = hi := BitVec.extractLsb'_append_eq_left

theorem takeBytes_eq_ok_iff {d : List Byte} :
    takeBytes bs = .ok (d, rest) ↔ bytesOk d = true ∧ bs = encodeBytes d ++ rest := by
  constructor
  · intro h
    cases bs with
    | nil => cases h
    | cons n r =>
      rw [takeBytes] at h
      split_ifs at h with hn
      cases h
      have hlength : (r.take n.toNat).length = n.toNat := List.length_take_of_le (Nat.le_of_not_lt hn)
      refine ⟨decide_eq_true (hlength.trans_le (Nat.le_of_lt_succ n.isLt)), ?_⟩
      rw [encodeBytes, hlength, BitVec.ofNat_toNat, BitVec.setWidth_eq, List.cons_append, List.take_append_drop]
  · rintro ⟨hd, rfl⟩
    have hlength : (BitVec.ofNat 8 d.length).toNat = d.length :=
      Nat.mod_eq_of_lt (Nat.lt_succ_of_le (of_decide_eq_true hd))
    have henough : ¬ (d ++ rest).length < (BitVec.ofNat 8 d.length).toNat := by
      rw [hlength, List.length_append]; omega
    rw [encodeBytes, List.cons_append, takeBytes, if_neg henough, hlength, List.take_left' rfl, List.drop_left' rfl]

theorem takePayload_eq_ok_iff {p : Payload} :
    takePayload bs = .ok (p, rest) ↔ payloadOk p = true ∧ bs = encodePayload p ++ rest := by
  constructor
  · intro h
    rw [takePayload.eq_def] at h
    split at h
    · cases h
    · split at h
      · next htag => cases h; exact ⟨rfl, congrArg (· :: _) htag⟩
      · split at h
        · next htag =>
          split at h <;> cases h
          exact ⟨rfl, congrArg (· :: _) htag⟩
        · split at h
          · next htag =>
            split at h <;> cases h
            exact ⟨rfl, by simp [encodePayload, htag]⟩
          · split at h
            · next htag =>
              split at h <;> cases h
              next hd =>
              obtain ⟨hok, rfl⟩ := takeBytes_eq_ok_iff.1 hd
              exact ⟨hok, congrArg (· :: _) htag⟩
            · cases h
  · rintro ⟨hp, rfl⟩
    cases p with
    | quick | byte => rfl
    | word w => simp [encodePayload, takePayload]
    | block d => simp [encodePayload, takePayload, takeBytes_eq_ok_iff.2 ⟨hp, rfl⟩]

theorem takeTxn_eq_ok_iff {t : Txn} :
    takeTxn bs = .ok (t, rest) ↔ payloadOk t.payload = true ∧ bs = encodeTxn t ++ rest := by
  constructor
  · intro h
    rw [takeTxn.eq_def] at h
    split at h
    · split at h
      · cases h
      · next hdir =>
        split at h
        · cases h
        · next hsize =>
          split at h
          · cases h
          · next hpayload =>
            cases h
            obtain ⟨hp, rfl⟩ := takePayload_eq_ok_iff.1 hpayload
            refine ⟨hp, ?_⟩
            rw [dirOf_eq_ok_iff.1 hdir, sizeClassOf_eq_ok_iff.1 hsize]
            rfl
    · cases h
  · rintro ⟨hp, rfl⟩
    simp [encodeTxn, takeTxn, sizeClassOf_eq_ok_iff.2 rfl, takePayload_eq_ok_iff.2 ⟨hp, rfl⟩]

theorem take1_eq_ok_iff {f : Byte → Instr} : take1 f bs = .ok (i, rest) ↔ ∃ x, i = f x ∧ bs = x :: rest := by
  constructor
  · intro h
    rw [take1.eq_def] at h
    split at h <;> cases h
    exact ⟨_, rfl, rfl⟩
  · rintro ⟨x, rfl, rfl⟩; rfl

theorem take2_eq_ok_iff {f : Byte → Byte → Instr} :
    take2 f bs = .ok (i, rest) ↔ ∃ x y, i = f x y ∧ bs = x :: y :: rest := by
  constructor
  · intro h
    rw [take2.eq_def] at h
    split at h <;> cases h
    exact ⟨_, _, rfl, rfl⟩
  · rintro ⟨x, y, rfl, rfl⟩; rfl

theorem take3_eq_ok_iff {f : Byte → Byte → Byte → Instr} :
    take3 f bs = .ok (i, rest) ↔ ∃ x y z, i = f x y z ∧ bs = x :: y :: z :: rest := by
  constructor
  · intro h
    rw [take3.eq_def] at h
    split at h <;> cases h
    exact ⟨_, _, _, rfl, rfl⟩
  · rintro ⟨x, y, z, rfl, rfl⟩; rfl

theorem take3Bytes_eq_ok_iff {f : Byte → Byte → Byte → List Byte → Instr} : take3Bytes f bs = .ok (i, rest) ↔
    ∃ x y z d, i = f x y z d ∧ bytesOk d = true ∧ bs = x :: y :: z :: (encodeBytes d ++ rest) := by
  constructor
  · intro h
    rw [take3Bytes.eq_def] at h
    split at h
    · split at h <;> cases h
      next hd =>
      obtain ⟨hok, rfl⟩ := takeBytes_eq_ok_iff.1 hd
      exact ⟨_, _, _, _, rfl, hok, rfl⟩
    · cases h
  · rintro ⟨x, y, z, d, rfl, hd, rfl⟩
    simp [take3Bytes, takeBytes_eq_ok_iff.2 ⟨hd, rfl⟩]

end Sys2Proof
end

section
/-! SUPPORT. The two head bytes of an instruction: the row of the opcode table they name, and the instructions of each
row (rules R84, R89, R191, R192; log entry 4). -/

namespace Sys2Proof

/-- The row of the opcode table of an operation. -/
def Op.row (o : Op) : OpRow := (opTable.find? (fun r => decide (r.op = o))).getD ⟨o, .call, 0#8, 0#8⟩

/-- No two rows are of the same operation. -/
theorem row_op_of_mem : ∀ r ∈ opTable, r.op.row = r := by decide

/-- The operation that an instruction is, its operands left out. -/
def Instr.op : Instr → Op
  | .cmdStart _ _ => .cmdStart
  | .cmdWrite _ _ => .cmdWrite
  | .cmdReadAck _ => .cmdReadAck
  | .cmdReadNack _ => .cmdReadNack
  | .cmdStop _ => .cmdStop
  | .cmdIack _ => .cmdIack
  | .quickW _ _ => .quickW
  | .quickR _ _ => .quickR
  | .byteW _ _ _ => .byteW
  | .byteR _ _ => .byteR
  | .byteDataW _ _ _ _ => .byteDataW
  | .byteDataR _ _ _ => .byteDataR
  | .wordDataW _ _ _ _ => .wordDataW
  | .wordDataR _ _ _ => .wordDataR
  | .blockW _ _ _ _ => .blockW
  | .blockR _ _ _ => .blockR
  | .i2cBlockW _ _ _ _ => .i2cBlockW
  | .i2cBlockR _ _ _ _ => .i2cBlockR
  | .procCall _ _ _ _ => .procCall
  | .i2cBlockBroken _ _ _ _ => .i2cBlockBroken
  | .blockProcCall _ _ _ _ => .blockProcCall
  | .unknownSc9 _ _ _ _ => .unknownSc9
  | .unknownSc1011 _ _ _ _ _ => .unknownSc1011
  | .unknownSc1215 _ _ _ _ _ => .unknownSc1215
  | .read8 _ _ => .read8
  | .write8 _ _ _ => .write8
  | .init _ _ => .init
  | .deinit _ => .deinit
  | .waitIdle _ _ => .waitIdle
  | .waitPhaseDone _ _ _ => .waitPhaseDone
  | .execute _ _ => .execute
  | .access _ _ => .access
  | .muxSelect _ _ _ => .muxSelect
  | .muxDeselect _ _ => .muxDeselect
  | .deselectAll => .deselectAll
  | .engineInit => .engineInit
  | .engineShutdown => .engineShutdown

variable {op fmt : Byte} {o : Op} {bs rest : List Byte} {i : Instr}

/-- The format byte of an opcode byte in a format: a command byte that is also a verb code is told apart by it. -/
def formatCode (f : Format) (op : Byte) : Byte :=
  match f with
  | .cmd8 => if op.toNat < 0x20 then 1#8 else 0#8
  | .verb5 => 0#8
  | .call => 2#8

theorem eq_formatCode_of_formatOf {f : Format} (h : formatOf op fmt = some f) : fmt = formatCode f op := by
  rw [formatOf] at h
  split_ifs at h with h0 hverb h1 hcmd h2 <;> cases h <;> simp [formatCode, *]

/-- The head bytes of a row are those its pattern and its format ask for. -/
theorem head_of_decodeOp (h : decodeOp op fmt = .ok o) :
    op &&& o.row.mask = o.row.pattern ∧ fmt = formatCode o.row.format op := by
  rw [decodeOp] at h
  split at h
  · cases h
  · next f hf =>
    split at h
    · next r hr =>
      cases h
      have hmatch := List.find?_some hr
      rw [Bool.and_eq_true, decide_eq_true_eq, decide_eq_true_eq] at hmatch
      obtain ⟨rfl, hop⟩ := hmatch
      rw [row_op_of_mem r (List.mem_of_find?_eq_some hr)]
      exact ⟨hop, eq_formatCode_of_formatOf hf⟩
    · cases h

/-- The head bytes of an instruction name its operation. -/
theorem decodeOp_opcodeByte (i : Instr) : decodeOp (opcodeByte i) (formatByte i) = .ok i.op := by
  cases i <;> simp only [opcodeByte, formatByte, Instr.op]
  case procCall d _ _ _ | i2cBlockBroken d _ _ _ | blockProcCall d _ _ _ | unknownSc9 d _ _ _ => cases d <;> decide
  case unknownSc1011 low d _ _ _ | unknownSc1215 low d _ _ _ => cases d <;> (revert low; decide)
  all_goals decide

/-! The verb codes that stand for both directions, or for more than one size class (rules R191, R192). -/

/-- The verb code of pattern `p` with the low bits `low` of its size class and the direction `d`. -/
def verbCode {n : Nat} (p : Byte) (low : BitVec n) (d : Dir) : Byte := p ||| (low.setWidth 8 <<< 1) ||| dirCode d

theorem pairCode_of_bits {p : Byte} (h : op &&& 0xFE#8 = p) : p ||| dirCode (dirOfBit (op.getLsbD 0)) = op := by
  subst h; revert op; decide

theorem bit_of_pairCode {p : Byte} (hp : p.getLsbD 0 = false) (d : Dir) :
    dirOfBit ((p ||| dirCode d).getLsbD 0) = d := by
  rw [BitVec.getLsbD_or, hp]; cases d <;> rfl

theorem sc1011Code_of_bits {p : Byte} (h : op &&& 0xFC#8 = p) :
    verbCode p (op.extractLsb' 1 1) (dirOfBit (op.getLsbD 0)) = op := by
  subst h; revert op; decide

theorem sc1215Code_of_bits {p : Byte} (h : op &&& 0xF8#8 = p) :
    verbCode p (op.extractLsb' 1 2) (dirOfBit (op.getLsbD 0)) = op := by
  subst h; revert op; decide

theorem bits_of_sc1011Code (low : BitVec 1) (d : Dir) : (verbCode 0x14#8 low d).extractLsb' 1 1 = low ∧
    dirOfBit ((verbCode 0x14#8 low d).getLsbD 0) = d := by
  cases d <;> (revert low; decide)

theorem bits_of_sc1215Code (low : BitVec 2) (d : Dir) : (verbCode 0x18#8 low d).extractLsb' 1 2 = low ∧
    dirOfBit ((verbCode 0x18#8 low d).getLsbD 0) = d := by
  cases d <;> (revert low; decide)

/-- Every other code is the whole byte. -/
theorem code_of_bits {p : Byte} (h : op &&& 0xFF#8 = p) : p = op := by
  rw [← h]; exact BitVec.and_allOnes

/-- What follows the head bytes of an instruction is read as its operands. -/
theorem decodeOperands_encodeOperands (hi : wellFormed i = true) (rest : List Byte) :
    decodeOperands i.op (opcodeByte i) (encodeOperands i ++ rest) = .ok (i, rest) := by
  cases i
  case procCall d _ _ _ | i2cBlockBroken d _ _ _ | blockProcCall d _ _ _ | unknownSc9 d _ _ _ =>
    simp only [Instr.op, decodeOperands, opcodeByte]
    rw [bit_of_pairCode (by decide)]
    rfl
  case unknownSc1011 low d m a c =>
    obtain ⟨hlow, hd⟩ := bits_of_sc1011Code low d
    exact congrArg₂ (fun low d => Except.ok (Instr.unknownSc1011 low d m a c, rest)) hlow hd
  case unknownSc1215 low d m a c =>
    obtain ⟨hlow, hd⟩ := bits_of_sc1215Code low d
    exact congrArg₂ (fun low d => Except.ok (Instr.unknownSc1215 low d m a c, rest)) hlow hd
  case blockW | i2cBlockW => exact take3Bytes_eq_ok_iff.2 ⟨_, _, _, _, rfl, hi, rfl⟩
  case wordDataW | init | waitIdle => simp [Instr.op, decodeOperands, encodeOperands, take3]
  case waitPhaseDone | read8 | write8 => simp [Instr.op, decodeOperands, encodeOperands]
  case execute => simp [Instr.op, decodeOperands, encodeOperands, takeTxn_eq_ok_iff.2 ⟨hi, rfl⟩]
  case access =>
    obtain ⟨hswitch, hpayload⟩ := Bool.and_eq_true_iff.1 hi
    simp [Instr.op, decodeOperands, encodeOperands, selOf_eq_ok_iff.2 ⟨hswitch, rfl⟩, channelOf_eq_ok_iff.2 rfl,
      takeTxn_eq_ok_iff.2 ⟨hpayload, rfl⟩]
  case muxSelect | muxDeselect =>
    simp [Instr.op, decodeOperands, encodeOperands, switchOf_eq_ok_iff.2 ⟨hi, rfl⟩, channelOf_eq_ok_iff.2 rfl]
  all_goals rfl

/-- The well-formed instruction `i` of operation `o` has the opcode byte `op`, and its operands are the bytes `bs`
before `rest`. -/
structure Spells (o : Op) (op : Byte) (bs : List Byte) (i : Instr) (rest : List Byte) : Prop where
  operation : i.op = o
  opcode : opcodeByte i = op
  wf : wellFormed i = true
  operands : bs = encodeOperands i ++ rest

/-- What is read as operands is an instruction whose operands those bytes are. -/
theorem spells_of_decodeOperands (hop : op &&& o.row.mask = o.row.pattern)
    (h : decodeOperands o op bs = .ok (i, rest)) : Spells o op bs i rest := by
  cases o
  case cmdReadAck | cmdReadNack | cmdStop | cmdIack | deinit =>
    obtain ⟨m, rfl, rfl⟩ := take1_eq_ok_iff.1 h
    exact ⟨rfl, code_of_bits hop, rfl, rfl⟩
  case cmdStart | cmdWrite | quickW | quickR | byteR =>
    obtain ⟨m, a, rfl, rfl⟩ := take2_eq_ok_iff.1 h
    exact ⟨rfl, code_of_bits hop, rfl, rfl⟩
  case byteW | byteDataR | wordDataR | blockR =>
    obtain ⟨m, a, c, rfl, rfl⟩ := take3_eq_ok_iff.1 h
    exact ⟨rfl, code_of_bits hop, rfl, rfl⟩
  case init | waitIdle =>
    obtain ⟨m, lo, hi, rfl, rfl⟩ := take3_eq_ok_iff.1 h
    exact ⟨rfl, code_of_bits hop, rfl, by simp [encodeOperands]⟩
  case procCall | i2cBlockBroken | blockProcCall | unknownSc9 =>
    obtain ⟨m, a, c, rfl, rfl⟩ := take3_eq_ok_iff.1 h
    exact ⟨rfl, pairCode_of_bits hop, rfl, rfl⟩
  case unknownSc1011 =>
    obtain ⟨m, a, c, rfl, rfl⟩ := take3_eq_ok_iff.1 h
    exact ⟨rfl, sc1011Code_of_bits hop, rfl, rfl⟩
  case unknownSc1215 =>
    obtain ⟨m, a, c, rfl, rfl⟩ := take3_eq_ok_iff.1 h
    exact ⟨rfl, sc1215Code_of_bits hop, rfl, rfl⟩
  case blockW | i2cBlockW =>
    obtain ⟨m, a, c, d, rfl, hd, rfl⟩ := take3Bytes_eq_ok_iff.1 h
    exact ⟨rfl, code_of_bits hop, hd, rfl⟩
  case deselectAll | engineInit | engineShutdown =>
    cases h
    exact ⟨rfl, code_of_bits hop, rfl, rfl⟩
  all_goals rw [decodeOperands.eq_def] at h; dsimp only at h
  case byteDataW | i2cBlockR | wordDataW =>
    split at h <;> cases h
    exact ⟨rfl, code_of_bits hop, rfl, by simp [encodeOperands]⟩
  case read8 | write8 =>
    split at h
    · split at h <;> cases h
      next hreg =>
      exact ⟨rfl, code_of_bits hop, rfl, by rw [regOf_eq_ok_iff.1 hreg]; rfl⟩
    · cases h
  case waitPhaseDone =>
    split at h
    · split at h <;> cases h
      next hflag =>
      exact ⟨rfl, code_of_bits hop, rfl, by simp [encodeOperands, flagOf_eq_ok_iff.1 hflag]⟩
    · cases h
  case execute =>
    split at h
    · split at h <;> cases h
      next htxn =>
      obtain ⟨hok, rfl⟩ := takeTxn_eq_ok_iff.1 htxn
      exact ⟨rfl, code_of_bits hop, hok, rfl⟩
    · cases h
  case muxDeselect =>
    split at h
    · split at h <;> cases h
      next hsw =>
      obtain ⟨hok, rfl⟩ := switchOf_eq_ok_iff.1 hsw
      exact ⟨rfl, code_of_bits hop, hok, rfl⟩
    · cases h
  case muxSelect =>
    split at h
    · split at h
      · cases h
      · next hsw =>
        split at h <;> cases h
        next hchannel =>
        obtain ⟨hok, rfl⟩ := switchOf_eq_ok_iff.1 hsw
        exact ⟨rfl, code_of_bits hop, hok, by rw [channelOf_eq_ok_iff.1 hchannel]; rfl⟩
    · cases h
  case access =>
    split at h
    · split at h
      · cases h
      · next hsel =>
        split at h
        · cases h
        · next hchannel =>
          split at h <;> cases h
          next htxn =>
          obtain ⟨hswitch, rfl⟩ := selOf_eq_ok_iff.1 hsel
          obtain ⟨hok, rfl⟩ := takeTxn_eq_ok_iff.1 htxn
          exact ⟨rfl, code_of_bits hop, Bool.and_eq_true_iff.2 ⟨hswitch, hok⟩,
            by rw [channelOf_eq_ok_iff.1 hchannel]; rfl⟩
    · cases h

/-- Settles O1: the head bytes name the operation, and the operands after them are read back. -/
theorem decodeOfEncode : Obligations.DecodeOfEncode := by
  unfold Obligations.DecodeOfEncode
  intro i rest hi
  rw [encode, List.cons_append, List.cons_append, decode, decodeOp_opcodeByte]
  exact decodeOperands_encodeOperands hi rest

/-- Settles O2: the operands say what the instruction is, its row of the table what its head bytes are. -/
theorem encodeOfDecode : Obligations.EncodeOfDecode := by
  unfold Obligations.EncodeOfDecode
  intro bs i rest h
  rw [decode.eq_def] at h
  split at h
  · next op fmt operands =>
    split at h
    · cases h
    · next hhead =>
      obtain ⟨hop, hfmt⟩ := head_of_decodeOp hhead
      obtain ⟨rfl, rfl, hi, rfl⟩ := spells_of_decodeOperands hop h
      obtain ⟨-, hformat⟩ := head_of_decodeOp (decodeOp_opcodeByte i)
      exact ⟨hi, by rw [hfmt, ← hformat]; rfl⟩
  · cases h

/-- Settles O3: each word by evaluation. -/
theorem tableWordsDecode : Obligations.TableWordsDecode := by
  unfold Obligations.TableWordsDecode
  refine ⟨?_, ?_, ?_, ?_, ?_, ?_⟩ <;> decide

/-- Settles O4: the code of each mapped verb by evaluation, the others by their low bits. -/
theorem verbCodesAllDecode : Obligations.VerbCodesAllDecode := by
  unfold Obligations.VerbCodesAllDecode
  decide

end Sys2Proof
end

section
/-! SUPPORT. The only command bytes ever written are the five (rules R84, R85, R148), and the refusals by name. -/

namespace Sys2Proof.Machine

/-- Settles O56: the accesses that a step's moves append have issued commands; the turn and an arrival append none. -/
theorem stepKeepsIssuedCommands : Obligations.StepKeepsIssuedCommands := by
  unfold Obligations.StepKeepsIssuedCommands
  intro s t hs ht m a ha
  rw [step_cfg ht]
  rcases step_reaches ht with h | rfl
  · obtain ⟨new, hnew, hissued⟩ := h.history m
    rw [hnew, State.takeTurn_unit] at ha
    rcases List.mem_append.1 ha with hold | hadded
    · exact hs m a hold
    · rw [← s.takeTurn_cfg]; exact hissued a hadded
  · rw [State.arrive_unit, State.takeTurn_unit] at ha
    exact hs m a ha

theorem commandIssued_iff {b : Config.Bits} {v : Byte} :
    commandIssued b v = true ↔ v ∈ [cmdStart b, cmdWrite b, cmdReadAck b, cmdReadNack b, cmdStop b] := by
  simp [commandIssued, or_assoc]

/-- Settles O19: `CMD_IACK` has no meaning, and `write8` asks for a refusal before it writes. -/
theorem writeRefusedByName : Obligations.WriteRefusedByName := by
  unfold Obligations.WriteRefusedByName
  refine ⟨fun _ _ => rfl, fun s m k v hm hk hv => ?command, fun s m k v hm hk hv => ?control⟩
  case command =>
    have hrefused : writeRefusal s.cfg.bits .cmdstat v = some .commandNotIssued := if_neg (hv ∘ commandIssued_iff.1)
    refine (onMaster_of_mayUse hm hk _).trans ?_
    simp only [hrefused]
  case control =>
    have hrefused : writeRefusal s.cfg.bits .ctrl v = some .reservedControlBits := if_neg (hv ∘ of_decide_eq_true)
    refine (onMaster_of_mayUse hm hk _).trans ?_
    simp only [hrefused]

end Sys2Proof.Machine
end

section
/-! SUPPORT. `init` (rules R93, R131, R281). -/

namespace Sys2Proof.Machine

variable {s : State} {k : MasterIx}

/-- `init` of a master its caller may use. -/
theorem execInit_of_mayUse {m : Byte} (hm : masterIx s.cfg m = some k) (hk : MayUse s k) (div : Half) :
    execInit m div s =
      if div = s.cfg.div100k then finishCall (.done .okay (s.withPort k (programDivider s.cfg k div (s.port k))))
      else answer (.err .invalidArgument) s := by
  have hrange : ¬ (masterIx s.cfg m = none ∧ div ≠ s.cfg.div100k) := by simp [hm]
  rw [execInit, if_neg hrange, onMaster_of_mayUse hm hk]

/-- Settles O22: the four writes of `init` for `DIV_100K`, no access for another divider. -/
theorem initProgramsDivider : Obligations.InitProgramsDivider := by
  unfold Obligations.InitProgramsDivider
  intro s m k div hm hk hwf
  refine ⟨?accepted, fun hdiv => (execInit_of_mayUse hm hk div).trans (if_neg hdiv)⟩
  case accepted =>
    rintro rfl
    exact ⟨_, (execInit_of_mayUse hm hk _).trans (if_pos rfl), ranOn_of_glide glide_programDivider hwf⟩

end Sys2Proof.Machine
end

section
/-! SUPPORT. An instruction that runs a valid transaction on good answers, and WORD_DATA (rules R92, R172, R185, R186,
R193). -/

namespace Sys2Proof.Machine

variable {s : State} {k : MasterIx} {c : Config.Params} {i : Instr} {m : Byte} {t : Txn}

/-- No payload fits a size class that the engine does not run (rules R90, R191, R192). -/
theorem mapped_of_payloadFits {sc : BitVec 4} {d : Dir} {p : Payload} (h : payloadFits c sc d p = true) :
    sizeClassKind sc ≠ .unknown ∧ sizeClassKind sc ≠ .procCall ∧ sizeClassKind sc ≠ .i2cBlockBroken ∧
      sizeClassKind sc ≠ .blockProcCall := by
  unfold payloadFits at h
  generalize sizeClassKind sc = kind at h ⊢
  refine ⟨?_, ?_, ?_, ?_⟩ <;> (rintro rfl; cases d <;> cases h)

/-- Where the payload fits, validation has only the master and the address left to look at (rule R171). -/
theorem validateTxn_of_payloadFits (he : masterEnabled c k = true) (ha : t.addr.toNat ≤ 0x7F)
    (hf : payloadFits c t.sizeClass t.dir t.payload = true) : validateTxn c k t = none := by
  have haddr : ¬ t.addr.toNat > 0x7F := Nat.not_lt.2 ha
  have hmapped := mapped_of_payloadFits hf
  rw [validateTxn, if_neg (by simp [he]), if_neg haddr, if_neg (by simp [hf])]
  cases hkind : sizeClassKind t.sizeClass <;> simp [hkind] at hmapped ⊢

theorem Smooth.txnPolls_mono {q : Inputs} {j n : Nat} (h : Smooth c q (txnPolls n)) (hj : j ≤ n) :
    Smooth c q (txnPolls j) := by
  rw [← Nat.add_sub_cancel' hj, txnPolls_add] at h; exact h.head

/-- The caller of an instruction that runs the valid transaction `t` on master `k`: it holds the lock, the window is
canonical and the scheduler lets it run. -/
structure RunsTxn (s : State) (k : MasterIx) (i : Instr) (m : Byte) (t : Txn) : Prop where
  txn : instrTxn i = some (m, t)
  master : masterIx s.cfg m = some k
  valid : validateTxn s.cfg k t = none
  holds : Holds s k
  canonical : s.window.wf = true
  unhurried : Unhurried s

/-- Where the way of the transaction to its STOP is known, so is the whole call. -/
theorem RunsTxn.completes (h : RunsTxn s k i m t) {n j l : Nat} {x : Res} {q : Port} {xs : List Byte}
    {middle : List Access} (hs : Stops s.cfg k n (execStart t) (s.port k) x q) (hn : n + 1 ≤ s.quantum)
    (g : Glide s.cfg k (s.port k) q j xs (reinitWrites s.cfg ++ middle) l) :
    ∃ u, exec i s = .next u ∧ RanOn s u k (retOfRes x) (txnWrites s.cfg middle) (l + 1) := by
  refine ⟨_, ?_, ranOn_of_glide (g.trans glide_stopBus) h.canonical⟩
  rw [exec_of_instrTxn h.txn]
  simp only [startExecute, h.master, beginExecute_stops h.valid h.holds hs hn, finishCall]

/-- A write whose every phase is acknowledged (rules R172, R193). -/
theorem RunsTxn.writes (h : RunsTxn s k i m t) (hd : t.dir = .write)
    (hs : Smooth s.cfg (s.unit k).inputs (txnPolls (phaseCount t 0))) :
    ∃ u, exec i s = .next u ∧
      RanOn s u k (.payload .quick) (txnWrites s.cfg (wireWrites s.cfg t 0)) (6 + 3 * phaseCount t 0) := by
  obtain ⟨q, hstops, g⟩ := write_smooth (p := s.port k) t h.valid hd hs
  have hlength := (validLengths h.valid).1 hd
  have hquantum : 68 + maxData s.cfg ≤ s.quantum := h.unhurried
  obtain ⟨u, hu, hran⟩ := h.completes hstops (by omega) g
  exact ⟨u, hu, (by omega : 5 + 3 * phaseCount t 0 + 1 = 6 + 3 * phaseCount t 0) ▸ hran⟩

/-- A read without a length byte whose every phase is good, the bytes it receives being `xs` (rules R172, R193). -/
theorem RunsTxn.reads (h : RunsTxn s k i m t) (hd : t.dir = .read) (hb : t.sizeClass ≠ 5#4) {xs : List Byte}
    (hs : Smooth s.cfg (s.unit k).inputs (txnPolls (phaseCount t (nRead t)))) (hx : DataNext (s.unit k).inputs xs)
    (hl : xs.length = nRead t) :
    ∃ u, exec i s = .next u ∧ RanOn s u k (.payload (packRead t.sizeClass xs))
      (txnWrites s.cfg (wireWrites s.cfg t (nRead t))) (6 + 3 * phaseCount t (nRead t)) := by
  obtain ⟨q, ys, hstops, hy, g⟩ := read_smooth (p := s.port k) t h.valid hd hb hs
  obtain rfl : ys = xs := g.listed xs hx (hl.trans hy.symm)
  have hlength := (validLengths h.valid).2
  have hquantum : 68 + maxData s.cfg ≤ s.quantum := h.unhurried
  obtain ⟨u, hu, hran⟩ := h.completes hstops (by omega) g
  exact ⟨u, hu, (by omega : 5 + 3 * phaseCount t (nRead t) + 1 = 6 + 3 * phaseCount t (nRead t)) ▸ hran⟩

theorem Ready.runsTxn {a : Byte} {n : Nat} (h : Ready s k a n) (hi : instrTxn i = some (m, t))
    (hm : masterIx s.cfg m = some k) (ha : t.addr = a)
    (hf : payloadFits s.cfg t.sizeClass t.dir t.payload = true) : RunsTxn s k i m t := by
  obtain ⟨henabled, hholds, haddr, -, hwf, hunhurried⟩ := h
  exact ⟨hi, hm, validateTxn_of_payloadFits henabled (ha ▸ haddr) hf, hholds, hwf, hunhurried⟩

theorem Ready.smooth {a : Byte} {n j : Nat} (h : Ready s k a n) (hj : j ≤ n) :
    Smooth s.cfg (s.unit k).inputs (txnPolls j) := by
  obtain ⟨-, -, -, hsmooth, -, -⟩ := h
  exact hsmooth.txnPolls_mono hj

/-- Settles O37: the verbs are a write of four phases and a read of five. -/
theorem wordDataCompletes : Obligations.WordDataCompletes := by
  unfold Obligations.WordDataCompletes
  intro s m a c w k hm hready
  refine ⟨?write, fun hdata => ?read⟩
  case write =>
    have hruns : RunsTxn s k (.wordDataW m a c w) m ⟨.write, a, c, 3#4, .word w⟩ := hready.runsTxn rfl hm rfl rfl
    exact hruns.writes rfl (hready.smooth (j := 4) (by decide))
  case read =>
    have hruns : RunsTxn s k (.wordDataR m a c) m ⟨.read, a, c, 3#4, .quick⟩ := hready.runsTxn rfl hm rfl rfl
    have hreads := hruns.reads rfl (show 3#4 ≠ 5#4 by decide) (hready.smooth (j := 5) le_rfl) hdata rfl
    have hword : packRead 3#4 [wordLow w, wordHigh w] = .word w :=
      congrArg Payload.word (assembleWord_wordLow_wordHigh w)
    have hwire : wireWrites s.cfg ⟨.read, a, c, 3#4, .quick⟩ 2 =
        startWrites s.cfg (addrW a) ++ sendWrites s.cfg c ++ startWrites s.cfg (addrR a) ++ receiveWrites s.cfg 2 :=
      List.append_assoc .. |>.symm
    rw [hword] at hreads
    exact hwire ▸ hreads

end Sys2Proof.Machine
end

section
/-! SUPPORT. What the calls below `access` leave of the records (rules R122, R131, R133, R137, R139, R140, R147, R179, R191,
R192): those that poll no phase leave them as they were, the others only set flags. -/

namespace Sys2Proof.Machine

variable {R : Option MasterState → Option MasterState → Prop} {s t : State} {k m : MasterIx} {q : Port} {i : Instr}
  {b : Byte} {x : Txn} {c : Config.Params}

theorem flagsOnlySet_iff : FlagsOnlySet s t k ↔ RecordUp (s.unit k).record (t.unit k).record := by
  unfold FlagsOnlySet
  cases (s.unit k).record <;> cases (t.unit k).record <;> simp [RecordUp]

/-- From `s` to `t` the record of every master changed as `R` says. -/
def RecordsRelated (R : Option MasterState → Option MasterState → Prop) (s t : State) : Prop :=
  ∀ k, R (s.unit k).record (t.unit k).record

/-- The same up to where a call returned or is suspended; one that is suspended is still below `access`. -/
def CallOut.Relates (R : Option MasterState → Option MasterState → Prop) (s : State) : CallOut → Prop :=
  CallOut.Meets (fun _ t => RecordsRelated R s t) (fun d t => RecordsRelated R s t ∧ d.leavesLockAndCache = true)

theorem CallOut.Meets.imp {P P' : Ret → State → Prop} {Q Q' : Call → State → Prop} {o : CallOut} (h : o.Meets P Q)
    (hp : ∀ r u, P r u → P' r u) (hq : ∀ d u, Q d u → Q' d u) : o.Meets P' Q' := by
  cases o with
  | done r u => exact hp r u h
  | paused d u => exact hq d u h
  | fault e => trivial

/-- A master-core primitive that waits for the bus to be idle sets no flag (rule R137). -/
theorem runPrim_waitIdle_record (polling : Bool) (p : Port) :
    (runPrim c m .waitIdle polling p).2.unit.record = p.unit.record := by
  have hpoll : (pollOnce m c.bits.busy p).2.unit.record = p.unit.record := by
    rw [pollOnce]
    split <;> rfl
  have hrun : runPrim c m .waitIdle polling p = waitIdleOnce c m p := by cases polling <;> rfl
  rw [hrun, waitIdleOnce]
  split <;> (next h => rw [h] at hpoll; exact hpoll)

theorem finishCall_related {o : CallOut} (h : o.Relates R s) (ht : finishCall o = .next t) : RecordsRelated R s t := by
  cases o with
  | done r u => cases ht; exact h
  | paused d u => cases ht; exact h.1
  | fault e => cases ht

section
variable (hR : ∀ y, R y y)
include hR

theorem recordsRelated_refl (s : State) : RecordsRelated R s s := fun _ => hR _

/-- One master's port put back: the other records are as they were. -/
theorem recordsRelated_withPort (h : R (s.port m).unit.record q.unit.record) : RecordsRelated R s (s.withPort m q) := by
  intro j
  by_cases hj : j = m
  · subst hj; rwa [State.withPort_unit_same]
  · rw [State.withPort_unit_other s q hj]; exact hR _

theorem answer_related {r : Ret} (ht : answer r s = .next t) : RecordsRelated R s t :=
  finishCall_related (o := .done r s) (recordsRelated_refl hR s) ht

/-- A call that put one port back and returned. -/
theorem done_related {r : Ret} (ht : finishCall (.done r (s.withPort m q)) = .next t)
    (h : R (s.port m).unit.record q.unit.record) : RecordsRelated R s t :=
  finishCall_related (o := .done r _) (recordsRelated_withPort hR h) ht

theorem primCall_relates {pr : Prim} {polling : Bool}
    (h : R (s.port m).unit.record (runPrim s.cfg m pr polling (s.port m)).2.unit.record) :
    (primCall m pr polling s).Relates R s := by
  rw [primCall]
  split
  · trivial
  · split <;> (rename_i hp; rw [hp] at h)
    · exact ⟨recordsRelated_withPort hR h, rfl⟩
    · exact recordsRelated_withPort hR h
    · exact recordsRelated_withPort hR h

theorem portOut_relates {F Q : Type} {call : F → Call} {ret : Q → Ret} {o : PosOut F Q Port}
    (hc : ∀ f, (call f).leavesLockAndCache = true) (h : o.Leaves (fun q => R (s.port m).unit.record q.unit.record)) :
    (portOut m s call ret o).Relates R s := by
  cases o with
  | go f p => exact ⟨recordsRelated_withPort hR h, hc f⟩
  | wait f p => exact ⟨recordsRelated_withPort hR h, hc f⟩
  | ended r p => exact recordsRelated_withPort hR h
  | fault e => trivial

/-- A call that names a master by its index: what its body does, or nothing. -/
theorem onMaster_related {run : MasterIx → Host.Outcome State Fault Refusal} (ht : onMaster b s run = .next t)
    (h : ∀ m, run m = .next t → RecordsRelated R s t) : RecordsRelated R s t := by
  rw [onMaster] at ht
  split at ht
  · cases ht
  · split at ht
    · split at ht
      · cases ht
      · exact h _ ht
    · exact answer_related hR ht

theorem startPrim_related {pr : Prim} (ht : startPrim b pr s = .next t)
    (h : ∀ m, R (s.port m).unit.record (runPrim s.cfg m pr false (s.port m)).2.unit.record) : RecordsRelated R s t :=
  onMaster_related hR ht fun m => finishCall_related (primCall_relates hR (h m))

end

/-! Calls that set flags only. -/

theorem resumeExecCall_relates (f : ExecFrame) : (resumeExecCall m f s).Relates RecordUp s := by
  rw [resumeExecCall]
  split
  · trivial
  · exact portOut_relates RecordUp.refl (fun _ => rfl)
      (runPos_leaves Port.Up.refl (fun _ _ _ => Port.Up.trans) (fun f _ => up_execPos f) _ f (s.port m))

theorem beginExecute_relates (x : Txn) : (beginExecute m x s).Relates RecordUp s := by
  rw [beginExecute]
  split
  · exact recordsRelated_refl RecordUp.refl s
  · exact resumeExecCall_relates _

theorem muxCall_relates (w : MuxFrame) : (muxCall m w s).Relates RecordUp s := by
  rw [muxCall]
  split
  · exact recordsRelated_refl RecordUp.refl s
  · split
    · trivial
    · exact portOut_relates RecordUp.refl (fun _ => rfl)
        (runPos_leaves Port.Up.refl (fun _ _ _ => Port.Up.trans) (fun w _ => up_muxPos w) _ w (s.port m))

theorem startExecute_related (ht : startExecute b x s = .next t) : RecordsRelated RecordUp s t := by
  rw [startExecute] at ht
  split at ht
  · exact answer_related RecordUp.refl ht
  · exact finishCall_related (beginExecute_relates x) ht

theorem startMux_related {sw v : Byte} (ht : startMux b sw v s = .next t) : RecordsRelated RecordUp s t := by
  rw [startMux] at ht
  split at ht
  · exact answer_related RecordUp.refl ht
  · exact finishCall_related (muxCall_relates _) ht

/-- A part of a call below `access` that is resumed. -/
theorem resumeCall_relates {d : Call} (h : d.leavesLockAndCache = true) : (resumeCall d s).Relates RecordUp s := by
  cases d with
  | prim m pr => exact primCall_relates RecordUp.refl (calm_runPrim pr true).record
  | exec m f => exact resumeExecCall_relates f
  | mux m w => exact muxCall_relates w
  | access f => cases h
  | deselectAll f => cases h

/-! Transactions of a size class without a mapping. -/

/-- Validation refuses the unmapped and the unknown classes (rules R191, R192). -/
theorem validateTxn_of_unmapped
    (h : sizeClassKind x.sizeClass ∈ [.procCall, .i2cBlockBroken, .blockProcCall, .unknown]) :
    ∃ e, validateTxn c m x = some e := by
  rw [validateTxn]
  split
  · exact ⟨_, rfl⟩
  · simp only [List.mem_cons, List.not_mem_nil, or_false] at h
    rcases h with h | h | h | h <;> rw [h] <;> exact ⟨_, rfl⟩

@[simp] theorem sizeClassKind_sc1011 : ∀ low : BitVec 1, sizeClassKind (5#3 ++ low) = .unknown := by decide

@[simp] theorem sizeClassKind_sc1215 : ∀ low : BitVec 2, sizeClassKind (3#2 ++ low) = .unknown := by decide

/-- The verbs that change no record are of such a class. -/
theorem sizeClassKind_of_leavesRecords (hi : instrTxn i = some (b, x)) (hl : leavesRecords i = true) :
    sizeClassKind x.sizeClass ∈ [.procCall, .i2cBlockBroken, .blockProcCall, .unknown] := by
  cases i
  case procCall | i2cBlockBroken | blockProcCall | unknownSc9 => cases hi; simp [sizeClassKind]
  case unknownSc1011 | unknownSc1215 => cases hi; simp
  case cmdStop | read8 | write8 | init | deinit | waitIdle => cases hi
  all_goals cases hl

/-- Refused by validation, `execute` changes no record. -/
theorem startExecute_of_refused (hx : ∀ m, ∃ e, validateTxn s.cfg m x = some e) (ht : startExecute b x s = .next t) :
    RecordsRelated Eq s t := by
  rw [startExecute] at ht
  split at ht
  · exact answer_related Eq.refl ht
  · next m _ =>
    obtain ⟨e, he⟩ := hx m
    simp only [beginExecute, he] at ht
    exact answer_related Eq.refl (r := .err e) ht

/-! Instructions. -/

theorem execInit_related {div : Half} (ht : execInit b div s = .next t) : RecordsRelated Eq s t := by
  rw [execInit] at ht
  split at ht
  · exact answer_related Eq.refl ht
  · refine onMaster_related Eq.refl ht fun m hr => ?_
    split at hr
    · exact done_related Eq.refl hr rfl
    · exact answer_related Eq.refl hr

theorem execWrite8_related {r : Reg} {v : Byte} (ht : execWrite8 b r v s = .next t) : RecordsRelated Eq s t := by
  refine onMaster_related Eq.refl ht fun m hr => ?_
  split at hr
  · cases hr
  · exact done_related Eq.refl hr rfl

/-- The instructions of `leavesRecords`. -/
theorem exec_leavesRecords (hl : leavesRecords i = true) (ht : exec i s = .next t) : RecordsRelated Eq s t := by
  cases hx : instrTxn i with
  | some bx =>
    rw [exec_of_instrTxn hx] at ht
    exact startExecute_of_refused (fun _ => validateTxn_of_unmapped (sizeClassKind_of_leavesRecords hx hl)) ht
  | none =>
    cases i
    case cmdStop | read8 | deinit => exact onMaster_related Eq.refl ht fun m hr => done_related Eq.refl hr rfl
    case write8 => exact execWrite8_related ht
    case init => exact execInit_related ht
    case waitIdle => exact startPrim_related Eq.refl ht fun m => (runPrim_waitIdle_record false (s.port m)).symm
    case procCall | i2cBlockBroken | blockProcCall | unknownSc9 | unknownSc1011 | unknownSc1215 => cases hx
    all_goals cases hl

/-- The instructions below `access`. -/
theorem exec_setsFlags (hl : leavesLockAndCache i = true) (ht : exec i s = .next t) : RecordsRelated RecordUp s t := by
  have hkept : RecordsRelated Eq s t → RecordsRelated RecordUp s t := fun h k => h k ▸ RecordUp.refl _
  cases hx : instrTxn i with
  | some bx =>
    rw [exec_of_instrTxn hx] at ht
    exact startExecute_related ht
  | none =>
    cases i
    case cmdStart | cmdWrite | cmdReadAck | cmdReadNack | waitPhaseDone =>
      exact startPrim_related RecordUp.refl ht fun m => (calm_runPrim _ false).record
    case muxSelect | muxDeselect => exact startMux_related ht
    case cmdStop | read8 | write8 | init | deinit | waitIdle => exact hkept (exec_leavesRecords rfl ht)
    case cmdIack => cases ht
    case access | deselectAll | engineInit | engineShutdown => cases hl
    all_goals cases hx

/-- Settles O42: by what the instruction or the suspended call runs on its master's port. -/
theorem recordFrame : Obligations.RecordFrame := by
  unfold Obligations.RecordFrame
  refine ⟨fun i s t k ht => ⟨fun hl => (exec_leavesRecords hl ht k).symm,
    fun hl => flagsOnlySet_iff.2 (exec_setsFlags hl ht k)⟩, fun d s k => ⟨fun hl => ?waitIdle, fun hl => ?below⟩⟩
  case waitIdle =>
    have hrelates : (resumeCall d s).Relates Eq s := by
      unfold Call.leavesRecords at hl
      split at hl
      · exact primCall_relates Eq.refl (runPrim_waitIdle_record true _).symm
      · cases hl
    exact hrelates.imp (fun _ _ h => (h k).symm) (fun _ _ h => (h.1 k).symm)
  case below =>
    exact (resumeCall_relates hl).imp (fun _ _ h => flagsOnlySet_iff.2 (h k))
      (fun _ _ h => ⟨flagsOnlySet_iff.2 (h.1 k), h.2⟩)

end Sys2Proof.Machine
end

section
/-! SUPPORT. Master-core calls for an index outside `1..N_MASTERS` (rules R120, R121, R276). -/

namespace Sys2Proof.Machine

theorem masterIx_eq_none_iff {c : Config.Params} {b : Byte} :
    masterIx c b = none ↔ b.toNat = 0 ∨ c.nMasters.val < b.toNat := by
  rw [← Option.not_isSome_iff_eq_none, masterIx_isSome_iff]
  omega

/-- Settles O20: the call looks for the master before anything else. -/
theorem badMasterIndexFaults : Obligations.BadMasterIndexFaults := by
  unfold Obligations.BadMasterIndexFaults
  intro s m h
  have hm : masterIx s.cfg m = none := masterIx_eq_none_iff.2 h
  have hfault := onMaster_of_outOfRange hm
  exact ⟨fun _ => hfault _, fun _ _ => hfault _, fun _ => hfault _, fun _ => hfault _, hfault _, hfault _, hfault _,
    hfault _, (execInit_of_outOfRange hm _).trans (if_pos rfl), fun _ => hfault _, fun _ _ => hfault _⟩

end Sys2Proof.Machine
end

section
/-! SUPPORT. What the parts of a call on one master leave, read off the positions they run: a transaction's one STOP (rules
R141, R145, R149, R172 to R174). -/

namespace Sys2Proof.Machine

variable {c : Config.Params} {m k : MasterIx} {p q : Port} {f g : ExecFrame} {pr : Prim} {e : Err} {s : State} {t : Txn}
  {put : ExecFrame → Call} {r : Option MasterState}

/-! Positions and calls. -/

theorem PosOut.Meets.and {F R S : Type} {P P' : F → S → Prop} {E E' : R → S → Prop} {o : PosOut F R S}
    (h : o.Meets P E) (h' : o.Meets P' E') :
    o.Meets (fun f x => P f x ∧ P' f x) (fun r x => E r x ∧ E' r x) := by
  cases o with
  | go f x => exact ⟨h, h'⟩
  | wait f x => exact ⟨h, h'⟩
  | ended r x => exact ⟨h, h'⟩
  | fault e => trivial

/-- What every position brings about, whatever comes before it, a run of at least one brings about. -/
theorem runPos_meets_of_forall {F R S : Type} {pos : F → S → PosOut F R S} {P : F → S → Prop} {E : R → S → Prop}
    (h : ∀ f x, (pos f x).Meets P E) (n : Nat) (f : F) (x : S) : (runPos pos n f x).Meets P E := by
  cases n with
  | zero => exact h f x
  | succ n =>
    have hx := h f x
    rw [runPos]
    split <;> (rename_i ho; rw [ho] at hx)
    · exact runPos_meets (fun g y _ => h g y) n _ _ hx
    · exact hx
    · exact hx
    · trivial

/-- What is known of the positions run on one port is known of the call. -/
theorem portOut_meets_withPort {F R : Type} {call : F → Call} {ret : R → Ret} {o : PosOut F R Port}
    {D : Ret → State → Prop} {U : Call → State → Prop}
    (h : o.Meets (fun f q => U (call f) (s.withPort k q)) (fun r q => D (ret r) (s.withPort k q))) :
    (portOut k s call ret o).Meets D U := by
  cases o with
  | go f q => exact h
  | wait f q => exact h
  | ended r q => exact h
  | fault e => trivial

theorem resumeExecCall_of_holds (hh : Holds s k) (f : ExecFrame) : resumeExecCall k f s =
    portOut k s (.exec k) retOfRes (runPos (execPos s.cfg k) s.quantum f (s.port k)) := by
  simp only [resumeExecCall, holderFault_none_iff.2 hh]

theorem beginExecute_of_valid (h : Valid s k t) : beginExecute k t s = resumeExecCall k (execStart t) s := by
  simp only [beginExecute, show validateTxn s.cfg k t = none from h]

/-- Accesses that are writes and no more than these are these. -/
theorem Glide.history {j : Nat} {xs : List Byte} {ws : List Access} (h : Glide c m p q j xs ws ws.length) :
    q.unit.history = p.unit.history ++ ws := by
  obtain ⟨new, hnew, hwrites, hlength, -⟩ := h.accesses
  have hsub : ws.Sublist new := hwrites ▸ List.filter_sublist
  rw [hnew, hsub.eq_of_length hlength.symm]

theorem touches_of_glide {j : Nat} {xs : List Byte} {ws : List Access}
    (h : Glide s.cfg k (s.port k) q j xs ws ws.length) : Touches s (s.withPort k q) k ws (s.unit k).record :=
  touches_withPort h.history h.window h.record h.chips

/-! No position leads to `E_VALIDATE`. -/

theorem toDataW_epc (f : ExecFrame) (i : Nat) : (f.toDataW i).epc ≠ .validate := by
  rw [ExecFrame.toDataW]; split <;> simp [ExecFrame.stopWith]

theorem toDataR_epc (f : ExecFrame) (i len : Nat) (rx : List Byte) : (f.toDataR i len rx).epc ≠ .validate := by
  rw [ExecFrame.toDataR]; split <;> simp [ExecFrame.stopWith]

theorem goesTo_epc (f : ExecFrame) (v : Byte) : (f.goesTo c v).epc ≠ .validate := by
  rw [ExecFrame.goesTo.eq_def]
  cases he : f.epc
  case lenW | dataW => exact toDataW_epc _ _
  case dataR => exact toDataR_epc _ _ _ _
  case lenR =>
    dsimp only
    split
    · split
      · exact toDataR_epc _ _ _ _
      · simp [ExecFrame.stopWith]
    · exact toDataR_epc _ _ _ _
  case cmd => dsimp only; rw [ExecFrame.toBody]; split <;> simp [ExecFrame.atPos]
  case ret => simp [he]
  all_goals simp [ExecFrame.atPos]

theorem prim_epc (h : f.prim = some pr) : f.epc ≠ .validate := by
  intro he; rw [ExecFrame.prim, he] at h; cases h

theorem execPos_epc (f : ExecFrame) (p : Port) : (execPos c m f p).Meets (fun g _ => g.epc ≠ .validate) (fun _ _ => True) := by
  cases hp : f.prim with
  | some pr =>
    rw [execPos_prim hp, primPos]
    split
    · exact prim_epc hp
    · simp [PosOut.Meets, ExecFrame.stopWith]
    · exact goesTo_epc f _
  | none =>
    by_cases hv : f.epc = .validate
    · rw [execPos, hv]
      show (posValidate c m f p).Meets _ _
      rw [posValidate]
      split
      · trivial
      · simp [PosOut.Meets, ExecFrame.atPos]
    · by_cases hr : f.epc = .ret
      · rw [execPos, hr]; trivial
      · obtain ⟨q, hq, -⟩ := execPos_silent (c := c) (m := m) (p := p) hp hv hr
        rw [hq]; exact goesTo_epc f _

/-! One STOP. -/

/-- A transaction that validation lets through, since `p`: no STOP before the position of its return, one, as its last
access, where it has come to it (rule R173). -/
def StopsOnce (c : Config.Params) (m : MasterIx) (p : Port) (f : ExecFrame) (q : Port) : Prop :=
  (f.epc ≠ .ret ∧ (f.epc = .validate → validateTxn c m f.txn = none) ∧ Calm c p q) ∨
    (f.epc = .ret ∧ ∃ mid, Calm c p mid ∧ q = stopBus c m mid)

/-- A position before `E_STOP` makes no STOP and does not come to the return, whatever it does. -/
theorem execPos_calm (hs : f.epc ≠ .stop) (hr : f.epc ≠ .ret) :
    (execPos c m f p).Meets (fun g q => g.epc ≠ .ret ∧ Calm c p q)
      (fun _ _ => f.epc = .validate ∧ validateTxn c m f.txn ≠ none) :=
  (execPos_onWay (t := f.txn) ⟨rfl, hr, fun h => absurd h hs⟩ hs).imp (fun _ _ ⟨⟨_, hg, _⟩, hcalm⟩ => ⟨hg, hcalm⟩)
    (fun _ _ ⟨_, _, hv, hx⟩ => ⟨hv, hx⟩)

theorem execPos_stopsOnce (h : StopsOnce c m p f q) :
    (execPos c m f q).Meets (StopsOnce c m p) (fun _ z => ∃ mid, Calm c p mid ∧ z = stopBus c m mid) := by
  rcases h with ⟨hr, hv, hcalm⟩ | ⟨hr, hstop⟩
  · by_cases hs : f.epc = .stop
    · rw [execPos, hs]
      exact .inr ⟨rfl, q, hcalm, rfl⟩
    · exact ((execPos_calm hs hr).and (execPos_epc f q)).imp
        (fun g z ⟨⟨hg, hz⟩, hgv⟩ => .inl ⟨hg, fun hx => absurd hx hgv, hcalm.trans hz⟩)
        (fun _ _ ⟨⟨he, hx⟩, _⟩ => absurd (hv he) hx)
  · rw [execPos, hr]; exact hstop

/-- A part of a transaction that has not come to its return (rule R173). -/
theorem resumeExecCall_stops (hd : StopDistinct s.cfg.bits) (hr : f.epc ≠ .ret)
    (hv : f.epc = .validate → Valid s k f.txn) :
    (resumeExecCall k f s).Meets
      (fun _ u => ∃ new, (u.unit k).history = (s.unit k).history ++ new ++ [.wr .cmdstat (cmdStop s.cfg.bits)] ∧
        stopCount s.cfg new = 0)
      (fun d u => ∃ new f, d = .exec k f ∧ f.epc ≠ .validate ∧ stopCount s.cfg new = 0 ∧
        (f.epc ≠ .ret → (u.unit k).history = (s.unit k).history ++ new) ∧
        (f.epc = .ret →
          (u.unit k).history = (s.unit k).history ++ new ++ [.wr .cmdstat (cmdStop s.cfg.bits)])) := by
  have hstopped : ∀ {mid}, Calm s.cfg (s.port k) mid → ∃ new, (stopBus s.cfg k mid).unit.history =
      (s.unit k).history ++ new ++ [.wr .cmdstat (cmdStop s.cfg.bits)] ∧ stopCount s.cfg new = 0 := by
    intro mid hcalm
    obtain ⟨new, hnew, hcount⟩ := hcalm.history
    exact ⟨new, congrArg (· ++ [Access.wr .cmdstat (cmdStop s.cfg.bits)]) hnew, hcount hd⟩
  rw [resumeExecCall]
  split
  · trivial
  · refine portOut_meets_withPort (((runPos_meets (fun _ _ => execPos_stopsOnce) s.quantum f (s.port k)
      (.inl ⟨hr, hv, Calm.refl _⟩)).and (runPos_meets_of_forall execPos_epc s.quantum f (s.port k))).imp
      (fun g q ⟨hg, hgv⟩ => ?_) (fun _ q ⟨⟨mid, hcalm, hq⟩, _⟩ => ?_))
    · rw [State.withPort_unit_same]
      rcases hg with ⟨hr, -, hcalm⟩ | ⟨hr, mid, hcalm, rfl⟩
      · obtain ⟨new, hnew, hcount⟩ := hcalm.history
        exact ⟨new, g, rfl, hgv, hcount hd, fun _ => hnew, fun h => absurd h hr⟩
      · obtain ⟨new, hnew, hcount⟩ := hstopped hcalm
        exact ⟨new, g, rfl, hgv, hcount, fun h => absurd hr h, fun _ => hnew⟩
    · rw [State.withPort_unit_same, hq]
      exact hstopped hcalm

/-- At its return a transaction makes no access. -/
theorem resumeExecCall_of_ret (hr : f.epc = .ret) (hh : Holds s k) :
    resumeExecCall k f s = .done (retOfRes f.res) s := by
  have hpos : execPos s.cfg k f (s.port k) = .ended f.res (s.port k) := by rw [execPos, hr]
  rw [resumeExecCall_of_holds hh, runPos_ended hpos, portOut, withPort_self]

theorem beginExecute_of_refused (h : ¬ Valid s k t) : ∃ e, beginExecute k t s = .done (.err e) s := by
  obtain ⟨e, he⟩ := Option.ne_none_iff_exists'.1 h
  exact ⟨e, by simp only [beginExecute, he]⟩

/-- `E_STOP` makes one STOP, every other position none (rules R172, R173). -/
theorem execPos_stopCount (hd : StopDistinct c.bits) (f : ExecFrame) (p : Port) :
    (execPos c m f p).Meets (fun _ q => ∃ new, q.unit.history = p.unit.history ++ new ∧
      stopCount c new = if f.epc = .stop then 1 else 0) (fun _ _ => True) := by
  by_cases hs : f.epc = .stop
  · rw [execPos, hs]
    exact ⟨[.wr .cmdstat (cmdStop c.bits)], rfl, by simp [stopCount, isStop]⟩
  · by_cases hr : f.epc = .ret
    · rw [execPos, hr]; trivial
    · refine (execPos_calm hs hr).imp (fun _ _ ⟨_, hcalm⟩ => ?_) (fun _ _ _ => trivial)
      obtain ⟨new, hnew, hcount⟩ := hcalm.history
      exact ⟨new, hnew, by rw [hcount hd, if_neg hs]⟩

/-! One iteration of a poll that is met, inside the call that carries the transaction. -/

section
variable {x : MasterState} (hc : Carries s.cfg k put) (hh : Holds s k) (hx : (s.unit k).record = some x)
  (h : f.prim = some pr) (hp : f.polling = true) (hq : s.quantum = 0)
  (hb : bitSet (statusAfter s k []) (pr.bit s.cfg.bits) = false)
include hc hh hx h hp hq hb

/-- A phase that failed: its error is taken to `E_STOP`, and nothing is accessed after the status read. -/
theorem Carries.fails (hf : pr.FailsAt s.cfg.bits (statusAfter s k []) e) :
    ∃ u, resumeCall (put f) s = .paused (put (f.stopWith (.err e))) u ∧
      Touches s u k [.rd .cmdstat (statusAfter s k [])]
        (some (failedRecord s.cfg.bits pr (statusAfter s k []) x)) := by
  rw [statusAfter_nil] at hb hf ⊢
  exact ⟨_, hc.go hh hq (execPos_fails h hp hb hf),
    touches_withPort (by simp) rfl (by simp [hx]) rfl⟩

/-- A primitive that is good and receives nothing. -/
theorem Carries.goes (hf : ∀ e, ¬ pr.FailsAt s.cfg.bits (statusAfter s k []) e) (hr : pr.receives = false) :
    ∃ u, resumeCall (put f) s = .paused (put (f.goesTo s.cfg 0#8)) u ∧
      Touches s u k [.rd .cmdstat (statusAfter s k [])] (some x) := by
  rw [statusAfter_nil] at hb hf ⊢
  exact ⟨_, hc.go hh hq ((execPos_goes h hp hb hf).trans (if_neg (by simp [hr]))), touches_withPort (by simp) rfl hx rfl⟩

/-- A read phase that is good, and the byte it then reads (rules R145, R146). -/
theorem Carries.receives (hf : ∀ e, ¬ pr.FailsAt s.cfg.bits (statusAfter s k []) e) (hr : pr.receives = true) :
    ∃ u, resumeCall (put f) s = .paused (put (f.goesTo s.cfg (dataAfter s k []))) u ∧
      Touches s u k [.rd .cmdstat (statusAfter s k []), .rd .data (dataAfter s k [])] (some x) := by
  rw [dataAfter_nil]
  rw [statusAfter_nil] at hb hf ⊢
  exact ⟨_, hc.go hh hq ((execPos_goes h hp hb hf).trans (if_pos hr)), touches_withPort (by simp) rfl hx rfl⟩

end

/-- A position without a primitive (rules R172 to R174). -/
theorem Carries.silent (hc : Carries s.cfg k put) (hh : Holds s k) (h : f.prim = none) (hv : f.epc ≠ .validate)
    (hr : f.epc ≠ .ret) (hq : s.quantum = 0) :
    ∃ u, resumeCall (put f) s = .paused (put (f.goesTo s.cfg 0#8)) u ∧
      Touches s u k (f.ownWrites s.cfg) (s.unit k).record := by
  obtain ⟨q, hpos, hglide⟩ := execPos_silent (c := s.cfg) (m := k) (p := s.port k) h hv hr
  exact ⟨_, hc.go hh hq hpos, touches_of_glide hglide⟩

/-- Settles O41: every position keeps `StopsOnce`, and what a position does to its transaction it does to the call that
carries it. -/
theorem exactlyOneStop : Obligations.ExactlyOneStop := by
  unfold Obligations.ExactlyOneStop
  refine ⟨fun s k o hd ho => ?parts, fun s k f hr hh => resumeExecCall_of_ret hr hh,
    fun s k t h => beginExecute_of_refused h, fun c k f g p q hd hpos => ?position,
    fun s k put f pr r v x hc hh hr h hp hq hv hx hb => ?met, fun s k put f hc hh h hv hr hq => hc.silent hh h hv hr hq⟩
  case parts =>
    rcases ho with ⟨t, hvalid, rfl⟩ | ⟨f, hv, hr, rfl⟩
    · rw [beginExecute_of_valid hvalid]
      exact resumeExecCall_stops hd (by simp [execStart]) fun _ => hvalid
    · exact resumeExecCall_stops hd hr fun h => absurd h hv
  case position =>
    have hcount := execPos_stopCount (m := k) hd f p
    rcases hpos with hpos | hpos <;> (rw [hpos] at hcount; exact hcount)
  case met =>
    subst hv hx
    exact ⟨fun e hf => hc.fails hh hr h hp hq hb hf,
      fun hf => ⟨hc.goes hh hr h hp hq hb hf, hc.receives hh hr h hp hq hb hf⟩⟩

end Sys2Proof.Machine
end

section
/-! SUPPORT. The retry policy (rules R223, R231 to R237): how many STOPs the attempts of an access make for the retries it has
counted, which budget those kept to, and its runs through failed attempts as calls. -/

namespace Sys2Proof.Machine

variable {c : Config.Params} {m k : MasterIx} {p q : Port} {f g : AccessFrame} {e : Err} {s : State} {t : Txn}
  {ep : EndpointRef} {self : AgentId} {x r : MasterState} {n : Nat}

/-! The STOPs of the attempts. -/

/-- The access has not come to its first attempt. -/
def APos.opening : APos → Bool
  | .validate => true
  | .lock => true
  | .mux => true
  | .clear => true
  | .attempt => false
  | .retryDecide => false
  | .unlock => false
  | .ret => false

/-- The STOP of the current attempt, where it is still to come. -/
def AccessFrame.pending (f : AccessFrame) : Nat :=
  match f.apc with
  | .attempt => (f.inner.map ExecFrame.stopsLeft).getD 1
  | .retryDecide => 0
  | .unlock => 0
  | .ret => 0
  | _ => 1

theorem pending_attempt (h : f.apc = .attempt) : f.pending = (f.inner.map ExecFrame.stopsLeft).getD 1 := by
  rw [AccessFrame.pending, h]

theorem pending_le_one (f : AccessFrame) : f.pending ≤ 1 := by
  have hleft : ∀ e : ExecFrame, e.stopsLeft ≤ 1 := fun e => by rw [ExecFrame.stopsLeft]; split <;> omega
  rw [AccessFrame.pending]
  split
  · cases f.inner with
    | none => exact le_rfl
    | some e => exact hleft e
  all_goals omega

/-- From `f` to `g` each STOP is that of an attempt, and each attempt after the first is a retry counted. -/
def Tallies (c : Config.Params) (p : Port) (f g : AccessFrame) (q : Port) : Prop :=
  (g.apc.opening = true → f.apc.opening = true ∧ g.retries = f.retries) ∧
    Spends c p q (f.pending + g.retries) (g.pending + f.retries)

/-- `A_ATTEMPT`. -/
theorem posAttempt_tallies {E : Res → Port → Prop} (hd : StopDistinct c.bits) (hf : f.apc = .attempt) :
    (posAttempt c m f p).Meets (Tallies c p f) E := by
  have hnot : ∀ {P : Prop}, f.apc.opening = true → P := fun h => by rw [hf] at h; cases h
  have hpending := pending_attempt hf
  rw [posAttempt]
  split
  · next hi =>
    exact ⟨hnot, Spends.none rfl (by rw [hpending, hi, pending_attempt (by exact hf)]; exact le_rfl)⟩
  · next e hi =>
    have hspends := execPos_spends (m := m) (p := p) hd e
    have he : f.pending = e.stopsLeft := by rw [hpending, hi]; rfl
    split <;> (rename_i ho; rw [ho] at hspends)
    · exact ⟨hnot, Spends.mono hspends (by rw [he, pending_attempt (by exact hf)]; simp; omega)⟩
    · exact ⟨hnot, Spends.mono hspends (by rw [he, pending_attempt (by exact hf)]; simp; omega)⟩
    · exact ⟨fun h => (by cases h), Spends.mono (b := 0) hspends (by rw [he]; simp [AccessFrame.pending])⟩
    · trivial

/-- Every position of an access to a direct endpoint, its retries not yet counted before the first attempt. -/
theorem accessPos_tallies (hd : StopDistinct c.bits)
    (ho : f.apc.opening = true → f.ep.sel = .direct ∧ f.retries = 0) :
    (accessPos c self m f p).Meets (Tallies c p f) (fun _ _ => True) := by
  have hkept : ∀ {g : AccessFrame} {q : Port}, q.unit.history = p.unit.history →
      (g.apc.opening = true → f.apc.opening = true) → g.retries = f.retries → g.pending ≤ f.pending →
      Tallies c p f g q :=
    fun hq hopen hr hp => ⟨fun h => ⟨hopen h, hr⟩, Spends.none hq (by omega)⟩
  have hpending := AccessFrame.pending.eq_def f
  rw [accessPos]
  split <;> rename_i hf <;> rw [hf] at ho hpending
  case h_1 => exact hkept rfl (fun _ => by rw [hf]; rfl) rfl (by rw [hpending]; exact le_rfl)
  case h_2 =>
    rw [posLock]
    split
    · exact hkept rfl id rfl le_rfl
    · next hq =>
      exact hkept (acquireLock_history hq) (fun _ => by rw [hf]; rfl) rfl (by rw [hpending]; exact le_rfl)
  case h_3 =>
    rw [posMux, (ho rfl).1]
    exact hkept rfl (fun _ => by rw [hf]; rfl) rfl (by rw [hpending]; exact le_rfl)
  case h_4 =>
    refine ⟨fun h => (by cases h), Spends.none rfl ?_⟩
    rw [hpending, (ho rfl).2]; exact le_rfl
  case h_5 => exact (posAttempt_tallies hd hf).imp (fun _ _ => id) (fun _ _ => id)
  case h_6 =>
    rw [posRetryDecide]
    split
    · refine ⟨fun h => (by cases h), Spends.none rfl ?_⟩
      rw [hpending]; simp [AccessFrame.pending]; omega
    · exact hkept rfl (fun h => (by cases h)) rfl (Nat.zero_le _)
  case h_7 =>
    rw [posUnlock]
    split
    · trivial
    · next hq => exact hkept (releaseLock_history hq) (fun h => by cases h) rfl (Nat.zero_le _)
  case h_8 => trivial

/-- An access to a direct endpoint since `p`, where it had made `n` retries: the STOPs made, and the one pending, are one
more than the retries counted since at most (rules R173, R233, R236). -/
structure Counted (c : Config.Params) (n : Nat) (p : Port) (g : AccessFrame) (q : Port) : Prop where
  stops : Spends c p q (1 + g.retries) (g.pending + n)
  opening : g.apc.opening = true → g.ep.sel = .direct ∧ g.retries = 0
  budget : g.WithinBudget c

theorem accessPos_counted (hd : StopDistinct c.bits) (h : Counted c n p f q) :
    (accessPos c self m f q).Meets (Counted c n p) (fun _ _ => True) := by
  obtain ⟨hstops, hopening, hbudget⟩ := h
  refine (((accessPos_tallies hd hopening).and (accessPos_ep f q)).and (accessPos_spends hd f)).imp
    (fun g z ⟨⟨⟨hopen, htally⟩, hep⟩, _, hwithin⟩ => ⟨?_, fun hg => ?_, hwithin hbudget⟩) (fun _ _ _ => trivial)
  · exact ((hstops.mono (b' := f.pending + g.retries + n) (a' := 1 + f.retries + g.retries) (by omega)).trans
      (htally.mono (a' := f.pending + g.retries + n) (b' := g.pending + f.retries + n) (by omega))).mono (by omega)
  · obtain ⟨hf, hr⟩ := hopen hg
    rw [hep, hr]
    exact hopening hf

/-! The budget of an access that never saw the signature. -/

/-- Where the signature is not recorded after, it was not before (rule R140). -/
def Unsigned (p q : Port) : Prop :=
  ∀ y, q.unit.record = some y → y.persistentNack = false → ∃ x, p.unit.record = some x ∧ x.persistentNack = false

theorem Unsigned.refl (p : Port) : Unsigned p p := fun y hy hn => ⟨y, hy, hn⟩

theorem Port.Up.unsigned (h : p.Up q) : Unsigned p q := by
  intro y hy hn
  rw [Port.Up, hy] at h
  cases hp : p.unit.record with
  | none => rw [hp] at h; exact h.elim
  | some x =>
    rw [hp] at h
    obtain ⟨-, -, -, -, hsigned⟩ := h
    exact ⟨x, rfl, Bool.eq_false_iff.2 fun hx => by rw [hsigned hx] at hn; cases hn⟩

theorem unsigned_mapRecord {f : MasterState → MasterState} (hf : ∀ x, (f x).persistentNack = x.persistentNack)
    (p : Port) : Unsigned p (mapRecord f p) := by
  intro y hy hn
  rw [mapRecord_record, Option.map_eq_some_iff] at hy
  obtain ⟨x, hx, rfl⟩ := hy
  exact ⟨x, hx, (hf x).symm.trans hn⟩

theorem Unsigned.trans {z : Port} (h : Unsigned p q) (h' : Unsigned q z) : Unsigned p z := by
  intro y hy hn
  obtain ⟨x, hx, hxn⟩ := h' y hy hn
  exact h x hx hxn

theorem unsigned_of_acquire (h : acquireLock self p = some q) : Unsigned p q := by
  rw [acquireLock] at h
  split at h
  · obtain rfl := Option.some.inj h; exact unsigned_mapRecord (by intro; rfl) p
  · cases h

theorem unsigned_of_release (h : releaseLock self p = some q) : Unsigned p q := by
  rw [releaseLock] at h
  split at h
  · obtain rfl := Option.some.inj h; exact unsigned_mapRecord (by intro; rfl) p
  · cases h

/-- What one position does to the retries and the signature: both are kept, or cleared together, or one retry is counted
within the budget (rules R223, R231, R233). -/
def KeepsRetries (c : Config.Params) (p : Port) (f g : AccessFrame) (q : Port) : Prop :=
  (g.retries = f.retries ∧ Unsigned p q) ∨ g.retries = 0 ∨
    (g.retries = f.retries + 1 ∧ q = p ∧ f.retries < retryBudget c (recordOf p))

theorem posMux_keepsRetries {E : Res → Port → Prop} (f : AccessFrame) (p : Port) :
    (posMux c m f p).Meets (KeepsRetries c p f) E := by
  rw [posMux]
  split
  · exact .inl ⟨rfl, Unsigned.refl p⟩
  · next sw _ =>
    split
    · refine .inl ⟨?_, Unsigned.refl p⟩
      rw [muxChoice]
      split
      · rfl
      · split <;> rfl
    · next w _ =>
      have hup := up_muxPos (c := c) (m := m) (p := p) w
      split <;> (rename_i ho; rw [ho] at hup)
      · exact .inl ⟨rfl, hup.unsigned⟩
      · exact .inl ⟨rfl, hup.unsigned⟩
      · rw [muxStepOver]
        split
        · exact .inl ⟨rfl, hup.unsigned⟩
        · split
          · exact .inl ⟨rfl, hup.unsigned⟩
          · exact .inl ⟨rfl, hup.unsigned.trans (unsigned_mapRecord (by intro; rfl) _)⟩
      · trivial

theorem posAttempt_keepsRetries {E : Res → Port → Prop} (f : AccessFrame) (p : Port) :
    (posAttempt c m f p).Meets (KeepsRetries c p f) E := by
  rw [posAttempt]
  split
  · exact .inl ⟨rfl, unsigned_mapRecord (by intro; rfl) p⟩
  · next e _ =>
    have hup := up_execPos (c := c) (m := m) (p := p) e
    split <;> (rename_i ho; rw [ho] at hup)
    · exact .inl ⟨rfl, hup.unsigned⟩
    · exact .inl ⟨rfl, hup.unsigned⟩
    · exact .inl ⟨rfl, hup.unsigned⟩
    · trivial

theorem posRetryDecide_keepsRetries {E : Res → Port → Prop} (f : AccessFrame) (p : Port) :
    (posRetryDecide c f p).Meets (KeepsRetries c p f) E := by
  rw [posRetryDecide]
  split
  · next h =>
    refine .inr (.inr ⟨rfl, rfl, ?_⟩)
    rw [retryAgain.eq_def] at h
    split at h
    · cases h
    · rw [Bool.and_eq_true, decide_eq_true_eq] at h; exact h.2
  · exact .inl ⟨rfl, Unsigned.refl p⟩

theorem accessPos_keepsRetries (f : AccessFrame) (p : Port) :
    (accessPos c self m f p).Meets (KeepsRetries c p f) (fun _ q => f.apc = .ret ∧ q = p) := by
  rw [accessPos]
  split <;> rename_i hf
  · exact .inl ⟨rfl, Unsigned.refl p⟩
  · rw [posLock]
    split
    · exact .inl ⟨rfl, Unsigned.refl p⟩
    · next hq => exact .inl ⟨rfl, unsigned_of_acquire hq⟩
  · exact posMux_keepsRetries f p
  · exact .inr (.inl rfl)
  · exact posAttempt_keepsRetries f p
  · exact posRetryDecide_keepsRetries f p
  · rw [posUnlock]
    split
    · trivial
    · next hq => exact .inl ⟨rfl, unsigned_of_release hq⟩
  · exact ⟨hf, rfl⟩

/-- Without the signature the retries are within `RETRY_LOW` (rule R233). -/
def LowRetries (c : Config.Params) (g : AccessFrame) (q : Port) : Prop :=
  ∀ x, q.unit.record = some x → x.persistentNack = false → g.retries ≤ c.retryLow

theorem KeepsRetries.lowRetries (h : KeepsRetries c p f g q) (hl : LowRetries c f p) : LowRetries c g q := by
  intro y hy hn
  rcases h with ⟨hr, hunsigned⟩ | hr | ⟨hr, rfl, hbudget⟩
  · obtain ⟨x, hx, hxn⟩ := hunsigned y hy hn
    exact hr ▸ hl x hx hxn
  · exact hr ▸ Nat.zero_le _
  · rw [recordOf, hy, Option.getD_some, retryBudget, hn, Bool.and_false] at hbudget
    exact hr ▸ hbudget

/-! Parts of an access. -/

/-- What every position of an access keeps holds of a part of it, and of the frame a part that returns came to. -/
theorem runAccess_keeps {P : AccessFrame → Port → Prop}
    (h : ∀ g q, P g q → (accessPos c self m g q).Meets P (fun _ _ => True)) (hp : P f p) :
    (runPos (accessPos c self m) n f p).Meets P (fun _ q => ∃ g, P g q) :=
  runPos_meets (fun g q hg => ((h g q hg).and (accessPos_keepsRetries g q)).imp (fun _ _ hz => hz.1)
    (fun _ _ ⟨_, _, hz⟩ => ⟨g, hz ▸ hg⟩)) n f p hp

/-- What is known of the positions of an access is known of the part that runs them. -/
theorem resumeAccessCall_meets {D : Ret → State → Prop} {U : Call → State → Prop} (hm : accessMaster s.cfg f.ep = some k)
    (h : (runPos (accessPos s.cfg s.self k) s.quantum f (s.port k)).Meets
      (fun g q => U (.access g) (s.withPort k q)) (fun x q => D (retOfRes x) (s.withPort k q))) :
    (resumeAccessCall f s).Meets D U := by
  simp only [resumeAccessCall, hm]
  split
  · trivial
  · exact portOut_meets_withPort h

/-- A part of an access to a direct endpoint, from its start (rules R233, R236). -/
theorem beginAccess_counted (hd : StopDistinct s.cfg.bits) (hm : accessMaster s.cfg ep = some k)
    (hdirect : ep.sel = .direct) :
    (beginAccess ep t s).Meets
      (fun _ u => ∃ new, (u.unit k).history = (s.unit k).history ++ new ∧
        stopCount s.cfg new ≤ 1 + max s.cfg.retryHigh s.cfg.retryLow ∧
        (∀ x, (u.unit k).record = some x → x.persistentNack = false → stopCount s.cfg new ≤ 1 + s.cfg.retryLow))
      (fun d u => ∃ new f, (u.unit k).history = (s.unit k).history ++ new ∧ d = .access f ∧
        stopCount s.cfg new ≤ f.retries + 1 ∧ f.retries ≤ max s.cfg.retryHigh s.cfg.retryLow) := by
  have hstart : Counted s.cfg 0 (s.port k) (accessFrame ep t .validate) (s.port k) ∧
      LowRetries s.cfg (accessFrame ep t .validate) (s.port k) :=
    ⟨⟨Spends.none rfl le_rfl, fun _ => ⟨hdirect, rfl⟩, Nat.zero_le _⟩, fun _ _ _ => Nat.zero_le _⟩
  have hkeeps := runAccess_keeps (m := k) (self := s.self) (n := s.quantum)
    (P := fun g q => Counted s.cfg 0 (s.port k) g q ∧ LowRetries s.cfg g q) (fun g q ⟨hg, hl⟩ => ((accessPos_counted hd hg).and (accessPos_keepsRetries g q)).imp
      (fun _ _ ⟨hc, hr⟩ => ⟨hc, hr.lowRetries hl⟩) (fun _ _ _ => trivial)) hstart
  refine resumeAccessCall_meets (f := accessFrame ep t .validate) hm (hkeeps.imp
    (fun g q ⟨⟨⟨new, hnew, hcount⟩, _, hbudget⟩, _⟩ => ?_) (fun _ q ⟨g, ⟨⟨new, hnew, hcount⟩, _, hbudget⟩, hlow⟩ => ?_))
  · exact ⟨new, g, by rw [State.withPort_unit_same]; exact hnew, rfl, by omega, hbudget⟩
  · have hmax : g.retries ≤ max s.cfg.retryHigh s.cfg.retryLow := hbudget
    refine ⟨new, by rw [State.withPort_unit_same]; exact hnew, by omega, fun x hx hn => ?_⟩
    have := hlow x (by rwa [State.withPort_unit_same] at hx) hn
    omega

/-- A part of an access that is resumed at an attempt. -/
theorem resumeAccessCall_counted (hd : StopDistinct s.cfg.bits) (hm : accessMaster s.cfg f.ep = some k)
    (hf : f.apc = .attempt) (hb : f.retries ≤ max s.cfg.retryHigh s.cfg.retryLow) :
    (resumeAccessCall f s).Meets
      (fun _ u => ∃ new, (u.unit k).history = (s.unit k).history ++ new ∧
        f.retries + stopCount s.cfg new ≤ 1 + max s.cfg.retryHigh s.cfg.retryLow)
      (fun d u => ∃ new g, (u.unit k).history = (s.unit k).history ++ new ∧ d = .access g ∧
        f.retries + stopCount s.cfg new ≤ g.retries + 1 ∧ g.retries ≤ max s.cfg.retryHigh s.cfg.retryLow) := by
  have hstart : Counted s.cfg f.retries (s.port k) f (s.port k) :=
    ⟨Spends.none rfl (by have := pending_le_one f; omega), fun h => (by rw [hf] at h; cases h), hb⟩
  refine resumeAccessCall_meets hm ((runAccess_keeps (fun _ _ => accessPos_counted hd) hstart).imp
    (fun g q ⟨⟨new, hnew, hcount⟩, _, hbudget⟩ => ?_) (fun _ q ⟨g, ⟨new, hnew, hcount⟩, _, hbudget⟩ => ?_))
  · exact ⟨new, g, by rw [State.withPort_unit_same]; exact hnew, rfl, by omega, hbudget⟩
  · have hmax : g.retries ≤ max s.cfg.retryHigh s.cfg.retryLow := hbudget
    exact ⟨new, by rw [State.withPort_unit_same]; exact hnew, by omega⟩

/-- A part of any access: what its frame allows, it spends (rules R173, R225, R233). -/
theorem resumeAccessCall_spends (hd : StopDistinct s.cfg.bits) (hm : accessMaster s.cfg f.ep = some k) :
    (resumeAccessCall f s).Meets
      (fun _ u => ∃ new, (u.unit k).history = (s.unit k).history ++ new ∧ stopCount s.cfg new ≤ f.stopsLeft s.cfg)
      (fun d u => ∃ new g, (u.unit k).history = (s.unit k).history ++ new ∧ d = .access g ∧
        stopCount s.cfg new + g.stopsLeft s.cfg ≤ f.stopsLeft s.cfg ∧
        (f.retries ≤ max s.cfg.retryHigh s.cfg.retryLow → g.retries ≤ max s.cfg.retryHigh s.cfg.retryLow)) := by
  have hkeeps := runPos_meets (pos := accessPos s.cfg s.self k) (P := AccessSpends s.cfg (s.port k) f)
    (E := fun _ q => Spends s.cfg (s.port k) q (f.stopsLeft s.cfg) 0)
    (fun g q ⟨hg, hw⟩ => (accessPos_spends hd g).imp (fun _ _ ⟨hz, hw'⟩ => ⟨hg.trans hz, hw' ∘ hw⟩)
      (fun _ _ hz => hg.trans hz)) s.quantum f (s.port k) ⟨Spends.none rfl le_rfl, id⟩
  refine resumeAccessCall_meets hm (hkeeps.imp (fun g q ⟨⟨new, hnew, hcount⟩, hw⟩ => ?_)
    (fun _ q ⟨new, hnew, hcount⟩ => ?_))
  · exact ⟨new, g, by rw [State.withPort_unit_same]; exact hnew, rfl, hcount, hw⟩
  · exact ⟨new, by rw [State.withPort_unit_same]; exact hnew, hcount⟩

/-! One position of an access that holds the lock. -/

theorem resumeAccessCall_of_go (hm : accessMaster s.cfg f.ep = some k) (hh : Holds s k) (hf : f.apc.lockFree = false)
    (hq : s.quantum = 0) (h : accessPos s.cfg s.self k f (s.port k) = .go g q) :
    resumeAccessCall f s = .paused (.access g) (s.withPort k q) := by
  have hready : accessFault k f s = none := by
    rw [accessFault, if_neg (by rintro hr; rw [hr] at hf; cases hf), hf]
    exact holderFault_none_iff.2 hh
  rw [resumeAccessCall_of_ready hm hready, runAccess, hq, runPos, h, portOut]

theorem retryAgain_iff {res : Res} :
    retryAgain c n res x = true ↔ ∃ e, res = .err e ∧ retryable c e = true ∧ n < retryBudget c x := by
  cases res with
  | ok p => simp [retryAgain]
  | err e => simp [retryAgain]

theorem retryBudget_of_signed (h : x.retryNeeded = true ∧ x.persistentNack = true) : retryBudget c x = c.retryHigh := by
  rw [retryBudget, h.1, h.2]; rfl

theorem retryBudget_of_unsigned (h : ¬ (x.retryNeeded = true ∧ x.persistentNack = true)) :
    retryBudget c x = c.retryLow := if_neg (by rwa [Bool.and_eq_true])

/-- The errors that rule R234 retries. -/
theorem retryable_iff : retryable c e = true ↔
    e = .arbitrationLost ∨ e = .noAck ∨ (e = .timeout ∧ c.retryOnTimeout = true) := by
  cases e <;> simp [retryable]

section
variable (hm : accessMaster s.cfg f.ep = some k) (hh : Holds s k) (hr : (s.unit k).record = some r) (hq : s.quantum = 0)
include hm hh hr hq

/-- `A_RETRY_DECIDE` on the whole state (rules R233, R234). -/
theorem resumeAccessCall_decides (hf : f.apc = .retryDecide) : resumeAccessCall f s =
    .paused (.access (if retryAgain s.cfg f.retries f.res r then
      { f with apc := .attempt, retries := f.retries + 1, inner := none } else { f with apc := .unlock })) s := by
  have hpos : accessPos s.cfg s.self k f (s.port k) = .go (if retryAgain s.cfg f.retries f.res r then
      { f with apc := .attempt, retries := f.retries + 1, inner := none } else { f with apc := .unlock }) (s.port k) := by
    rw [accessPos, hf]
    show posRetryDecide s.cfg f (s.port k) = _
    rw [posRetryDecide, recordOf, State.port_unit, hr, Option.getD_some]
    split <;> rfl
  rw [resumeAccessCall_of_go hm hh (by rw [hf]; rfl) hq hpos, withPort_self]

/-- The start of an attempt (rule R232). -/
theorem resumeAccessCall_attempts (hf : f.apc = .attempt) (hi : f.inner = none) :
    ∃ u, resumeAccessCall f s = .paused (.access { f with inner := some (execStart f.txn) }) u ∧
      Touches s u k [] (some { r with retryNeeded := false }) := by
  have hpos : accessPos s.cfg s.self k f (s.port k) =
      .go { f with inner := some (execStart f.txn) } (mapRecord clearRetryFlag (s.port k)) := by
    rw [accessPos_attempt hf, posAttempt, hi]
  exact ⟨_, resumeAccessCall_of_go hm hh (by rw [hf]; rfl) hq hpos,
    touches_withPort (by simp) rfl (by rw [mapRecord_record, State.port_unit, hr]; rfl) rfl⟩

end

/-! Attempts that are not acknowledged. -/

theorem triesGoOn_append : ∀ (vs ws seen : List Byte),
    triesGoOn c seen (vs ++ ws) = (triesGoOn c seen vs && triesGoOn c (seen ++ vs) ws)
  | [], ws, seen => by simp [triesGoOn]
  | v :: vs, ws, seen => by
    rw [List.cons_append, triesGoOn, triesGoOn, triesGoOn_append vs ws, List.append_assoc, List.singleton_append,
      ← Bool.and_assoc]

theorem triesFit_append_iff {b : Config.Bits} : ∀ {vs ws l : List Byte}, triesFit b (vs ++ ws) l = true ↔
    triesFit b vs l = true ∧ triesFit b ws (l.drop (2 * vs.length)) = true
  | [], ws, l => by simp [triesFit]
  | v :: vs, ws, [] => by simp [triesFit]
  | v :: vs, ws, [v0] => by simp [triesFit]
  | v :: vs, ws, v0 :: w :: rest => by
    simp only [List.cons_append, triesFit, Bool.and_eq_true, triesFit_append_iff (vs := vs), and_assoc]
    rfl

/-- No deadline is asked for where TIP is never set. -/
theorem triesLate_eq_nil {b : Config.Bits} {vs : List Byte} (h : ∀ v ∈ vs, bitSet v b.tip = false) :
    triesLate b vs = [] := by
  rw [triesLate, List.filter_eq_nil_iff.2 fun v hv => by simp [h v hv]]; rfl

/-- A phase that is not acknowledged does not show the signature (rule R140). -/
theorem any_signature_append {b : Config.Bits} {vs ws : List Byte} (h : ∀ w ∈ ws, bitSet w b.al = false) :
    (vs ++ ws).any (signature b) = vs.any (signature b) := by
  rw [List.any_append, List.any_eq_false (l := ws) |>.2 fun w hw => by simp [signature, h w hw], Bool.or_false]

/-! A transaction that validation refuses. -/

theorem validateTxn_refusal (h : validateTxn c m t = some e) : e = .invalidArgument ∨ e = .notSupported := by
  simp only [validateTxn] at h
  repeat' split at h
  all_goals cases h
  all_goals simp

/-- It gets one attempt, with no access (rules R223, R236). -/
theorem access_unvalidated (hd : ep.sel = .direct) (hr : p.unit.record = some r) (hl : r.lock = .free)
    (hv : validateTxn c m t = some e) :
    Steps (accessPos c self m) 8 (accessFrame ep t .validate) p { accessFrame ep t .ret with res := .err e }
      (lockFreed (mapRecord clearRetryFlag (atAttempt self p))) := by
  have hbegin : accessPos c self m (accessFrame ep t .attempt) (atAttempt self p) =
      .go { accessFrame ep t .attempt with inner := some (execStart t) } (mapRecord clearRetryFlag (atAttempt self p)) := rfl
  have hpos : ∀ z, execPos c m (execStart t) z = .ended (.err e) z := by
    intro z
    show posValidate c m (execStart t) z = _
    rw [posValidate, show validateTxn c m (execStart t).txn = some e from hv]
  have hrefused : ∀ z, accessPos c self m { accessFrame ep t .attempt with inner := some (execStart t) } z =
      .go { accessFrame ep t .retryDecide with res := .err e } z := by
    intro z
    rw [accessPos_attempt (by rfl), posAttempt]
    simp only [hpos]
    rfl
  have hdecides : ∀ z, accessPos c self m { accessFrame ep t .retryDecide with res := .err e } z =
      .go { accessFrame ep t .unlock with res := .err e } z := by
    intro z
    show posRetryDecide c _ z = _
    refine if_neg fun h => ?_
    obtain ⟨e', he', hretryable, _⟩ := retryAgain_iff.1 h
    cases he'
    rcases validateTxn_refusal hv with rfl | rfl <;> cases hretryable
  have hclosing := access_closing (c := c) (m := m) (self := self)
    (f := { accessFrame ep t .unlock with res := .err e }) (p := mapRecord clearRetryFlag (atAttempt self p)) rfl
    (by simp [atAttempt, lockTaken, hr]; rfl) rfl
  exact (((((access_opening hd hr hl).snoc hbegin).snoc (hrefused _)).snoc (hdecides _)).trans hclosing)

/-! Whole accesses. -/

theorem masterEnabled_of_valid (h : Valid s k t) : masterEnabled s.cfg k = true := by
  by_contra hd
  rw [Valid, validateTxn, if_pos (Bool.eq_false_of_not_eq_true hd)] at h
  cases h

/-- A call whose accesses are known. -/
theorem accessed_of_trail {j : Nat} {ws : List Access} {y : Ret} (h : Trail s.cfg k (s.port k) q j ws n) :
    Accessed s ((s.withPort k q).returned y) k ws n := by
  obtain ⟨new, hnew, hwrites, hlength⟩ := h.accesses
  exact ⟨⟨new, by simpa using hnew, hwrites, hlength⟩, h.window⟩

/-- An access whose positions are known up to its return, as an instruction: what it hands back, its accesses, the record and
the frame. -/
theorem exec_access_returns {j a : Nat} {ws : List Access} (hm : accessMaster s.cfg ep = some k)
    (hr : (s.unit k).record = some x) (hwf : s.window.wf = true)
    (hs : Steps (accessPos s.cfg s.self k) n (accessFrame ep t .validate) (s.port k) g q) (hg : g.apc = .ret)
    (hn : n ≤ s.quantum) (ht : Trail s.cfg k (s.port k) q j ws a) (hx : q.unit.record = some r)
    (hc : q.unit.chips = (s.unit k).chips) :
    ∃ u, exec (.access ep t) s = .next u ∧ OnlyMaster s u k ∧ GaveBack s u (retOfRes g.res) ∧ Accessed s u k ws a ∧
      (u.unit k).record = some r ∧ (u.unit k).chips = (s.unit k).chips := by
  have hcall := access_returns hm (by rw [hr]; simp) hs hg hn
  exact ⟨(s.withPort k q).returned (retOfRes g.res), congrArg finishCall hcall, onlyMaster_returned ht.evolves hwf, rfl,
    accessed_of_trail ht, by simpa using hx, by simpa using hc⟩

section
variable (hm : masterIx s.cfg ep.master = some k) (hdirect : ep.sel = .direct) (hr : (s.unit k).record = some r)
  (hl : r.lock = .free) (hv : Valid s k t) (hwf : s.window.wf = true)
include hm hdirect hr hl hv hwf

/-- Attempts that fail at their START, the last of which is not followed by another (rules R233 to R237). -/
theorem exec_access_refused {vs : List Byte} {v : Byte} (hq : 13 + 8 * vs.length ≤ s.quantum)
    (hgo : triesGoOn s.cfg [] vs = true) (he : startError s.cfg.bits v = some e) (hlast : retried s.cfg vs v = false)
    (hfit : triesFit s.cfg.bits (vs ++ [v]) (s.unit k).inputs.status = true)
    (hlate : triesLate s.cfg.bits (vs ++ [v]) <+: (s.unit k).inputs.deadline) :
    ∃ u, exec (.access ep t) s = .next u ∧ OnlyMaster s u k ∧ GaveBack s u (.err e) ∧
      Accessed s u k (refusedWrites s.cfg t (vs.length + 1)) (9 * (vs.length + 1)) ∧
      (u.unit k).record = some { r with
        retryNeeded := !bitSet v s.cfg.bits.tip, persistentNack := (vs ++ [v]).any (signature s.cfg.bits) } ∧
      (u.unit k).chips = (s.unit k).chips := by
  obtain ⟨g, q, hsteps, hg, hres, htried⟩ := access_refused (m := k) (p := s.port k) (self := s.self) hdirect hv hr hl hgo
    he hlast hfit hlate
  have htrail := htried.trail
  rw [List.length_append, List.length_singleton] at htrail
  have hret := exec_access_returns (accessMaster_eq.2 ⟨hm, masterEnabled_of_valid hv⟩) hr hwf hsteps hg hq htrail
    htried.record htried.chips
  rwa [hres] at hret

/-- After the attempts `vs`, attempts that are not acknowledged, to the end of the budget (rules R234, R237). -/
theorem exec_access_nacked {vs : List Byte} {b : Nat} (hq : 13 + 8 * (vs.length + b) ≤ s.quantum)
    (hgo : triesGoOn s.cfg [] vs = true) (hfit : triesFit s.cfg.bits vs (s.unit k).inputs.status = true)
    (htip : ∀ v ∈ vs, bitSet v s.cfg.bits.tip = false)
    (hb : vs.length + b = if vs.any (signature s.cfg.bits) then s.cfg.retryHigh else s.cfg.retryLow)
    (hn : nackedTries s.cfg.bits (b + 1) ((s.unit k).inputs.status.drop (2 * vs.length)) = true) :
    ∃ u, exec (.access ep t) s = .next u ∧ OnlyMaster s u k ∧ GaveBack s u (.err .noAck) ∧
      Accessed s u k (refusedWrites s.cfg t (vs.length + b + 1)) (9 * (vs.length + b + 1)) ∧
      (u.unit k).record = some { r with
        retryNeeded := true, persistentNack := vs.any (signature s.cfg.bits) } ∧
      (u.unit k).chips = (s.unit k).chips := by
  obtain ⟨ws, hlength, hws, hnacked⟩ := nacked_tries hn
  obtain rfl | ⟨init, v, rfl⟩ := List.eq_nil_or_concat ws
  · cases hlength
  rw [List.concat_eq_append] at hlength hws hnacked
  rw [List.length_append, List.length_singleton] at hlength
  obtain rfl : init.length = b := by omega
  have hinit : ∀ w ∈ init, bitSet w s.cfg.bits.tip = false ∧ bitSet w s.cfg.bits.al = false ∧
      bitSet w s.cfg.bits.rxack = true := fun w hw => hnacked w (List.mem_append_left _ hw)
  obtain ⟨hvtip, hval, hvrxack⟩ := hnacked v (by simp)
  have hsigned : (vs ++ (init ++ [v])).any (signature s.cfg.bits) = vs.any (signature s.cfg.bits) :=
    any_signature_append fun w hw => (hnacked w hw).2.1
  have hlast : retried s.cfg (vs ++ init) v = false := by
    rw [retried, List.append_assoc, hsigned, hvtip, List.length_append, hb]
    simp
  have hlate : triesLate s.cfg.bits (vs ++ init ++ [v]) <+: (s.unit k).inputs.deadline := by
    rw [List.append_assoc, triesLate_append, triesLate_eq_nil htip,
      triesLate_eq_nil fun w hw => (hnacked w hw).1]
    exact List.nil_prefix
  have hret := exec_access_refused hm hdirect hr hl hv hwf (vs := vs ++ init) (v := v) (e := .noAck)
    (by rwa [List.length_append])
    (by rw [triesGoOn_append, hgo, List.nil_append]; exact nacked_goOn init vs hinit hb.le)
    (by simp [startError, hvtip, hval, hvrxack]) hlast
    (by rw [List.append_assoc]; exact triesFit_append_iff.2 ⟨hfit, hws⟩) hlate
  rwa [List.append_assoc, hsigned, hvtip, List.length_append] at hret

end

/-- Settles O51: the counts of the attempts, one position each for the decision and the start of an attempt, and the runs
through attempts that are refused, that end in a good one, or that validation refuses. -/
theorem retryBudgetBounds : Obligations.RetryBudgetBounds := by
  unfold Obligations.RetryBudgetBounds
  refine ⟨fun s ep t k o hd hm hdirect ho => ho ▸ beginAccess_counted hd hm hdirect,
    fun s f k o hd hm hf hb ho => ho ▸ resumeAccessCall_counted hd hm hf hb,
    fun s f k o hd hm ho => ho ▸ resumeAccessCall_spends hd hm,
    fun s f k r hm hh hr hf hq => ?decision, fun s f k r hm hh hr hf hi hq => resumeAccessCall_attempts hm hh hr hq hf hi,
    fun s ep t k r hm hd hr hl hv hwf hq hn => ?low, fun s ep t k r v hm hd hr hl hv hwf hhigh hq hv1 hfit hn => ?high,
    fun s ep t k r vs v e hm hd hr hl hv hwf hq hgo he hlast hfit hlate =>
      exec_access_refused hm hd hr hl hv hwf hq hgo he hlast hfit hlate,
    fun s ep t k r vs hm hd hr hl hv hwf hq hgo hfit hlate hgood hlen => ?good,
    fun s ep t k r hm hd hr hl hv hwf hq => ?refused⟩
  case decision =>
    rw [resumeAccessCall_decides hm hh hr hq hf]
    refine ⟨fun hres hhigh hlow => ?_, fun hno => ?_⟩
    · have hagain : retryAgain s.cfg f.retries f.res r = true := by
        refine retryAgain_iff.2 ?_
        have hbudget : f.retries < retryBudget s.cfg r := by
          by_cases hsigned : r.retryNeeded = true ∧ r.persistentNack = true
          · rw [retryBudget_of_signed hsigned]; exact hhigh hsigned
          · rw [retryBudget_of_unsigned hsigned]; exact hlow hsigned
        rcases hres with hres | hres | ⟨hres, htimeout⟩
        · exact ⟨_, hres, rfl, hbudget⟩
        · exact ⟨_, hres, rfl, hbudget⟩
        · exact ⟨_, hres, htimeout, hbudget⟩
      rw [if_pos hagain]
    · have hstop : ¬ retryAgain s.cfg f.retries f.res r = true := by
        intro hagain
        obtain ⟨e, hres, hretryable, hbudget⟩ := retryAgain_iff.1 hagain
        rw [hres] at hno
        rcases hno with ⟨p, hp⟩ | he | he | ⟨he, htimeout⟩ | ⟨hneeded, hpersistent, hhigh⟩ | ⟨hunsigned, hlow⟩
        · cases hp
        · cases he; cases hretryable
        · cases he; cases hretryable
        · cases he; rw [retryable, htimeout] at hretryable; cases hretryable
        · rw [retryBudget_of_signed ⟨hneeded, hpersistent⟩] at hbudget; omega
        · rw [retryBudget_of_unsigned hunsigned] at hbudget; omega
      rw [if_neg hstop]
  case low =>
    have hret := exec_access_nacked hm hd hr hl hv hwf (vs := []) (b := s.cfg.retryLow) (by simpa using hq) rfl rfl
      (fun _ h => by cases h) (by simp) (by rwa [Nat.add_comm])
    simpa [Nat.add_comm] using hret
  case high =>
    obtain ⟨b, hb⟩ : ∃ b, s.cfg.retryHigh = 1 + b := ⟨s.cfg.retryHigh - 1, by omega⟩
    have ⟨⟨htip, hal⟩, hrxack⟩ : (bitSet v s.cfg.bits.tip = false ∧ bitSet v s.cfg.bits.al = true) ∧
        bitSet v s.cfg.bits.rxack = true := by simpa [signature] using hv1
    have hgo : triesGoOn s.cfg [] [v] = true := by
      simp [triesGoOn, startError, retried, htip, hal, hv1, hb]
    rw [hb] at hq hn ⊢
    have hret := exec_access_nacked hm hd hr hl hv hwf (vs := [v]) (b := b) hq hgo hfit
      (fun w hw => by rw [List.mem_singleton.1 hw]; exact htip) (by simp [hv1, hb]) (by rwa [Nat.add_comm])
    simpa [hv1, Nat.add_comm] using hret
  case good =>
    obtain ⟨n, g, q, d, j, hn, hsteps, hg, hres, hreceives, htrail, hrecord, hchips⟩ :=
      access_tried_good (m := k) (p := s.port k) (self := s.self) hd hv hr hl hgo hfit hlate hgood hlen
    obtain ⟨u, hu, hframe, hback, hrest⟩ := exec_access_returns (accessMaster_eq.2 ⟨hm, masterEnabled_of_valid hv⟩) hr hwf
      hsteps hg (by omega) htrail hrecord hchips
    rw [hres] at hback
    exact ⟨u, d, hu, hreceives, hframe, hback, hrest⟩
  case refused =>
    obtain ⟨e, he⟩ := Option.ne_none_iff_exists'.1 hv
    have hsteps := access_unvalidated (m := k) (p := s.port k) (self := s.self) hd hr hl he
    obtain ⟨u, hu, hrest⟩ := exec_access_returns hm hr hwf hsteps rfl (by unfold Unhurried at hq; omega)
      ((((trail_record _).trans (trail_record _)).trans (trail_record _)).trans (trail_record _))
      (by simp [lockFreed, atAttempt, lockTaken, hr]; rfl) rfl
    exact ⟨u, e, hu, he, validateTxn_refusal he, hl ▸ hrest⟩

end Sys2Proof.Machine
end

section
/-! SUPPORT. Engine shutdown: the masters disabled one after the other, then every record destroyed (rules R133, R304). -/

namespace Sys2Proof.Machine

variable {s : State} {m : MasterIx}

/-- A master after `deinit`: one write more. -/
def disabledUnit (u : MasterUnit) : MasterUnit := { u with history := u.history ++ [.wr .ctrl ctrlOff] }

theorem deinitMaster_unit (s : State) (j m : MasterIx) :
    (deinitMaster s j).unit m = if m = j then disabledUnit (s.unit m) else s.unit m := by
  rw [deinitMaster, State.withPort_unit]
  split
  · next h => subst h; rfl
  · rfl

theorem foldl_deinitMaster_unit : ∀ (l : List MasterIx) (s : State), l.Nodup →
    (l.foldl deinitMaster s).unit m = if m ∈ l then disabledUnit (s.unit m) else s.unit m
  | [], _, _ => by simp
  | j :: l, s, hl => by
    obtain ⟨hj, hl⟩ := List.nodup_cons.1 hl
    rw [List.foldl_cons, foldl_deinitMaster_unit l _ hl, deinitMaster_unit]
    by_cases hm : m = j
    · subst hm; simp [hj]
    · simp [hm]

theorem foldl_deinitMaster_window : ∀ (l : List MasterIx) (s : State), s.window.wf = true → ∀ a,
    (l.foldl deinitMaster s).window.read a =
      if ∃ m ∈ l, a = regAddr s.cfg m .ctrl then 0x00#8 else s.window.read a
  | [], _, _, _ => by simp
  | j :: l, s, hwf, a => by
    have hread : (deinitMaster s j).window.read a = if a = regAddr s.cfg j .ctrl then 0x00#8 else s.window.read a :=
      Memory.read_write _ _ _ hwf
    rw [List.foldl_cons, foldl_deinitMaster_window l (deinitMaster s j) (Memory.wf_write _ _ hwf), hread]
    show (if ∃ m ∈ l, a = regAddr s.cfg m .ctrl then _ else _) = _
    by_cases ha : a = regAddr s.cfg j .ctrl <;> simp [ha]

theorem destroyRecords_unit (s : State) (m : MasterIx) :
    (destroyRecords s).unit m = { s.unit m with record := none } :=
  (setRecords_unit none s m).trans (by rw [recordFor_none])

/-- What neither a `deinit` nor the end of a record touches, engine shutdown keeps. -/
theorem stopEngine_keeps {α : Type} (f : State → α) (hdeinit : ∀ s j, f (deinitMaster s j) = f s)
    (hdestroy : ∀ s, f (destroyRecords s) = f s) (s : State) : f (stopEngine s) = f s := by
  have hfold : ∀ (l : List MasterIx) (s : State), f (l.foldl deinitMaster s) = f s := by
    intro l
    induction l with
    | nil => exact fun _ => rfl
    | cons j l ih => exact fun s => (ih _).trans (hdeinit s j)
  exact (hdestroy _).trans (hfold _ s)

/-- Settles O16: the enabled masters are disabled in order, each once, before the records go. -/
theorem engineShutdownCompletes : Obligations.EngineShutdownCompletes := by
  unfold Obligations.EngineShutdownCompletes
  intro s hrunning halone
  have hmem : ∀ m, m ∈ enabledAscending s.cfg ↔ m ∈ s.cfg.enabled :=
    fun m => mem_enabledAscending.trans masterEnabled_iff
  have hnodup : (enabledAscending s.cfg).Nodup := (enabledAscending_sorted s.cfg).imp ne_of_lt
  have hunit : ∀ m, (stopEngine s).unit m =
      { if m ∈ s.cfg.enabled then disabledUnit (s.unit m) else s.unit m with record := none } := by
    intro m
    rw [stopEngine, destroyRecords_unit, foldl_deinitMaster_unit _ _ hnodup]
    simp only [hmem]
  refine ⟨(stopEngine s).returned .unit,
    (execEngineShutdown_of_running hrunning).trans (if_pos halone), fun m => ?record, fun m hm => ?disabled,
    fun m hm => ?spared, fun m => ?kept, ?agents,
    stopEngine_keeps State.cfg (fun _ _ => rfl) (fun _ => rfl) s, rfl,
    stopEngine_keeps State.self (fun _ _ => rfl) (fun _ => rfl) s,
    stopEngine_keeps State.quantum (fun _ _ => rfl) (fun _ => rfl) s,
    stopEngine_keeps State.schedule (fun _ _ => rfl) (fun _ => rfl) s,
    stopEngine_keeps State.turns (fun _ _ => rfl) (fun _ => rfl) s,
    stopEngine_keeps State.arrivals (fun _ _ => rfl) (fun _ => rfl) s, fun hwf => ?window⟩
  case record => rw [State.returned_unit, hunit]
  case disabled => rw [State.returned_unit, hunit, if_pos hm]; rfl
  case spared => rw [State.returned_unit, hunit, if_neg hm]
  case kept => rw [State.returned_unit, hunit]; split <;> exact ⟨rfl, rfl⟩
  case agents =>
    have hagents : (stopEngine s).agents = s.agents :=
      stopEngine_keeps State.agents (fun _ _ => rfl) (fun _ => rfl) s
    have hself : (stopEngine s).self = s.self := stopEngine_keeps State.self (fun _ _ => rfl) (fun _ => rfl) s
    rw [GaveBack, State.returned_agents, hagents, hself]
  case window =>
    have hread := foldl_deinitMaster_window (enabledAscending s.cfg) s hwf
    simp only [hmem] at hread
    exact ⟨fun m hm => (hread _).trans (if_pos ⟨m, hm, rfl⟩),
      fun a ha => (hread a).trans (if_neg fun ⟨m, hm, hx⟩ => ha m hm hx)⟩

end Sys2Proof.Machine
end

section
/-! SUPPORT. The calls of the master core as the lock holder makes them: `deinit` and STOP, which do not poll, and the
primitives whose poll is met (rules R133, R135 to R147). -/

namespace Sys2Proof.Machine

variable {s : State} {k : MasterIx} {m : Byte} {pr : Prim} {r : MasterState} {e : Err} {polling : Bool}
  {ws : List Access}

/-- Settles O23: `deinit` is one write of the port. -/
theorem deinitDisables : Obligations.DeinitDisables := by
  unfold Obligations.DeinitDisables
  intro s m k hm hk hwf
  have hglide : Glide s.cfg k (s.port k) (disableMaster s.cfg k (s.port k)) 0 [] [.wr .ctrl ctrlOff] 1 :=
    glide_write .ctrl ctrlOff rfl
  exact ⟨(s.withPort k (disableMaster s.cfg k (s.port k))).returned .okay, onMaster_of_mayUse hm hk _,
    Memory.read_write_same hwf _ _, ranOn_of_glide hglide hwf⟩

/-- Settles O30: STOP is one write of the port. -/
theorem stopCompletes : Obligations.StopCompletes := by
  unfold Obligations.StopCompletes
  intro s m k hm hk hwf
  have hinputs : (stopBus s.cfg k (s.port k)).unit.inputs = (s.unit k).inputs := rfl
  exact ⟨(s.withPort k (stopBus s.cfg k (s.port k))).returned .unit, onMaster_of_mayUse hm hk _, by simpa using hinputs,
    ranOn_of_glide glide_stopBus hwf⟩

/-! A primitive whose poll is met. -/

theorem startPrim_of_mayUse (hm : masterIx s.cfg m = some k) (hk : MayUse s k) (pr : Prim) :
    startPrim m pr s = finishCall (primCall k pr false s) := onMaster_of_mayUse hm hk _

/-- A primitive that writes nothing before its poll is the same started and resumed (rules R137, R138). -/
theorem primCall_resumed (h : primWrites s.cfg pr = []) : primCall k pr false s = primCall k pr true s := by
  have hbegin : primBegin s.cfg k pr (s.port k) = s.port k := by rw [primBegin_port, h, List.append_nil]; rfl
  simp only [primCall, runPrim, hbegin, Bool.false_eq_true, if_false, if_true]

theorem primCall_of_runPrim (hh : Holds s k) {v : Byte} {q : Port}
    (h : runPrim s.cfg k pr polling (s.port k) = (.ok v, q)) :
    primCall k pr polling s = .done (retOfPrim pr v) (s.withPort k q) := by
  simp only [primCall, holderFault_none_iff.2 hh, h]

/-- The call made one status read after the writes `ws`, whatever became of the record. -/
def PolledOnce (s t : State) (k : MasterIx) (ws : List Access) : Prop :=
  OnlyMaster s t k ∧ Accessed s t k ws (ws.length + 1) ∧
    (t.unit k).history = (s.unit k).history ++ ws ++ [.rd .cmdstat (statusAfter s k ws)] ∧
    (t.unit k).chips = (s.unit k).chips

/-- The port after the status read of the poll. -/
def polledPort (s : State) (k : MasterIx) (pr : Prim) (polling : Bool) : Port :=
  (readReg k .cmdstat (portAtPoll s k pr polling)).2

theorem glide_polledPort (s : State) (k : MasterIx) (pr : Prim) (polling : Bool) :
    Glide s.cfg k (s.port k) (polledPort s k pr polling) 1 [] (writesBefore s.cfg pr polling)
      ((writesBefore s.cfg pr polling).length + 1) :=
  ((glide_portAtPoll s k pr polling).trans glide_readStatus).cast (Nat.zero_add 1) rfl (List.append_nil _) rfl

theorem polledPort_history (s : State) (k : MasterIx) (pr : Prim) (polling : Bool) :
    (polledPort s k pr polling).unit.history = (s.unit k).history ++ writesBefore s.cfg pr polling ++
      [.rd .cmdstat (statusAfter s k (writesBefore s.cfg pr polling))] := by
  have hunit := portAtPoll_unit s k pr polling
  rw [polledPort, readReg_history, statusAfter_eq hunit, hunit]

/-- A change of the record after the poll is no access. -/
theorem polledOnce_mapRecord (hwf : s.window.wf = true) (f : MasterState → MasterState) (x : Ret) :
    PolledOnce s ((s.withPort k (mapRecord f (polledPort s k pr polling))).returned x) k
      (writesBefore s.cfg pr polling) := by
  have htrail := (glide_polledPort s k pr polling).trail.trans (trail_record f)
  have haccessed := accessed_of_trail (y := x) htrail
  rw [List.append_nil, Nat.add_zero] at haccessed
  exact ⟨onlyMaster_returned htrail.evolves hwf, haccessed, by simp [polledPort_history],
    by simp [(glide_polledPort s k pr polling).chips]⟩

section
variable (hh : Holds s k) (hwf : s.window.wf = true) (hws : ws = writesBefore s.cfg pr polling)
  (hb : bitSet (statusAfter s k ws) (pr.bit s.cfg.bits) = false)
include hh hwf hws hb

/-- The phase failed: its error, and the flags it sets (rules R139 to R141). -/
theorem primCall_fails (hr : (s.unit k).record = some r) (hf : pr.FailsAt s.cfg.bits (statusAfter s k ws) e) :
    ∃ t, finishCall (primCall k pr polling s) = .next t ∧ PolledOnce s t k ws ∧ GaveBack s t (.err e) ∧
      (t.unit k).record = some (failedRecord s.cfg.bits pr (statusAfter s k ws) r) := by
  subst hws
  have hstatus := statusAfter_eq (portAtPoll_unit s k pr polling)
  refine ⟨_, ?_, polledOnce_mapRecord hwf (failedRecord s.cfg.bits pr (statusAfter s k (writesBefore s.cfg pr polling)))
    (.err e), rfl, by simp [(glide_polledPort s k pr polling).record, hr]⟩
  rw [hstatus] at hb hf ⊢
  simp only [primCall, holderFault_none_iff.2 hh, runPrim_eq, primPoll_fails hb hf]
  rfl

/-- The poll was met without an error, of a primitive that receives nothing. -/
theorem primCall_completes (hr : (s.unit k).record = some r)
    (hf : ∀ e, ¬ pr.FailsAt s.cfg.bits (statusAfter s k ws) e) (hx : pr.receives = false) :
    ∃ t, finishCall (primCall k pr polling s) = .next t ∧ PolledOnce s t k ws ∧ GaveBack s t (retOfPrim pr 0#8) ∧
      (t.unit k).record = some r := by
  subst hws
  have hstatus := statusAfter_eq (portAtPoll_unit s k pr polling)
  have hpolled := polledOnce_mapRecord (k := k) (pr := pr) (polling := polling) hwf id (retOfPrim pr 0#8)
  rw [mapRecord_id (f := id) fun _ => rfl] at hpolled
  refine ⟨_, ?_, hpolled, rfl, by simp [(glide_polledPort s k pr polling).record, hr]⟩
  rw [hstatus] at hb hf
  simp only [primCall, holderFault_none_iff.2 hh, runPrim_eq, primPoll_met hb hf, hx, Bool.false_eq_true, if_false]
  rfl

/-- A read phase that is good: the byte then read from `DATA` (rules R145, R146). -/
theorem primCall_hears (hf : ∀ e, ¬ pr.FailsAt s.cfg.bits (statusAfter s k ws) e) (hx : pr.receives = true) :
    ∃ t, finishCall (primCall k pr polling s) = .next t ∧
      RanOn s t k (retOfPrim pr (dataAfter s k ws)) ws (ws.length + 2) ∧
      (t.unit k).history = (s.unit k).history ++ ws ++
        [.rd .cmdstat (statusAfter s k ws), .rd .data (dataAfter s k ws)] := by
  subst hws
  have hunit := portAtPoll_unit s k pr polling
  have hdata : dataAfter s k (writesBefore s.cfg pr polling) = (readReg k .data (polledPort s k pr polling)).1 := by
    simp only [dataAfter, statusAfter, polledPort, readReg, hunit]
  have hglide := (glide_polledPort s k pr polling).trans glide_readData
  have hran := ranOn_of_glide (r := retOfPrim pr (dataAfter s k (writesBefore s.cfg pr polling))) hglide hwf
  rw [List.append_nil] at hran
  refine ⟨_, ?_, hran, by simp [polledPort_history, hdata]⟩
  rw [statusAfter_eq hunit] at hb hf
  simp only [primCall, holderFault_none_iff.2 hh, runPrim_eq, primPoll_met hb hf, hx, if_true, hdata]
  rfl

end

/-! The table of rule R141. -/

section
variable {b : Config.Bits} {v : Byte}

theorem failsAt_lost (hp : pr ≠ .waitIdle) (hal : bitSet v b.al = true) : pr.FailsAt b v .arbitrationLost :=
  ⟨hp, .inl ⟨hal, rfl⟩⟩

theorem failsAt_noAck (hp : pr ≠ .waitIdle) (hs : pr.sends = true) (hal : bitSet v b.al = false)
    (hx : bitSet v b.rxack = true) : pr.FailsAt b v .noAck := ⟨hp, .inr ⟨hal, hx, hs, rfl⟩⟩

theorem not_failsAt (hal : bitSet v b.al = false) (hx : pr.sends = true → bitSet v b.rxack = false) :
    ∀ e, ¬ pr.FailsAt b v e := by
  rintro e ⟨-, ⟨h, -⟩ | ⟨-, h, hs, -⟩⟩
  · rw [hal] at h; cases h
  · rw [hx hs] at h; cases h

end

/-- A phase that sends a byte ends by the table. -/
theorem primCall_writePhaseDone (hh : Holds s k) (hwf : s.window.wf = true) (hr : (s.unit k).record = some r)
    (hws : ws = writesBefore s.cfg pr polling) (hb : bitSet (statusAfter s k ws) s.cfg.bits.tip = false)
    (hs : pr.sends = true) :
    ∃ t, finishCall (primCall k pr polling s) = .next t ∧ WritePhaseDone s t k r ws := by
  obtain ⟨hp, hbit, hx, hret⟩ : pr ≠ .waitIdle ∧ pr.bit s.cfg.bits = s.cfg.bits.tip ∧ pr.receives = false ∧
      retOfPrim pr 0#8 = .okay := by cases pr <;> simp_all [Prim.sends, Prim.bit, Prim.receives, retOfPrim]
  rw [← hbit] at hb
  cases hal : bitSet (statusAfter s k ws) s.cfg.bits.al
  case true =>
    obtain ⟨t, ht, ⟨hframe, hacc, hhist, hchips⟩, hback, hrec⟩ := primCall_fails hh hwf hws hb hr (failsAt_lost hp hal)
    refine ⟨t, ht, hframe, hacc, hhist, hchips, ?_⟩
    cases hrx : bitSet (statusAfter s k ws) s.cfg.bits.rxack <;> simp_all [failedRecord]
  case false =>
    cases hrx : bitSet (statusAfter s k ws) s.cfg.bits.rxack
    case true =>
      obtain ⟨t, ht, ⟨hframe, hacc, hhist, hchips⟩, hback, hrec⟩ :=
        primCall_fails hh hwf hws hb hr (failsAt_noAck hp hs hal hrx)
      refine ⟨t, ht, hframe, hacc, hhist, hchips, ?_⟩
      simp_all [failedRecord]
    case false =>
      obtain ⟨t, ht, ⟨hframe, hacc, hhist, hchips⟩, hback, hrec⟩ :=
        primCall_completes hh hwf hws hb hr (not_failsAt hal fun _ => hrx) hx
      refine ⟨t, ht, hframe, hacc, hhist, hchips, ?_⟩
      simp_all

/-- A phase that receives a byte ends with that byte, or with `ArbitrationLost`. -/
theorem primCall_readPhaseDone (hh : Holds s k) (hwf : s.window.wf = true) (hr : (s.unit k).record = some r)
    (hws : ws = writesBefore s.cfg pr polling) (hb : bitSet (statusAfter s k ws) s.cfg.bits.tip = false)
    (hx : pr.receives = true) :
    ∃ t, finishCall (primCall k pr polling s) = .next t ∧ ReadPhaseDone s t k r ws := by
  obtain ⟨hp, hbit, hs, hret⟩ : pr ≠ .waitIdle ∧ pr.bit s.cfg.bits = s.cfg.bits.tip ∧ pr.sends = false ∧
      ∀ v, retOfPrim pr v = .byte v := by cases pr <;> simp_all [Prim.sends, Prim.bit, Prim.receives, retOfPrim]
  rw [← hbit] at hb
  cases hal : bitSet (statusAfter s k ws) s.cfg.bits.al
  case true =>
    obtain ⟨t, ht, ⟨hframe, hacc, hhist, hchips⟩, hback, hrec⟩ := primCall_fails hh hwf hws hb hr (failsAt_lost hp hal)
    exact ⟨t, ht, fun h => (by rw [hal] at h; cases h),
      fun _ => ⟨hframe, hacc, hhist, hchips, hback, by simpa [failedRecord, hs] using hrec⟩⟩
  case false =>
    obtain ⟨t, ht, hran, hhist⟩ := primCall_hears hh hwf hws hb (not_failsAt hal fun h => by rw [hs] at h; cases h) hx
    rw [hret] at hran
    exact ⟨t, ht, fun _ => ⟨hran, hhist⟩, fun h => by rw [hal] at h; cases h⟩

/-- Settles O24: `wait_idle` looks at BUSY only, and started it does what it does resumed. -/
theorem waitIdlePollsBusy : Obligations.WaitIdlePollsBusy := by
  unfold Obligations.WaitIdlePollsBusy
  intro s m k timeout hm hk hwf
  have hexec : exec (.waitIdle m timeout) s = finishCall (primCall k .waitIdle true s) :=
    (startPrim_of_mayUse hm hk .waitIdle).trans (congrArg finishCall (primCall_resumed rfl))
  obtain ⟨r, hr, _⟩ := hk.2
  rw [hexec]
  cases hb : bitSet (statusAfter s k []) s.cfg.bits.busy
  case true =>
    obtain ⟨t, ht, hunmet⟩ := finishCall_primCall_of_unmet (pr := .waitIdle) hk.2 hwf true hb
    exact ⟨t, ht, ht, nofun, fun _ => hunmet⟩
  case false =>
    obtain ⟨t, ht, ⟨hframe, hacc, hhist, hchips⟩, hback, hrec⟩ := primCall_completes (pr := .waitIdle) (polling := true) hk.2 hwf
      rfl hb hr (fun e hf => hf.1 rfl) rfl
    exact ⟨t, ht, ht, fun _ => ⟨⟨hframe, hback, hacc, hrec.trans hr.symm, hchips⟩, by simpa [writesBefore] using hhist⟩, nofun⟩

/-- Settles O25: the write phase and the read phase of `wait_phase_done`. -/
theorem phaseOutcomeTable : Obligations.PhaseOutcomeTable := by
  unfold Obligations.PhaseOutcomeTable
  rintro s m k timeout w v r hm hk hwf hr rfl hb
  have hexec : exec (.waitPhaseDone m timeout w) s = finishCall (primCall k (.waitPhase w) true s) :=
    (startPrim_of_mayUse hm hk (.waitPhase w)).trans (congrArg finishCall (primCall_resumed rfl))
  rw [hexec]
  cases w
  case true =>
    obtain ⟨t, ht, hframe, ⟨-, hwindow⟩, hhist, hchips, hokay, hnack, hlost, hsigned⟩ :=
      primCall_writePhaseDone (pr := .waitPhase true) (polling := true) hk.2 hwf hr rfl hb rfl
    exact ⟨t, ht, ht, hframe, hwindow, hchips, by simpa [writesBefore] using hhist, fun _ => hokay, fun _ => hnack, fun _ => hlost,
      fun _ => hsigned, nofun, nofun⟩
  case false =>
    cases hal : bitSet (statusAfter s k []) s.cfg.bits.al
    case true =>
      obtain ⟨t, ht, ⟨hframe, ⟨-, hwindow⟩, hhist, hchips⟩, hback, hrec⟩ := primCall_fails (pr := .waitPhase false)
        (polling := true) hk.2 hwf rfl hb hr (failsAt_lost nofun hal)
      exact ⟨t, ht, ht, hframe, hwindow, hchips, by simpa [writesBefore] using hhist, nofun, nofun, nofun, nofun, fun _ => nofun,
        fun _ _ => ⟨hback, by simpa [failedRecord, Prim.sends] using hrec⟩⟩
    case false =>
      obtain ⟨t, ht, ⟨hframe, ⟨-, hwindow⟩, hhist, hchips⟩, hback, hrec⟩ := primCall_completes (pr := .waitPhase false)
        (polling := true) hk.2 hwf rfl hb hr (not_failsAt hal nofun) rfl
      exact ⟨t, ht, ht, hframe, hwindow, hchips, by simpa [writesBefore] using hhist, nofun, nofun, nofun, nofun,
        fun _ _ => ⟨hback, hrec⟩, fun _ => nofun⟩

/-- Settles O27: the phase's one answer is good, so the primitive's run is known. -/
theorem startAndWriteComplete : Obligations.StartAndWriteComplete := by
  unfold Obligations.StartAndWriteComplete
  intro s m k b hm hk hwf hsmooth
  constructor
  · obtain ⟨q, hq, hglide⟩ := runPrim_start_smooth (m := k) (p := s.port k) b hsmooth
    exact ⟨_, (startPrim_of_mayUse hm hk (.start b)).trans (congrArg finishCall (primCall_of_runPrim hk.2 hq)),
      ranOn_of_glide hglide hwf⟩
  · obtain ⟨q, hq, hglide⟩ := runPrim_wrb_smooth (m := k) (p := s.port k) b hsmooth
    exact ⟨_, (startPrim_of_mayUse hm hk (.wrb b)).trans (congrArg finishCall (primCall_of_runPrim hk.2 hq)),
      ranOn_of_glide hglide hwf⟩

/-- Settles O28: both are phases that send a byte. -/
theorem writePhaseFailures : Obligations.WritePhaseFailures := by
  unfold Obligations.WritePhaseFailures
  intro s m k r i ws pr hphase hm hk hr hwf
  obtain ⟨hexec, rfl, -⟩ := exec_of_phase (s := s) (.inl hphase)
  have hs : pr.sends = true := by rcases hphase with ⟨_, -, -, rfl⟩ | ⟨_, -, -, rfl⟩ <;> rfl
  rw [hexec, startPrim_of_mayUse hm hk]
  exact ⟨fun hb => primCall_writePhaseDone (polling := false) hk.2 hwf hr rfl hb hs,
    fun hb => primCall_writePhaseDone (polling := true) hk.2 hwf hr rfl hb hs⟩

/-- Settles O29: both are phases that receive a byte. -/
theorem readByteCompletes : Obligations.ReadByteCompletes := by
  unfold Obligations.ReadByteCompletes
  intro s m k r i ws pr hphase hm hk hr hwf
  obtain ⟨hexec, rfl, -⟩ := exec_of_phase (s := s) (.inr (.inl hphase))
  have hx : pr.receives = true := by rcases hphase with ⟨-, -, rfl⟩ | ⟨-, -, rfl⟩ <;> rfl
  rw [hexec, startPrim_of_mayUse hm hk]
  exact ⟨fun hb => primCall_readPhaseDone (polling := false) hk.2 hwf hr rfl hb hx,
    fun hb => primCall_readPhaseDone (polling := true) hk.2 hwf hr rfl hb hx⟩

end Sys2Proof.Machine
end

section
/-! SUPPORT. A transaction as an instruction, on a good bus and up to the primitive that fails (rules R172 to R175). -/

namespace Sys2Proof.Machine

variable {s : State} {k : MasterIx} {c : Config.Params}

/-- The wire sequence of a transaction is what its primitives write. -/
theorem wireWrites_eq_primWrites (t : Txn) (n : Nat) : wireWrites c t n = (txnPrims t n).flatMap (primWrites c) := by
  have hsent : ∀ d : List Byte, sendAllWrites c d = (d.map .wrb).flatMap (primWrites c) := fun d => by
    rw [List.flatMap_map]; rfl
  have hoptional : ∀ (b : Prop) [Decidable b] (l : List Prim),
      (if b then l else []).flatMap (primWrites c) = if b then l.flatMap (primWrites c) else [] := by
    intro b _ l; split <;> rfl
  have hreceived : receiveWrites c n = (readPrims n).flatMap (primWrites c) := by
    rw [receiveWrites, readPrims, List.flatMap_append, List.flatMap_replicate]
    split <;> simp [primWrites]
  rw [wireWrites, txnPrims_eq]
  cases t.dir <;> simp [hoptional, hsent, hreceived, primWrites]

/-- No primitive writes STOP. -/
theorem stopCount_primWrites (hd : StopDistinct c.bits) (pr : Prim) : stopCount c (primWrites c pr) = 0 := by
  obtain ⟨hstart, hwrite, hack, hnack⟩ := hd
  cases pr <;> simp [stopCount, isStop, primWrites, startWrites, sendWrites, hstart.symm, hwrite.symm, hack.symm, hnack.symm]

theorem stopCount_wireWrites (hd : StopDistinct c.bits) (t : Txn) (n : Nat) : stopCount c (wireWrites c t n) = 0 := by
  rw [wireWrites_eq_primWrites, stopCount, List.countP_flatMap]
  exact List.sum_eq_zero_iff.2 fun a ha => by
    obtain ⟨pr, _, rfl⟩ := List.mem_map.1 ha
    exact stopCount_primWrites hd pr

/-- A transaction whose positions are known up to its STOP, as an instruction. -/
theorem exec_stops {i : Instr} {m : Byte} {t : Txn} {n : Nat} {x : Res} {q : Port} (hi : instrTxn i = some (m, t))
    (hm : masterIx s.cfg m = some k) (hv : Valid s k t) (hh : Holds s k)
    (hs : Stops s.cfg k n (execStart t) (s.port k) x q) (hn : n + 1 ≤ s.quantum) :
    exec i s = .next ((s.withPort k (stopBus s.cfg k q)).returned (retOfRes x)) := by
  rw [exec_of_instrTxn hi]
  simp only [startExecute, hm, beginExecute_stops hv hh hs hn, finishCall]

/-- A transaction that meets good answers only. -/
theorem exec_execute_smooth {m : Byte} {t : Txn} (hm : masterIx s.cfg m = some k) (hv : Valid s k t) (hh : Holds s k)
    (hwf : s.window.wf = true) (hq : Unhurried s) (hs : Smooth s.cfg (s.unit k).inputs (txnPolls (maxPhases s.cfg)))
    (hl : LengthByteOk s.cfg (s.unit k).inputs t) :
    ∃ u d, exec (.execute m t) s = .next u ∧ Receives s.cfg (s.unit k).inputs t d ∧
      RanOn s u k (.payload (payloadOf t d)) (txnWrites s.cfg (wireWrites s.cfg t d.length))
        (6 + 3 * phaseCount t d.length) ∧ Heard s u k (heardBytes t d) := by
  obtain ⟨q, d, n, j, hn, hstops, hreceives, hglide⟩ := execute_smooth (p := s.port k) t hv hs hl
  have hall := (hglide.trans glide_stopBus).cast rfl (List.append_nil _) rfl
    (show _ = 6 + 3 * phaseCount t d.length by omega)
  have hexec := exec_stops (i := .execute m t) rfl hm hv hh hstops (by rw [Unhurried] at hq; omega)
  exact ⟨_, d, hexec, hreceives, ranOn_of_glide hall hwf, heard_of_glide hall⟩

/-- A transaction whose primitive `j` is its first to fail. -/
theorem exec_txn_fails {i : Instr} {m : Byte} {t : Txn} {n j : Nat} {pr : Prim} {v : Byte} {e : Err} {r x : MasterState}
    (hi : instrTxn i = some (m, t)) (hm : masterIx s.cfg m = some k) (hv : Valid s k t) (hh : Holds s k)
    (hr : (s.unit k).record = some r) (hwf : s.window.wf = true) (hq : Unhurried s)
    (hn : ReceivesCount s.cfg (s.unit k).inputs t j n) (hj : (txnPrims t n)[j]? = some pr)
    (hs : Smooth s.cfg (s.unit k).inputs ((txnPolls j).take j)) (hst : (s.unit k).inputs.status[j]? = some v)
    (hf : pr.Fails s.cfg.bits v (s.unit k).inputs.deadline.head? r e x) :
    ∃ u, exec i s = .next u ∧ OnlyMaster s u k ∧ GaveBack s u (.err e) ∧
      Accessed s u k (txnWrites s.cfg (((txnPrims t n).take (j + 1)).flatMap (primWrites s.cfg)))
        (3 + 3 * j + if pr.receives then 2 else 3) ∧
      (∃ new, (u.unit k).history =
        (s.unit k).history ++ new ++ [.rd .cmdstat v, .wr .cmdstat (cmdStop s.cfg.bits)]) ∧
      (u.unit k).record = some x ∧ (u.unit k).chips = (s.unit k).chips := by
  obtain ⟨a, q, ha, hstops, hfailed⟩ := execute_fails (p := s.port k) hv hn hj hs hst hr hf
  obtain ⟨new, hlast⟩ := hfailed.last
  have hall := (hfailed.trail.trans glide_stopBus.trail).cast rfl rfl
    (show _ = 3 + 3 * j + if pr.receives then 2 else 3 by omega)
  refine ⟨_, exec_stops hi hm hv hh hstops (by rw [Unhurried] at hq; omega), onlyMaster_returned hall.evolves hwf, rfl,
    accessed_of_trail hall, ⟨new, ?history⟩, ?record, ?chips⟩
  case history =>
    have hstop : (stopBus s.cfg k q).unit.history = q.unit.history ++ [.wr .cmdstat (cmdStop s.cfg.bits)] := rfl
    simp [hstop, hlast]
  case record => exact (congrArg MasterUnit.record (State.withPort_unit_same s _ _)).trans hfailed.record
  case chips => exact (congrArg MasterUnit.chips (State.withPort_unit_same s _ _)).trans hfailed.chips

/-- Settles O40: the way of a transaction to its STOP is known on good answers and where a primitive fails. -/
theorem executeCompletes : Obligations.ExecuteCompletes := by
  unfold Obligations.ExecuteCompletes
  refine ⟨fun s m k t hm hv hh hwf hq hs hl => ?_,
    fun s i m k t n j pr v e r x hi hm hv hh hr hwf hq hn hj hs hst hf =>
      exec_txn_fails hi hm hv hh hr hwf hq hn hj hs hst hf⟩
  obtain ⟨u, d, hexec, hreceives, hran, hheard⟩ := exec_execute_smooth hm hv hh hwf hq hs hl
  exact ⟨u, d, hexec, hreceives, hran, hheard, fun hd => stopCount_wireWrites hd t d.length⟩

end Sys2Proof.Machine
end

section
/-! SUPPORT. The verbs on a bus where every phase is acknowledged: QUICK, BYTE, BYTE_DATA, BLOCK_DATA and I2C_BLOCK (rules
R176, R180 to R184, R187 to R190, R193). -/

namespace Sys2Proof.Machine

variable {s : State} {k : MasterIx} {c : Config.Params} {i : Instr} {m : Byte} {t : Txn}

theorem kind_quick : ∀ {sc : BitVec 4}, sizeClassKind sc = .quick ↔ sc = 0#4 := by decide

theorem kind_byte : ∀ {sc : BitVec 4}, sizeClassKind sc = .byte ↔ sc = 1#4 := by decide

/-- The first address byte by direction and size class (rule R176). -/
theorem firstAddr_eq (t : Txn) :
    firstAddr t = if t.dir = .read ∧ (t.sizeClass = 0#4 ∨ t.sizeClass = 1#4) then addrR t.addr else addrW t.addr := by
  simp only [← kind_quick, ← kind_byte, firstAddr]
  cases t.dir <;> cases sizeClassKind t.sizeClass <;> rfl

/-- Settles O7: the two directions are the branches of the first address byte. -/
theorem firstAddressDirection : Obligations.FirstAddressDirection := by
  unfold Obligations.FirstAddressDirection
  intro t
  rw [firstAddr_eq]
  exact ⟨fun hd hc => if_pos ⟨hd, hc⟩, fun h => if_neg h⟩

/-- A class with a command byte is addressed for writing first (rules R176, R177). -/
theorem firstAddr_of_hasCommand (hc : hasCommand t.sizeClass = true) : firstAddr t = addrW t.addr := by
  rw [firstAddr_eq, if_neg]
  rintro ⟨-, h | h⟩ <;> simp [h, hasCommand, sizeClassKind] at hc

/-- The wire sequence of a read with a command byte and no length byte. -/
theorem wireWrites_commandRead (hd : t.dir = .read) (hc : hasCommand t.sizeClass = true) (hb : t.sizeClass ≠ 5#4)
    (n : Nat) : wireWrites c t n =
      startWrites c (addrW t.addr) ++ sendWrites c t.command ++ startWrites c (addrR t.addr) ++ receiveWrites c n := by
  simp [wireWrites, hd, hc, hb, firstAddr_of_hasCommand hc]

/-- The wire sequence of a block read that receives `n` bytes (rule R188). -/
theorem wireWrites_blockRead (hd : t.dir = .read) (hb : t.sizeClass = 5#4) (n : Nat) :
    wireWrites c t n = startWrites c (addrW t.addr) ++ sendWrites c t.command ++ startWrites c (addrR t.addr) ++
      [.wr .cmdstat (cmdReadAck c.bits)] ++ receiveWrites c n := by
  have hc : hasCommand t.sizeClass = true := hb ▸ hasCommand_block
  simp [wireWrites, hd, hb, hasCommand_block, firstAddr_of_hasCommand hc]

theorem phaseCount_commandRead (hd : t.dir = .read) (hc : hasCommand t.sizeClass = true) (hb : t.sizeClass ≠ 5#4)
    (n : Nat) : phaseCount t n = 3 + n := by
  simp only [phaseCount, hd, hc, hb, if_true, if_false]
  omega

theorem phaseCount_blockRead (hd : t.dir = .read) (hb : t.sizeClass = 5#4) (n : Nat) : phaseCount t n = 4 + n := by
  simp only [phaseCount, hd, hb, hasCommand_block, if_true]
  omega

/-- A read with a command byte and no length byte that receives the bytes `xs`. -/
theorem RunsTxn.commandReads (h : RunsTxn s k i m t) (hd : t.dir = .read) (hc : hasCommand t.sizeClass = true)
    (hb : t.sizeClass ≠ 5#4) {xs : List Byte} (hs : Smooth s.cfg (s.unit k).inputs (txnPolls (3 + xs.length)))
    (hx : DataNext (s.unit k).inputs xs) (hl : xs.length = nRead t) :
    ∃ u, exec i s = .next u ∧ RanOn s u k (.payload (packRead t.sizeClass xs))
      (txnWrites s.cfg (startWrites s.cfg (addrW t.addr) ++ sendWrites s.cfg t.command ++
        startWrites s.cfg (addrR t.addr) ++ receiveWrites s.cfg xs.length)) (15 + 3 * xs.length) := by
  have hcount := phaseCount_commandRead hd hc hb xs.length
  obtain ⟨u, hu, hran⟩ := h.reads hd hb (by rw [← hl, hcount]; exact hs) hx hl
  rw [← hl, wireWrites_commandRead hd hc hb, hcount] at hran
  exact ⟨u, hu, (by omega : 6 + 3 * (3 + xs.length) = 15 + 3 * xs.length) ▸ hran⟩

/-- A block read that hears the length byte `v`: where it is in range `v` bytes follow, else its STOP (rule R188). -/
theorem RunsTxn.blockRead_stops (h : RunsTxn s k i m t) (hd : t.dir = .read) (hb : t.sizeClass = 5#4) {v : Byte} {n : Nat}
    (hs : Smooth s.cfg (s.unit k).inputs (txnPolls (4 + n))) (hx : DataNext (s.unit k).inputs [v])
    (hn : blockLenOk s.cfg v.toNat = true → v.toNat ≤ n) :
    ∃ q, (blockLenOk s.cfg v.toNat = true → ∃ xs, xs.length = v.toNat ∧
        Stops s.cfg k (7 + v.toNat) (execStart t) (s.port k) (.ok (.block xs)) q ∧
        Glide s.cfg k (s.port k) q (1 + phaseCount t xs.length) (v :: xs)
          (reinitWrites s.cfg ++ wireWrites s.cfg t xs.length) (5 + 3 * phaseCount t xs.length)) ∧
      (blockLenOk s.cfg v.toNat = false → Stops s.cfg k 7 (execStart t) (s.port k) (.err .invalidArgument) q ∧
        Glide s.cfg k (s.port k) q 5 [v] (reinitWrites s.cfg ++ (startWrites s.cfg (firstAddr t) ++
          sendWrites s.cfg t.command ++ startWrites s.cfg (addrR t.addr) ++
          [.wr .cmdstat (cmdReadAck s.cfg.bits)])) 17) := by
  obtain ⟨rest, hrest⟩ := hx
  have hfirst : ∀ w more, (s.unit k).inputs.data = w :: more → w = v := fun w more hw =>
    (List.cons.inj (hw.symm.trans hrest.symm)).1
  obtain ⟨q, w, ⟨more, hw⟩, hways⟩ := blockRead_smooth (p := s.port k) t h.valid hd hb hs
    (fun w more hw hok => by obtain rfl := hfirst w more hw; exact hn hok)
    (fun hnil => List.cons_ne_nil _ _ (hrest.trans hnil))
  obtain rfl := hfirst w more hw
  exact ⟨q, hways⟩

/-- A block read whose length byte counts the bytes `xs` that follow it (rule R188). -/
theorem RunsTxn.blockReads (h : RunsTxn s k i m t) (hd : t.dir = .read) (hb : t.sizeClass = 5#4) {xs : List Byte}
    (hs : Smooth s.cfg (s.unit k).inputs (txnPolls (4 + xs.length)))
    (hx : DataNext (s.unit k).inputs (BitVec.ofNat 8 xs.length :: xs)) (h1 : 1 ≤ xs.length)
    (h2 : xs.length ≤ s.cfg.blockMax.val) :
    ∃ u, exec i s = .next u ∧ RanOn s u k (.payload (.block xs))
      (txnWrites s.cfg (startWrites s.cfg (addrW t.addr) ++ sendWrites s.cfg t.command ++
        startWrites s.cfg (addrR t.addr) ++ [.wr .cmdstat (cmdReadAck s.cfg.bits)] ++
        receiveWrites s.cfg xs.length)) (18 + 3 * xs.length) := by
  have hlength : (BitVec.ofNat 8 xs.length).toNat = xs.length := by
    have := s.cfg.blockMax.isLt
    rw [BitVec.toNat_ofNat, Nat.mod_eq_of_lt (by omega)]
  have hlengthByte : DataNext (s.unit k).inputs [BitVec.ofNat 8 xs.length] :=
    (List.prefix_append [BitVec.ofNat 8 xs.length] xs).trans hx
  obtain ⟨q, hgood, -⟩ := h.blockRead_stops hd hb hs hlengthByte fun _ => hlength.le
  rw [hlength] at hgood
  obtain ⟨ys, hy, hstops, g⟩ := hgood (blockLenOk_iff.2 ⟨h1, h2⟩)
  obtain rfl : ys = xs := (List.cons.inj (g.listed _ hx (by simp [hy]))).2
  have hquantum : 68 + maxData s.cfg ≤ s.quantum := h.unhurried
  have hmax := blockMax_le_maxData s.cfg
  obtain ⟨u, hu, hran⟩ := h.completes hstops (by omega) g
  rw [wireWrites_blockRead hd hb, phaseCount_blockRead hd hb] at hran
  exact ⟨u, hu, (by omega : 5 + 3 * (4 + ys.length) + 1 = 18 + 3 * ys.length) ▸ hran⟩

/-- A block read whose length byte is out of range (rule R188). -/
theorem RunsTxn.blockReadRefused (h : RunsTxn s k i m t) (hd : t.dir = .read) (hb : t.sizeClass = 5#4) {v : Byte}
    (hs : Smooth s.cfg (s.unit k).inputs (txnPolls 4)) (hx : DataNext (s.unit k).inputs [v])
    (hv : blockLenOk s.cfg v.toNat = false) :
    ∃ u, exec i s = .next u ∧ RanOn s u k (.err .invalidArgument)
      (txnWrites s.cfg (startWrites s.cfg (addrW t.addr) ++ sendWrites s.cfg t.command ++
        startWrites s.cfg (addrR t.addr) ++ [.wr .cmdstat (cmdReadAck s.cfg.bits)])) 18 := by
  obtain ⟨q, -, hbad⟩ := h.blockRead_stops (n := 0) hd hb hs hx fun hok => by rw [hv] at hok; cases hok
  obtain ⟨hstops, g⟩ := hbad hv
  have hquantum : 68 + maxData s.cfg ≤ s.quantum := h.unhurried
  rw [firstAddr_of_hasCommand (hb ▸ hasCommand_block)] at g
  exact h.completes hstops (by omega) g

/-- Settles O34: a write of one phase, and a read of one phase that receives nothing. -/
theorem quickCompletes : Obligations.QuickCompletes := by
  unfold Obligations.QuickCompletes
  intro s m a k hm hready
  refine ⟨?write, ?read⟩
  case write =>
    have hruns : RunsTxn s k (.quickW m a) m ⟨.write, a, 0#8, 0#4, .quick⟩ := hready.runsTxn rfl hm rfl rfl
    exact hruns.writes rfl (hready.smooth (j := 1) le_rfl)
  case read =>
    have hruns : RunsTxn s k (.quickR m a) m ⟨.read, a, 0#8, 0#4, .quick⟩ := hready.runsTxn rfl hm rfl rfl
    exact hruns.reads (xs := []) rfl (show 0#4 ≠ 5#4 by decide) (hready.smooth (j := 1) le_rfl) List.nil_prefix rfl

/-- Settles O35: a write and a read of two phases. -/
theorem byteCompletes : Obligations.ByteCompletes := by
  unfold Obligations.ByteCompletes
  intro s m a v k hm hready
  refine ⟨?write, fun hdata => ?read⟩
  case write =>
    have hruns : RunsTxn s k (.byteW m a v) m ⟨.write, a, 0#8, 1#4, .byte v⟩ := hready.runsTxn rfl hm rfl rfl
    exact hruns.writes rfl (hready.smooth (j := 2) le_rfl)
  case read =>
    have hruns : RunsTxn s k (.byteR m a) m ⟨.read, a, 0#8, 1#4, .quick⟩ := hready.runsTxn rfl hm rfl rfl
    exact hruns.reads rfl (show 1#4 ≠ 5#4 by decide) (hready.smooth (j := 2) le_rfl) hdata rfl

/-- Settles O36: a write of three phases and a read of four, the repeated START among them. -/
theorem byteDataCompletes : Obligations.ByteDataCompletes := by
  unfold Obligations.ByteDataCompletes
  intro s m a c v k hm hready
  refine ⟨?write, fun hdata => ?read⟩
  case write =>
    have hruns : RunsTxn s k (.byteDataW m a c v) m ⟨.write, a, c, 2#4, .byte v⟩ := hready.runsTxn rfl hm rfl rfl
    exact hruns.writes rfl (hready.smooth (j := 3) (by decide))
  case read =>
    have hruns : RunsTxn s k (.byteDataR m a c) m ⟨.read, a, c, 2#4, .quick⟩ := hready.runsTxn rfl hm rfl rfl
    exact hruns.commandReads (xs := [v]) rfl rfl (show 2#4 ≠ 5#4 by decide) (hready.smooth le_rfl) hdata rfl

/-- Settles O38: a write of `3 + n` phases for `n` bytes; a read by whether the length byte is in range. -/
theorem blockCompletes : Obligations.BlockCompletes := by
  unfold Obligations.BlockCompletes
  intro s m a c d k hm hready
  have hruns : RunsTxn s k (.blockR m a c) m ⟨.read, a, c, 5#4, .quick⟩ := hready.runsTxn rfl hm rfl rfl
  refine ⟨fun h1 h2 => ⟨?write, fun hdata => ?read⟩, fun v hv hdata => ?refused⟩
  case write =>
    have hfits : payloadFits s.cfg 5#4 .write (.block d) = true := blockLenOk_iff.2 ⟨h1, h2⟩
    have hwrites : RunsTxn s k (.blockW m a c d) m ⟨.write, a, c, 5#4, .block d⟩ := hready.runsTxn rfl hm rfl hfits
    have hcount : phaseCount ⟨.write, a, c, 5#4, .block d⟩ 0 = 3 + d.length := rfl
    have hwire : wireWrites s.cfg ⟨.write, a, c, 5#4, .block d⟩ 0 =
        startWrites s.cfg (addrW a) ++ sendWrites s.cfg c ++ sendWrites s.cfg (BitVec.ofNat 8 d.length) ++
          sendAllWrites s.cfg d := List.append_assoc .. |>.symm
    obtain ⟨u, hu, hran⟩ := hwrites.writes rfl (hready.smooth (by omega))
    rw [hwire, hcount] at hran
    exact ⟨u, hu, (by omega : 6 + 3 * (3 + d.length) = 15 + 3 * d.length) ▸ hran⟩
  case read => exact hruns.blockReads rfl rfl (hready.smooth le_rfl) hdata h1 h2
  case refused =>
    refine hruns.blockReadRefused rfl rfl (hready.smooth (by omega)) hdata ?_
    rw [← Bool.not_eq_true, blockLenOk_iff]
    omega

/-- Settles O39: a write of `2 + n` phases for `n` bytes, and a read of `3 + n`. -/
theorem i2cBlockCompletes : Obligations.I2cBlockCompletes := by
  unfold Obligations.I2cBlockCompletes
  intro s m a c n d k hm hready h1 h2
  refine ⟨?write, fun hn hdata => ?read⟩
  case write =>
    have hfits : payloadFits s.cfg 8#4 .write (.block d) = true := blockLenOk_iff.2 ⟨h1, h2⟩
    have hruns : RunsTxn s k (.i2cBlockW m a c d) m ⟨.write, a, c, 8#4, .block d⟩ := hready.runsTxn rfl hm rfl hfits
    have hcount : phaseCount ⟨.write, a, c, 8#4, .block d⟩ 0 = 2 + d.length := rfl
    obtain ⟨u, hu, hran⟩ := hruns.writes rfl (hready.smooth (by omega))
    rw [hcount] at hran
    exact ⟨u, hu, (by omega : 6 + 3 * (2 + d.length) = 12 + 3 * d.length) ▸ hran⟩
  case read =>
    have hlength : d.length = (List.replicate n.toNat 0#8).length := hn.symm.trans List.length_replicate.symm
    have hfits : payloadFits s.cfg 8#4 .read (.block (List.replicate n.toNat 0#8)) = true :=
      blockLenOk_iff.2 (hlength ▸ ⟨h1, h2⟩)
    have hruns : RunsTxn s k (.i2cBlockR m a c n) m ⟨.read, a, c, 8#4, .block (List.replicate n.toNat 0#8)⟩ :=
      hready.runsTxn rfl hm rfl hfits
    exact hruns.commandReads rfl rfl (show 8#4 ≠ 5#4 by decide) (hready.smooth le_rfl) hdata hlength

end Sys2Proof.Machine
end

section
/-! SUPPORT. A mux write that is never acknowledged (rules R173, R226; 93 U13). -/

namespace Sys2Proof.Machine

variable {s : State} {k : MasterIx} {m sw : Byte}

/-- A mux write whose positions are known up to its failure returns `Fail` (rule R226). -/
theorem muxCall_fails {w g : MuxFrame} {n : Nat} {q r : Port} (hv : validateTxn s.cfg k (muxTxn w.sw w.value) = none)
    (hh : Holds s k) (h : Steps (muxPos s.cfg k) n w (s.port k) g q) (ho : muxPos s.cfg k g q = .ended false r)
    (hn : n ≤ s.quantum) : muxCall k w s = .done .fail (s.withPort k r) := by
  simp only [muxCall, hv, holderFault_none_iff.2 hh, h.ends ho hn, portOut, retOfMux, Bool.false_eq_true, if_false]

/-- A mux write of `v` none of whose attempts is acknowledged at the address. -/
theorem startMux_givesUp {r : MasterState} (hm : masterIx s.cfg m = some k) (he : masterEnabled s.cfg k = true)
    (hsw : sw.toNat ≤ 0x7F) (hwf : s.window.wf = true) (hh : Holds s k) (hr : (s.unit k).record = some r)
    (ha : 1 ≤ s.cfg.muxAttempts) (hq : 7 * s.cfg.muxAttempts ≤ s.quantum)
    (hn : nackedTries s.cfg.bits s.cfg.muxAttempts (s.unit k).inputs.status = true) (v : Byte) :
    ∃ t, startMux m sw v s = .next t ∧ OnlyMaster s t k ∧ GaveBack s t .fail ∧
      Accessed s t k (nackedWrites s.cfg sw s.cfg.muxAttempts) (9 * s.cfg.muxAttempts) ∧
      (t.unit k).record = some { r with retryNeeded := true } ∧ chipSelection (t.unit k).chips sw = .unspecified ∧
      ∀ x, x ≠ sw → chipSelection (t.unit k).chips x = chipSelection (s.unit k).chips x := by
  obtain ⟨g, q, hsteps, hends, htrail, hrecord, hchips⟩ := mux_nacked (m := k) (v := v) he hsw s.cfg.muxAttempts
    (muxStart sw v) (s.port k) rfl rfl rfl (Nat.zero_add _) hn
  have hattempts : s.cfg.muxAttempts ≠ 0 := Nat.one_le_iff_ne_zero.1 ha
  rw [if_neg hattempts, State.port_unit] at hrecord hchips
  have hcall := muxCall_fails (validate_muxTxn he hsw) hh hsteps hends hq
  refine ⟨(s.withPort k q).returned .fail, by simp only [startMux, hm, hcall, finishCall],
    onlyMaster_returned htrail.evolves hwf, rfl, accessed_of_trail htrail, ?record, ?chip, fun x hx => ?others⟩
  case record => simp [hrecord, hr, afterNack]
  case chip => simp [hchips, chipSelection_chipForget]
  case others => simp [hchips, chipSelection_chipForget, hx]

/-- Settles O50: a select and a deselect are mux writes. -/
theorem muxWriteGivesUp : Obligations.MuxWriteGivesUp := by
  unfold Obligations.MuxWriteGivesUp
  intro s m sw ch i k r hi hm he hsw hwf hh hr ha hq hn
  have hmux := startMux_givesUp hm he hsw hwf hh hr ha hq hn
  rcases hi with rfl | rfl
  · exact hmux (channelMask ch)
  · exact hmux 0x00#8

end Sys2Proof.Machine
end

section
/-! SUPPORT. Validation, check by check (rules R90, R171, R191, R192), and the calls that name a master outside `ENABLED`
(rules R222, R226, R281). -/

namespace Sys2Proof.Machine

variable {s : State} {k : MasterIx} {c : Config.Params} {m : Byte} {t : Txn} {e : Err} {i : Instr}

/-! Validation. -/

theorem validateTxn_of_reserved (h : masterEnabled c k = false) (t : Txn) : validateTxn c k t = some .invalidArgument :=
  if_pos h

/-- An unknown size class is refused whatever the master (rule R192). -/
theorem validateTxn_of_unknown (h : sizeClassKind t.sizeClass = .unknown) :
    validateTxn c k t = some .invalidArgument := by
  rw [validateTxn, h]
  exact ite_self _

/-- A size class without a mapping (rule R191). -/
theorem validateTxn_of_unsupported (he : masterEnabled c k = true) (h : t.sizeClass ∈ [4#4, 6#4, 7#4]) :
    validateTxn c k t = some .notSupported := by
  rw [validateTxn, if_neg (by simp [he])]
  simp only [List.mem_cons, List.not_mem_nil, or_false] at h
  rcases h with h | h | h <;> rw [h] <;> rfl

/-- A size class that the engine runs: the address, then the payload (rule R171). -/
theorem validateTxn_of_mapped (he : masterEnabled c k = true) (h : t.sizeClass ∈ [0#4, 1#4, 2#4, 3#4, 5#4, 8#4]) :
    validateTxn c k t = if t.addr.toNat > 0x7F then some .invalidArgument
      else if payloadFits c t.sizeClass t.dir t.payload = false then some .invalidArgument else none := by
  rw [validateTxn, if_neg (by simp [he])]
  simp only [List.mem_cons, List.not_mem_nil, or_false] at h
  rcases h with h | h | h | h | h | h <;> rw [h] <;> rfl

/-- A payload that does not fit is refused, by its check or the one before it. -/
theorem validateTxn_of_payloadUnfit (he : masterEnabled c k = true) (h : t.sizeClass ∈ [0#4, 1#4, 2#4, 3#4, 5#4, 8#4])
    (hf : payloadFits c t.sizeClass t.dir t.payload = false) : validateTxn c k t = some .invalidArgument := by
  rw [validateTxn_of_mapped he h, if_pos hf, ite_self]

theorem kind_unknown : ∀ {sc : BitVec 4}, sizeClassKind sc = .unknown ↔ 9 ≤ sc.toNat := by decide

/-- The payload check is the table of rule R90, cell by cell: the size class, the direction, the payload's tag. -/
theorem payloadFits_iff (h : t.sizeClass ∈ [0#4, 1#4, 2#4, 3#4, 5#4, 8#4]) :
    payloadFits c t.sizeClass t.dir t.payload = true ↔ PayloadGood c t := by
  obtain ⟨d, a, command, sc, p⟩ := t
  simp only [List.mem_cons, List.not_mem_nil, or_false] at h
  unfold payloadFits
  rcases h with rfl | rfl | rfl | rfl | rfl | rfl <;> cases d <;> cases p <;>
    simp [PayloadGood, sizeClassKind, blockLenOk_iff]

/-! `execute` refused. -/

/-- What validation refuses changes nothing but the result handed back (rule R171). -/
theorem startExecute_of_refusal (hm : masterIx s.cfg m = some k) (hv : validateTxn s.cfg k t = some e) :
    startExecute m t s = .next (s.returned (.err e)) := by
  simp only [startExecute, hm, beginExecute, hv, finishCall]

/-- An unknown size class is refused for any index. -/
theorem startExecute_of_unknown (h : sizeClassKind t.sizeClass = .unknown) :
    startExecute m t s = .next (s.returned (.err .invalidArgument)) := by
  cases hm : masterIx s.cfg m with
  | none => exact startExecute_of_outOfRange hm t
  | some k => exact startExecute_of_refusal hm (validateTxn_of_unknown h)

/-- Settles O31: the codes by evaluation, the result by the size class. -/
theorem unmappedVerbsNotSupported : Obligations.UnmappedVerbsNotSupported := by
  unfold Obligations.UnmappedVerbsNotSupported
  refine ⟨fun m a c => ⟨rfl, rfl, rfl, rfl, rfl, rfl⟩, fun s d m a c k i hi hm he => ?_⟩
  have hrefused : ∀ sc ∈ [4#4, 6#4, 7#4],
      startExecute m ⟨d, a, c, sc, .quick⟩ s = .next (s.returned (.err .notSupported)) :=
    fun sc hsc => startExecute_of_refusal hm (validateTxn_of_unsupported he hsc)
  rcases hi with rfl | rfl | rfl
  · exact hrefused 4#4 (by decide)
  · exact hrefused 6#4 (by decide)
  · exact hrefused 7#4 (by decide)

/-- Every code from 0x12 to 0x1F is that of an unknown size class: its bit 0 is the direction, the bits above it the low
bits of the class (rules R89, R192). -/
theorem unknownCode_spelled : ∀ x : Byte, 0x12 ≤ x.toNat → x.toNat ≤ 0x1F →
    0x12#8 ||| dirCode (dirOfBit (x.getLsbD 0)) = x ∨
      verbCode 0x14#8 (x.extractLsb' 1 1) (dirOfBit (x.getLsbD 0)) = x ∨
      verbCode 0x18#8 (x.extractLsb' 1 2) (dirOfBit (x.getLsbD 0)) = x := by
  decide

/-- Settles O32: the codes by their bits, the result by the size class. -/
theorem unknownVerbsInvalid : Obligations.UnknownVerbsInvalid := by
  unfold Obligations.UnknownVerbsInvalid
  refine ⟨fun x m a c h1 h2 => ⟨_, _, _, unknownCode_spelled x h1 h2⟩, fun s l1 l2 d m a c i hi => ?_⟩
  rcases hi with rfl | rfl | rfl
  · exact startExecute_of_unknown (t := ⟨d, a, c, 9#4, .quick⟩) rfl
  · exact startExecute_of_unknown (t := ⟨d, a, c, 5#3 ++ l1, .quick⟩) (sizeClassKind_sc1011 l1)
  · exact startExecute_of_unknown (t := ⟨d, a, c, 3#2 ++ l2, .quick⟩) (sizeClassKind_sc1215 l2)

/-- Settles O33: one check after the other, the block lengths by the payload's, the verbs by their transaction. -/
theorem executeValidationOrder : Obligations.ExecuteValidationOrder := by
  unfold Obligations.ExecuteValidationOrder
  refine ⟨fun s m t => ⟨fun h => ?range, fun k hm => ⟨fun he => ?reserved, fun he => ⟨fun hc => ?unknown,
    fun hc => ?unsupported, fun hc => ⟨fun ha => ?address, fun ha hp => ?payload, fun ha hp => ?valid⟩⟩⟩⟩,
    fun s m a c k d hm he hd dir => ?block, fun i s m t hi => exec_of_instrTxn hi⟩
  case range => exact startExecute_of_outOfRange (masterIx_eq_none_iff.2 h) t
  case reserved => exact startExecute_of_refusal hm (validateTxn_of_reserved he t)
  case unknown => exact startExecute_of_unknown (kind_unknown.2 hc)
  case unsupported => exact startExecute_of_refusal hm (validateTxn_of_unsupported he hc)
  case address => exact startExecute_of_refusal hm ((validateTxn_of_mapped he hc).trans (if_pos ha))
  case payload =>
    have hunfit := Bool.eq_false_of_not_eq_true fun hfits => hp ((payloadFits_iff hc).1 hfits)
    exact startExecute_of_refusal hm (validateTxn_of_payloadUnfit he hc hunfit)
  case valid => exact validateTxn_of_payloadFits he ha ((payloadFits_iff hc).2 hp)
  case block =>
    have hunfit : ∀ sc dir, payloadFits s.cfg sc dir (.block d) = false := fun sc dir =>
      Bool.eq_false_of_not_eq_true fun hfits => by have := payloadFits_block hfits; omega
    exact ⟨startExecute_of_refusal hm (validateTxn_of_payloadUnfit he (by simp) (hunfit _ _)),
      startExecute_of_refusal hm (validateTxn_of_payloadUnfit he (by simp) (hunfit _ _))⟩

/-! A master outside `ENABLED`. -/

/-- A call of the register interface or of the master core is turned away (rule R281, 93 U21). -/
theorem onMaster_of_reserved (hm : masterIx s.cfg m = some k) (he : masterEnabled s.cfg k = false)
    (run : MasterIx → Host.Outcome State Fault Refusal) :
    onMaster m s run = .next (s.returned (.err .invalidArgument)) := by
  simp only [onMaster, hm, he, Bool.false_eq_true, if_false, answer, finishCall]

theorem execInit_of_reserved (hm : masterIx s.cfg m = some k) (he : masterEnabled s.cfg k = false) (div : Half) :
    execInit m div s = .next (s.returned (.err .invalidArgument)) := by
  have hrange : ¬ (masterIx s.cfg m = none ∧ div ≠ s.cfg.div100k) := by simp [hm]
  rw [execInit, if_neg hrange, onMaster_of_reserved hm he]

/-- A mux write there fails in every attempt (rules R171, R226). -/
theorem startMux_of_reserved (hm : masterIx s.cfg m = some k) (he : masterEnabled s.cfg k = false) (sw v : Byte) :
    startMux m sw v s = .next (s.returned .fail) := by
  simp only [startMux, hm, muxCall, validateTxn_of_reserved he, finishCall]

/-- `access` finds no master to work on (rule R222). -/
theorem accessMaster_eq_none {ep : EndpointRef} (h : ep.master.toNat = 0 ∨ c.nMasters.val < ep.master.toNat ∨
    ∃ k, masterIx c ep.master = some k ∧ masterEnabled c k = false) : accessMaster c ep = none := by
  rw [Option.eq_none_iff_forall_ne_some]
  intro j hj
  obtain ⟨hm, he⟩ := accessMaster_eq.1 hj
  rcases h with h | h | ⟨k, hk, hreserved⟩
  · cases (masterIx_eq_none_iff.2 (.inl h)).symm.trans hm
  · cases (masterIx_eq_none_iff.2 (.inr h)).symm.trans hm
  · cases hk.symm.trans hm
    cases hreserved.symm.trans he

theorem beginAccess_of_noMaster {ep : EndpointRef} (h : accessMaster s.cfg ep = none) (t : Txn) :
    beginAccess ep t s = .done (.err .invalidArgument) s := by
  have hframe : accessMaster s.cfg (accessFrame ep t .validate).ep = none := h
  simp only [beginAccess, resumeAccessCall, hframe]

/-- Settles O43: each call asks for the master before anything else. -/
theorem accessOutOfRange : Obligations.AccessOutOfRange := by
  unfold Obligations.AccessOutOfRange
  refine ⟨fun s ep t h => congrArg finishCall (beginAccess_of_noMaster (accessMaster_eq_none h) t), ?_⟩
  rintro s _ m k hm he rfl
  have hcall := onMaster_of_reserved hm he
  exact ⟨fun _ => hcall _, fun _ _ => hcall _, fun _ => hcall _, fun _ => hcall _, hcall _, hcall _, hcall _,
    execInit_of_reserved hm he, hcall _, fun _ => hcall _, fun _ _ => hcall _,
    fun i t hi => (exec_of_instrTxn hi).trans (startExecute_of_refusal hm (validateTxn_of_reserved he t)),
    fun sw ch => ⟨startMux_of_reserved hm he sw _, startMux_of_reserved hm he sw _⟩, if_pos he⟩

end Sys2Proof.Machine
end

section
/-! SUPPORT. The parts of an access and the lock of its master (rules R223, R230, R235, R238). -/

namespace Sys2Proof.Machine

variable {s : State} {k m : MasterIx} {f : AccessFrame} {p : Port} {c : Config.Params} {self : AgentId}

/-- The mux step stays where it is, or goes on past it. -/
theorem posMux_apc (f : AccessFrame) (p : Port) : (posMux c m f p).Meets
    (fun g _ => g.apc = f.apc ∨ g.apc = .clear ∨ g.apc = .unlock) (fun _ _ => True) := by
  rw [posMux]
  split
  · exact .inr (.inl rfl)
  · split
    · show (muxChoice _ _ _).apc = _ ∨ _
      rw [muxChoice]
      split <;> [exact .inl rfl; split <;> [exact .inl rfl; exact .inr (.inl rfl)]]
    · split
      · exact .inl rfl
      · exact .inl rfl
      · rw [muxStepOver]
        split <;> [exact .inr (.inr rfl); split <;> [exact .inl rfl; exact .inr (.inl rfl)]]
      · trivial

/-- No position of an access leads back to `A_VALIDATE`. -/
theorem accessPos_apc (f : AccessFrame) (p : Port) :
    (accessPos c self m f p).Meets (fun g _ => g.apc ≠ .validate) (fun _ _ => True) := by
  have hstays : ∀ {a : APos}, f.apc = a → a ≠ .validate → f.apc ≠ .validate := fun hf ha => hf ▸ ha
  rw [accessPos]
  split <;> rename_i hf
  · exact APos.noConfusion
  · rw [posLock]; split <;> [exact hstays hf APos.noConfusion; exact APos.noConfusion]
  · refine (posMux_apc f p).imp (fun g _ hg => ?_) (fun _ _ => id)
    rcases hg with hg | hg | hg
    · exact hg ▸ hstays hf APos.noConfusion
    · exact hg ▸ APos.noConfusion
    · exact hg ▸ APos.noConfusion
  · exact APos.noConfusion
  · rw [posAttempt]; split
    · exact hstays hf APos.noConfusion
    · split <;> [exact hstays hf APos.noConfusion; exact hstays hf APos.noConfusion; exact APos.noConfusion; trivial]
  · rw [posRetryDecide]; split <;> exact APos.noConfusion
  · rw [posUnlock]; split <;> [trivial; exact APos.noConfusion]
  · trivial

/-- What is known of the positions of an access that nothing stops is known of the part that runs them. -/
theorem resumeAccessCall_meets_of_ready {D : Ret → State → Prop} {U : Call → State → Prop}
    (hm : accessMaster s.cfg f.ep = some k)
    (h : accessFault k f s = none → (runPos (accessPos s.cfg s.self k) s.quantum f (s.port k)).Meets
      (fun g q => U (.access g) (s.withPort k q)) (fun x q => D (retOfRes x) (s.withPort k q))) :
    (resumeAccessCall f s).Meets D U := by
  cases hf : accessFault k f s with
  | none => exact resumeAccessCall_meets hm (h hf)
  | some e => rw [resumeAccessCall, hm]; simp only [hf]; trivial

/-- An access that is not about to return and that nothing stops has of the lock what its position asks for. -/
theorem accessHeld_of_ready (hf : accessFault k f s = none) (hret : f.apc ≠ .ret) :
    AccessHeld s.self f (s.port k) := by
  rw [accessFault, if_neg hret] at hf
  rw [AccessHeld, if_neg hret]
  split <;> rename_i hfree
  · rw [if_pos hfree] at hf
    intro hnone
    rw [hnone] at hf
    cases hf
  · rw [if_neg hfree] at hf
    exact holderFault_none_iff.1 hf

/-- Any part of an access that was not about to return. -/
theorem resumeAccessCall_held (hm : accessMaster s.cfg f.ep = some k) (hret : f.apc ≠ .ret) :
    (resumeAccessCall f s).Meets (fun _ u => (u.port k).Freed)
      (fun d u => ∃ g : AccessFrame, d = .access g ∧ g.ep = f.ep ∧ g.txn = f.txn ∧ g.apc ≠ .validate ∧
        AccessHeld u.self g (u.port k)) := by
  refine resumeAccessCall_meets_of_ready hm fun hready => ?_
  have hheld := runAccess_held (c := s.cfg) (m := k) s.quantum (accessHeld_of_ready hready hret)
  have hapc := runPos_meets_of_forall (pos := accessPos s.cfg s.self k) accessPos_apc s.quantum f (s.port k)
  refine (hheld.and hapc).imp (fun g q ⟨⟨hep, htxn, hg⟩, hvalidate⟩ => ?_) (fun _ q ⟨hq, _⟩ => ?_)
  · exact ⟨g, rfl, hep, htxn, hvalidate, by rwa [State.withPort_port]⟩
  · rwa [State.withPort_port]

theorem lockFree_iff {a : APos} : a.lockFree = true ↔ a = .validate ∨ a = .lock ∨ a = .ret := by
  cases a <;> simp [APos.lockFree]

/-- What an access that is past `A_VALIDATE` has of the lock, by its position (rule R223). -/
theorem AccessHeld.cases (h : AccessHeld self f p) (hvalidate : f.apc ≠ .validate) :
    f.apc = .lock ∨ (f.apc = .ret ∧ p.Freed) ∨ p.HeldBy self := by
  rw [AccessHeld] at h
  split at h
  · next hret => exact .inr (.inl ⟨hret, h⟩)
  · next hret =>
    split at h
    · next hfree =>
      rcases lockFree_iff.1 hfree with hf | hf | hf
      · exact absurd hf hvalidate
      · exact .inl hf
      · exact absurd hf hret
    · exact .inr (.inr h)

/-- Settles O45: each position keeps what it has of the lock, and none leads back to `A_VALIDATE`. -/
theorem accessReturnsUnlocked : Obligations.AccessReturnsUnlocked := by
  unfold Obligations.AccessReturnsUnlocked
  have hparts : ∀ (s : State) (f : AccessFrame) (k : MasterIx), accessMaster s.cfg f.ep = some k → f.apc ≠ .ret →
      (resumeAccessCall f s).Meets (fun _ u => ∃ x, (u.unit k).record = some x ∧ x.lock = .free)
        (fun d u => ∃ g : AccessFrame, d = .access g ∧ g.ep = f.ep ∧ g.txn = f.txn ∧
          (g.apc = .lock ∨ (g.apc = .ret ∧ ∃ x, (u.unit k).record = some x ∧ x.lock = .free) ∨ Holds u k)) :=
    fun s f k hm hret => (resumeAccessCall_held hm hret).imp (fun _ _ h => h)
      (fun d u ⟨g, hd, hep, htxn, hvalidate, hg⟩ => ⟨g, hd, hep, htxn, hg.cases hvalidate⟩)
  rintro s ep t k _ hm (rfl | ⟨f, rfl, rfl, hret, rfl⟩)
  · exact hparts s (accessFrame ep t .validate) k hm (by exact APos.noConfusion)
  · exact hparts s f k hm hret

end Sys2Proof.Machine
end

section
/-! SUPPORT. The selection cache and the chips of a master along an access: to a direct endpoint (rule R224), and where the mux
step fails (rules R229, R230). -/

namespace Sys2Proof.Machine

variable {s : State} {k m : MasterIx} {f g : AccessFrame} {p q : Port} {c : Config.Params} {self : AgentId}
  {r : MasterState}

/-! The selection cache. -/

/-- The selection cache of a master's record: switch and channel (rule R27). -/
def Port.cache (p : Port) : Option (Byte × BitVec 3) := p.unit.record.map fun r => (r.lastSwitch, r.lastChannel)

theorem cache_mapRecord {h : MasterState → MasterState}
    (hh : ∀ x, ((h x).lastSwitch, (h x).lastChannel) = (x.lastSwitch, x.lastChannel)) (p : Port) :
    (mapRecord h p).cache = p.cache := by
  rw [Port.cache, Port.cache, mapRecord_record, Option.map_map]
  exact congrArg (Option.map · _) (funext hh)

theorem Port.Up.cache (h : p.Up q) : q.cache = p.cache := by
  rw [Port.Up] at h
  rw [Port.cache, Port.cache]
  match p.unit.record, q.unit.record, h with
  | none, none, _ => rfl
  | some _, some _, ⟨_, hswitch, hchannel, _⟩ => exact congrArg some (Prod.ext hswitch hchannel)

theorem eq_lockTaken_of_acquire (h : acquireLock self p = some q) : q = lockTaken self p := by
  rw [acquireLock] at h
  split at h
  · exact (Option.some.inj h).symm
  · cases h

theorem eq_lockFreed_of_release (h : releaseLock self p = some q) : q = lockFreed p := by
  rw [releaseLock] at h
  split at h
  · exact (Option.some.inj h).symm
  · cases h

@[simp] theorem cache_lockTaken (self : AgentId) (p : Port) : (lockTaken self p).cache = p.cache :=
  cache_mapRecord (by intro; rfl) p

@[simp] theorem cache_lockFreed (p : Port) : (lockFreed p).cache = p.cache :=
  cache_mapRecord (by intro; rfl) p

/-- A record whose cache is as in `r`. -/
theorem record_of_cache (h : q.cache = p.cache) (hr : p.unit.record = some r) :
    ∃ x, q.unit.record = some x ∧ x.lastSwitch = r.lastSwitch ∧ x.lastChannel = r.lastChannel := by
  rw [Port.cache, Port.cache, hr, Option.map_some, Option.map_eq_some_iff] at h
  obtain ⟨x, hx, hcache⟩ := h
  exact ⟨x, hx, congrArg Prod.fst hcache, congrArg Prod.snd hcache⟩

/-! A direct endpoint. -/

/-- A transaction writes no chip (rule R33). -/
theorem execPos_chips (e : ExecFrame) (p : Port) :
    (execPos c m e p).Leaves fun q => q.unit.chips = p.unit.chips := by
  by_cases hs : e.epc = .stop
  · rw [execPos, hs]; exact rfl
  · by_cases hr : e.epc = .ret
    · rw [execPos, hr]; exact rfl
    · exact (execPos_onWay (t := e.txn) ⟨rfl, hr, fun h => absurd h hs⟩ hs).imp (fun _ _ h => h.2.chips)
        (fun _ _ h => h.2.1 ▸ rfl)

/-- The chips and the selection cache are as before. -/
def LeavesMux (p q : Port) : Prop := q.unit.chips = p.unit.chips ∧ q.cache = p.cache

theorem LeavesMux.refl (p : Port) : LeavesMux p p := ⟨rfl, rfl⟩

theorem LeavesMux.trans {z : Port} (h : LeavesMux p q) (h' : LeavesMux q z) : LeavesMux p z :=
  ⟨h'.1.trans h.1, h'.2.trans h.2⟩

theorem execPos_leavesMux (e : ExecFrame) (p : Port) : (execPos c m e p).Leaves (LeavesMux p) :=
  ((execPos_chips e p).and (up_execPos e)).imp (fun _ _ ⟨hchips, hup⟩ => ⟨hchips, hup.cache⟩)
    (fun _ _ ⟨hchips, hup⟩ => ⟨hchips, hup.cache⟩)

theorem posAttempt_leavesMux (f : AccessFrame) (p : Port) : (posAttempt c m f p).Leaves (LeavesMux p) := by
  rw [posAttempt]
  split
  · exact ⟨rfl, cache_mapRecord (by intro; rfl) p⟩
  · next e _ =>
    have he := execPos_leavesMux (c := c) (m := m) e p
    split <;> (rename_i ho; rw [ho] at he; exact he)

/-- Every position of an access to a direct endpoint (rule R224). -/
theorem accessPos_leavesMux (hd : f.ep.sel = .direct) (p : Port) :
    (accessPos c self m f p).Leaves (LeavesMux p) := by
  rw [accessPos]
  split
  · exact LeavesMux.refl p
  · rw [posLock]; split
    · exact LeavesMux.refl p
    · next hq => exact eq_lockTaken_of_acquire hq ▸ ⟨rfl, cache_lockTaken self p⟩
  · rw [posMux, hd]; exact LeavesMux.refl p
  · exact ⟨rfl, cache_mapRecord (by intro; rfl) p⟩
  · exact posAttempt_leavesMux f p
  · rw [posRetryDecide]; split <;> exact LeavesMux.refl p
  · rw [posUnlock]; split
    · trivial
    · next hq => exact eq_lockFreed_of_release hq ▸ ⟨rfl, cache_lockFreed p⟩
  · exact LeavesMux.refl p

/-- Any part of such an access. -/
theorem resumeAccessCall_leavesMux (hm : accessMaster s.cfg f.ep = some k) (hd : f.ep.sel = .direct) :
    (resumeAccessCall f s).Meets (fun _ u => LeavesMux (s.port k) (u.port k))
      (fun _ u => LeavesMux (s.port k) (u.port k)) := by
  have hrun := runPos_meets (pos := accessPos s.cfg s.self k)
    (P := fun g q => g.ep.sel = .direct ∧ LeavesMux (s.port k) q) (E := fun _ q => LeavesMux (s.port k) q)
    (fun g q ⟨hg, hq⟩ => ((accessPos_ep g q).and (accessPos_leavesMux hg q)).imp
      (fun _ _ ⟨hep, hz⟩ => ⟨hep ▸ hg, hq.trans hz⟩) (fun _ _ ⟨_, hz⟩ => hq.trans hz))
    s.quantum f (s.port k) ⟨hd, LeavesMux.refl _⟩
  refine resumeAccessCall_meets hm (hrun.imp (fun _ q ⟨_, hq⟩ => ?_) (fun _ q hq => ?_)) <;>
    rwa [State.withPort_port]

/-- Settles O48: no position of an access to a direct endpoint writes a chip or the cache. -/
theorem directAccessLeavesMux : Obligations.DirectAccessLeavesMux := by
  unfold Obligations.DirectAccessLeavesMux
  intro s ep t k r o hm hd hr ho u hu
  have hleaves : o.Meets (fun _ u => LeavesMux (s.port k) (u.port k)) (fun _ u => LeavesMux (s.port k) (u.port k)) := by
    rcases ho with rfl | ⟨f, rfl, _, rfl⟩
    · exact resumeAccessCall_leavesMux (f := accessFrame ep t .validate) hm hd
    · exact resumeAccessCall_leavesMux hm hd
  obtain ⟨hchips, hcache⟩ : LeavesMux (s.port k) (u.port k) := by
    rcases hu with ⟨x, rfl⟩ | ⟨d, rfl⟩ <;> exact hleaves
  exact ⟨hchips, record_of_cache hcache hr⟩

/-! A mux step that fails. -/

/-- The result `MuxSelectFailed` of an access that was at `f` on the port `p`: the cache is as before, and the endpoint is no
direct one unless the access was past its mux step (rules R224, R229, R230). -/
def FailureKeepsCache (f : AccessFrame) (p : Port) (x : Res) (q : Port) : Prop :=
  x = .err .muxSelectFailed → q.cache = p.cache ∧ (f.apc ≠ .unlock → f.ep.sel ≠ .direct)

theorem failureKeepsCache_of_ne {x : Res} (h : x ≠ .err .muxSelectFailed) : FailureKeepsCache f p x q :=
  fun hx => absurd hx h

theorem FailureKeepsCache.congr {x : Res} {z : Port} (h : FailureKeepsCache f p x q) (hz : z.cache = q.cache) :
    FailureKeepsCache f p x z :=
  fun hx => ⟨hz.trans (h hx).1, (h hx).2⟩

/-- What an access that was at `f` on the port `p` has done at its present position: the cache is as before up to the end of
the mux step, an attempt has no result `MuxSelectFailed`, and from `A_UNLOCK` on that result is one of the mux step. -/
def KeepsCacheSince (c : Config.Params) (m : MasterIx) (f : AccessFrame) (p : Port) (g : AccessFrame) (q : Port) : Prop :=
  g.ep = f.ep ∧
    match g.apc with
    | .validate => q.cache = p.cache
    | .lock => q.cache = p.cache
    | .mux => q.cache = p.cache
    | .clear => True
    | .attempt => ∀ e, g.inner = some e → ∃ z, Stopping c m e.txn z e q
    | .retryDecide => g.res ≠ .err .muxSelectFailed
    | .unlock => FailureKeepsCache f p g.res q
    | .ret => FailureKeepsCache f p g.res q

theorem keepsCacheSince_mux (hg : g.apc = .mux) : KeepsCacheSince c m f p g q ↔ g.ep = f.ep ∧ q.cache = p.cache := by
  rw [KeepsCacheSince, hg]

theorem keepsCacheSince_attempt (hg : g.apc = .attempt) : KeepsCacheSince c m f p g q ↔
    g.ep = f.ep ∧ ∀ e, g.inner = some e → ∃ z, Stopping c m e.txn z e q := by
  rw [KeepsCacheSince, hg]

/-- A transaction under way is the one that was begun. -/
theorem Stopping.txn {t : Txn} {e : ExecFrame} (h : Stopping c m t p e q) : e.txn = t := by
  rcases h with ⟨⟨ht, _⟩, _⟩ | ⟨ht, _⟩ <;> exact ht

/-- `A_MUX`: the cache is written only where the select has succeeded, and a failure is that of a switch. -/
theorem posMux_keepsCacheSince {E : Res → Port → Prop} (hg : g.apc = .mux) (h : KeepsCacheSince c m f p g q) :
    (posMux c m g q).Meets (KeepsCacheSince c m f p) E := by
  obtain ⟨hep, hcache⟩ := (keepsCacheSince_mux hg).1 h
  rw [posMux]
  split
  · exact ⟨hep, trivial⟩
  · next sw hsw =>
    split
    · show KeepsCacheSince c m f p (muxChoice _ _ _) q
      rw [muxChoice]
      split
      · exact (keepsCacheSince_mux hg).2 ⟨hep, hcache⟩
      · split
        · exact (keepsCacheSince_mux hg).2 ⟨hep, hcache⟩
        · exact ⟨hep, trivial⟩
    · next w _ =>
      have hup := up_muxPos (c := c) (m := m) (p := q) w
      split <;> (rename_i ho; rw [ho] at hup)
      · exact (keepsCacheSince_mux hg).2 ⟨hep, hup.cache.trans hcache⟩
      · exact (keepsCacheSince_mux hg).2 ⟨hep, hup.cache.trans hcache⟩
      · rw [muxStepOver]
        split
        · refine ⟨hep, fun _ => ⟨hup.cache.trans hcache, fun _ hdirect => ?_⟩⟩
          rw [← hep, hsw] at hdirect
          cases hdirect
        · split
          · exact (keepsCacheSince_mux hg).2 ⟨hep, hup.cache.trans hcache⟩
          · exact ⟨hep, trivial⟩
      · trivial

/-- `A_ATTEMPT`: the transaction never returns `MuxSelectFailed`. -/
theorem posAttempt_keepsCacheSince {E : Res → Port → Prop} (hg : g.apc = .attempt) (h : KeepsCacheSince c m f p g q) :
    (posAttempt c m g q).Meets (KeepsCacheSince c m f p) E := by
  obtain ⟨hep, hinner⟩ := (keepsCacheSince_attempt hg).1 h
  have hgoes : ∀ {e : ExecFrame} {z y : Port}, Stopping c m e.txn z e y →
      KeepsCacheSince c m f p { g with inner := some e } y :=
    fun he => (keepsCacheSince_attempt (by exact hg)).2 ⟨hep, fun _ he' => Option.some.inj he' ▸ ⟨_, he⟩⟩
  rw [posAttempt]
  split
  · exact hgoes (stopping_refl (onWay_start g.txn))
  · next e he =>
    obtain ⟨z, hz⟩ := hinner e he
    have hstop := execPos_stopping hz
    split <;> (rename_i ho; rw [ho] at hstop)
    · exact hgoes (hstop.txn ▸ hstop)
    · exact hgoes (hstop.txn ▸ hstop)
    · exact ⟨hep, hstop.1⟩
    · trivial

/-- Every position of an access. -/
theorem accessPos_keepsCacheSince (h : KeepsCacheSince c m f p g q) :
    (accessPos c self m g q).Meets (KeepsCacheSince c m f p) (FailureKeepsCache f p) := by
  have hsince := h
  obtain ⟨hep, h⟩ := h
  rw [accessPos]
  split <;> rename_i hg <;> rw [hg] at h
  · exact ⟨hep, h⟩
  · rw [posLock]; split
    · exact hsince
    · next hq => exact eq_lockTaken_of_acquire hq ▸ ⟨hep, (cache_lockTaken self q).trans h⟩
  · exact (posMux_keepsCacheSince hg hsince).imp (fun _ _ => id) (fun _ _ => id)
  · exact ⟨hep, fun _ he => by cases he⟩
  · exact (posAttempt_keepsCacheSince hg hsince).imp (fun _ _ => id) (fun _ _ => id)
  · rw [posRetryDecide]; split
    · exact ⟨hep, fun _ he => by cases he⟩
    · exact ⟨hep, failureKeepsCache_of_ne h⟩
  · rw [posUnlock]; split
    · trivial
    · next hq => exact eq_lockFreed_of_release hq ▸ ⟨hep, h.congr (cache_lockFreed q)⟩
  · exact h

/-- A part of an access that starts before its mux step is over, or after it failed. -/
theorem resumeAccessCall_keepsCacheSince (hm : accessMaster s.cfg f.ep = some k)
    (hf : f.apc ∈ [.validate, .lock, .mux, .unlock]) :
    (resumeAccessCall f s).Meets
      (fun x u => ∃ y, x = retOfRes y ∧ FailureKeepsCache f (s.port k) y (u.port k))
      (fun d u => ∃ g, d = .access g ∧ KeepsCacheSince s.cfg k f (s.port k) g (u.port k)) := by
  have hstart : KeepsCacheSince s.cfg k f (s.port k) f (s.port k) := by
    simp only [List.mem_cons, List.not_mem_nil, or_false] at hf
    rcases hf with hf | hf | hf | hf
    · exact ⟨rfl, by rw [hf]⟩
    · exact ⟨rfl, by rw [hf]⟩
    · exact (keepsCacheSince_mux hf).2 ⟨rfl, rfl⟩
    · exact ⟨rfl, by rw [hf]; exact fun _ => ⟨rfl, fun hne => absurd hf hne⟩⟩
  have hrun := runPos_meets (pos := accessPos s.cfg s.self k) (fun _ _ => accessPos_keepsCacheSince) s.quantum f
    (s.port k) hstart
  refine resumeAccessCall_meets hm (hrun.imp (fun g q hg => ⟨g, rfl, ?_⟩) (fun y q hy => ⟨y, rfl, ?_⟩)) <;>
    rwa [State.withPort_port]

theorem eq_of_retOfRes_eq_err {y : Res} {e : Err} (h : .err e = retOfRes y) : y = .err e := by
  cases y with
  | ok p => cases h
  | err e' => exact congrArg Res.err (Ret.err.inj h).symm

/-- A part that returns `MuxSelectFailed`. -/
theorem resumeAccessCall_of_muxSelectFailed {u : State} (hm : accessMaster s.cfg f.ep = some k)
    (hr : (s.unit k).record = some r) (hf : f.apc ∈ [.validate, .lock, .mux, .unlock])
    (ho : resumeAccessCall f s = .done (.err .muxSelectFailed) u) :
    (f.apc ≠ .unlock → f.ep.sel ≠ .direct) ∧ ∃ x, (u.unit k).record = some x ∧ x.lock = .free ∧
      x.lastSwitch = r.lastSwitch ∧ x.lastChannel = r.lastChannel := by
  have hret : f.apc ≠ .ret := by
    rintro hret
    rw [hret] at hf
    revert hf; decide
  have hkeeps := resumeAccessCall_keepsCacheSince hm hf
  have hheld := resumeAccessCall_held hm hret
  rw [ho] at hkeeps hheld
  obtain ⟨y, hy, hfailure⟩ := hkeeps
  obtain ⟨hcache, hswitch⟩ := hfailure (eq_of_retOfRes_eq_err hy)
  obtain ⟨x, hx, hlock⟩ := hheld
  obtain ⟨x', hx', hsame⟩ := record_of_cache hcache hr
  cases hx.symm.trans hx'
  exact ⟨hswitch, x, hx, hlock, hsame⟩

/-- Settles O49: the cache is written only where the select has succeeded, after which no result is `MuxSelectFailed`. -/
theorem muxSelectFailedKeepsCache : Obligations.MuxSelectFailedKeepsCache := by
  unfold Obligations.MuxSelectFailedKeepsCache
  refine ⟨fun s u ep t k r hm hr ho => ?begun,
    fun s u f k r hm hr hf ho => resumeAccessCall_of_muxSelectFailed hm hr hf ho,
    fun s u f g k r hm hr hf ho hg => ?cut⟩
  case begun =>
    obtain ⟨hswitch, hrecord⟩ := resumeAccessCall_of_muxSelectFailed (f := accessFrame ep t .validate) hm hr
      (List.mem_cons_self ..) ho
    exact ⟨hswitch APos.noConfusion, hrecord⟩
  case cut =>
    have hkeeps := resumeAccessCall_keepsCacheSince hm hf
    rw [ho] at hkeeps
    obtain ⟨_, hd, _, hsince⟩ := hkeeps
    cases hd
    have hcache : (u.port k).cache = (s.port k).cache := by
      simp only [List.mem_cons, List.not_mem_nil, or_false] at hg
      rcases hg with (hg | hg) | ⟨hg | hg, hres⟩ <;> rw [hg] at hsince
      · exact hsince
      · exact hsince
      · exact (hsince hres).1
      · exact (hsince hres).1
    exact record_of_cache hcache hr

end Sys2Proof.Machine
end

section
/-! SUPPORT. Accesses on a bus where every phase is acknowledged: the mux writes that `RESOLVE` asks for, then the caller's
transaction at its first attempt (rules R223 to R235). -/

namespace Sys2Proof.Machine

variable {c : Config.Params} {m k : MasterIx} {p q z : Port} {s : State} {t : Txn} {ep : EndpointRef} {self : AgentId}
  {f : AccessFrame} {x r : MasterState} {sw v : Byte}

/-! What a run hears. -/

/-- From `p` to `q` with `j` status answers used, the bytes `xs` read from `DATA`, the writes `ws` made and `n` accesses made
in all, whatever becomes of the record and the chips. -/
structure Hearing (c : Config.Params) (m : MasterIx) (p q : Port) (j : Nat) (xs : List Byte) (ws : List Access)
    (n : Nat) : Prop where
  trail : Trail c m p q j ws n
  heard : ∃ new, q.unit.history = p.unit.history ++ new ∧ new.filterMap dataHeard = xs
  data : q.unit.inputs.data = p.unit.inputs.data.drop xs.length

theorem Glide.hearing {j n : Nat} {xs : List Byte} {ws : List Access} (g : Glide c m p q j xs ws n) :
    Hearing c m p q j xs ws n := by
  obtain ⟨new, hnew, _, _, hheard⟩ := g.accesses
  exact ⟨g.trail, ⟨new, hnew, hheard⟩, g.data⟩

theorem Hearing.refl (p : Port) : Hearing c m p p 0 [] [] 0 := (Glide.refl p).hearing

theorem Hearing.trans {j₁ j₂ n₁ n₂ : Nat} {x₁ x₂ : List Byte} {w₁ w₂ : List Access} (g : Hearing c m p q j₁ x₁ w₁ n₁)
    (h : Hearing c m q z j₂ x₂ w₂ n₂) : Hearing c m p z (j₁ + j₂) (x₁ ++ x₂) (w₁ ++ w₂) (n₁ + n₂) := by
  obtain ⟨a, ha, hxa⟩ := g.heard
  obtain ⟨b, hb, hxb⟩ := h.heard
  refine ⟨g.trail.trans h.trail, ⟨a ++ b, by rw [hb, ha, List.append_assoc], ?_⟩, ?_⟩
  · rw [List.filterMap_append, hxa, hxb]
  · rw [h.data, g.data, List.drop_drop, List.length_append]

theorem Hearing.cast {j n n' : Nat} {xs xs' : List Byte} {ws ws' : List Access} (g : Hearing c m p q j xs ws n)
    (hx : xs = xs') (hw : ws = ws') (hn : n = n') : Hearing c m p q j xs' ws' n' := by
  subst hx hw hn; exact g

theorem hearing_record (h : MasterState → MasterState) : Hearing c m p (mapRecord h p) 0 [] [] 0 :=
  ⟨trail_record h, ⟨[], by simp⟩, rfl⟩

theorem hearing_chipWritten (sw v : Byte) : Hearing c m p (chipWritten sw v p) 0 [] [] 0 :=
  ⟨trail_chips _, ⟨[], by simp⟩, rfl⟩

/-- Answers used up leave the rest fitting. -/
theorem Hearing.smooth {j n : Nat} {xs : List Byte} {ws : List Access} {a b : List Bool} (g : Hearing c m p q j xs ws n)
    (h : Smooth c p.unit.inputs (a ++ b)) (hj : j = a.length) : Smooth c q.unit.inputs b :=
  h.drop (by rw [← hj]; exact g.trail.status)

theorem lengthByteOk_congr {i i' : Inputs} (hd : i'.data = i.data) (h : LengthByteOk c i t) : LengthByteOk c i' t :=
  fun hk hr => hd ▸ h hk hr

theorem receives_congr {i i' : Inputs} {d : List Byte} (hd : i'.data = i.data) (h : Receives c i' t d) :
    Receives c i t d := by
  obtain ⟨hwrite, hread, hblock, hlisted⟩ := h
  exact ⟨hwrite, hread, hblock, hd ▸ hlisted⟩

/-! The caller's transaction. -/

/-- From `A_CLEAR` an access whose transaction is acknowledged comes to its return at the first attempt (rules R231, R232,
R235). -/
theorem access_completes (hf : f.apc = .clear) (hv : validateTxn c m f.txn = none)
    (hsmooth : Smooth c p.unit.inputs (txnPolls (maxPhases c))) (hlen : LengthByteOk c p.unit.inputs f.txn)
    (hr : p.unit.record = some x) (hl : x.lock = .held self) :
    ∃ n g q d j, n ≤ 13 + maxData c ∧ Steps (accessPos c self m) n f p g q ∧ g.apc = .ret ∧
      g.res = .ok (payloadOf f.txn d) ∧ Receives c p.unit.inputs f.txn d ∧
      Hearing c m p q j (heardBytes f.txn d) (txnWrites c (wireWrites c f.txn d.length))
        (6 + 3 * phaseCount f.txn d.length) ∧
      q.unit.record = some { x with lock := .free, retryNeeded := false, persistentNack := false } ∧
      q.unit.chips = p.unit.chips := by
  obtain ⟨q, d, n, j, hn, hstops, hreceives, g⟩ := execute_smooth (m := m)
    (p := mapRecord clearRetryFlag (mapRecord clearBothFlags p)) f.txn hv hsmooth hlen
  have hrecord : (stopBus c m q).unit.record = some { x with retryNeeded := false, persistentNack := false } := by
    show q.unit.record = _
    rw [g.record, mapRecord_record, mapRecord_record, hr]; rfl
  have hhearing := (((hearing_record (p := p) clearBothFlags).trans (hearing_record clearRetryFlag)).trans
    (g.hearing.trans glide_stopBus.hearing)).trans (hearing_record fun x => { x with lock := .free })
  refine ⟨n + 6, _, _, d, _, by omega, access_once hf hstops rfl ⟨_, hrecord, hl⟩, rfl, rfl, hreceives,
    hhearing.cast (by simp) (by simp [txnWrites]) (by omega), ?_, g.chips⟩
  · show Option.map _ (stopBus c m q).unit.record = _
    rw [hrecord]; rfl

/-! The mux step. -/

/-- The mux step of an access that holds the lock: `n` positions lead from `A_MUX` to `A_CLEAR`, with `j` status answers used,
the writes `ws` and `a` accesses made and nothing read from `DATA`; it leaves the record `x` and the port `q`. -/
structure Resolves (c : Config.Params) (m : MasterIx) (agent : AgentId) (f : AccessFrame) (p : Port) (n j : Nat)
    (ws : List Access) (a : Nat) (x : MasterState) (q : Port) : Prop where
  steps : ∃ g, Steps (accessPos c agent m) n f p g q ∧ g.apc = .clear ∧ g.txn = f.txn
  hearing : Hearing c m p q j [] ws a
  record : q.unit.record = some x

/-- A direct endpoint has none (rule R224). -/
theorem resolves_direct (hf : f.apc = .mux) (hd : f.ep.sel = .direct) (hr : p.unit.record = some x) :
    Resolves c m self f p 1 0 [] 0 x p := by
  refine ⟨⟨{ f with apc := .clear }, .one ?_, rfl, rfl⟩, Hearing.refl p, hr⟩
  rw [accessPos_mux hf, posMux, hd]

/-- `RESOLVE` on a record that is known (rule R225). -/
theorem accessPos_resolve (hf : f.apc = .mux) (hs : f.ep.sel = .switch sw) (hw : f.write = none)
    (hr : p.unit.record = some x) : accessPos c self m f p = .go (muxChoice f sw x) p := by
  rw [accessPos_mux hf, posMux, hs, hw, recordOf, hr, Option.getD_some]

/-- The pair is cached (rule R225). -/
theorem resolves_cached (hf : f.apc = .mux) (hw : f.write = none) (hr : p.unit.record = some x)
    (hne : x.lastSwitch ≠ 0#8) (hs : f.ep.sel = .switch x.lastSwitch) (hc : f.ep.channel = x.lastChannel) :
    Resolves c m self f p 1 0 [] 0 x p := by
  refine ⟨⟨{ f with apc := .clear }, .one ?_, rfl, rfl⟩, Hearing.refl p, hr⟩
  rw [accessPos_resolve hf hs hw hr, muxChoice, if_neg fun h => h.2 rfl,
    if_neg fun h => h.elim hne fun h => h hc.symm]

/-- A mux write of `RESOLVE` that is acknowledged (rules R225, R226). -/
theorem access_muxWrites (he : masterEnabled c m = true) (ha : 1 ≤ c.muxAttempts) {y : Byte} (hy : y.toNat ≤ 0x7F)
    (hf : f.apc = .mux) (hs : f.ep.sel = .switch sw) (hw : f.write = some (muxStart y v))
    (hsmooth : Smooth c p.unit.inputs (txnPolls 2)) :
    ∃ e q, Steps (accessPos c self m) 9 f p e q ∧
      accessPos c self m e q = muxStepOver f sw true (chipWritten y v q) ∧
      Hearing c m p (chipWritten y v q) 3 [] (muxWrites c y v) 12 ∧
      (chipWritten y v q).unit.record = p.unit.record ∧
      (chipWritten y v q).unit.chips = chipSet y v p.unit.chips := by
  obtain ⟨g, q, hsteps, hends, hglide⟩ := mux_smooth (m := m) (v := v) he hy ha hsmooth
  obtain ⟨e, haccess, hover⟩ := access_muxWrite (self := self) hf hs hw hsteps hends
  refine ⟨e, q, haccess, hover, ?_, hglide.record, congrArg (chipSet y v) hglide.chips⟩
  exact (hglide.hearing.trans (hearing_chipWritten y v)).cast rfl (List.append_nil _) rfl

section
variable (he : masterEnabled c m = true) (ha : 1 ≤ c.muxAttempts) (hsw : sw.toNat ≤ 0x7F)
include he ha hsw

/-- The select and what follows it: the pair is cached (rules R225, R229). -/
theorem resolves_selecting (hf : f.apc = .mux) (hs : f.ep.sel = .switch sw)
    (hw : f.write = some (muxStart sw (channelMask f.ep.channel))) (hd : f.deselecting = false)
    (hr : p.unit.record = some x) (hsmooth : Smooth c p.unit.inputs (txnPolls 2)) :
    ∃ q, Resolves c m self f p 10 3 (muxWrites c sw (channelMask f.ep.channel)) 12
        { x with lastSwitch := sw, lastChannel := f.ep.channel } q ∧
      q.unit.chips = chipSet sw (channelMask f.ep.channel) p.unit.chips := by
  obtain ⟨e, q, hsteps, hover, hhearing, hrecord, hchips⟩ := access_muxWrites (self := self) he ha hsw hf hs hw hsmooth
  refine ⟨setCache sw f.ep.channel (chipWritten sw (channelMask f.ep.channel) q),
    ⟨⟨{ f with apc := .clear, write := none }, hsteps.snoc ?_, rfl, rfl⟩, ?_, ?_⟩, hchips⟩
  · rw [hover, muxStepOver, if_neg Bool.noConfusion, hd]; rfl
  · exact (hhearing.trans (hearing_record _)).cast rfl (List.append_nil _) rfl
  · rw [setCache, mapRecord_record, hrecord, hr]; rfl

/-- No switch is cached, or the switch with another channel: one select (rule R225). -/
theorem resolves_select (hf : f.apc = .mux) (hs : f.ep.sel = .switch sw) (hw : f.write = none)
    (hr : p.unit.record = some x)
    (hcache : x.lastSwitch = 0#8 ∨ (x.lastSwitch = sw ∧ x.lastChannel ≠ f.ep.channel))
    (hsmooth : Smooth c p.unit.inputs (txnPolls 2)) :
    ∃ q, Resolves c m self f p 11 3 (muxWrites c sw (channelMask f.ep.channel)) 12
        { x with lastSwitch := sw, lastChannel := f.ep.channel } q ∧
      q.unit.chips = chipSet sw (channelMask f.ep.channel) p.unit.chips := by
  have hother : ¬ (x.lastSwitch ≠ 0#8 ∧ x.lastSwitch ≠ sw) := fun h => hcache.elim h.1 fun hx => h.2 hx.1
  have hmiss : x.lastSwitch = 0#8 ∨ x.lastChannel ≠ f.ep.channel := hcache.imp_right And.right
  have hchoice := accessPos_resolve (c := c) (m := m) (self := self) hf hs hw hr
  rw [muxChoice, if_neg hother, if_pos hmiss] at hchoice
  obtain ⟨q, ⟨⟨g, hsteps, hg, htxn⟩, hhearing, hrecord⟩, hchips⟩ := resolves_selecting (self := self)
    (f := { f with write := some (muxStart sw (channelMask f.ep.channel)), deselecting := false }) he ha hsw hf hs rfl rfl
    hr hsmooth
  exact ⟨q, ⟨⟨g, .cons hchoice hsteps, hg, htxn⟩, hhearing, hrecord⟩, hchips⟩

/-- Another switch is cached: it is deselected, then the select is made (rule R225). -/
theorem resolves_switch (hf : f.apc = .mux) (hs : f.ep.sel = .switch sw) (hw : f.write = none)
    (hr : p.unit.record = some x) (hne : x.lastSwitch ≠ 0#8) (hother : x.lastSwitch ≠ sw)
    (hlast : x.lastSwitch.toNat ≤ 0x7F) (hsmooth : Smooth c p.unit.inputs (txnPolls 2 ++ txnPolls 2)) :
    ∃ q, Resolves c m self f p 21 6
        (muxWrites c x.lastSwitch 0x00#8 ++ muxWrites c sw (channelMask f.ep.channel)) (12 + 12)
        { x with lastSwitch := sw, lastChannel := f.ep.channel } q ∧
      q.unit.chips = chipSet sw (channelMask f.ep.channel) (chipSet x.lastSwitch 0x00#8 p.unit.chips) := by
  have hchoice := accessPos_resolve (c := c) (m := m) (self := self) hf hs hw hr
  rw [muxChoice, if_pos ⟨hne, hother⟩] at hchoice
  obtain ⟨e, q₁, hdeselect, hover, hhearing₁, hrecord₁, hchips₁⟩ := access_muxWrites (self := self)
    (f := { f with write := some (muxStart x.lastSwitch 0x00#8), deselecting := true }) he ha hlast hf hs rfl hsmooth.head
  rw [muxStepOver, if_neg Bool.noConfusion, if_pos rfl] at hover
  obtain ⟨q, ⟨⟨g, hselect, hg, htxn⟩, hhearing, hrecord⟩, hchips⟩ := resolves_selecting (self := self)
    (f := { f with write := some (muxStart sw (channelMask f.ep.channel)), deselecting := false }) he ha hsw hf hs rfl rfl
    (hrecord₁.trans hr) (hhearing₁.smooth hsmooth rfl)
  refine ⟨q, ⟨⟨g, ?_, hg, htxn⟩, hhearing₁.trans hhearing, hrecord⟩, hchips.trans (congrArg _ hchips₁)⟩
  exact .cons hchoice ((hdeselect.snoc hover).trans hselect)

end

/-! Whole accesses. -/

/-- An access whose mux step comes to `A_CLEAR` and whose transaction is then acknowledged. -/
theorem exec_access_completes (hm : masterIx s.cfg ep.master = some k) (hr : (s.unit k).record = some r)
    (hl : r.lock = .free) (hv : Valid s k t) (hwf : s.window.wf = true) (hq : Unhurried s)
    (hlen : LengthByteOk s.cfg (s.unit k).inputs t) {n j a : Nat} {ws : List Access} (hn : n ≤ 21)
    (hres : Resolves s.cfg k s.self (accessFrame ep t .mux) (lockTaken s.self (s.port k)) n j ws a x q)
    (hx : x.lock = .held s.self) (hsmooth : Smooth s.cfg q.unit.inputs (txnPolls (maxPhases s.cfg))) :
    ∃ u d, exec (.access ep t) s = .next u ∧ Receives s.cfg (s.unit k).inputs t d ∧ OnlyMaster s u k ∧
      GaveBack s u (.payload (payloadOf t d)) ∧
      Accessed s u k (ws ++ txnWrites s.cfg (wireWrites s.cfg t d.length)) (a + (6 + 3 * phaseCount t d.length)) ∧
      Heard s u k (heardBytes t d) ∧
      (u.unit k).record = some { x with lock := .free, retryNeeded := false, persistentNack := false } ∧
      (u.unit k).chips = q.unit.chips := by
  obtain ⟨⟨f, hmux, hf, htxn⟩, hhearing, hrecord⟩ := hres
  have htxn : f.txn = t := htxn
  have hdata : q.unit.inputs.data = (s.unit k).inputs.data := hhearing.data
  obtain ⟨n', g, y, d, i, hn', hsteps, hg, hpayload, hreceives, hhearing', hrecord', hchips'⟩ :=
    access_completes (self := s.self) hf (htxn ▸ hv) hsmooth (htxn ▸ lengthByteOk_congr hdata hlen) hrecord hx
  rw [htxn] at hpayload hreceives hhearing'
  have hall : Hearing s.cfg k (s.port k) y (0 + j + i) (heardBytes t d)
      (ws ++ txnWrites s.cfg (wireWrites s.cfg t d.length)) (a + (6 + 3 * phaseCount t d.length)) :=
    (((hearing_record _).trans hhearing).trans hhearing').cast rfl rfl (by omega)
  have hcall := access_returns (accessMaster_eq.2 ⟨hm, masterEnabled_of_valid hv⟩) (by rw [hr]; simp)
    (((access_locked ep t hr hl).trans hmux).trans hsteps) hg (by unfold Unhurried at hq; omega)
  rw [hpayload] at hcall
  obtain ⟨new, hnew, hheard⟩ := hall.heard
  exact ⟨(s.withPort k y).returned (.payload (payloadOf t d)), d, congrArg finishCall hcall,
    receives_congr hdata hreceives, onlyMaster_returned hall.trail.evolves hwf, rfl, accessed_of_trail hall.trail,
    ⟨new, by simpa using hnew, hheard⟩, by simpa using hrecord', by simpa using hchips'⟩

/-- The record of a free master once its lock is taken. -/
theorem lockTaken_record (a : AgentId) (hr : p.unit.record = some r) :
    (lockTaken a p).unit.record = some { r with lock := .held a } := by
  rw [lockTaken, mapRecord_record, hr]; rfl

/-- Settles O46: `RESOLVE` goes to `A_CLEAR` at once. -/
theorem accessWithoutMuxCompletes : Obligations.AccessWithoutMuxCompletes := by
  unfold Obligations.AccessWithoutMuxCompletes
  intro s ep t k r hm hr hl hv hwf hq hsmooth hlen hsel
  have htaken := lockTaken_record s.self (p := s.port k) hr
  have hres : Resolves s.cfg k s.self (accessFrame ep t .mux) (lockTaken s.self (s.port k)) 1 0 [] 0
      { r with lock := .held s.self } (lockTaken s.self (s.port k)) := by
    rcases hsel with hdirect | ⟨hne, hswitch, hchannel⟩
    · exact resolves_direct rfl hdirect htaken
    · exact resolves_cached rfl rfl htaken hne hswitch hchannel
  obtain ⟨u, d, hu, hreceives, honly, hback, haccessed, hheard, hrecord, hchips⟩ :=
    exec_access_completes hm hr hl hv hwf hq hlen (by omega) hres rfl hsmooth
  rw [Nat.zero_add] at haccessed
  exact ⟨u, d, hu, hreceives, honly, hback, haccessed, hheard, hl ▸ hrecord, hchips⟩

/-- Settles O47: `RESOLVE` makes one select, or a deselect and a select. -/
theorem accessWithMuxCompletes : Obligations.AccessWithMuxCompletes := by
  unfold Obligations.AccessWithMuxCompletes
  intro s ep t k r sw hm hs hsw ha hr hl hv hwf hq hlen
  have he := masterEnabled_of_valid hv
  have htaken := lockTaken_record s.self (p := s.port k) hr
  refine ⟨fun hcache hsmooth => ?select, fun hne hother hlast hsmooth => ?switch⟩
  case select =>
    obtain ⟨q, hres, hchips⟩ := resolves_select (f := accessFrame ep t .mux) (self := s.self) he ha hsw rfl hs rfl htaken
      hcache hsmooth.head
    obtain ⟨u, d, hu, hreceives, honly, hback, haccessed, hheard, hrecord, hkept⟩ :=
      exec_access_completes hm hr hl hv hwf hq hlen (by omega) hres rfl (hres.hearing.smooth hsmooth rfl)
    rw [hchips] at hkept
    refine ⟨u, d, hu, hreceives, honly, hback, haccessed, hheard, hl ▸ hrecord, ?_, fun y hy => ?_⟩
    · rw [hkept]; exact chipSelection_chipSet_same ..
    · rw [hkept]; exact chipSelection_chipSet_other hy ..
  case switch =>
    rw [← List.append_assoc] at hsmooth
    obtain ⟨q, hres, hchips⟩ := resolves_switch (f := accessFrame ep t .mux) (self := s.self) he ha hsw rfl hs rfl htaken
      hne hother hlast hsmooth.head
    obtain ⟨u, d, hu, hreceives, honly, hback, haccessed, hheard, hrecord, hkept⟩ :=
      exec_access_completes hm hr hl hv hwf hq hlen le_rfl hres rfl (hres.hearing.smooth hsmooth rfl)
    rw [List.append_assoc, Nat.add_assoc] at haccessed
    rw [hchips] at hkept
    refine ⟨u, d, hu, hreceives, honly, hback, haccessed, hheard, hl ▸ hrecord, ?_, ?_, fun y hy hy' => ?_⟩
    · rw [hkept]; exact chipSelection_chipSet_same ..
    · rw [hkept, chipSelection_chipSet_other hother]; exact chipSelection_chipSet_same ..
    · rw [hkept, chipSelection_chipSet_other hy]; exact chipSelection_chipSet_other hy' ..

end Sys2Proof.Machine
end

section
/-! SUPPORT. The reset state meets the invariants of every step (rule R302): no master has a record or a history, no agent
a call, and the window is empty. That the empty window is the one at reset, and the canonical form itself, are the model's
own (log entry 3). -/

namespace Sys2Proof.Machine

@[simp] theorem State.reset_record (m : MasterIx) : (State.reset.unit m).record = none := by
  rw [State.reset_unit]; rfl

@[simp] theorem State.reset_history (m : MasterIx) : (State.reset.unit m).history = [] := by
  rw [State.reset_unit]; rfl

theorem State.reset_call {ag : Agent} (h : ag ∈ State.reset.agents) : ag.call = none := by
  obtain rfl := List.mem_singleton.1 h
  rfl

theorem State.reset_onlyIssuedCommands : OnlyIssuedCommands State.reset := by
  intro m a ha
  rw [State.reset_history] at ha
  exact absurd ha List.not_mem_nil

/-- The engine is not running at power-on, so only the second clause asks for anything. -/
theorem State.reset_lifecycleSound : LifecycleSound State.reset :=
  ⟨fun hrunning => (nomatch hrunning), fun _ => State.reset_record⟩

theorem State.reset_reservedUnused : ReservedUnused State.reset := by
  refine ⟨fun m _ r hr => ?record, fun ag hag d hd => ?todo⟩
  case record => exact nomatch (State.reset_record m).symm.trans hr
  case todo => exact nomatch (State.reset_call hag).symm.trans hd

/-- Settles O55: one lemma for each invariant; the window is empty at reset. -/
theorem resetMeetsInvariants : Obligations.ResetMeetsInvariants := by
  unfold Obligations.ResetMeetsInvariants
  exact ⟨State.reset_window_wf, State.reset_onlyIssuedCommands, State.reset_lifecycleSound, State.reset_reservedUnused⟩

end Sys2Proof.Machine
end

section
/-! SUPPORT. Engine initialisation: every record created, then the enabled masters programmed one after the other (rules
R131, R300, R301). -/

namespace Sys2Proof.Machine

variable {s : State} {m : MasterIx}

/-- A master after `init`: the four writes more. -/
def programmedUnit (c : Config.Params) (u : MasterUnit) : MasterUnit := { u with history := u.history ++ reinitWrites c }

theorem programDivider_unit (c : Config.Params) (m : MasterIx) (p : Port) :
    (programDivider c m c.div100k p).unit = programmedUnit c p.unit := by
  simp [programDivider, writeReg, programmedUnit, reinitWrites]

theorem initMaster_unit (s : State) (j m : MasterIx) :
    (initMaster s j).unit m = if m = j then programmedUnit s.cfg (s.unit m) else s.unit m := by
  rw [initMaster, State.withPort_unit]
  split
  · next h => subst h; exact programDivider_unit ..
  · rfl

theorem foldl_initMaster_unit : ∀ (l : List MasterIx) (s : State), l.Nodup →
    (l.foldl initMaster s).unit m = if m ∈ l then programmedUnit s.cfg (s.unit m) else s.unit m
  | [], _, _ => by simp
  | j :: l, s, hl => by
    obtain ⟨hj, hl⟩ := List.nodup_cons.1 hl
    have hcfg : (initMaster s j).cfg = s.cfg := rfl
    rw [List.foldl_cons, foldl_initMaster_unit l _ hl, initMaster_unit, hcfg]
    by_cases hm : m = j
    · subst hm; simp [hj]
    · simp [hm]

theorem createRecords_unit (s : State) (m : MasterIx) :
    (createRecords s).unit m = { s.unit m with record := recordFor s.cfg (some MasterState.fresh) m } :=
  setRecords_unit (some MasterState.fresh) s m

theorem startEngine_unit (s : State) (m : MasterIx) :
    (startEngine s).unit m =
      if m ∈ s.cfg.enabled then programmedUnit s.cfg ((createRecords s).unit m) else (createRecords s).unit m := by
  have hnodup : (enabledAscending s.cfg).Nodup := (enabledAscending_sorted s.cfg).imp ne_of_lt
  have hmem : m ∈ enabledAscending s.cfg ↔ m ∈ s.cfg.enabled := mem_enabledAscending.trans masterEnabled_iff
  rw [startEngine, foldl_initMaster_unit _ _ hnodup]
  simp only [hmem]
  rfl

/-- Programming some masters changes their units and the window only. -/
theorem foldl_initMaster_frame : ∀ (l : List MasterIx) (s : State),
    ∃ us w, l.foldl initMaster s = { s with units := us, window := w }
  | [], s => ⟨s.units, s.window, rfl⟩
  | j :: l, s => by
    obtain ⟨us, w, h⟩ := foldl_initMaster_frame l (initMaster s j)
    exact ⟨us, w, h⟩

theorem startEngine_frame (s : State) :
    ∃ us w, startEngine s = { s with units := us, window := w, phase := .running } := by
  obtain ⟨us, w, h⟩ := foldl_initMaster_frame (enabledAscending s.cfg) (createRecords s)
  exact ⟨us, w, h⟩

/-- Settles O13: the records are made first, then each enabled master is programmed once, in order. -/
theorem engineInitCompletes : Obligations.EngineInitCompletes := by
  unfold Obligations.EngineInitCompletes
  intro s hpowerOn halone hnone hok
  have hnext : exec .engineInit s = .next ((startEngine s).returned .unit) := by
    refine (execEngineInit_of_powerOn hpowerOn).trans ?_
    rw [halone, hnone, hok]
    rfl
  obtain ⟨us, w, hframe⟩ := startEngine_frame s
  refine ⟨_, hnext, fun m => ?record, fun m hm => ?programmed, fun m hm => ?spared, fun m => ?kept, ?agents, ?frame⟩
  case record =>
    rw [State.returned_unit, startEngine_unit, createRecords_unit]
    split <;> rfl
  case programmed => rw [State.returned_unit, startEngine_unit, if_pos hm, createRecords_unit]; rfl
  case spared => rw [State.returned_unit, startEngine_unit, if_neg hm, createRecords_unit]
  case kept =>
    rw [State.returned_unit, startEngine_unit, createRecords_unit]
    split <;> exact ⟨rfl, rfl⟩
  case agents => rw [GaveBack, State.returned_agents, hframe]
  case frame => rw [hframe]; exact ⟨rfl, rfl, rfl, rfl, rfl, rfl, rfl⟩

end Sys2Proof.Machine
end
